-- ==== Sys2Proof/Word.lean ====
section
/-! DEFINITION. The word types of the block (00_scope R5): channel bytes, 32-bit values, 48-bit command words. -/

namespace Sys2Proof

/-- One channel byte (00_scope R5, `BYTE` = 8). -/
abbrev Byte := BitVec 8

/-- A value of the datapath (00_scope R5, `W` = 32). -/
abbrev Word := BitVec 32

/-- A command word `cw` of the host (30_encoding R90): 48 bits. -/
abbrev CmdWord := BitVec 48

end Sys2Proof
end

