-- ==== Sys2Proof/Syntax.lean ====
section
/-! DEFINITION. The commands of the block: one constructor per row of 30_encoding R92, carrying the operands the row lists and
nothing else (an unused operand field has no effect, R91). -/

namespace Sys2Proof

/-- The 21 commands (30_encoding R92), in the table's order. -/
inductive Instr where
  /-- 0x00 `SYS.RESET` (R140) -/
  | sysReset
  /-- 0x10 `BR.INIT` (R141) -/
  | brInit
  /-- 0x11 `BR.READ n` (R142): `n` = cw[15:8] -/
  | brRead (n : BitVec 8)
  /-- 0x12 `BR.ALIGN` (R143) -/
  | brAlign
  /-- 0x20 `BW.INIT` (R145) -/
  | bwInit
  /-- 0x21 `BW.WRITE n, value` (R146): `n` = cw[15:8], `value` = cw[47:16] -/
  | bwWrite (n : BitVec 8) (value : Word)
  /-- 0x22 `BW.COMPLETE` (R147) -/
  | bwComplete
  /-- 0x30 `CT.LOAD` (R170) -/
  | ctLoad
  /-- 0x40 `RL.BEGIN` (R191) -/
  | rlBegin
  /-- 0x41 `RL.PAIR` (R192) -/
  | rlPair
  /-- 0x42 `RL.END` (R193) -/
  | rlEnd
  /-- 0x4F `RL.DECODE` (R194) -/
  | rlDecode
  /-- 0x50 `HF.BEGIN` (R222) -/
  | hfBegin
  /-- 0x51 `HF.BIT b` (R223): `b` = arg[0] = cw[16] -/
  | hfBit (b : Bool)
  /-- 0x52 `HF.END` (R224) -/
  | hfEnd
  /-- 0x5F `HF.DECODE` (R225) -/
  | hfDecode
  /-- 0x60 `LZ.BEGIN` (R261) -/
  | lzBegin
  /-- 0x61 `LZ.PUT code` (R263): `code` = cw[47:16] -/
  | lzPut (code : Word)
  /-- 0x62 `LZ.END` (R264) -/
  | lzEnd
  /-- 0x6E `LZ.DECODEP` (R266) -/
  | lzDecodeP
  /-- 0x6F `LZ.DECODEB` (R265) -/
  | lzDecodeB
deriving DecidableEq, Repr

end Sys2Proof
end

