-- ==== Sys2Proof/WellFormed.lean ====
section
/-! DEFINITION. Which commands are legal as command words (30_encoding R91, R93): a bit count is at most 32. Every other field takes
all its values. Call order is a matter of state, not of encoding (R93), and is checked by the machine. -/

namespace Sys2Proof

/-- Whether the operands of a command are legal (30_encoding R91, R93). -/
def Instr.legal : Instr → Bool
  | .brRead n => n.toNat ≤ 32
  | .bwWrite n _ => n.toNat ≤ 32
  | .sysReset | .brInit | .brAlign | .bwInit | .bwComplete | .ctLoad | .rlBegin | .rlPair | .rlEnd | .rlDecode => true
  | .hfBegin | .hfBit _ | .hfEnd | .hfDecode | .lzBegin | .lzPut _ | .lzEnd | .lzDecodeP | .lzDecodeB => true

/-- A well-formed command: one whose command word is legal. -/
abbrev Instr.WellFormed (i : Instr) : Prop := i.legal = true

end Sys2Proof
end

