-- ==== Sys2Proof/Decode.lean ====
section
/-! DEFINITION. The decoder of the 48-bit command word (30_encoding R90 to R93), total on every word and rejecting by name, and the
encoder (R95: unused fields 0). -/

namespace Sys2Proof

/-- Why a command word is illegal (30_encoding R93). -/
inductive DecodeError where
  /-- a `cmd` byte that is none of the 21 of R92 -/
  | undefinedCommand (cmd : BitVec 8)
  /-- `BR.READ` or `BW.WRITE` with `n` above 32 -/
  | illegalCount (n : BitVec 8)
deriving DecidableEq, Repr

/-- `cw[7:0]` (30_encoding R91). -/
def cmdField (cw : CmdWord) : BitVec 8 := cw.extractLsb' 0 8

/-- `cw[15:8]` (30_encoding R91). -/
def nField (cw : CmdWord) : BitVec 8 := cw.extractLsb' 8 8

/-- `cw[47:16]` (30_encoding R91). -/
def argField (cw : CmdWord) : Word := cw.extractLsb' 16 32

/-- The command a command word stands for, before its bit count is looked at: the table of 30_encoding R92. -/
def decodeRow (cw : CmdWord) : Except DecodeError Instr :=
  match cmdField cw with
  | 0x00#8 => .ok .sysReset
  | 0x10#8 => .ok .brInit
  | 0x11#8 => .ok (.brRead (nField cw))
  | 0x12#8 => .ok .brAlign
  | 0x20#8 => .ok .bwInit
  | 0x21#8 => .ok (.bwWrite (nField cw) (argField cw))
  | 0x22#8 => .ok .bwComplete
  | 0x30#8 => .ok .ctLoad
  | 0x40#8 => .ok .rlBegin
  | 0x41#8 => .ok .rlPair
  | 0x42#8 => .ok .rlEnd
  | 0x4F#8 => .ok .rlDecode
  | 0x50#8 => .ok .hfBegin
  | 0x51#8 => .ok (.hfBit ((argField cw).getLsbD 0))
  | 0x52#8 => .ok .hfEnd
  | 0x5F#8 => .ok .hfDecode
  | 0x60#8 => .ok .lzBegin
  | 0x61#8 => .ok (.lzPut (argField cw))
  | 0x62#8 => .ok .lzEnd
  | 0x6E#8 => .ok .lzDecodeP
  | 0x6F#8 => .ok .lzDecodeB
  | c => .error (.undefinedCommand c)

/-- The decoder: the row of R92, and an illegal bit count rejected by name (30_encoding R93). -/
def decode (cw : CmdWord) : Except DecodeError Instr :=
  match decodeRow cw with
  | .ok i => if i.legal then .ok i else .error (.illegalCount (nField cw))
  | .error e => .error e

/-- A command word from its fields (30_encoding R95): `cmd | n << 8 | arg << 16`. -/
def makeWord (cmd n : BitVec 8) (arg : Word) : CmdWord := arg ++ n ++ cmd

/-- The encoder (30_encoding R92, R95): unused fields are 0. -/
def encode : Instr → CmdWord
  | .sysReset => makeWord 0x00 0 0
  | .brInit => makeWord 0x10 0 0
  | .brRead n => makeWord 0x11 n 0
  | .brAlign => makeWord 0x12 0 0
  | .bwInit => makeWord 0x20 0 0
  | .bwWrite n v => makeWord 0x21 n v
  | .bwComplete => makeWord 0x22 0 0
  | .ctLoad => makeWord 0x30 0 0
  | .rlBegin => makeWord 0x40 0 0
  | .rlPair => makeWord 0x41 0 0
  | .rlEnd => makeWord 0x42 0 0
  | .rlDecode => makeWord 0x4F 0 0
  | .hfBegin => makeWord 0x50 0 0
  | .hfBit b => makeWord 0x51 0 (BitVec.ofNat 32 b.toNat)
  | .hfEnd => makeWord 0x52 0 0
  | .hfDecode => makeWord 0x5F 0 0
  | .lzBegin => makeWord 0x60 0 0
  | .lzPut c => makeWord 0x61 0 c
  | .lzEnd => makeWord 0x62 0 0
  | .lzDecodeP => makeWord 0x6E 0 0
  | .lzDecodeB => makeWord 0x6F 0 0

/-- The bits of an opcode-table row as a command word: bit k of `w` is `cw[k]`, and the bits above `nbits` are 0. -/
def tableWord (nbits w : Nat) : CmdWord := BitVec.ofNat 48 (w % 2 ^ nbits)

/-- What the decoder reads from an opcode-table row's bits. -/
def decodeTableWord (nbits w : Nat) : Option Instr :=
  match decode (tableWord nbits w) with
  | .ok i => some i
  | .error _ => none

end Sys2Proof
end

