-- ==== Sys2Proof/Machine/Units.lean ====
section
/-! DEFINITION. The registers of the block's units, one record a unit (10_state R20 to R30), and what a command returns
(10_state R29, 60_exceptions R301). Plain data, with no operation. -/

namespace Sys2Proof.Machine

/-- The phase of a decoder unit (10_state R30). The encoding 3 is never held, so it has no constructor (U8). -/
inductive Phase where
  | idle
  | active
  | failed
deriving DecidableEq, Repr, Inhabited

/-- The bit reader (10_state R21). `off` = 8 means that the holder is exhausted. `pulled` is the count of 10_state R22: the
bytes taken from the input channel since the last `BR.INIT` or reset. -/
structure BitReader where
  holder : Byte
  off : Fin 9
  pulled : Nat
deriving DecidableEq, Repr, Inhabited

/-- The bit writer (10_state R23). `off` = 8 exists only inside a command. -/
structure BitWriter where
  holder : Byte
  off : Fin 9
deriving DecidableEq, Repr, Inhabited

/-- One entry of the Code Table (10_state R24): `length` = 0 means an absent entry. -/
structure CodeLength where
  code : Word
  length : Fin 33
deriving DecidableEq, Repr, Inhabited

/-- The Code Table, indexed by byte value (10_state R24, `NSYM` = 256). -/
abbrev CodeTable := Vector CodeLength 256

/-- One node of the trie arena (10_state R26). `none` is `NIL`. `sym` means something only when `leaf` holds. -/
structure Node where
  left : Option Nat
  right : Option Nat
  leaf : Bool
  sym : Byte
deriving DecidableEq, Repr, Inhabited

/-- The RLE unit (10_state R25, R30). -/
structure RleUnit where
  phase : Phase
  minV : Byte
  maxV : Byte
  minR : Byte
  maxR : Byte
  vbits : Fin 9
  rbits : Fin 9
  left : Word
deriving DecidableEq, Repr, Inhabited

/-- The Huffman unit (10_state R26, R30). `nodes` holds the nodes in use, so `hf_nnodes` is its length; the root is node 0. -/
structure HuffUnit where
  phase : Phase
  nodes : List Node
  cur : Nat
  left : Word
deriving DecidableEq, Repr, Inhabited

/-- The LZW unit (10_state R27, R30). `dict` holds the entries 0 to `lz_size` - 1, so `lz_size` is its length. -/
structure LzwUnit where
  phase : Phase
  dict : List (List Byte)
  prev : List Byte
  min : Word
  width : Byte
  left : Word
deriving DecidableEq, Repr, Inhabited

/-- The failure statuses of 60_exceptions R301 (codes 2 to 10, and 15). -/
inductive Failure where
  | ioRead
  | ioWrite
  | corruptTable
  | corruptNoData
  | corruptMidCode
  | corruptBitCount
  | corruptCode
  | corruptRange
  | limit
  | fatal
deriving DecidableEq, Repr, Inhabited

/-- A status `res` (60_exceptions R301). The codes 11 to 14 are never returned, so they have no constructor (U8). -/
inductive Status where
  | ok
  | more
  | fail (f : Failure)
deriving DecidableEq, Repr, Inhabited

/-- What a command returns to the host (30_encoding R90): `res` and `val`. -/
structure Result where
  res : Status
  val : Word
deriving DecidableEq, Repr, Inhabited

end Sys2Proof.Machine
end

