-- ==== Sys2Proof/Config.lean ====
section
/-! DEFINITION. What an implementation fixes (the fixed and the open parameters of 00_scope R5, R6) and the free values: constants
with no body, for what the spec calls unspecified (93_implementation_defined U3, U5, U6). -/

namespace Sys2Proof.Config

/-- `SEED` (00_scope R5): the LZW entries present after begin. -/
def seedSize : Nat := 256

/-- `LEN_MAX` (00_scope R6): the largest Huffman code length. -/
def lenMax : Nat := 32

/-- `TRIE_NODES` (00_scope R6): the capacity of the trie arena, 1 + `NSYM` × `LEN_MAX`. -/
def trieNodes : Nat := 8193

/-- The open parameters of 00_scope R6. DESIGN CHOICE [6]: they stand in the state, where no command changes them, because the
model's step has no other argument. `seqMax` = `none` is the unbounded default. -/
structure Params where
  dictMax : Nat
  seqMax : Option Nat
deriving DecidableEq, Repr, Inhabited

/-- The defaults of 00_scope R6: `DICT_MAX` = 2^32, `SEQ_MAX` unbounded. -/
def Params.default : Params := ⟨4294967296, none⟩

/-- The bounds of 00_scope R6 and 93_implementation_defined Part B: `SEED < DICT_MAX ≤ 2^32`, and `SEQ_MAX` at least 1. -/
abbrev Params.wf (p : Params) : Prop :=
  seedSize < p.dictMax ∧ p.dictMax ≤ 4294967296 ∧ ∀ m ∈ p.seqMax, 1 ≤ m

/-- Free value: `val` of a failed command (60_exceptions R300, U3), at the n-th draw. -/
opaque freeVal : Nat → Word

/-- Free value: the contents of `ct[]` after a failed `CT.LOAD` (41_code_table R171, U5). -/
opaque freeTable : Nat → Machine.CodeTable

/-- Free value: the `rl_*` registers after `RL.END` or a failed `RL.BEGIN` (42_rle R191, U6); its phase and widths are not used. -/
opaque freeRle : Nat → Machine.RleUnit

/-- Free value: `rl_vbits` (`true`) or `rl_rbits` there, less 1: each is an integer in 1..8 (10_state R25). -/
opaque freeWidth : Nat → Bool → Fin 8

/-- Free values: what `node[k]` holds after `HF.END` or a failed `HF.BEGIN` (43_huffman R222, R224, U6): its two children, whether it
is a leaf, and its symbol, at the n-th draw. -/
opaque freeChild : Nat → Nat → Bool → Option (Fin trieNodes)

@[inherit_doc freeChild] opaque freeLeaf : Nat → Nat → Bool

@[inherit_doc freeChild] opaque freeSym : Nat → Nat → Byte

/-- Free value: `lz_size` after `LZ.END` (44_lzw R264, U6), reduced to its range 256..`DICT_MAX` (10_state R27) where it is used. -/
opaque freeSize : Nat → Nat

/-- Free value: `dict[c]` after `LZ.END` (44_lzw R264, U6), a sequence that is not empty (10_state R27): its first byte and the rest. -/
opaque freeEntry : Nat → Nat → Byte × List Byte

/-- Free value: `lz_prev` after `LZ.END` (44_lzw R264, U6). -/
opaque freeSeq : Nat → List Byte

end Sys2Proof.Config
end

