-- ==== Sys2Proof/Machine/State.lean ====
section
/-! DEFINITION. The state of the block and of its surroundings (10_state R20 to R33), the machine right after reset (10_state R32),
and the reasons a step can stop. -/

namespace Sys2Proof.Machine

/-- One answer of the input channel to a read of one byte (20_memory R61). `none` is end of input or a failed read, which the block
cannot tell apart. `never` is the channel that does not answer (70_reset R358, U15). -/
inductive ReadAnswer where
  | byte (b : Byte)
  | none
  | never
deriving DecidableEq, Repr, Inhabited

/-- One answer of the output channel to a write of one byte (20_memory R62). `never` as for `ReadAnswer`. -/
inductive WriteAnswer where
  | ok
  | fail
  | never
deriving DecidableEq, Repr, Inhabited

/-- Who accesses a channel: the block, or the host between commands (60_exceptions R319, 70_reset R355). -/
inductive Agent where
  | block
  | host
deriving DecidableEq, Repr, Inhabited

/-- One channel event: a read with its answer, a write of a byte with whether it was accepted, or a channel attached by the host. -/
inductive ChanEvent where
  | read (who : Agent) (answer : Option Byte)
  | write (who : Agent) (b : Byte) (accepted : Bool)
  | attachedInput
  | attachedOutput
deriving DecidableEq, Repr, Inhabited

/-- What the host can do to the block and its channels, one thing at a time (60_exceptions R319, 70_reset R350, R352, R355, R357). -/
inductive HostAction where
  /-- issue one command word (30_encoding R90) -/
  | issue (cw : CmdWord)
  /-- assert the reset input (70_reset R350) -/
  | resetInput
  /-- read one byte of the input channel itself (70_reset R355(b)) -/
  | readByte
  /-- write one byte to the output channel itself (70_reset R355(a)) -/
  | writeByte (b : Byte)
  /-- attach an input channel, given by the answers it will give (70_reset R352) -/
  | attachInput (answers : List ReadAnswer)
  /-- attach an output channel, given by the answers it will give (70_reset R352) -/
  | attachOutput (answers : List WriteAnswer)
deriving DecidableEq, Repr, Inhabited

/-- The state: first what surrounds the block (the host's actions to come, the channels' answers to come, the channel events so
far, the last result, the open parameters), then the block's own state of 10_state R20, then the model's count of free values. -/
structure State where
  /-- the host's actions to come, the next one first (10_state R33); empty: the block waits (70_reset R350) -/
  host : List HostAction
  /-- the input channel's answers to come (20_memory R61); used up: it answers `None` -/
  input : List ReadAnswer
  /-- the output channel's answers to come (20_memory R62); used up: it accepts -/
  sink : List WriteAnswer
  /-- the channel events so far, the newest first (20_memory R69) -/
  trace : List ChanEvent
  /-- what the last command returned (10_state R29) -/
  result : Option Result
  /-- the open parameters (00_scope R6) -/
  params : Config.Params
  rd : BitReader
  wr : BitWriter
  ct : CodeTable
  ctValid : Bool
  rl : RleUnit
  hf : HuffUnit
  lz : LzwUnit
  /-- the sticky contract-violation flag (10_state R28) -/
  fatal : Bool
  /-- the model's own: how many free values have been drawn (assumption 9) -/
  draws : Nat
deriving DecidableEq, Repr

/-- Why the machine stops. Only a channel that never answers does this (70_reset R358, U15: the command does not return). -/
inductive Fault where
  /-- Raised by every access to the input channel whose answer is `never`: the command hangs. Safe: the hardware hangs too. -/
  | inputNeverAnswers
  /-- Raised by every access to the output channel whose answer is `never`: the command hangs. Safe: the hardware hangs too. -/
  | outputNeverAnswers
deriving DecidableEq, Repr

/-- Why a step has no meaning. -/
inductive Refusal where
  /-- An instruction whose meaning is not written; no arm of `exec` answers it now. Safe: the machine stops. -/
  | notModelled (mnemonic : String)
deriving DecidableEq, Repr

/-- The empty Code Table: every entry absent, "default length 0" (10_state R24). -/
def emptyTable : CodeTable := Vector.replicate 256 ⟨0, 0⟩

/-- The 256 one-byte sequences, in the order of their codes 0 to 255 (44_lzw R261). -/
def seedDict : List (List Byte) := (List.range Config.seedSize).map fun c => [BitVec.ofNat 8 c]

/-- The machine right after reset (10_state R32). The spec states `off` 8 of the reader, the empty writer, `ct_valid` 0, the three
phases `IDLE` and `fatal` 0; every value R32 calls unspecified is named by assumption 7 (DESIGN CHOICE). No command is waiting, the
input channel has nothing, the output channel accepts. -/
def State.reset : State where
  host := []
  input := []
  sink := []
  trace := []
  result := none
  params := Config.Params.default
  rd := ⟨0, 8, 0⟩
  wr := ⟨0, 0⟩
  ct := emptyTable
  ctValid := false
  rl := ⟨.idle, 0, 0, 0, 0, 1, 1, 0⟩
  hf := ⟨.idle, [], 0, 0⟩
  lz := ⟨.idle, seedDict, [], 0, 0, 0⟩
  fatal := false
  draws := 0

end Sys2Proof.Machine
end

