-- ==== Sys2Proof/Machine/Ops.lean ====
section
/-! DEFINITION. The named operations every command is written with: how a command's pseudocode ends (60_exceptions R300), contract
violations and the common preamble (R302, R303), the two channels (20_memory R61, R62), reset (70_reset R350), and the registers
the spec leaves unspecified. -/

namespace Sys2Proof.Machine

/-! ## How a piece of pseudocode ends -/

/-- The end of a piece of pseudocode: it ran to its end with a value, it raised a failure status (60_exceptions R300: what was
written stays written), or a channel never answered (70_reset R358). -/
inductive Run (α : Type) where
  | done (a : α) (s : State)
  | raised (f : Failure) (s : State)
  | hung (x : Fault)
deriving Repr

/-- Go on with `k` where `r` ran to its end; a `raise` ends the whole at once (60_exceptions R300). -/
def Run.andThen {α β : Type} (r : Run α) (k : α → State → Run β) : Run β :=
  match r with
  | .done a s => k a s
  | .raised f s => .raised f s
  | .hung x => .hung x

/-- "on any raise below": `h` changes the state a `raise` leaves; the status stays. -/
def Run.onRaise {α : Type} (r : Run α) (h : State → State) : Run α :=
  match r with
  | .done a s => .done a s
  | .raised f s => .raised f (h s)
  | .hung x => .hung x

/-- A contract violation (60_exceptions R303): `fatal <- 1`, nothing else changes, status `FATAL`. -/
def fatalViolation {α : Type} (s : State) : Run α := .raised .fatal { s with fatal := true }

/-! ## The channels -/

/-- `ChanRead()` (20_memory R61), by the block or by the host: each answer is used once, and a used-up channel answers `None`. -/
def chanRead (who : Agent) (s : State) : Run (Option Byte) :=
  match s.input with
  | [] => .done none { s with trace := .read who none :: s.trace }
  | .none :: rest => .done none { s with input := rest, trace := .read who none :: s.trace }
  | .byte b :: rest => .done (some b) { s with input := rest, trace := .read who (some b) :: s.trace }
  | .never :: _ => .hung .inputNeverAnswers

/-- `ChanWrite(b)` (20_memory R62), by the block or by the host: `true` is `ok`; a used-up list of answers accepts. -/
def chanWrite (who : Agent) (b : Byte) (s : State) : Run Bool :=
  match s.sink with
  | [] => .done true { s with trace := .write who b true :: s.trace }
  | .ok :: rest => .done true { s with sink := rest, trace := .write who b true :: s.trace }
  | .fail :: rest => .done false { s with sink := rest, trace := .write who b false :: s.trace }
  | .never :: _ => .hung .outputNeverAnswers

/-- The bytes a trace says the output channel has accepted since it was attached, the newest first. -/
def acceptedBytes : List ChanEvent → List Byte
  | [] => []
  | .write _ b true :: t => b :: acceptedBytes t
  | .write _ _ false :: t => acceptedBytes t
  | .read _ _ :: t => acceptedBytes t
  | .attachedInput :: t => acceptedBytes t
  | .attachedOutput :: _ => []

/-- The content of the output channel, in order (20_memory R62). -/
def State.output (s : State) : List Byte := (acceptedBytes s.trace).reverse

/-! ## What a command returns -/

/-- Return `(res, val)` to the host (10_state R29). -/
def State.answer (s : State) (r : Result) : State := { s with result := some r }

/-- Return a failure status; `val` is then any value (60_exceptions R300, U3): a free value. -/
def State.answerFailure (s : State) (f : Failure) : State :=
  { s with result := some ⟨.fail f, Config.freeVal s.draws⟩, draws := s.draws + 1 }

/-- The outcome of a finished command. -/
def Run.outcome (r : Run Result) : Host.Outcome State Fault Refusal :=
  match r with
  | .done a s => .next (s.answer a)
  | .raised f s => .next (s.answerFailure f)
  | .hung x => .fault x

/-- Every command but `SYS.RESET` (60_exceptions R302): while `fatal` is set it returns `FATAL` and changes no state; else its
pseudocode runs. -/
def command (body : State → Run Result) (s : State) : Host.Outcome State Fault Refusal :=
  if s.fatal then .next (s.answerFailure .fatal) else (body s).outcome

/-- A command word the decoder rejects (60_exceptions R302, 30_encoding R93): a contract violation. -/
def illegalCommand (s : State) : Host.Outcome State Fault Refusal := command fatalViolation s

/-- A command that returns `OK` with `val` as its pseudocode says. -/
def okWith (r : Run Word) : Run Result := r.andThen fun v s => .done ⟨.ok, v⟩ s

/-- A command that returns `OK` with `val` = 0 (40_bitstream, template). -/
def okZero (r : Run Unit) : Run Result := r.andThen fun _ s => .done ⟨.ok, 0⟩ s

/-! ## Reset -/

/-- The effect of reset on the block (70_reset R350, R351): every state variable takes its reset value; the channels, the host's
actions, the parameters, the last result and the model's draw count are no state variables of the block. -/
def resetBlock (s : State) : State :=
  { s with
    rd := State.reset.rd, wr := State.reset.wr, ct := State.reset.ct, ctValid := State.reset.ctValid,
    rl := State.reset.rl, hf := State.reset.hf, lz := State.reset.lz, fatal := State.reset.fatal }

/-! ## Registers that become unspecified (93_implementation_defined U5, U6): free values -/

/-- The contents of `ct[]` after a failed `CT.LOAD` (41_code_table R171). -/
def forgetTable (s : State) : State := { s with ct := Config.freeTable s.draws, draws := s.draws + 1 }

/-- An `IDLE` RLE unit whose other registers hold any values of their ranges (10_state R25, U6). -/
def freeRle (draw : Nat) : RleUnit :=
  { Config.freeRle draw with
    phase := .idle, vbits := (Config.freeWidth draw true).succ, rbits := (Config.freeWidth draw false).succ }

/-- The RLE unit after `RL.END` or a failed `RL.BEGIN` (42_rle R191, U6). -/
def forgetRle (s : State) : State := { s with rl := freeRle s.draws, draws := s.draws + 1 }

/-- `count` nodes with any contents (93_implementation_defined U6); a child index is one the arena can hold. -/
def freeTrie (draw count : Nat) : List Node :=
  (List.range count).map fun k =>
    { left := (Config.freeChild draw k true).map Fin.val
      right := (Config.freeChild draw k false).map Fin.val
      leaf := Config.freeLeaf draw k
      sym := Config.freeSym draw k }

/-- `node[]` after `HF.END` or a failed `HF.BEGIN` (43_huffman R222, R224, U6): the contents of every node; `hf_nnodes` stays as it
was written (60_exceptions R300). -/
def forgetTrie (s : State) : State :=
  { s with hf := { s.hf with nodes := freeTrie s.draws s.hf.nodes.length }, draws := s.draws + 1 }

/-- The dictionary after `LZ.END` (44_lzw R264, U6): any number of entries in 256..`DICT_MAX`, none of them empty (10_state R27). -/
def freeDict (p : Config.Params) (draw : Nat) : List (List Byte) :=
  (List.range (Config.seedSize + Config.freeSize draw % (p.dictMax - Config.seedSize + 1))).map fun c =>
    (Config.freeEntry draw c).1 :: (Config.freeEntry draw c).2

/-- `dict[]`, `lz_size` and `lz_prev` after `LZ.END` (44_lzw R264, U6). -/
def forgetDict (s : State) : State :=
  { s with
    lz := { s.lz with dict := freeDict s.params s.draws, prev := Config.freeSeq s.draws },
    draws := s.draws + 1 }

end Sys2Proof.Machine
end

