-- ==== Sys2Proof/Machine/Flags.lean ====
section
/-! DEFINITION. The block keeps no condition codes (10_state R29): what plays their part is the status of a command. This file gives
the statuses their 4-bit codes and their classes (60_exceptions R301). -/

namespace Sys2Proof.Machine

/-- The code of a failure status (60_exceptions R301). -/
def Failure.code : Failure → BitVec 4
  | .ioRead => 2
  | .ioWrite => 3
  | .corruptTable => 4
  | .corruptNoData => 5
  | .corruptMidCode => 6
  | .corruptBitCount => 7
  | .corruptCode => 8
  | .corruptRange => 9
  | .limit => 10
  | .fatal => 15

/-- The code `res` of a status (60_exceptions R301). -/
def Status.code : Status → BitVec 4
  | .ok => 0
  | .more => 1
  | .fail f => f.code

/-- The three failure classes of 60_exceptions R301 to R306, and the limitation of R306. -/
inductive FailureClass where
  | io
  | corruptStream
  | limitation
  | contract
deriving DecidableEq, Repr

/-- The class of a failure status (60_exceptions R301, R304 to R306). -/
def Failure.cls : Failure → FailureClass
  | .ioRead => .io
  | .ioWrite => .io
  | .corruptTable => .corruptStream
  | .corruptNoData => .corruptStream
  | .corruptMidCode => .corruptStream
  | .corruptBitCount => .corruptStream
  | .corruptCode => .corruptStream
  | .corruptRange => .corruptStream
  | .limit => .limitation
  | .fatal => .contract

end Sys2Proof.Machine
end

