-- ==== Sys2Proof/Machine/Operands.lean ====
section
/-! DEFINITION. The operand forms of the block: bit fields of a stream. `bitwidth` (00_scope R8), the three internal procedures
`ReadBits`, `TryFill`, `Emit` (40_bitstream R144), and the bit writer's loop (40_bitstream R146). -/

namespace Sys2Proof.Machine

/-- `bitwidth(n)` (00_scope R8; the closed form is G1 of 93_implementation_defined): 1 for 0, else the k with 2^(k-1) ≤ n < 2^k. -/
def bitwidth (n : Nat) : Nat := if n = 0 then 1 else Nat.log2 n + 1

/-- `TryFill()` (40_bitstream R144): pull one byte into the holder, and say whether the channel gave one. -/
def tryFill (s : State) : Run Bool :=
  (chanRead .block s).andThen fun a s =>
    match a with
    | none => .done false s
    | some b => .done true { s with rd := ⟨b, 0, s.rd.pulled + 1⟩ }

/-- Deliver the next bit of the holder: `rd_holder[rd_off]`, then `rd_off + 1` (40_bitstream R144). -/
def takeBit (s : State) : Run Bool :=
  .done (s.rd.holder.getLsbD s.rd.off) { s with rd := { s.rd with off := s.rd.off + 1 } }

/-- One turn of the loop of `ReadBits`: a byte is pulled only when the holder is exhausted (20_memory R64). -/
def readBit (s : State) : Run Bool :=
  if s.rd.off = 8 then
    (tryFill s).andThen fun filled s => if filled then takeBit s else .raised .ioRead s
  else takeBit s

/-- `ReadBits(n)` (40_bitstream R144): the first bit read is bit 0 of the value, which is below 2^n. -/
def readBits : Nat → State → Run Nat
  | 0, s => .done 0 s
  | n + 1, s =>
    (readBit s).andThen fun b s =>
      (readBits n s).andThen fun v s => .done (b.toNat + 2 * v) s

/-- `Emit(b)` (40_bitstream R144): one decoded byte to the output channel, past the bit writer. -/
def emit (b : Byte) (s : State) : Run Unit :=
  (chanWrite .block b s).andThen fun ok s => if ok then .done () s else .raised .ioWrite s

/-- `Emit` for each byte of a sequence in order. -/
def emitAll : List Byte → State → Run Unit
  | [], s => .done () s
  | b :: bs, s => (emit b s).andThen fun _ s => emitAll bs s

/-- Bit `i` of `h` set to `b`: the assignment `wr_holder[wr_off] <- value[i]` (40_bitstream R146). -/
def setBit (h : Byte) (i : Nat) (b : Bool) : Byte :=
  if b then h ||| (1#8 <<< i) else h &&& ~~~(1#8 <<< i)

/-- Hand the holder to the output channel and start a new one (40_bitstream R146, R147): the holder is empty afterwards whether
or not the channel takes the byte (D22). -/
def flushHolder (s : State) : Run Unit :=
  (chanWrite .block s.wr.holder { s with wr := ⟨0, 0⟩ }).andThen fun ok s =>
    if ok then .done () s else .raised .ioWrite s

/-- One turn of the loop of `BW.WRITE` (40_bitstream R146). -/
def writeBit (b : Bool) (s : State) : Run Unit :=
  let s := { s with wr := ⟨setBit s.wr.holder s.wr.off b, s.wr.off + 1⟩ }
  if s.wr.off = 8 then flushHolder s else .done () s

/-- The loop of `BW.WRITE` (40_bitstream R146): `n` bits of `v`, bit 0 first. -/
def writeBits : Nat → Nat → State → Run Unit
  | 0, _, s => .done () s
  | n + 1, v, s => (writeBit (v.testBit 0) s).andThen fun _ s => writeBits n (v / 2) s

end Sys2Proof.Machine
end

