-- ==== Sys2Proof/Machine/BitStream.lean ====
section
/-! DEFINITION. `SYS.RESET` and the bit stream commands (40_bitstream R140 to R147). -/

namespace Sys2Proof.Machine

/-- `SYS.RESET` (40_bitstream R140, 60_exceptions R302): runs even while `fatal` is set, always `OK`, touches neither channel. -/
def execSysReset (s : State) : Host.Outcome State Fault Refusal :=
  .next ((resetBlock s).answer ⟨.ok, 0⟩)

/-- `rd_off <- 8` and the count `pulled` restarts (40_bitstream R141). -/
def brInit (s : State) : State := { s with rd := { s.rd with off := 8, pulled := 0 } }

/-- `BR.INIT` (40_bitstream R141). -/
def execBrInit (s : State) : Host.Outcome State Fault Refusal :=
  command (fun s => .done ⟨.ok, 0⟩ (brInit s)) s

/-- The pseudocode of `BR.READ n` (40_bitstream R142). -/
def brRead (n : Nat) (s : State) : Run Result :=
  if 32 < n then fatalViolation s
  else (readBits n s).andThen fun v s => .done ⟨.ok, BitVec.ofNat 32 v⟩ s

/-- `BR.READ n` (40_bitstream R142). -/
def execBrRead (n : BitVec 8) (s : State) : Host.Outcome State Fault Refusal :=
  command (brRead n.toNat) s

/-- `BR.ALIGN` (40_bitstream R143): `rd_off <- 8`; the count `pulled` goes on. -/
def execBrAlign (s : State) : Host.Outcome State Fault Refusal :=
  command (fun s => .done ⟨.ok, 0⟩ { s with rd := { s.rd with off := 8 } }) s

/-- `BW.INIT` (40_bitstream R145): pending bits are dropped. -/
def execBwInit (s : State) : Host.Outcome State Fault Refusal :=
  command (fun s => .done ⟨.ok, 0⟩ { s with wr := ⟨0, 0⟩ }) s

/-- The pseudocode of `BW.WRITE n, value` (40_bitstream R146). -/
def bwWrite (n v : Nat) (s : State) : Run Result :=
  if 32 < n then fatalViolation s else okZero (writeBits n v s)

/-- `BW.WRITE n, value` (40_bitstream R146). -/
def execBwWrite (n : BitVec 8) (value : Word) (s : State) : Host.Outcome State Fault Refusal :=
  command (bwWrite n.toNat value.toNat) s

/-- The pseudocode of `BW.COMPLETE` (40_bitstream R147). -/
def bwComplete (s : State) : Run Result :=
  okZero (if 0 < s.wr.off then flushHolder s else .done () s)

/-- `BW.COMPLETE` (40_bitstream R147). -/
def execBwComplete (s : State) : Host.Outcome State Fault Refusal :=
  command bwComplete s

end Sys2Proof.Machine
end

