-- ==== Sys2Proof/Machine/CodeTable.lean ====
section
/-! DEFINITION. The code table loader `CT.LOAD` (41_code_table R170 to R172; wire format 30_encoding R101, R102). -/

namespace Sys2Proof.Machine

/-- The seven header fields of a serialised Code Table (30_encoding R101), as naturals. -/
structure TableHeader where
  count : Nat
  valueBits : Nat
  codeBits : Nat
  lengthBits : Nat
  minValue : Nat
  minCode : Nat
  minLength : Nat
deriving DecidableEq, Repr

/-- The header's 200 bits, all read before any field is looked at (30_encoding R101, 60_exceptions R308). -/
def readTableHeader (s : State) : Run TableHeader :=
  (readBits 32 s).andThen fun count s =>
  (readBits 32 s).andThen fun valueBits s =>
  (readBits 32 s).andThen fun codeBits s =>
  (readBits 32 s).andThen fun lengthBits s =>
  (readBits 8 s).andThen fun minValue s =>
  (readBits 32 s).andThen fun minCode s =>
  (readBits 32 s).andThen fun minLength s =>
    .done ⟨count, valueBits, codeBits, lengthBits, minValue, minCode, minLength⟩ s

/-- Checks (1) and (2) of 41_code_table R171. -/
def TableHeader.accepted (h : TableHeader) : Bool :=
  h.count ≤ 256 && (h.count == 0 || (h.valueBits ≤ 32 && h.codeBits ≤ 32 && h.lengthBits ≤ 32))

/-- Checks (3), (4) and (5) of 41_code_table R171 on one entry; `floor` is `last + 1`, the least value it may have. -/
def entryAccepted (floor value code length : Nat) : Bool :=
  value ≤ 255 && floor ≤ value && 1 ≤ length && length ≤ Config.lenMax && code < 2 ^ length

/-- `ct[value].code <- code; ct[value].length <- length` (41_code_table R170). -/
def setEntry (value code length : Nat) (s : State) : State :=
  { s with ct := s.ct.setIfInBounds value ⟨BitVec.ofNat 32 code, Fin.ofNat 33 length⟩ }

/-- The loop over the entries (41_code_table R170); sums are taken on naturals (60_exceptions R309). -/
def loadEntries (h : TableHeader) : Nat → Nat → State → Run Unit
  | 0, _, s => .done () s
  | k + 1, floor, s =>
    (readBits h.valueBits s).andThen fun dv s =>
    (readBits h.codeBits s).andThen fun dc s =>
    (readBits h.lengthBits s).andThen fun dl s =>
      let value := h.minValue + dv
      let code := h.minCode + dc
      let length := h.minLength + dl
      if entryAccepted floor value code length then
        loadEntries h k (value + 1) (setEntry value code length s)
      else .raised .corruptTable s

/-- The parse of `CT.LOAD`, from the emptied table on (41_code_table R170). -/
def loadTable (s : State) : Run Nat :=
  (readTableHeader s).andThen fun h s =>
    if h.accepted then (loadEntries h h.count 0 s).andThen fun _ s => .done h.count s
    else .raised .corruptTable s

/-- The pseudocode of `CT.LOAD` (41_code_table R170). A failure leaves `ct_valid` = 0 and `ct[]` unspecified (R171). -/
def ctLoad (s : State) : Run Word :=
  if s.hf.phase ≠ .idle then fatalViolation s
  else
    ((loadTable { s with ct := emptyTable, ctValid := false }).onRaise forgetTable).andThen fun count s =>
      .done (BitVec.ofNat 32 count) { s with ctValid := true }

/-- `CT.LOAD` (41_code_table R170). -/
def execCtLoad (s : State) : Host.Outcome State Fault Refusal :=
  command (fun s => okWith (ctLoad s)) s

end Sys2Proof.Machine
end

