-- ==== Sys2Proof/Machine/Huffman.lean ====
section
/-! DEFINITION. The Huffman bit-sequential decoder (43_huffman R220 to R227; wire format 30_encoding R103). -/

namespace Sys2Proof.Machine

/-- A fresh node: no child, no leaf (43_huffman R222). -/
def freshNode : Node := ⟨none, none, false, 0⟩

/-- `node[k]`; a node at or above `hf_nnodes` holds nothing (10_state R26). -/
def nodeAt (nodes : List Node) (k : Nat) : Node := nodes.getD k freshNode

/-- The child a bit selects (43_huffman R221): 1 is left, 0 is right. -/
def Node.child (n : Node) (b : Bool) : Option Nat := if b then n.left else n.right

/-- `node[c].left <- k` or `node[c].right <- k`, by the bit. -/
def Node.setChild (n : Node) (b : Bool) (k : Nat) : Node :=
  if b then { n with left := some k } else { n with right := some k }

/-- Replay a code's bit path from node `c` (43_huffman R222): `len` bits of `code`, bit 0 first, making nodes on demand. Answers the
node reached and the arena, or, where a shorter code is a prefix of this one, the arena as it stands at the `raise` (60_exceptions
R300: what was written stays written). -/
def replayPath : Nat → Nat → Nat → List Node → Except (List Node) (Nat × List Node)
  | 0, _, c, nodes => .ok (c, nodes)
  | len + 1, code, c, nodes =>
    if (nodeAt nodes c).leaf then .error nodes
    else
      match (nodeAt nodes c).child (code.testBit 0) with
      | some k => replayPath len (code / 2) k nodes
      | none =>
        replayPath len (code / 2) nodes.length
          (nodes.set c ((nodeAt nodes c).setChild (code.testBit 0) nodes.length) ++ [freshNode])

/-- One entry of the table into the arena (43_huffman R222): `error` is `CORRUPT_TABLE`, with the arena at the `raise`. -/
def insertCode (v : Byte) (e : CodeLength) (nodes : List Node) : Except (List Node) (List Node) :=
  if e.length = 0 then .ok nodes
  else
    match replayPath e.length e.code.toNat 0 nodes with
    | .error nodes => .error nodes
    | .ok (c, nodes) =>
      let n := nodeAt nodes c
      if n.leaf || n.left.isSome || n.right.isSome then .error nodes
      else .ok (nodes.set c { n with leaf := true, sym := v })

/-- The entries from byte value `v` on, `k` of them, ascending (43_huffman R222). -/
def insertFrom (ct : CodeTable) : Nat → Nat → List Node → Except (List Node) (List Node)
  | 0, _, nodes => .ok nodes
  | k + 1, v, nodes =>
    match insertCode (BitVec.ofNat 8 v) (ct.getD v ⟨0, 0⟩) nodes with
    | .error nodes => .error nodes
    | .ok nodes => insertFrom ct k (v + 1) nodes

/-- The trie of a Code Table (43_huffman R222): `error` where the table is not prefix-free, with the arena at the `raise`. -/
def buildTrie (ct : CodeTable) : Except (List Node) (List Node) := insertFrom ct 256 0 [freshNode]

/-- The pseudocode of `HF.BEGIN` (43_huffman R222). On `CORRUPT_TABLE` the unit stays `IDLE`; `hf_nnodes` keeps the count written
(60_exceptions R300), and `node[]` is unspecified. -/
def hfBegin (s : State) : Run Unit :=
  if s.hf.phase ≠ .idle ∨ s.ctValid = false then fatalViolation s
  else
    match buildTrie s.ct with
    | .error nodes => .raised .corruptTable (forgetTrie { s with hf := { s.hf with nodes := nodes } })
    | .ok nodes => .done () { s with hf := { s.hf with nodes := nodes, cur := 0, phase := .active } }

/-- `HF.BEGIN` (43_huffman R222). -/
def execHfBegin (s : State) : Host.Outcome State Fault Refusal :=
  command (fun s => okZero (hfBegin s)) s

/-- The pseudocode of `HF.BIT b` (43_huffman R223): `some` byte is `OK` (the source's Success), `none` is `MORE`. -/
def hfBit (b : Bool) (s : State) : Run (Option Byte) :=
  if s.hf.phase ≠ .active then fatalViolation s
  else
    match (nodeAt s.hf.nodes s.hf.cur).child b with
    | none => .raised .corruptNoData { s with hf := { s.hf with cur := 0, phase := .failed } }
    | some k =>
      if (nodeAt s.hf.nodes k).leaf then
        .done (some (nodeAt s.hf.nodes k).sym) { s with hf := { s.hf with cur := 0 } }
      else .done none { s with hf := { s.hf with cur := k } }

/-- What `HF.BIT` returns (43_huffman R223): the byte, zero-extended, with `OK`; or `MORE` with 0. -/
def bitResult : Option Byte → Result
  | some sym => ⟨.ok, sym.setWidth 32⟩
  | none => ⟨.more, 0⟩

/-- `HF.BIT b` (43_huffman R223): the bit is an operand, and neither channel is touched. -/
def execHfBit (b : Bool) (s : State) : Host.Outcome State Fault Refusal :=
  command (fun s => (hfBit b s).andThen fun r s => .done (bitResult r) s) s

/-- `hf_phase <- IDLE`, the trie discarded (43_huffman R224, U6): `node[]` is unspecified, `hf_nnodes` keeps its count. -/
def closeHf (s : State) : State := forgetTrie { s with hf := { s.hf with phase := .idle } }

/-- The pseudocode of `HF.END` (43_huffman R224). -/
def hfEnd (s : State) : Run Unit :=
  if s.hf.phase = .idle then fatalViolation s
  else if s.hf.phase = .active ∧ s.hf.cur ≠ 0 then .raised .corruptMidCode (closeHf s)
  else .done () (closeHf s)

/-- `HF.END` (43_huffman R224). -/
def execHfEnd (s : State) : Host.Outcome State Fault Refusal :=
  command (fun s => okZero (hfEnd s)) s

/-- One turn of the loop of `HF.DECODE` (43_huffman R225): one bit read and walked, a decoded byte emitted at once. -/
def hfTurn (s : State) : Run Unit :=
  (readBits 1 s).andThen fun b s =>
    let s := { s with hf := { s.hf with left := BitVec.ofNat 32 (s.hf.left.toNat - 1) } }
    (hfBit (b.testBit 0) s).andThen fun r s =>
      match r with
      | none => .done () s
      | some sym => emit sym s

/-- The loop `while hf_left > 0` of `HF.DECODE` (43_huffman R225): `hf_left` turns. -/
def hfLoop : Nat → State → Run Unit
  | 0, s => .done () s
  | k + 1, s => if s.hf.left = 0 then .done () s else (hfTurn s).andThen fun _ s => hfLoop k s

/-- The pseudocode of `HF.DECODE` (43_huffman R225). A failure inside the loop passes through `FAILED` and `HF.END`, which then
returns `OK` and leaves the unit `IDLE`. -/
def hfDecode (s : State) : Run Unit :=
  if s.hf.phase ≠ .idle then fatalViolation s
  else
    (ctLoad (brInit s)).andThen fun _ s =>
    (readBits 32 s).andThen fun total s =>
    (hfBegin { s with hf := { s.hf with left := BitVec.ofNat 32 total } }).andThen fun _ s =>
    ((hfLoop s.hf.left.toNat s).onRaise closeHf).andThen fun _ s =>
      hfEnd s

/-- `HF.DECODE` (43_huffman R225). -/
def execHfDecode (s : State) : Host.Outcome State Fault Refusal :=
  command (fun s => okZero (hfDecode s)) s

end Sys2Proof.Machine
end

