-- ==== Sys2Proof/Machine/Lzw.lean ====
section
/-! DEFINITION. The LZW dictionary decoder and code unpacker (44_lzw R260 to R267; wire formats 30_encoding R105, R106). -/

namespace Sys2Proof.Machine

/-- `lz_phase <- p`. -/
def setLzPhase (p : Phase) (s : State) : State := { s with lz := { s.lz with phase := p } }

/-- `lz_size` (10_state R27): the number of entries. -/
def LzwUnit.size (u : LzwUnit) : Nat := u.dict.length

/-- The pseudocode of `LZ.BEGIN` (44_lzw R261). -/
def lzBegin (s : State) : Run Unit :=
  if s.lz.phase ≠ .idle then fatalViolation s
  else .done () { s with lz := { s.lz with dict := seedDict, prev := [], phase := .active } }

/-- `LZ.BEGIN` (44_lzw R261). -/
def execLzBegin (s : State) : Host.Outcome State Fault Refusal :=
  command (fun s => okZero (lzBegin s)) s

/-- Whether a sequence is longer than `SEQ_MAX` (00_scope R6); never, where that is unbounded. -/
def tooLong (seqMax : Option Nat) (seq : List Byte) : Bool :=
  match seqMax with
  | none => false
  | some m => m < seq.length

/-- `DictInsert(N)` (44_lzw R262). -/
def dictInsert (seq : List Byte) (s : State) : Run Unit :=
  if seq ∈ s.lz.dict then .done () s
  else if s.lz.size = s.params.dictMax ∨ tooLong s.params.seqMax seq then .raised .limit s
  else .done () { s with lz := { s.lz with dict := s.lz.dict ++ [seq] } }

/-- The sequence `S` a code stands for and the sequence to insert (44_lzw R263): the known code, the KwK code, or neither.
`S.take 1` is `[S[0]]`, since no sequence is empty (R267(f)). -/
def resolveCode (code : Nat) (u : LzwUnit) : Option (List Byte × List Byte) :=
  match u.dict[code]? with
  | some seq => some (seq, u.prev ++ seq.take 1)
  | none =>
    if code = u.size ∧ u.prev ≠ [] then some (u.prev ++ u.prev.take 1, u.prev ++ u.prev.take 1)
    else none

/-- The body of `LZ.PUT` after its phase check (44_lzw R263): look up, emit, insert, set `prev`, in this order. -/
def lzPutStep (code : Nat) (s : State) : Run Word :=
  match resolveCode code s.lz with
  | none => .raised .corruptCode s
  | some (seq, new) =>
    (emitAll seq s).andThen fun _ s =>
    (dictInsert new s).andThen fun _ s =>
      .done (BitVec.ofNat 32 seq.length) { s with lz := { s.lz with prev := seq } }

/-- The pseudocode of `LZ.PUT` (44_lzw R263): every failure but `FATAL` puts the unit in `FAILED`. -/
def lzPut (code : Nat) (s : State) : Run Word :=
  if s.lz.phase ≠ .active then fatalViolation s
  else (lzPutStep code s).onRaise (setLzPhase .failed)

/-- `LZ.PUT code` (44_lzw R263). -/
def execLzPut (code : Word) (s : State) : Host.Outcome State Fault Refusal :=
  command (fun s => okWith (lzPut code.toNat s)) s

/-- `lz_phase <- IDLE`; the dictionary and `lz_prev` are unspecified until the next `LZ.BEGIN` (44_lzw R264). -/
def closeLz (s : State) : State := forgetDict (setLzPhase .idle s)

/-- The pseudocode of `LZ.END` (44_lzw R264). -/
def lzEnd (s : State) : Run Unit :=
  if s.lz.phase = .idle then fatalViolation s else .done () (closeLz s)

/-- `LZ.END` (44_lzw R264). -/
def execLzEnd (s : State) : Host.Outcome State Fault Refusal :=
  command (fun s => okZero (lzEnd s)) s

/-- One turn of the loop of `LZ.DECODEB` (44_lzw R265): one delta read, the sum range-checked, one code put. -/
def lzTurnB (s : State) : Run Unit :=
  (readBits s.lz.width.toNat s).andThen fun d s =>
    let s := { s with lz := { s.lz with left := BitVec.ofNat 32 (s.lz.left.toNat - 1) } }
    let code := s.lz.min.toNat + d
    if 2 ^ 32 ≤ code then .raised .corruptRange s
    else (lzPut code s).andThen fun _ s => .done () s

/-- The loop `while lz_left > 0` of `LZ.DECODEB` (44_lzw R265): `lz_left` turns. -/
def lzLoopB : Nat → State → Run Unit
  | 0, s => .done () s
  | k + 1, s => if s.lz.left = 0 then .done () s else (lzTurnB s).andThen fun _ s => lzLoopB k s

/-- The three header fields of the bit-packed framing, each stored as it is read, and the width check (44_lzw R265). -/
def readLzwHeader (s : State) : Run Unit :=
  (readBits 32 s).andThen fun count s =>
  (readBits 32 { s with lz := { s.lz with left := BitVec.ofNat 32 count } }).andThen fun min s =>
  (readBits 8 { s with lz := { s.lz with min := BitVec.ofNat 32 min } }).andThen fun width s =>
    let s := { s with lz := { s.lz with width := BitVec.ofNat 8 width } }
    if s.lz.left ≠ 0 ∧ 32 < s.lz.width.toNat then .raised .corruptTable s else .done () s

/-- The pseudocode of `LZ.DECODEB` (44_lzw R265). A failure inside the loop passes through `FAILED` and `LZ.END`, which leaves the
unit `IDLE`. -/
def lzDecodeB (s : State) : Run Unit :=
  if s.lz.phase ≠ .idle then fatalViolation s
  else
    (readLzwHeader (brInit s)).andThen fun _ s =>
    (lzBegin s).andThen fun _ s =>
    ((lzLoopB s.lz.left.toNat s).onRaise closeLz).andThen fun _ s =>
      lzEnd s

/-- `LZ.DECODEB` (44_lzw R265). -/
def execLzDecodeB (s : State) : Host.Outcome State Fault Refusal :=
  command (fun s => okZero (lzDecodeB s)) s

/-- The loop of `LZ.DECODEP` (44_lzw R266). Every turn but the last takes a byte of the channel, so one turn more than the answers
to come is enough. -/
def lzLoopP : Nat → State → Run Unit
  | 0, s => .done () s
  | k + 1, s =>
    (tryFill s).andThen fun filled s =>
      if filled then
        (readBits 32 s).andThen fun code s =>
        (lzPut code s).andThen fun _ s => lzLoopP k s
      else .done () s

/-- The pseudocode of `LZ.DECODEP` (44_lzw R266): `None` at a code boundary is the normal end. -/
def lzDecodeP (s : State) : Run Unit :=
  if s.lz.phase ≠ .idle then fatalViolation s
  else
    (lzBegin (brInit s)).andThen fun _ s =>
    ((lzLoopP (s.input.length + 1) s).onRaise closeLz).andThen fun _ s =>
      lzEnd s

/-- `LZ.DECODEP` (44_lzw R266). -/
def execLzDecodeP (s : State) : Host.Outcome State Fault Refusal :=
  command (fun s => okZero (lzDecodeP s)) s

end Sys2Proof.Machine
end

