-- ==== Sys2Proof/Machine/Rle.lean ====
section
/-! DEFINITION. The RLE bit-unpacker and run-pair decoder (42_rle R190 to R194; wire format 30_encoding R104). -/

namespace Sys2Proof.Machine

/-- `rl_phase <- p`. -/
def setRlPhase (p : Phase) (s : State) : State := { s with rl := { s.rl with phase := p } }

/-- The header of an RLE stream (42_rle R191): four bytes and `totalBitCount`, then the ordering check. -/
def readRleHeader (s : State) : Run RleUnit :=
  (readBits 8 s).andThen fun minV s =>
  (readBits 8 s).andThen fun maxV s =>
  (readBits 8 s).andThen fun minR s =>
  (readBits 8 s).andThen fun maxR s =>
  (readBits 32 s).andThen fun total s =>
    if maxV < minV ∨ maxR < minR then .raised .corruptTable s
    else
      .done
        { phase := .active
          minV := BitVec.ofNat 8 minV
          maxV := BitVec.ofNat 8 maxV
          minR := BitVec.ofNat 8 minR
          maxR := BitVec.ofNat 8 maxR
          vbits := Fin.ofNat 9 (bitwidth (maxV - minV))
          rbits := Fin.ofNat 9 (bitwidth (maxR - minR))
          left := BitVec.ofNat 32 total } s

/-- The pseudocode of `RL.BEGIN` (42_rle R191). On a failure the unit stays `IDLE` and its other registers are unspecified. -/
def rlBegin (s : State) : Run Word :=
  if s.rl.phase ≠ .idle then fatalViolation s
  else
    ((readRleHeader s).onRaise forgetRle).andThen fun u s =>
      .done u.left { s with rl := u }

/-- `RL.BEGIN` (42_rle R191). -/
def execRlBegin (s : State) : Host.Outcome State Fault Refusal :=
  command (fun s => okWith (rlBegin s)) s

/-- The width of one pair, `rl_vbits + rl_rbits` (42_rle R192). -/
def RleUnit.pairBits (u : RleUnit) : Nat := u.vbits.val + u.rbits.val

/-- The body of `RL.PAIR` after its phase check (42_rle R192). -/
def rlPairStep (s : State) : Run Word :=
  if s.rl.left.toNat < s.rl.pairBits then .raised .corruptBitCount s
  else
    (readBits s.rl.vbits s).andThen fun dv s =>
    (readBits s.rl.rbits s).andThen fun dr s =>
      let s := { s with rl := { s.rl with left := BitVec.ofNat 32 (s.rl.left.toNat - s.rl.pairBits) } }
      let value := s.rl.minV.toNat + dv
      let repeats := s.rl.minR.toNat + dr
      if s.rl.maxV.toNat < value ∨ s.rl.maxR.toNat < repeats then .raised .corruptRange s
      else
        (emitAll (List.replicate repeats (BitVec.ofNat 8 value)) s).andThen fun _ s =>
          .done (BitVec.ofNat 32 (value ||| repeats <<< 8)) s

/-- The pseudocode of `RL.PAIR` (42_rle R192): every failure but `FATAL` puts the unit in `FAILED`. -/
def rlPair (s : State) : Run Word :=
  if s.rl.phase ≠ .active then fatalViolation s
  else (rlPairStep s).onRaise (setRlPhase .failed)

/-- `RL.PAIR` (42_rle R192). -/
def execRlPair (s : State) : Host.Outcome State Fault Refusal :=
  command (fun s => okWith (rlPair s)) s

/-- The pseudocode of `RL.END` (42_rle R193); the unit is `IDLE` afterwards and its other registers are unspecified (U6). -/
def rlEnd (s : State) : Run Unit :=
  if s.rl.phase = .idle then fatalViolation s
  else if s.rl.phase = .active ∧ s.rl.left ≠ 0 then .raised .corruptBitCount (forgetRle s)
  else .done () (forgetRle s)

/-- `RL.END` (42_rle R193). -/
def execRlEnd (s : State) : Host.Outcome State Fault Refusal :=
  command (fun s => okZero (rlEnd s)) s

/-- The loop `while rl_left > 0` of `RL.DECODE` (42_rle R194). Every turn takes a pair's width, at least 2, off `rl_left`, so
`rl_left` turns are enough. -/
def rlLoop : Nat → State → Run Unit
  | 0, s => .done () s
  | k + 1, s => if s.rl.left = 0 then .done () s else (rlPair s).andThen fun _ s => rlLoop k s

/-- The pseudocode of `RL.DECODE` (42_rle R194). After a failing `RL.PAIR` the unit is `FAILED`, and the `RL.END` of the clean-up
returns `OK` and leaves it `IDLE`. -/
def rlDecode (s : State) : Run Unit :=
  if s.rl.phase ≠ .idle then fatalViolation s
  else
    (rlBegin (brInit s)).andThen fun _ s =>
    ((rlLoop s.rl.left.toNat s).onRaise forgetRle).andThen fun _ s =>
      rlEnd s

/-- `RL.DECODE` (42_rle R194). -/
def execRlDecode (s : State) : Host.Outcome State Fault Refusal :=
  command (fun s => okZero (rlDecode s)) s

end Sys2Proof.Machine
end

