-- ==== Sys2Proof/Machine/Dispatch.lean ====
section
/-! DEFINITION. One arm per command (30_encoding R92), each one call of the command's meaning. -/

namespace Sys2Proof.Machine

def exec (i : Instr) (s : State) : Host.Outcome State Fault Refusal :=
  match i with
  | .sysReset => Sys2Proof.Machine.execSysReset s
  | .brInit => Sys2Proof.Machine.execBrInit s
  | .brRead n => Sys2Proof.Machine.execBrRead n s
  | .brAlign => Sys2Proof.Machine.execBrAlign s
  | .bwInit => Sys2Proof.Machine.execBwInit s
  | .bwWrite n v => Sys2Proof.Machine.execBwWrite n v s
  | .bwComplete => Sys2Proof.Machine.execBwComplete s
  | .ctLoad => Sys2Proof.Machine.execCtLoad s
  | .rlBegin => Sys2Proof.Machine.execRlBegin s
  | .rlPair => Sys2Proof.Machine.execRlPair s
  | .rlEnd => Sys2Proof.Machine.execRlEnd s
  | .rlDecode => Sys2Proof.Machine.execRlDecode s
  | .hfBegin => Sys2Proof.Machine.execHfBegin s
  | .hfBit b => Sys2Proof.Machine.execHfBit b s
  | .hfEnd => Sys2Proof.Machine.execHfEnd s
  | .hfDecode => Sys2Proof.Machine.execHfDecode s
  | .lzBegin => Sys2Proof.Machine.execLzBegin s
  | .lzPut c => Sys2Proof.Machine.execLzPut c s
  | .lzEnd => Sys2Proof.Machine.execLzEnd s
  | .lzDecodeP => Sys2Proof.Machine.execLzDecodeP s
  | .lzDecodeB => Sys2Proof.Machine.execLzDecodeB s

end Sys2Proof.Machine
end

