-- ==== Sys2Proof/Machine/HostPort.lean ====
section
/-! DEFINITION. What the host does to the block, one action at a time (60_exceptions R319, 70_reset R350, R352, R355), and the
command word it issues (30_encoding R90, 60_exceptions R302). -/

namespace Sys2Proof.Machine

/-- A command word issued: the command it decodes to runs; a word the decoder rejects is a contract violation (60_exceptions R302). -/
def issueWord (cw : CmdWord) (s : State) : Host.Outcome State Fault Refusal :=
  match decode cw with
  | .ok i => exec i s
  | .error _ => illegalCommand s

/-- The reset input (70_reset R350): the effect of `SYS.RESET` on the block's state; it returns no result. -/
def assertReset (s : State) : Host.Outcome State Fault Refusal := .next (resetBlock s)

/-- A channel access of the host's own (70_reset R355): the block's registers do not change. -/
def hostAccess {α : Type} (r : Run α) : Host.Outcome State Fault Refusal :=
  match r with
  | .done _ s => .next s
  | .raised _ s => .next s
  | .hung x => .fault x

/-- An input channel attached (70_reset R352). -/
def attachInput (answers : List ReadAnswer) (s : State) : State :=
  { s with input := answers, trace := .attachedInput :: s.trace }

/-- An output channel attached (70_reset R352). -/
def attachOutput (answers : List WriteAnswer) (s : State) : State :=
  { s with sink := answers, trace := .attachedOutput :: s.trace }

/-- One action of the host. -/
def hostAct (a : HostAction) (s : State) : Host.Outcome State Fault Refusal :=
  match a with
  | .issue cw => issueWord cw s
  | .resetInput => assertReset s
  | .readByte => hostAccess (chanRead .host s)
  | .writeByte b => hostAccess (chanWrite .host b s)
  | .attachInput answers => .next (attachInput answers s)
  | .attachOutput answers => .next (attachOutput answers s)

/-- The next action of the host, taken off the list; with none to come the block waits, and nothing changes (70_reset R350). -/
def nextAction (s : State) : Host.Outcome State Fault Refusal :=
  match s.host with
  | [] => .next s
  | a :: rest => hostAct a { s with host := rest }

end Sys2Proof.Machine
end

