-- ==== Sys2Proof/Machine/Step.lean ====
section
/-! DEFINITION. One step of the machine: the next action of the host (there is no program counter and no fetch, 10_state R22). -/

namespace Sys2Proof.Machine

/-- One step: the host's next action, or waiting. A command is one step (70_reset R359). -/
def step (s : State) : Host.Outcome State Fault Refusal := nextAction s

/-- The state in which the host issues next the command word with these bits: bit k of `w` is `cw[k]`. -/
def State.withFetchWord (s : State) (nbits w : Nat) : State :=
  { s with host := .issue (tableWord nbits w) :: s.host }

end Sys2Proof.Machine
end

