-- ==== Sys2Proof/Safety/Bits.lean ====
section
/-! DEFINITION. The bits of a stream as a list, for claims to speak of (20_memory R63, R64, R66): what the reader will deliver, what
the writer holds, and the state after a transfer that no channel cuts short. -/

namespace Sys2Proof.Machine

/-- The bits of a byte, bit 0 first (20_memory R63). -/
def bitsOfByte (b : Byte) : List Bool := (List.range 8).map b.getLsbD

/-- The `n`-bit field that holds `v`, least significant bit first (20_memory R63). -/
def fieldBits : Nat → Nat → List Bool
  | 0, _ => []
  | n + 1, v => v.testBit 0 :: fieldBits n (v / 2)

/-- The value of a field, its first bit being bit 0 (20_memory R63). -/
def fieldValue : List Bool → Nat
  | [] => 0
  | b :: bs => b.toNat + 2 * fieldValue bs

/-- A bit sequence as bytes, bit p in bit p mod 8 of byte p / 8, zero-padded at the end (20_memory R63, 30_encoding R107). -/
def packBits (bits : List Bool) : List Byte :=
  (List.range ((bits.length + 7) / 8)).map fun k => BitVec.ofNat 8 (fieldValue ((bits.drop (8 * k)).take 8))

/-- The bytes the input channel gives before it first fails to give one. -/
def leadBytes : List ReadAnswer → List Byte
  | .byte b :: rest => b :: leadBytes rest
  | .none :: _ => []
  | .never :: _ => []
  | [] => []

/-- What the input channel answers after its leading bytes is nothing, which the block sees as `None`, and not a hang. -/
def dryAnswer (input : List ReadAnswer) : Bool := input.drop (leadBytes input).length |>.head? |>.all (· != .never)

/-- The bits a reader can deliver before the channel first fails to give a byte. -/
def State.bitsAhead (s : State) : List Bool :=
  (bitsOfByte s.rd.holder).drop s.rd.off ++ (leadBytes s.input).flatMap bitsOfByte

/-- How many bytes a read of `n` bits pulls with `8 - off` bits in hand (20_memory R66). -/
def pullCount (off n : Nat) : Nat := (n - (8 - off) + 7) / 8

/-- The state after `n` bits have been read: the bytes needed pulled, in order, and no more (20_memory R64, R66). -/
def State.afterRead (s : State) (n : Nat) : State :=
  let p := pullCount s.rd.off n
  let bytes := (leadBytes s.input).take p
  { s with
    input := s.input.drop p
    trace := (bytes.map fun b => ChanEvent.read .block (some b)).reverse ++ s.trace
    rd := ⟨bytes.getLastD s.rd.holder, Fin.ofNat 9 (s.rd.off + n - 8 * p), s.rd.pulled + p⟩ }

/-- The state after a read that the channel cuts short (40_bitstream R142): every byte the channel gave is taken and used, then the
answer that is none; the holder is exhausted. -/
def State.afterDry (s : State) : State :=
  { s with
    input := (s.input.drop (leadBytes s.input).length).tail
    trace := .read .block none :: ((leadBytes s.input).map fun b => ChanEvent.read .block (some b)).reverse ++ s.trace
    rd := ⟨(leadBytes s.input).getLastD s.rd.holder, 8, s.rd.pulled + (leadBytes s.input).length⟩ }

/-- The stream bit position `pos` (10_state R22): the bits consumed since the last `BR.INIT` or reset. -/
def State.pos (s : State) : Nat := 8 * s.rd.pulled + s.rd.off - 8

/-- The output channel accepts the next `k` bytes. -/
def sinkAccepts (k : Nat) (sink : List WriteAnswer) : Bool := (sink.take k).all (· == .ok)

/-- The state after the bytes `bs` have been accepted by the output channel, in order (20_memory R62). -/
def State.afterBytes (s : State) (bs : List Byte) : State :=
  { s with
    sink := s.sink.drop bs.length
    trace := (bs.map fun b => ChanEvent.write .block b true).reverse ++ s.trace }

/-- From `s` to `t` exactly `n` bits were read, no byte pulled that they did not need, and exactly the bytes `bs` were accepted by the
output channel, in order (20_memory R62, R64, R66). -/
def Flows (s : State) (n : Nat) (bs : List Byte) (t : State) : Prop :=
  t.input = (s.afterRead n).input ∧ t.rd = (s.afterRead n).rd ∧ t.sink = s.sink.drop bs.length ∧ t.output = s.output ++ bs

/-- The bits pending in the writer (10_state R23). -/
def BitWriter.pending (w : BitWriter) : List Bool := (bitsOfByte w.holder).take w.off

/-- The writer that holds these pending bits, fewer than 8 (10_state R23, R34(c)). -/
def writerOf (bits : List Bool) : BitWriter := ⟨BitVec.ofNat 8 (fieldValue bits), Fin.ofNat 9 bits.length⟩

/-- How many bytes a write of `n` bits pushes with `off` bits pending (20_memory R66). -/
def pushCount (off n : Nat) : Nat := (off + n) / 8

/-- The state after the bits `bits` have been written and every full byte accepted (40_bitstream R146). -/
def State.afterWrite (s : State) (bits : List Bool) : State :=
  let all := s.wr.pending ++ bits
  let k := all.length / 8
  { s.afterBytes (packBits (all.take (8 * k))) with
    wr := writerOf (all.drop (8 * k)) }

end Sys2Proof.Machine
end

