-- ==== Sys2Proof/Safety/Wire.lean ====
section
/-! DEFINITION. The wire formats a decoder parses (30_encoding R100 to R107), as bit sequences built from their contents, and the
encoders that claims about whole streams refer to (30_encoding R110, 95_test_vectors S5). They are no part of the machine. -/

namespace Sys2Proof.Wire

open Sys2Proof.Machine

/-! ## Code Table (30_encoding R101, R102) -/

/-- One used entry of a Code Table. -/
structure Entry where
  value : Nat
  code : Nat
  length : Nat
deriving DecidableEq, Repr

/-- The header's 200 bits (30_encoding R101). -/
def tableHeaderBits (h : TableHeader) : List Bool :=
  fieldBits 32 h.count ++ fieldBits 32 h.valueBits ++ fieldBits 32 h.codeBits ++ fieldBits 32 h.lengthBits ++
    fieldBits 8 h.minValue ++ fieldBits 32 h.minCode ++ fieldBits 32 h.minLength

/-- One entry's bits (30_encoding R102). -/
def entryBits (h : TableHeader) (e : Entry) : List Bool :=
  fieldBits h.valueBits (e.value - h.minValue) ++ fieldBits h.codeBits (e.code - h.minCode) ++
    fieldBits h.lengthBits (e.length - h.minLength)

/-- A serialised Code Table (30_encoding R101, R102). -/
def tableBits (h : TableHeader) (es : List Entry) : List Bool := tableHeaderBits h ++ es.flatMap (entryBits h)

/-- The entry is a legal one (10_state R24): a byte value, a length in 1 to 32, a code that fits its length. -/
def Entry.legal (e : Entry) : Bool := e.value ≤ 255 && 1 ≤ e.length && e.length ≤ 32 && e.code < 2 ^ e.length

/-- The header can carry the entry: the three deltas fit their widths. -/
def Entry.fits (h : TableHeader) (e : Entry) : Bool :=
  h.minValue ≤ e.value && e.value - h.minValue < 2 ^ h.valueBits && h.minCode ≤ e.code && e.code - h.minCode < 2 ^ h.codeBits &&
    h.minLength ≤ e.length && e.length - h.minLength < 2 ^ h.lengthBits

/-- The header's fields fit their own widths (30_encoding R101), and the widths they declare are at most 32 if there is an entry. -/
def headerFits (h : TableHeader) : Bool :=
  h.count ≤ 256 && h.valueBits < 2 ^ 32 && h.codeBits < 2 ^ 32 && h.lengthBits < 2 ^ 32 && h.minValue < 2 ^ 8 &&
    h.minCode < 2 ^ 32 && h.minLength < 2 ^ 32 &&
    (h.count == 0 || (h.valueBits ≤ 32 && h.codeBits ≤ 32 && h.lengthBits ≤ 32))

/-- A table a decoder must accept: legal entries in ascending value order, carried by a header that fits them. -/
abbrev TableOk (h : TableHeader) (es : List Entry) : Prop :=
  headerFits h = true ∧ h.count = es.length ∧ (∀ e ∈ es, e.legal = true ∧ e.fits h = true) ∧
    es.Pairwise (fun a b => a.value < b.value)

/-- The entry the table gives to the byte value `v`: absent entries have code 0 and length 0 (10_state R24). -/
def entryFor (es : List Entry) (v : Nat) : CodeLength :=
  match es.find? (fun e => e.value == v) with
  | some e => ⟨BitVec.ofNat 32 e.code, Fin.ofNat 33 e.length⟩
  | none => ⟨0, 0⟩

/-- The Code Table with these entries. -/
def tableOf (es : List Entry) : CodeTable := Vector.ofFn fun v => entryFor es v.val

/-- The path of a code (43_huffman R221): bit i of the code is the edge at depth i. -/
def pathOf (e : CodeLength) : List Bool := fieldBits e.length e.code.toNat

/-- No code of the table is a prefix of another's (43_huffman R222, D13). -/
def PrefixFree (ct : CodeTable) : Prop :=
  ∀ u v : Fin 256, u ≠ v → ct[u].length ≠ 0 → ct[v].length ≠ 0 → ¬ (pathOf ct[u] <+: pathOf ct[v])

/-! ## Huffman stream (30_encoding R103) -/

/-- The codes of a message, in order, each least significant bit first (30_encoding R103). -/
def messageBits (ct : CodeTable) (msg : List Byte) : List Bool := msg.flatMap fun v => pathOf ct[v.toFin]

/-- A Huffman stream: table, bit count, codes (30_encoding R103). -/
def huffmanBits (h : TableHeader) (es : List Entry) (msg : List Byte) : List Bool :=
  tableBits h es ++ fieldBits 32 (messageBits (tableOf es) msg).length ++ messageBits (tableOf es) msg

/-! ## RLE stream (30_encoding R104) -/

/-- The four bytes of an RLE header, as naturals (10_state R25). -/
structure RleHeader where
  minV : Nat
  maxV : Nat
  minR : Nat
  maxR : Nat
deriving DecidableEq, Repr

/-- The width of a value field: derived, not in the stream (30_encoding R104). -/
def RleHeader.vbits (h : RleHeader) : Nat := bitwidth (h.maxV - h.minV)

/-- The width of a count field: derived, not in the stream (30_encoding R104). -/
def RleHeader.rbits (h : RleHeader) : Nat := bitwidth (h.maxR - h.minR)

/-- An ordered header of four bytes. -/
def RleHeader.ok (h : RleHeader) : Bool := h.minV ≤ h.maxV && h.maxV < 256 && h.minR ≤ h.maxR && h.maxR < 256

/-- A pair (value, repeats) in the declared ranges. -/
def RleHeader.holds (h : RleHeader) (p : Nat × Nat) : Bool :=
  h.minV ≤ p.1 && p.1 ≤ h.maxV && h.minR ≤ p.2 && p.2 ≤ h.maxR

/-- The unit `RL.BEGIN` makes of the header, with `left` bits to come (42_rle R191). -/
def RleHeader.unit (h : RleHeader) (left : Nat) : RleUnit :=
  ⟨.active, BitVec.ofNat 8 h.minV, BitVec.ofNat 8 h.maxV, BitVec.ofNat 8 h.minR, BitVec.ofNat 8 h.maxR, Fin.ofNat 9 h.vbits,
    Fin.ofNat 9 h.rbits, BitVec.ofNat 32 left⟩

/-- One pair's bits (30_encoding R104). -/
def pairBits (h : RleHeader) (p : Nat × Nat) : List Bool :=
  fieldBits h.vbits (p.1 - h.minV) ++ fieldBits h.rbits (p.2 - h.minR)

/-- The header's 64 bits with a declared bit count (30_encoding R104). -/
def rleHeaderBits (h : RleHeader) (total : Nat) : List Bool :=
  fieldBits 8 h.minV ++ fieldBits 8 h.maxV ++ fieldBits 8 h.minR ++ fieldBits 8 h.maxR ++ fieldBits 32 total

/-- An RLE stream (30_encoding R104). -/
def rleBits (h : RleHeader) (ps : List (Nat × Nat)) : List Bool :=
  rleHeaderBits h (ps.length * (h.vbits + h.rbits)) ++ ps.flatMap (pairBits h)

/-- The bytes the pairs stand for. -/
def rleBytes (ps : List (Nat × Nat)) : List Byte := ps.flatMap fun p => List.replicate p.2 (BitVec.ofNat 8 p.1)

/-- The runs of a byte sequence that comes after `r` bytes of the value `v`: the open run takes every next byte of its value until it
has 255 (00_scope R5 `RUN_MAX`, "run length saturating at 255"; 95_test_vectors S2, V-RL2), and then the next run is opened. -/
def runsFrom (v r : Nat) : List Byte → List (Nat × Nat)
  | [] => [(v, r)]
  | b :: bs => if b.toNat = v ∧ r < 255 then runsFrom v (r + 1) bs else (v, r) :: runsFrom b.toNat 1 bs

/-- The runs of a byte sequence, from its front, none longer than 255 (00_scope §7 "Run", 95_test_vectors S2). -/
def runsOf : List Byte → List (Nat × Nat)
  | [] => []
  | b :: bs => runsFrom b.toNat 1 bs

/-- The header an encoder computes from the runs; for no runs the four bytes are 0 (91_not_in_source N7: any ordered header). -/
def headerOf : List (Nat × Nat) → RleHeader
  | [] => ⟨0, 0, 0, 0⟩
  | (v, r) :: ps =>
    ps.foldl (fun h p => ⟨min h.minV p.1, max h.maxV p.1, min h.minR p.2, max h.maxR p.2⟩) ⟨v, v, r, r⟩

/-! ## LZW streams (30_encoding R105, R106) -/

/-- The plain framing: 32-bit codes and nothing else (30_encoding R106). -/
def plainBits (codes : List Nat) : List Bool := codes.flatMap (fieldBits 32)

/-- The bit-packed framing (30_encoding R105). -/
def packedBits (min width : Nat) (codes : List Nat) : List Bool :=
  fieldBits 32 codes.length ++ fieldBits 32 min ++ fieldBits 8 width ++ codes.flatMap fun c => fieldBits width (c - min)

/-- One byte into the source's LZW compressor (95_test_vectors S5): the dictionary, the candidate, the codes so far. -/
def lzwPutByte (st : List (List Byte) × List Byte × List Nat) (b : Byte) : List (List Byte) × List Byte × List Nat :=
  match st with
  | (dict, cand, out) =>
    if cand ++ [b] ∈ dict then (dict, cand ++ [b], out)
    else (dict ++ [cand ++ [b]], [b], out ++ [dict.idxOf cand])

/-- The code sequence of a byte sequence (95_test_vectors S5): every byte put, then the last candidate's code. -/
def lzwCodes (bytes : List Byte) : List Nat :=
  match bytes.foldl lzwPutByte (seedDict, [], []) with
  | (dict, cand, out) => if cand = [] then out else out ++ [dict.idxOf cand]

/-- The decoder's limits leave room for a sequence of `n` bytes: one dictionary entry a byte and no entry longer than the sequence
(00_scope R6, 44_lzw R262). -/
abbrev roomFor (p : Config.Params) (n : Nat) : Prop := 256 + n ≤ p.dictMax ∧ ∀ m ∈ p.seqMax, n ≤ m

end Sys2Proof.Wire
end

