-- ==== Sys2Proof/Safety.lean ====
section
/-! DEFINITION. What counts as a safe state and a safe command, in the terms claims use: the invariants that hold between commands
(10_state R24 to R27, R30, R34), the complete list of contract violations (60_exceptions R303), and the laws of the channels
(20_memory R61, R62, R69). -/

namespace Sys2Proof.Machine

/-! ## Invariants between commands -/

/-- 10_state R34(a), R22: `rd_off` is in 1..8, and a reader that has pulled nothing since its start has nothing in hand. -/
def BitReader.ok (r : BitReader) : Bool := 1 ≤ r.off.val && (r.off.val == 8 || 1 ≤ r.pulled)

/-- 10_state R34(b), (c): `wr_off` is in 0..7 and the bits `wr_holder[7:wr_off]` are zero. -/
def BitWriter.ok (w : BitWriter) : Bool := w.off.val < 8 && w.holder.toNat < 2 ^ w.off.val

/-- 10_state R24: every code fits in its length. -/
def tableOk (ct : CodeTable) : Bool := ct.toList.all fun e => e.code.toNat < 2 ^ e.length.val

/-- 10_state R25: the widths are in 1..8; and in a unit that is not `IDLE` the ranges are ordered and the widths are what the ranges
give. -/
def RleUnit.ok (u : RleUnit) : Bool :=
  1 ≤ u.vbits.val && 1 ≤ u.rbits.val &&
    (u.phase == .idle ||
      (u.minV.toNat ≤ u.maxV.toNat && u.minR.toNat ≤ u.maxR.toNat &&
        u.vbits.val == bitwidth (u.maxV.toNat - u.minV.toNat) && u.rbits.val == bitwidth (u.maxR.toNat - u.minR.toNat)))

/-- A child index of node `k`: it is a later node of the arena. -/
def childOk (size k : Nat) : Option Nat → Bool
  | none => true
  | some j => k < j && j < size

/-- 10_state R26: children are later nodes of the arena, and a leaf has none. -/
def arenaOk (nodes : List Node) : Bool :=
  (List.range nodes.length).all fun k =>
    childOk nodes.length k (nodeAt nodes k).left && childOk nodes.length k (nodeAt nodes k).right &&
      (!(nodeAt nodes k).leaf || ((nodeAt nodes k).left.isNone && (nodeAt nodes k).right.isNone))

/-- 10_state R26 and 43_huffman R222, R223, R226: `hf_nnodes` is at most `TRIE_NODES`; and in a unit that is not `IDLE` the children
lie after their parents, the root is no leaf, the cursor is a node and no leaf, and a failed unit's cursor is the root. -/
def HuffUnit.ok (u : HuffUnit) : Bool :=
  u.nodes.length ≤ Config.trieNodes &&
    (u.phase == .idle ||
      (arenaOk u.nodes && !(nodeAt u.nodes 0).leaf && u.cur < u.nodes.length &&
      !(nodeAt u.nodes u.cur).leaf && (u.phase == .active || u.cur == 0)))

/-- Whether a sequence keeps to `SEQ_MAX` (00_scope R6). -/
def seqOk (p : Config.Params) (seq : List Byte) : Bool := seq ≠ [] && !tooLong p.seqMax seq

/-- 10_state R27: `lz_size` is in 256..`DICT_MAX`, and no sequence is empty. -/
abbrev LzwUnit.ranged (p : Config.Params) (u : LzwUnit) : Prop :=
  Config.seedSize ≤ u.size ∧ u.size ≤ p.dictMax ∧ ∀ q ∈ u.dict, q ≠ []

/-- 10_state R27 and 44_lzw R262: `lz_size` is in its range and no sequence is empty; and in a unit that is not `IDLE` the seed stands
at the codes 0 to 255, no sequence is too long or held under two codes, and `lz_prev` is empty or a sequence of the dictionary. -/
def LzwUnit.ok (p : Config.Params) (u : LzwUnit) : Bool :=
  decide (u.ranged p) &&
    (u.phase == .idle ||
      (u.dict.take Config.seedSize == seedDict && u.dict.all (seqOk p) && u.dict.Nodup && (u.prev == [] || u.prev ∈ u.dict)))

end Sys2Proof.Machine

/-- The form the three internal memories keep (20_memory R60): a valid code table, a trie in use and a dictionary in use are well
formed. There is no addressed memory. -/
def Sys2Proof.Memory.wf (s : Sys2Proof.Machine.State) : Bool :=
  (!s.ctValid || Sys2Proof.Machine.tableOk s.ct) && s.hf.ok && s.lz.ok s.params

namespace Sys2Proof.Machine

/-- The invariant of the whole machine between commands. -/
def State.ok (s : State) : Bool := s.rd.ok && s.wr.ok && s.rl.ok && Memory.wf s && decide s.params.wf

/-- The invariant as a proposition. -/
abbrev State.Invariant (s : State) : Prop := s.ok = true

/-! ## Contract violations -/

/-- The causes of a contract violation, complete (60_exceptions R303(b) to (e)); (a), the undefined command byte, is the decoder's. -/
def violates (i : Instr) (s : State) : Bool :=
  match i with
  | .brRead n => 32 < n.toNat
  | .bwWrite n _ => 32 < n.toNat
  | .ctLoad => s.hf.phase != .idle
  | .rlBegin => s.rl.phase != .idle
  | .rlPair => s.rl.phase != .active
  | .rlEnd => s.rl.phase == .idle
  | .rlDecode => s.rl.phase != .idle
  | .hfBegin => s.hf.phase != .idle || !s.ctValid
  | .hfBit _ => s.hf.phase != .active
  | .hfEnd => s.hf.phase == .idle
  | .hfDecode => s.hf.phase != .idle
  | .lzBegin => s.lz.phase != .idle
  | .lzPut _ => s.lz.phase != .active
  | .lzEnd => s.lz.phase == .idle
  | .lzDecodeP => s.lz.phase != .idle
  | .lzDecodeB => s.lz.phase != .idle
  | .sysReset | .brInit | .brAlign | .bwInit | .bwComplete => false

/-! ## The laws of the channels -/

/-- The answers left after the block's or the host's reads among some events (oldest first), if each event has the answer the list
gives: `none` where an event and its answer differ (20_memory R61). -/
def replayReads : List ChanEvent → List ReadAnswer → Option (List ReadAnswer)
  | [], as => some as
  | .read _ (some b) :: es, .byte c :: as => if b = c then replayReads es as else none
  | .read _ none :: es, .none :: as => replayReads es as
  | .read _ none :: es, [] => replayReads es []
  | .read _ _ :: _, _ => none
  | .write _ _ _ :: es, as => replayReads es as
  | .attachedInput :: _, _ => none
  | .attachedOutput :: _, _ => none

/-- The same for writes (20_memory R62). -/
def replayWrites : List ChanEvent → List WriteAnswer → Option (List WriteAnswer)
  | [], as => some as
  | .write _ _ true :: es, .ok :: as => replayWrites es as
  | .write _ _ true :: es, [] => replayWrites es []
  | .write _ _ false :: es, .fail :: as => replayWrites es as
  | .write _ _ _ :: _, _ => none
  | .read _ _ :: es, as => replayWrites es as
  | .attachedInput :: _, _ => none
  | .attachedOutput :: _, _ => none

/-- The event is an access of the block's. -/
def ChanEvent.byBlock : ChanEvent → Bool
  | .read who _ => who == .block
  | .write who _ _ => who == .block
  | .attachedInput => false
  | .attachedOutput => false

/-- From `s` to `t` the channels moved by accesses of the block alone: the events are added to the record in order, and each
consumed one answer of its channel (20_memory R61, R62, R69). -/
def ChanMoves (s t : State) : Prop :=
  ∃ evs : List ChanEvent, t.trace = evs.reverse ++ s.trace ∧ replayReads evs s.input = some t.input ∧
    replayWrites evs s.sink = some t.sink ∧ evs.all ChanEvent.byBlock = true

/-- Both channels always answer (70_reset R358): no answer to come is `never`. -/
def alwaysAnswers (s : State) : Bool := s.input.all (· != .never) && s.sink.all (· != .never)

/-! ## Phases (10_state R30) -/

/-- `rl_phase` after a command that is no contract violation; `ok`: it returned no failure status (10_state R30). -/
def rlPhaseAfter (i : Instr) (ok : Bool) (p : Phase) : Phase :=
  match i with
  | .sysReset => .idle
  | .rlBegin => if ok then .active else .idle
  | .rlPair => if ok then .active else .failed
  | .rlEnd | .rlDecode => .idle
  | .brInit | .brRead _ | .brAlign | .bwInit | .bwWrite _ _ | .bwComplete | .ctLoad => p
  | .hfBegin | .hfBit _ | .hfEnd | .hfDecode | .lzBegin | .lzPut _ | .lzEnd | .lzDecodeP | .lzDecodeB => p

/-- `hf_phase` after a command that is no contract violation. -/
def hfPhaseAfter (i : Instr) (ok : Bool) (p : Phase) : Phase :=
  match i with
  | .sysReset => .idle
  | .hfBegin => if ok then .active else .idle
  | .hfBit _ => if ok then .active else .failed
  | .hfEnd | .hfDecode => .idle
  | .brInit | .brRead _ | .brAlign | .bwInit | .bwWrite _ _ | .bwComplete | .ctLoad => p
  | .rlBegin | .rlPair | .rlEnd | .rlDecode | .lzBegin | .lzPut _ | .lzEnd | .lzDecodeP | .lzDecodeB => p

/-- `lz_phase` after a command that is no contract violation. -/
def lzPhaseAfter (i : Instr) (ok : Bool) (p : Phase) : Phase :=
  match i with
  | .sysReset => .idle
  | .lzBegin => if ok then .active else .idle
  | .lzPut _ => if ok then .active else .failed
  | .lzEnd | .lzDecodeP | .lzDecodeB => .idle
  | .brInit | .brRead _ | .brAlign | .bwInit | .bwWrite _ _ | .bwComplete | .ctLoad => p
  | .rlBegin | .rlPair | .rlEnd | .rlDecode | .hfBegin | .hfBit _ | .hfEnd | .hfDecode => p

/-! ## Statuses -/

/-- A status that is no failure (60_exceptions R301). -/
def Status.good : Status → Bool
  | .ok => true
  | .more => true
  | .fail _ => false

/-- The failure statuses a command can return, complete (60_exceptions R303 to R306, and the rules of the commands). Every command but
`SYS.RESET` returns `FATAL` while `fatal` is set. -/
def failuresOf (i : Instr) : List Failure :=
  match i with
  | .sysReset => []
  | .brInit | .brAlign | .bwInit | .lzBegin | .lzEnd => [.fatal]
  | .brRead _ => [.fatal, .ioRead]
  | .bwWrite _ _ | .bwComplete => [.fatal, .ioWrite]
  | .ctLoad | .rlBegin => [.fatal, .ioRead, .corruptTable]
  | .rlPair => [.fatal, .ioRead, .ioWrite, .corruptBitCount, .corruptRange]
  | .rlEnd => [.fatal, .corruptBitCount]
  | .rlDecode => [.fatal, .ioRead, .ioWrite, .corruptTable, .corruptBitCount, .corruptRange]
  | .hfBegin => [.fatal, .corruptTable]
  | .hfBit _ => [.fatal, .corruptNoData]
  | .hfEnd => [.fatal, .corruptMidCode]
  | .hfDecode => [.fatal, .ioRead, .ioWrite, .corruptTable, .corruptNoData, .corruptMidCode]
  | .lzPut _ => [.fatal, .ioWrite, .corruptCode, .limit]
  | .lzDecodeP => [.fatal, .ioRead, .ioWrite, .corruptCode, .limit]
  | .lzDecodeB => [.fatal, .ioRead, .ioWrite, .corruptTable, .corruptRange, .corruptCode, .limit]

/-- The command can return the failure. -/
def mayFail (i : Instr) (f : Failure) : Bool := decide (f ∈ failuresOf i)

/-- The command answers the failure status `f`, with any `val` (60_exceptions R300, U3), and leaves the block and the channels as in
`u`. -/
def FailsWith (f : Failure) (u : State) (o : Host.Outcome State Fault Refusal) : Prop :=
  ∃ v n, o = .next { u with result := some ⟨.fail f, v⟩, draws := n }

/-- The reader and both channels stand alike in the two states, and the output channel holds the same bytes. -/
abbrev SameStreams (s t : State) : Prop := t.rd = s.rd ∧ t.input = s.input ∧ t.sink = s.sink ∧ t.output = s.output

/-- The command is answered as a contract violation from `s` (60_exceptions R303): `fatal` is set and nothing else changes. -/
abbrev Violation (s : State) (o : Host.Outcome State Fault Refusal) : Prop := FailsWith .fatal { s with fatal := true } o

/-! ## Sequences of commands -/

/-- What a list of commands returns, in order, and the state after them; `none` where one does not return. -/
def execResults : List Instr → State → Option (List Result × State)
  | [], s => some ([], s)
  | i :: is, s =>
    match exec i s with
    | .next t =>
      match t.result, execResults is t with
      | some r, some (rs, u) => some (r :: rs, u)
      | _, _ => none
    | .fault _ => none
    | .refused _ => none

/-- What a host gets that issues a list of commands in order and goes on only while none fails (30_encoding R96): the failure status of
the first that fails, or `OK`, and the state after it; `none` where one does not return. -/
def execUntil : List Instr → State → Option (Status × State)
  | [], s => some (.ok, s)
  | i :: is, s =>
    match exec i s with
    | .next t =>
      match t.result with
      | some r => if r.res.good then execUntil is t else some (r.res, t)
      | none => none
    | .fault _ => none
    | .refused _ => none

end Sys2Proof.Machine
end

