-- ==== Sys2Proof/Certificates/Slice0/Obligations.lean ====
section
/-! DEFINITION. The statements about the decode block for the provers. Each docstring names the rule of spec/ it formalises. -/

open Sys2Proof Sys2Proof.Machine Sys2Proof.Wire

/-! ## Encoding -/

/-- The 21 rows of 30_encoding R92, and command words of the programs of 95_test_vectors, decode to the commands they stand for. -/
def Obligations.TabulatedWordsDecode : Prop :=
  decode 0x000000000000#48 = .ok .sysReset ∧ decode 0x000000000010#48 = .ok .brInit ∧ decode 0x000000002011#48 = .ok (.brRead 32) ∧
  decode 0x000000000012#48 = .ok .brAlign ∧ decode 0x000000000020#48 = .ok .bwInit ∧
  decode 0x00001ABC0D21#48 = .ok (.bwWrite 13 0x1ABC) ∧ decode 0x000000000022#48 = .ok .bwComplete ∧
  decode 0x000000000030#48 = .ok .ctLoad ∧ decode 0x000000000040#48 = .ok .rlBegin ∧ decode 0x000000000041#48 = .ok .rlPair ∧
  decode 0x000000000042#48 = .ok .rlEnd ∧ decode 0x00000000004F#48 = .ok .rlDecode ∧ decode 0x000000000050#48 = .ok .hfBegin ∧
  decode 0xFFFFFFFF0051#48 = .ok (.hfBit true) ∧ decode 0x000000000051#48 = .ok (.hfBit false) ∧
  decode 0x000000000052#48 = .ok .hfEnd ∧ decode 0x00000000005F#48 = .ok .hfDecode ∧ decode 0x000000000060#48 = .ok .lzBegin ∧
  decode 0x0000012C0061#48 = .ok (.lzPut 300) ∧ decode 0x000000000062#48 = .ok .lzEnd ∧ decode 0x00000000006E#48 = .ok .lzDecodeP ∧
  decode 0x00000000006F#48 = .ok .lzDecodeB ∧ decode 0x000000000013#48 = .error (.undefinedCommand 0x13) ∧
  decode 0x000000002111#48 = .error (.illegalCount 33)

/-- Decoding the encoding of a well-formed command gives it back, with every operand at every legal value (30_encoding R92, R95). -/
def Obligations.DecodeOfEncode : Prop := ∀ i : Instr, i.WellFormed → decode (encode i) = .ok i

/-- Two words that agree on `cmd`, on `n` where the command is `BR.READ` or `BW.WRITE`, on `arg` where it is `BW.WRITE` or `LZ.PUT`, and
on `arg[0]` where it is `HF.BIT`, decode alike: every other operand field has no effect (30_encoding R91). -/
def Obligations.UnusedFieldsHaveNoEffect : Prop :=
  ∀ cw cw' : CmdWord, cmdField cw = cmdField cw' →
    (cmdField cw = 0x11 ∨ cmdField cw = 0x21 → nField cw = nField cw') →
    (cmdField cw = 0x21 ∨ cmdField cw = 0x61 → argField cw = argField cw') →
    (cmdField cw = 0x51 → (argField cw).getLsbD 0 = (argField cw').getLsbD 0) → decode cw = decode cw'

/-- The illegal words are those with an undefined `cmd` byte, and `BR.READ` or `BW.WRITE` with `n` above 32 (30_encoding R93). -/
def Obligations.IllegalWordsExactly : Prop :=
  ∀ cw : CmdWord, (∃ e, decode cw = .error e) ↔
    cmdField cw ∉ ([0x00, 0x10, 0x11, 0x12, 0x20, 0x21, 0x22, 0x30, 0x40, 0x41, 0x42, 0x4F, 0x50, 0x51, 0x52, 0x5F, 0x60, 0x61, 0x62,
      0x6E, 0x6F] : List (BitVec 8)) ∨ ((cmdField cw = 0x11 ∨ cmdField cw = 0x21) ∧ 32 < (nField cw).toNat)

/-! ## Stepping -/

/-- A step on an issued word that decodes runs the decoded command, the action taken off the host's list (assumption 1). -/
def Obligations.StepRunsTheDecodedCommand : Prop :=
  ∀ (s : State) (cw : CmdWord) (rest : List HostAction) (i : Instr), s.host = .issue cw :: rest → decode cw = .ok i →
    step s = exec i { s with host := rest }

/-- A step on an issued word that does not decode is a contract violation; while `fatal` is already set it returns `FATAL` and changes
nothing (30_encoding R93, 60_exceptions R302). -/
def Obligations.StepOnAnIllegalWord : Prop :=
  ∀ (s : State) (cw : CmdWord) (rest : List HostAction) (e : DecodeError), s.host = .issue cw :: rest → decode cw = .error e →
    Violation { s with host := rest } (step s)

/-- What the host's other actions do, and that a block with no action to come waits (60_exceptions R319, 70_reset R350, R355). A read of
the host's own consumes the next answer of the input channel, a byte or `None` (20_memory R61), and gets `None` where the list is used
up; a write of its own consumes the next answer of the output channel, `ok` or `fail` (20_memory R62), and is accepted where the list is
used up (assumption 3); an answer that never comes stops the model (assumption 14); of the block nothing changes. -/
def Obligations.StepsOfTheHost : Prop :=
  ∀ (s : State) (rest : List HostAction),
    (s.host = [] → step s = .next s) ∧
    (s.host = .resetInput :: rest → step s = .next (resetBlock { s with host := rest })) ∧
    (∀ b as, s.host = .readByte :: rest → s.input = .byte b :: as →
      step s = .next { s with host := rest, input := as, trace := .read .host (some b) :: s.trace }) ∧
    (∀ as, s.host = .readByte :: rest → s.input = .none :: as →
      step s = .next { s with host := rest, input := as, trace := .read .host none :: s.trace }) ∧
    (s.host = .readByte :: rest → s.input = [] →
      step s = .next { s with host := rest, trace := .read .host none :: s.trace }) ∧
    (∀ as, s.host = .readByte :: rest → s.input = .never :: as → step s = .fault .inputNeverAnswers) ∧
    (∀ b as, s.host = .writeByte b :: rest → s.sink = .ok :: as →
      step s = .next { s with host := rest, sink := as, trace := .write .host b true :: s.trace }) ∧
    (∀ b as, s.host = .writeByte b :: rest → s.sink = .fail :: as →
      step s = .next { s with host := rest, sink := as, trace := .write .host b false :: s.trace }) ∧
    (∀ b, s.host = .writeByte b :: rest → s.sink = [] →
      step s = .next { s with host := rest, trace := .write .host b true :: s.trace }) ∧
    (∀ b as, s.host = .writeByte b :: rest → s.sink = .never :: as → step s = .fault .outputNeverAnswers) ∧
    (∀ as, s.host = .attachInput as :: rest →
      step s = .next { s with host := rest, input := as, trace := .attachedInput :: s.trace }) ∧
    (∀ as, s.host = .attachOutput as :: rest →
      step s = .next { s with host := rest, sink := as, trace := .attachedOutput :: s.trace })

/-! ## Contract violations -/

/-- 10_state R28: `fatal` is set by a contract violation and by nothing else, cleared only by reset (the command or the input), and
while it is set every command but `SYS.RESET` returns `FATAL` and changes no state of the block. -/
def Obligations.FatalIsSticky : Prop :=
  ∀ s : State,
    (∀ i, s.fatal = false → violates i s = true → ∃ t, exec i s = .next t ∧ t.fatal = true) ∧
    (∀ cw e, decode cw = .error e → ∃ t, issueWord cw s = .next t ∧ t.fatal = true) ∧
    (∀ t, step s = .next t → s.fatal = false → t.fatal = true →
      ∃ cw rest, s.host = .issue cw :: rest ∧ ∀ i, decode cw = .ok i → violates i s = true) ∧
    (∀ t, step s = .next t → s.fatal = true → t.fatal = false →
      ∃ rest, s.host = .resetInput :: rest ∨ ∃ cw, s.host = .issue cw :: rest ∧ decode cw = .ok .sysReset) ∧
    (∃ t u, exec .sysReset s = .next t ∧ t.result = some ⟨.ok, 0⟩ ∧ t.fatal = false ∧ assertReset s = .next u ∧ u.fatal = false) ∧
    (∀ i, s.fatal = true → i ≠ .sysReset → FailsWith .fatal s (exec i s))

/-- 60_exceptions R303: a contract violation sets `fatal`, changes nothing else of the block and returns `FATAL`; its causes are an
undefined or illegal word and those of `violates`, which are tests of the command and of the block's state and of no stream; from then on
every command but `SYS.RESET` returns `FATAL` and does nothing. -/
def Obligations.ContractViolationsComplete : Prop :=
  (∀ (i : Instr) (s : State), s.fatal = false → violates i s = true → Violation s (exec i s)) ∧
  (∀ (cw : CmdWord) (e : DecodeError) (s : State), s.fatal = false → decode cw = .error e → Violation s (issueWord cw s)) ∧
  (∀ (i : Instr) (s t : State), s.fatal = false → violates i s = false → exec i s = .next t →
    t.fatal = false ∧ ∀ v, t.result ≠ some ⟨.fail .fatal, v⟩) ∧
  (∀ (i : Instr) (s s' : State), s.rl.phase = s'.rl.phase → s.hf.phase = s'.hf.phase → s.lz.phase = s'.lz.phase →
    s.ctValid = s'.ctValid → violates i s = violates i s') ∧
  (∀ (i : Instr) (s : State), s.fatal = true → i ≠ .sysReset → FailsWith .fatal s (exec i s))

/-- Every loop is bounded: where both channels always answer, every command returns, and they always answer afterwards (70_reset
R358). A command that does not return has met an answer that never comes. For `LZ.DECODEP` this is the model's choice (assumption 2,
DESIGN CHOICE): R358 says that `LZ.DECODEP` needs a channel that eventually answers `None`, and the model's channels, being finite lists
of answers, all do. -/
def Obligations.EveryCommandReturns : Prop :=
  ∀ (i : Instr) (s : State), alwaysAnswers s = true → ∃ t, exec i s = .next t ∧ alwaysAnswers t = true

/-! ## Invariants and reset -/

/-- The invariants of 10_state R24 to R27, R30, R34 and 44_lzw R262 are kept by every step, from every state that has them. -/
def Obligations.StepKeepsTheInvariants : Prop := ∀ s t : State, s.Invariant → step s = .next t → t.Invariant

/-- The machine right after reset has the invariants, and the values 10_state R32 states (70_reset R350); the values that assumption 7
names keep the invariants. -/
def Obligations.ResetHasTheInvariants : Prop :=
  State.Invariant Sys2Proof.core.reset ∧ State.reset.rd.off = 8 ∧ State.reset.rd.pulled = 0 ∧ State.reset.wr = ⟨0, 0⟩ ∧
    State.reset.ctValid = false ∧ State.reset.rl.phase = .idle ∧ State.reset.hf.phase = .idle ∧ State.reset.lz.phase = .idle ∧
    State.reset.fatal = false

/-- `SYS.RESET` runs in every state, even while `fatal` is set, returns `OK`, and leaves the block as the reset input does. Each gives
the value 10_state R32 states to every state variable for which it states one, and neither touches a channel: pending bits of the reader
and of the writer are lost (40_bitstream R140, 70_reset R350, R351). -/
def Obligations.ResetStatesAndChannels : Prop :=
  (∀ cw : CmdWord, cmdField cw = 0x00 → decode cw = .ok .sysReset) ∧
  ∀ s : State, ∃ t u, exec .sysReset s = .next t ∧ assertReset s = .next u ∧ t = u.answer ⟨.ok, 0⟩ ∧
    u.rd.off = 8 ∧ u.rd.pulled = 0 ∧ u.wr.holder = 0 ∧ u.wr.off = 0 ∧ u.ctValid = false ∧ u.rl.phase = .idle ∧ u.hf.phase = .idle ∧
    u.lz.phase = .idle ∧ u.fatal = false ∧
    u.input = s.input ∧ u.sink = s.sink ∧ u.trace = s.trace ∧ u.output = s.output ∧ u.host = s.host ∧ u.params = s.params

/-! ## Channels, phases, memories, statuses -/

/-- Each channel access of a command consumes the next answer of its channel and is recorded in order; nothing is given back, and no
event is anybody's but the block's (20_memory R61, R62, R69). -/
def Obligations.ChannelsMoveForward : Prop :=
  ∀ (i : Instr) (s t : State), exec i s = .next t → ChanMoves s t ∧ s.output <+: t.output

/-- The phases of the three units after a command: as 10_state R30 says where it is no contract violation, and unchanged where it is. -/
def Obligations.PhasesFollowTheProtocol : Prop :=
  ∀ (i : Instr) (s t : State) (r : Result), s.fatal = false → exec i s = .next t → t.result = some r →
    (violates i s = true → t.rl.phase = s.rl.phase ∧ t.hf.phase = s.hf.phase ∧ t.lz.phase = s.lz.phase) ∧
    (violates i s = false → t.rl.phase = rlPhaseAfter i r.res.good s.rl.phase ∧ t.hf.phase = hfPhaseAfter i r.res.good s.hf.phase ∧
      t.lz.phase = lzPhaseAfter i r.res.good s.lz.phase)

/-- Which commands write the code table, the trie and the dictionary (20_memory R74); resetting and closing a unit apart, which leave
them unspecified. -/
def Obligations.WritersOfTheInternalMemories : Prop :=
  ∀ (i : Instr) (s t : State), exec i s = .next t →
    (t.ct ≠ s.ct ∨ t.ctValid ≠ s.ctValid → i = .sysReset ∨ i = .ctLoad ∨ i = .hfDecode) ∧
    (t.hf.nodes ≠ s.hf.nodes → i = .sysReset ∨ i = .hfBegin ∨ i = .hfEnd ∨ i = .hfDecode) ∧
    (t.lz.dict ≠ s.lz.dict ∨ t.lz.prev ≠ s.lz.prev →
      i = .sysReset ∨ i = .lzBegin ∨ (∃ c, i = .lzPut c) ∨ i = .lzEnd ∨ i = .lzDecodeP ∨ i = .lzDecodeB)

/-- Which command returns which failure, complete (60_exceptions R304 to R306); and only `HF.BIT` returns `MORE` (R301). -/
def Obligations.FailuresByCommand : Prop :=
  ∀ (i : Instr) (s t : State) (r : Result), exec i s = .next t → t.result = some r →
    (∀ f, r.res = .fail f → mayFail i f = true) ∧ (r.res = .more → ∃ b, i = .hfBit b)

/-- The 4-bit codes of the statuses (60_exceptions R301): distinct, and 11 to 14 never returned. -/
def Obligations.StatusCodes : Prop :=
  Status.code .ok = 0 ∧ Status.code .more = 1 ∧ Status.code (.fail .ioRead) = 2 ∧ Status.code (.fail .ioWrite) = 3 ∧
  Status.code (.fail .corruptTable) = 4 ∧ Status.code (.fail .corruptNoData) = 5 ∧ Status.code (.fail .corruptMidCode) = 6 ∧
  Status.code (.fail .corruptBitCount) = 7 ∧ Status.code (.fail .corruptCode) = 8 ∧ Status.code (.fail .corruptRange) = 9 ∧
  Status.code (.fail .limit) = 10 ∧ Status.code (.fail .fatal) = 15 ∧
  (∀ x y : Status, x.code = y.code → x = y) ∧ ∀ x : Status, x.code.toNat ≤ 10 ∨ x.code = 15

/-- `bitwidth` (00_scope R8). -/
def Obligations.BitwidthIsTheBitCount : Prop :=
  bitwidth 0 = 1 ∧ ∀ n k : Nat, 0 < n → (bitwidth n = k ↔ 1 ≤ k ∧ 2 ^ (k - 1) ≤ n ∧ n < 2 ^ k)

/-! ## The bit reader and the bit writer -/

/-- `BR.INIT` (40_bitstream R141): the holder is exhausted and `pos` restarts at 0. `BR.ALIGN` (R143): the holder is exhausted, and
`pos` is rounded up to a multiple of 8. Nothing is pulled, and nothing else changes. -/
def Obligations.BrInitAndBrAlign : Prop :=
  ∀ s : State, s.fatal = false →
    (∃ t, exec .brInit s = .next t ∧ t = { s with rd := { s.rd with off := 8, pulled := 0 }, result := some ⟨.ok, 0⟩ } ∧ t.pos = 0) ∧
    (∃ t, exec .brAlign s = .next t ∧ t = { s with rd := { s.rd with off := 8 }, result := some ⟨.ok, 0⟩ } ∧
      (s.rd.ok = true → t.pos = 8 * ((s.pos + 7) / 8)))

/-- `BR.READ n` where the bits are there (40_bitstream R142): it returns them, the first as bit 0, with the bits from `n` up zero, pulls
the bytes they need and no more, and leaves the rest for later reads; with `n` = 0 nothing changes. -/
def Obligations.BrReadReturnsTheBits : Prop :=
  ∀ (s : State) (n : BitVec 8), s.fatal = false → n.toNat ≤ 32 → n.toNat ≤ s.bitsAhead.length →
    ∃ v : Word, exec (.brRead n) s = .next ((s.afterRead n.toNat).answer ⟨.ok, v⟩) ∧
      (∀ k, v.getLsbD k = if k < n.toNat then s.bitsAhead.getD k false else false) ∧
      (s.afterRead n.toNat).bitsAhead = s.bitsAhead.drop n.toNat ∧ (n.toNat = 0 → s.afterRead n.toNat = s)

/-- `BR.READ n` where the channel gives out (40_bitstream R142): `IO_READ`, the bytes the channel gave are gone, and `rd_off` is 8. -/
def Obligations.BrReadCutShort : Prop :=
  ∀ (s : State) (n : BitVec 8), s.fatal = false → n.toNat ≤ 32 → s.bitsAhead.length < n.toNat → dryAnswer s.input = true →
    FailsWith .ioRead s.afterDry (exec (.brRead n) s) ∧ s.afterDry.rd.off = 8

/-- A successful read of `n` bits advances `pos` by `n` and pulls ceil(max(0, n - (8 - rd_off)) / 8) bytes (10_state R22,
20_memory R66). -/
def Obligations.ReadsAdvanceThePosition : Prop :=
  ∀ (s t : State) (n : BitVec 8) (v : Word), s.rd.ok = true → exec (.brRead n) s = .next t → t.result = some ⟨.ok, v⟩ →
    t.pos = s.pos + n.toNat ∧ t.rd.pulled = s.rd.pulled + (n.toNat - (8 - s.rd.off.val) + 7) / 8

/-- `BW.INIT` (40_bitstream R145): the writer is empty, pending bits are dropped and not flushed, and nothing else changes. -/
def Obligations.BwInitDropsPendingBits : Prop :=
  (∀ cw : CmdWord, cmdField cw = 0x20 → decode cw = .ok .bwInit) ∧
  ∀ s : State, s.fatal = false → ∃ t, exec .bwInit s = .next t ∧ t = { s with wr := ⟨0, 0⟩, result := some ⟨.ok, 0⟩ } ∧
    t.output = s.output

/-- `BW.WRITE n, value` where the channel accepts (40_bitstream R146): the low `n` bits of `value` follow the pending ones, bit 0 first,
every full byte goes to the channel, and fewer than 8 bits stay pending. -/
def Obligations.BwWriteAppendsTheBits : Prop :=
  ∀ (s : State) (n : BitVec 8) (v : Word), s.fatal = false → s.wr.ok = true → n.toNat ≤ 32 →
    sinkAccepts (pushCount s.wr.off n.toNat) s.sink = true →
    ∃ t, exec (.bwWrite n v) s = .next t ∧ t = (s.afterWrite (fieldBits n.toNat v.toNat)).answer ⟨.ok, 0⟩ ∧
      t.output.flatMap bitsOfByte ++ t.wr.pending =
        s.output.flatMap bitsOfByte ++ s.wr.pending ++ fieldBits n.toNat v.toNat

/-- `BW.WRITE` where the channel refuses a byte after `k` accepted ones (40_bitstream R146): `IO_WRITE`, the writer is empty, and the
`k` bytes are what the channel got. -/
def Obligations.BwWriteRefused : Prop :=
  ∀ (s : State) (n : BitVec 8) (v : Word) (k : Nat) (rest : List WriteAnswer), s.fatal = false → s.wr.ok = true → n.toNat ≤ 32 →
    s.sink = List.replicate k .ok ++ .fail :: rest → k < pushCount s.wr.off n.toNat →
    ∃ t r, exec (.bwWrite n v) s = .next t ∧ t.result = some ⟨.fail .ioWrite, r⟩ ∧ t.wr = ⟨0, 0⟩ ∧ t.sink = rest ∧
      t.output = s.output ++ packBits ((s.wr.pending ++ fieldBits n.toNat v.toNat).take (8 * k))

/-- `BW.COMPLETE` (40_bitstream R147): nothing to write where `wr_off` is 0; else the holder goes to the channel and the writer is empty,
whether or not the channel takes it. By the writer's invariant (10_state R34(c)) the holder's unfilled bits are zero. -/
def Obligations.BwCompleteFlushesTheHolder : Prop :=
  (∀ cw : CmdWord, cmdField cw = 0x22 → decode cw = .ok .bwComplete) ∧
  ∀ s : State, s.fatal = false →
    (s.wr.off = 0 → exec .bwComplete s = .next (s.answer ⟨.ok, 0⟩)) ∧
    (s.wr.off ≠ 0 → sinkAccepts 1 s.sink = true →
      exec .bwComplete s = .next ((({ s with wr := ⟨0, 0⟩ } : State).afterBytes [s.wr.holder]).answer ⟨.ok, 0⟩) ∧
        (s.wr.ok = true → bitsOfByte s.wr.holder = s.wr.pending ++ List.replicate (8 - s.wr.off.val) false)) ∧
    (∀ rest, s.wr.off ≠ 0 → s.sink = .fail :: rest → FailsWith .ioWrite
      { s with wr := ⟨0, 0⟩, sink := rest, trace := .write .block s.wr.holder false :: s.trace } (exec .bwComplete s))

/-- 40_bitstream R149: reading `a` bits and then `b` bits is reading `a + b` bits; the same for writes. -/
def Obligations.Regrouping : Prop :=
  (∀ (s : State) (a b : BitVec 8), s.fatal = false → a.toNat + b.toNat ≤ 32 → a.toNat + b.toNat ≤ s.bitsAhead.length →
    ∃ t u x y, exec (.brRead a) s = .next t ∧ t.result = some ⟨.ok, x⟩ ∧ exec (.brRead b) t = .next u ∧ u.result = some ⟨.ok, y⟩ ∧
      exec (.brRead (a + b)) s = .next (u.answer ⟨.ok, x ||| y <<< a.toNat⟩)) ∧
  (∀ (s : State) (a b : BitVec 8) (v : Word), s.fatal = false → s.wr.ok = true → a.toNat + b.toNat ≤ 32 →
    sinkAccepts (pushCount s.wr.off (a.toNat + b.toNat)) s.sink = true →
    ∃ t u, exec (.bwWrite a v) s = .next t ∧ exec (.bwWrite b (v >>> a.toNat)) t = .next u ∧ exec (.bwWrite (a + b) v) s = .next u)

/-- 40_bitstream R148: fields written from `BW.INIT` and closed by `BW.COMPLETE` are ceil(sum / 8) bytes, and those bytes, read from
`BR.INIT` in the same widths, return the fields modulo 2^n in order, pull exactly those bytes, and leave zero padding. -/
def Obligations.WriteThenReadExactness : Prop :=
  ∀ (fields : List (BitVec 8 × Word)) (s : State), s.fatal = false → (∀ f ∈ fields, f.1.toNat ≤ 32) →
    sinkAccepts (((fields.map fun f => f.1.toNat).sum + 7) / 8) s.sink = true →
    ∃ (bytes : List Byte) (ws : List Result) (t : State),
      execResults (.bwInit :: (fields.map fun f => .bwWrite f.1 f.2) ++ [.bwComplete]) s = some (ws, t) ∧
      ws.all (fun r => r == ⟨.ok, 0⟩) = true ∧ t.output = s.output ++ bytes ∧
      bytes.length = ((fields.map fun f => f.1.toNat).sum + 7) / 8 ∧
      ∀ (s' : State) (rest : List ReadAnswer), s'.fatal = false → s'.input = bytes.map .byte ++ rest →
        ∃ (t' : State) (left : Nat),
          execResults (.brInit :: fields.map fun f => .brRead f.1) s' =
            some (⟨.ok, 0⟩ :: fields.map (fun f => ⟨.ok, BitVec.ofNat 32 (f.2.toNat % 2 ^ f.1.toNat)⟩), t') ∧
          t'.input = rest ∧ t'.bitsAhead = List.replicate left false ++ (leadBytes rest).flatMap bitsOfByte

/-- The frame of the bit stream commands: `BR.` commands change only the reader, the input channel and the record of accesses, `BW.`
commands only the writer, the output channel and the record; no internal memory, no unit, and no byte of the output channel that was
there (10_state R21, R23). -/
def Obligations.BitStreamFrame : Prop :=
  ∀ (i : Instr) (s t : State), exec i s = .next t →
    (i = .brInit ∨ (∃ n, i = .brRead n) ∨ i = .brAlign →
      t = { s with rd := t.rd, input := t.input, trace := t.trace, result := t.result, fatal := s.fatal || violates i s,
                   draws := t.draws } ∧ t.output = s.output) ∧
    (i = .bwInit ∨ (∃ n v, i = .bwWrite n v) ∨ i = .bwComplete →
      t = { s with wr := t.wr, sink := t.sink, trace := t.trace, result := t.result, fatal := s.fatal || violates i s,
                   draws := t.draws } ∧ s.output <+: t.output)

/-! ## The code table -/

/-- `CT.LOAD` on a serialised table (41_code_table R170, 30_encoding R101, R102): exactly its entries are in the table, which is valid,
and exactly its bits have been read. -/
def Obligations.CtLoadLoadsTheTable : Prop :=
  ∀ (h : TableHeader) (es : List Entry) (s : State) (rest : List Bool), s.fatal = false → s.hf.phase = .idle → TableOk h es →
    s.bitsAhead = tableBits h es ++ rest →
    ∃ t, exec .ctLoad s = .next t ∧
      t = State.answer { s.afterRead (tableBits h es).length with ct := tableOf es, ctValid := true } ⟨.ok, BitVec.ofNat 32 es.length⟩ ∧
      t.bitsAhead = rest

/-- `CT.LOAD` accepts nothing else (41_code_table R171): where it returns `OK`, the bits it read are a serialised table with at most 256
entries, all legal and in ascending order, and the table holds them. -/
def Obligations.CtLoadAcceptsOnlyTables : Prop :=
  ∀ (s t : State) (v : Word), exec .ctLoad s = .next t → t.result = some ⟨.ok, v⟩ →
    ∃ (h : TableHeader) (es : List Entry), TableOk h es ∧ s.bitsAhead = tableBits h es ++ t.bitsAhead ∧ t.ct = tableOf es ∧
      t.ctValid = true ∧ v.toNat = es.length

/-- A failing `CT.LOAD` (41_code_table R171): `IO_READ` or `CORRUPT_TABLE`, `ct_valid` = 0, and no unit changes; in every case it
changes only the reader, the input channel, the record and the table. Which of the two: a header that is there and breaks check (1) or
(2) is `CORRUPT_TABLE` with the 200 bits read and no entry; so is the first entry that is there and breaks check (3), (4) or (5), with
the entries before it and its own bits read; a channel that ends inside an entry after good ones is `IO_READ`. -/
def Obligations.CtLoadFailureAndFrame : Prop :=
  (∀ (h : TableHeader) (s : State) (rest : List Bool), s.fatal = false → s.hf.phase = .idle → h.count < 2 ^ 32 →
    h.valueBits < 2 ^ 32 → h.codeBits < 2 ^ 32 → h.lengthBits < 2 ^ 32 → h.minValue < 2 ^ 8 → h.minCode < 2 ^ 32 →
    h.minLength < 2 ^ 32 → 256 < h.count ∨ (h.count ≠ 0 ∧ (32 < h.valueBits ∨ 32 < h.codeBits ∨ 32 < h.lengthBits)) →
    s.bitsAhead = tableHeaderBits h ++ rest →
    ∃ t v, exec .ctLoad s = .next t ∧ t.result = some ⟨.fail .corruptTable, v⟩ ∧ t.ctValid = false ∧ Flows s 200 [] t) ∧
  (∀ (h : TableHeader) (es : List Entry) (dv dc dl : Nat) (s : State) (rest : List Bool), s.fatal = false → s.hf.phase = .idle →
    headerFits h = true → es.length < h.count → (∀ e ∈ es, e.legal = true ∧ e.fits h = true) →
    es.Pairwise (fun a b => a.value < b.value) → dv < 2 ^ h.valueBits → dc < 2 ^ h.codeBits → dl < 2 ^ h.lengthBits →
    255 < h.minValue + dv ∨ (∃ e ∈ es, h.minValue + dv ≤ e.value) ∨ h.minLength + dl = 0 ∨ 32 < h.minLength + dl ∨
      2 ^ (h.minLength + dl) ≤ h.minCode + dc →
    s.bitsAhead = tableBits h es ++ fieldBits h.valueBits dv ++ fieldBits h.codeBits dc ++ fieldBits h.lengthBits dl ++ rest →
    ∃ t v, exec .ctLoad s = .next t ∧ t.result = some ⟨.fail .corruptTable, v⟩ ∧ t.ctValid = false ∧
      Flows s ((tableBits h es).length + h.valueBits + h.codeBits + h.lengthBits) [] t) ∧
  (∀ (h : TableHeader) (es : List Entry) (part : List Bool) (s : State), s.fatal = false → s.hf.phase = .idle →
    headerFits h = true → es.length < h.count → (∀ e ∈ es, e.legal = true ∧ e.fits h = true) →
    es.Pairwise (fun a b => a.value < b.value) → part.length < h.valueBits + h.codeBits + h.lengthBits →
    s.bitsAhead = tableBits h es ++ part → dryAnswer s.input = true →
    ∃ t v, exec .ctLoad s = .next t ∧ t.result = some ⟨.fail .ioRead, v⟩ ∧ t.ctValid = false ∧ t.rd = s.afterDry.rd ∧
      t.input = s.afterDry.input) ∧
  ∀ s t : State, exec .ctLoad s = .next t →
    (t = { s with rd := t.rd, input := t.input, trace := t.trace, ct := t.ct, ctValid := t.ctValid, result := t.result,
                  fatal := s.fatal || violates .ctLoad s, draws := t.draws } ∧ t.output = s.output) ∧
    (s.fatal = false → s.hf.phase = .idle → ∀ f v, t.result = some ⟨.fail f, v⟩ →
      (f = .ioRead ∨ f = .corruptTable) ∧ t.ctValid = false) ∧
    (s.fatal = false → s.hf.phase ≠ .idle → ∃ v, t.result = some ⟨.fail .fatal, v⟩ ∧ t.ct = s.ct ∧ t.ctValid = s.ctValid)

/-- A table cut inside its 200-bit header is `IO_READ`, whatever the fields that were there say (60_exceptions R308). -/
def Obligations.CtLoadCutHeader : Prop :=
  ∀ s : State, s.fatal = false → s.hf.phase = .idle → s.bitsAhead.length < 200 → dryAnswer s.input = true →
    ∃ t v, exec .ctLoad s = .next t ∧ t.result = some ⟨.fail .ioRead, v⟩ ∧ t.ctValid = false ∧ t.rd = s.afterDry.rd ∧
      t.input = s.afterDry.input

/-! ## RLE -/

/-- `RL.BEGIN` on an ordered header (42_rle R191): the ranges, the derived widths and the count are in the unit, which is active. -/
def Obligations.RlBeginReadsTheHeader : Prop :=
  ∀ (h : RleHeader) (total : Nat) (s : State) (rest : List Bool), s.fatal = false → s.rl.phase = .idle → h.ok = true →
    total < 2 ^ 32 → s.bitsAhead = rleHeaderBits h total ++ rest →
    ∃ t, exec .rlBegin s = .next t ∧
      t = State.answer { s.afterRead 64 with rl := h.unit total } ⟨.ok, BitVec.ofNat 32 total⟩ ∧ t.bitsAhead = rest ∧
      t.rl.vbits.val = bitwidth (h.maxV - h.minV) ∧ t.rl.rbits.val = bitwidth (h.maxR - h.minR)

/-- `RL.BEGIN` on a disordered header (42_rle R191): `CORRUPT_TABLE`, checked even where the count is 0, with the 64 bits read and the
unit still idle. On a header that the channel cuts short: `IO_READ`, the unit still idle. -/
def Obligations.RlBeginRefusesDisorder : Prop :=
  (∀ s : State, s.fatal = false → s.rl.phase = .idle → s.bitsAhead.length < 64 → dryAnswer s.input = true →
    ∃ t v, exec .rlBegin s = .next t ∧ t.result = some ⟨.fail .ioRead, v⟩ ∧ t.rl.phase = .idle ∧ t.rd = s.afterDry.rd ∧
      t.input = s.afterDry.input ∧ t.output = s.output) ∧
  ∀ (h : RleHeader) (total : Nat) (s : State) (rest : List Bool), s.fatal = false → s.rl.phase = .idle →
    h.minV < 256 → h.maxV < 256 → h.minR < 256 → h.maxR < 256 → total < 2 ^ 32 → h.maxV < h.minV ∨ h.maxR < h.minR →
    s.bitsAhead = rleHeaderBits h total ++ rest →
    ∃ t v, exec .rlBegin s = .next t ∧ t.result = some ⟨.fail .corruptTable, v⟩ ∧ t.rl.phase = .idle ∧ t.bitsAhead = rest ∧
      t.output = s.output

/-- `RL.PAIR` on a pair in the declared ranges (42_rle R192): the run is emitted, the pair's bits are counted off, and the pair is
returned. -/
def Obligations.RlPairEmitsTheRun : Prop :=
  ∀ (h : RleHeader) (p : Nat × Nat) (left : Nat) (s : State) (rest : List Bool), s.fatal = false → h.ok = true → h.holds p = true →
    s.rl = h.unit left → h.vbits + h.rbits ≤ left → left < 2 ^ 32 → s.bitsAhead = pairBits h p ++ rest →
    sinkAccepts p.2 s.sink = true →
    ∃ t, exec .rlPair s = .next t ∧ t.result = some ⟨.ok, BitVec.ofNat 32 (p.1 ||| p.2 <<< 8)⟩ ∧
      t.rl = h.unit (left - (h.vbits + h.rbits)) ∧ Flows s (h.vbits + h.rbits) (List.replicate p.2 (BitVec.ofNat 8 p.1)) t

/-- The failing `RL.PAIR`s (42_rle R192): with fewer bits left than a pair needs nothing is read; where the channel gives out
`IO_READ`; a pair out of its ranges is read, counted off and not emitted; where the channel refuses a byte the ones before it stay
emitted; the unit fails. -/
def Obligations.RlPairFailures : Prop :=
  ∀ s : State, s.fatal = false → s.rl.phase = .active →
    (s.rl.left.toNat < s.rl.pairBits → FailsWith .corruptBitCount (setRlPhase .failed s) (exec .rlPair s)) ∧
    (s.rl.pairBits ≤ s.rl.left.toNat → s.bitsAhead.length < s.rl.pairBits → dryAnswer s.input = true →
      FailsWith .ioRead (setRlPhase .failed s.afterDry) (exec .rlPair s)) ∧
    (∀ (dv dr : Nat) (rest : List Bool), s.rl.pairBits ≤ s.rl.left.toNat → dv < 2 ^ s.rl.vbits.val → dr < 2 ^ s.rl.rbits.val →
      s.bitsAhead = fieldBits s.rl.vbits dv ++ fieldBits s.rl.rbits dr ++ rest →
      (s.rl.maxV.toNat < s.rl.minV.toNat + dv ∨ s.rl.maxR.toNat < s.rl.minR.toNat + dr →
        ∃ t v, exec .rlPair s = .next t ∧ t.result = some ⟨.fail .corruptRange, v⟩ ∧ t.rl.phase = .failed ∧
          t.rl.left.toNat = s.rl.left.toNat - s.rl.pairBits ∧ Flows s s.rl.pairBits [] t) ∧
      (∀ (k : Nat) (as : List WriteAnswer), s.rl.minV.toNat + dv ≤ s.rl.maxV.toNat → s.rl.minR.toNat + dr ≤ s.rl.maxR.toNat →
        s.sink = List.replicate k .ok ++ .fail :: as → k < s.rl.minR.toNat + dr →
        ∃ t v, exec .rlPair s = .next t ∧ t.result = some ⟨.fail .ioWrite, v⟩ ∧ t.rl.phase = .failed ∧ t.sink = as ∧
          t.output = s.output ++ List.replicate k (BitVec.ofNat 8 (s.rl.minV.toNat + dv))))

/-- `RL.END` (42_rle R193): `OK` from active with the count used up and from failed, `CORRUPT_BITCOUNT` from active with bits left, and
idle in each case; a contract violation from idle; no channel is touched, and nothing but the unit changes. -/
def Obligations.RlEndChecksTheCount : Prop :=
  (∀ cw : CmdWord, cmdField cw = 0x42 → decode cw = .ok .rlEnd) ∧
  ∀ s : State, s.fatal = false →
    (s.rl.phase = .idle → Violation s (exec .rlEnd s)) ∧
    (s.rl.phase ≠ .idle → ∃ t, exec .rlEnd s = .next t ∧ t = { s with rl := t.rl, result := t.result, draws := t.draws } ∧
      t.rl.phase = .idle ∧ (s.rl.phase = .active → s.rl.left ≠ 0 → ∃ v, t.result = some ⟨.fail .corruptBitCount, v⟩) ∧
      (s.rl.phase = .active → s.rl.left = 0 → t.result = some ⟨.ok, 0⟩) ∧ (s.rl.phase = .failed → t.result = some ⟨.ok, 0⟩))

/-- `RL.DECODE` on an RLE stream (42_rle R194, 30_encoding R104): `OK`, the runs and nothing else are emitted, exactly the stream's bits
are read, ceil((64 + totalBitCount) / 8) bytes are pulled, and the unit is idle. -/
def Obligations.RlDecodeWholeStream : Prop :=
  ∀ (h : RleHeader) (ps : List (Nat × Nat)) (s : State) (rest : List Bool), s.fatal = false → s.rl.phase = .idle → h.ok = true →
    (∀ p ∈ ps, h.holds p = true) → ps.length * (h.vbits + h.rbits) < 2 ^ 32 → (brInit s).bitsAhead = rleBits h ps ++ rest →
    sinkAccepts (rleBytes ps).length s.sink = true →
    ∃ t, exec .rlDecode s = .next t ∧ t.result = some ⟨.ok, 0⟩ ∧ t.rl.phase = .idle ∧
      Flows (brInit s) (rleBits h ps).length (rleBytes ps) t ∧
      t.rd.pulled = (64 + ps.length * (h.vbits + h.rbits) + 7) / 8

/-- Decompress after compress for RLE (60_exceptions R321, 95_test_vectors S1, S2): the stream of the runs of any byte sequence, each
run saturating at 255 bytes (00_scope R5), whose bit count fits its 32-bit field decodes to it, and the bytes after it stay in the
channel. -/
def Obligations.RleRoundTrip : Prop :=
  ∀ (bytes : List Byte) (s : State) (rest : List ReadAnswer), s.fatal = false → s.rl.phase = .idle →
    (runsOf bytes).length * ((headerOf (runsOf bytes)).vbits + (headerOf (runsOf bytes)).rbits) < 2 ^ 32 →
    s.input = (packBits (rleBits (headerOf (runsOf bytes)) (runsOf bytes))).map .byte ++ rest →
    sinkAccepts bytes.length s.sink = true →
    ∃ t, exec .rlDecode s = .next t ∧ t.result = some ⟨.ok, 0⟩ ∧ t.output = s.output ++ bytes ∧ t.input = rest

/-- The host-driven sequence `BR.INIT`, `RL.BEGIN`, one `RL.PAIR` a pair, `RL.END` gives the output and the status of the one
`RL.DECODE`, and the same reader and channels (30_encoding R96), for every stream and every pair of channels that answer. On a legal
stream they are `OK` throughout. On any other: where `RL.BEGIN` fails, `RL.DECODE` returns its status; else the host issues one
`RL.PAIR` for each pair `rl_left` has room for, a last short one among them, up to the first that fails, and then `RL.END`; `RL.DECODE`
returns the failing pair's status, or `RL.END`'s where no pair fails. -/
def Obligations.RlHostDrivenAgrees : Prop :=
  (∀ s : State, s.fatal = false → s.rl.phase = .idle → alwaysAnswers s = true →
    ∃ (st : Status) (t u : State) (r : Result), execUntil [.brInit, .rlBegin] s = some (st, t) ∧ exec .rlDecode s = .next u ∧
      u.result = some r ∧ u.rl.phase = .idle ∧
      (st ≠ .ok → r.res = st ∧ t.rl.phase = .idle ∧ SameStreams t u) ∧
      (st = .ok → ∃ (st' : Status) (t' w : State) (e : Result),
        execUntil (List.replicate ((t.rl.left.toNat + t.rl.pairBits - 1) / t.rl.pairBits) .rlPair) t = some (st', t') ∧
        exec .rlEnd t' = .next w ∧ w.result = some e ∧ w.rl.phase = .idle ∧ r.res = (if st' = .ok then e.res else st') ∧
        SameStreams w u)) ∧
  ∀ (h : RleHeader) (ps : List (Nat × Nat)) (s : State) (rest : List Bool), s.fatal = false → s.rl.phase = .idle → h.ok = true →
    (∀ p ∈ ps, h.holds p = true) → ps.length * (h.vbits + h.rbits) < 2 ^ 32 → (brInit s).bitsAhead = rleBits h ps ++ rest →
    sinkAccepts (rleBytes ps).length s.sink = true →
    ∃ rs t u, execResults (.brInit :: .rlBegin :: List.replicate ps.length .rlPair ++ [.rlEnd]) s = some (rs, t) ∧
      rs.all (fun r => r.res == .ok) = true ∧ exec .rlDecode s = .next u ∧ u.result = some ⟨.ok, 0⟩ ∧ t.output = u.output ∧
      t.rd = u.rd ∧ t.input = u.input ∧ t.sink = u.sink ∧ t.rl.phase = u.rl.phase

/-- The frame of the RLE commands: only the reader, the two channels, the record, the RLE unit and (by a contract violation) `fatal`
change; output already accepted stays. `RL.END` touches no channel. -/
def Obligations.RleFrame : Prop :=
  ∀ (i : Instr) (s t : State), i = .rlBegin ∨ i = .rlPair ∨ i = .rlEnd ∨ i = .rlDecode → exec i s = .next t →
    t = { s with rd := t.rd, input := t.input, sink := t.sink, trace := t.trace, rl := t.rl, result := t.result,
                 fatal := s.fatal || violates i s, draws := t.draws } ∧
      s.output <+: t.output ∧ (i = .rlBegin ∨ i = .rlEnd → t.output = s.output) ∧
      (i = .rlEnd → t.rd = s.rd ∧ t.input = s.input ∧ t.sink = s.sink ∧ t.trace = s.trace)

/-! ## Huffman -/

/-- `HF.BEGIN` (43_huffman R222): it builds a trie within the arena's capacity exactly where the table is prefix-free, and else returns
`CORRUPT_TABLE` with the unit idle and the table kept, nothing of the unit changed but the arena, which keeps within its capacity. -/
def Obligations.HfBeginBuildsExactlyPrefixFree : Prop :=
  ∀ s : State, s.fatal = false → s.hf.phase = .idle → s.ctValid = true →
    (PrefixFree s.ct → ∃ t, exec .hfBegin s = .next t ∧ t.result = some ⟨.ok, 0⟩ ∧ t.hf.phase = .active ∧ t.hf.cur = 0 ∧
      t.hf.nodes.length ≤ 8193 ∧ t = { s with hf := t.hf, result := t.result }) ∧
    (¬ PrefixFree s.ct → ∃ t v, exec .hfBegin s = .next t ∧ t.result = some ⟨.fail .corruptTable, v⟩ ∧ t.hf.phase = .idle ∧
      t.ct = s.ct ∧ t.ctValid = true ∧ t.hf = { s.hf with nodes := t.hf.nodes } ∧ t.hf.nodes.length ≤ 8193 ∧
      t = { s with hf := t.hf, result := t.result, draws := t.draws })

/-- 43_huffman R221: after `HF.BEGIN`, `HF.BIT` for the bits of a byte value's code, bit 0 first, returns `MORE` for all but the last
and then the byte value, with the cursor back at the root; so a 1 bit goes left and a 0 bit right along the path the code names. -/
def Obligations.HfBitWalksACode : Prop :=
  ∀ (s t : State) (v : Byte), s.fatal = false → exec .hfBegin s = .next t → t.result = some ⟨.ok, 0⟩ → s.ct[v.toFin].length ≠ 0 →
    execResults ((pathOf s.ct[v.toFin]).map .hfBit) t =
      some (List.replicate (s.ct[v.toFin].length.val - 1) ⟨.more, 0⟩ ++ [⟨.ok, v.setWidth 32⟩],
        { t with result := some ⟨.ok, v.setWidth 32⟩ })

/-- Where a bit leaves every code (43_huffman R223, R226): the walk so far returned `MORE`, the bit returns `CORRUPT_NODATA`, the cursor
is at the root and the unit has failed. -/
def Obligations.HfBitRefusesADeadEnd : Prop :=
  ∀ (s t : State) (q : List Bool) (b : Bool), s.fatal = false → exec .hfBegin s = .next t → t.result = some ⟨.ok, 0⟩ →
    (q = [] ∨ ∃ v : Fin 256, s.ct[v].length ≠ 0 ∧ q <+: pathOf s.ct[v] ∧ q ≠ pathOf s.ct[v]) →
    (∀ v : Fin 256, s.ct[v].length ≠ 0 → ¬ (q ++ [b]) <+: pathOf s.ct[v]) →
    ∃ u r, execResults ((q ++ [b]).map .hfBit) t =
        some (List.replicate q.length ⟨.more, 0⟩ ++ [⟨.fail .corruptNoData, r⟩], u) ∧
      u.hf = { t.hf with cur := 0, phase := .failed }

/-- `HF.BIT b` (43_huffman R223): the three outcomes of one edge; no channel is touched; a contract violation where the unit is not
active. -/
def Obligations.HfBitTakesOneEdge : Prop :=
  ∀ (s : State) (b : Bool), s.fatal = false →
    (s.hf.phase ≠ .active → Violation s (exec (.hfBit b) s)) ∧
    (s.hf.phase = .active → (nodeAt s.hf.nodes s.hf.cur).child b = none →
      FailsWith .corruptNoData { s with hf := { s.hf with cur := 0, phase := .failed } } (exec (.hfBit b) s)) ∧
    (∀ k, s.hf.phase = .active → (nodeAt s.hf.nodes s.hf.cur).child b = some k → (nodeAt s.hf.nodes k).leaf = true →
      exec (.hfBit b) s =
        .next (State.answer { s with hf := { s.hf with cur := 0 } } ⟨.ok, (nodeAt s.hf.nodes k).sym.setWidth 32⟩)) ∧
    (∀ k, s.hf.phase = .active → (nodeAt s.hf.nodes s.hf.cur).child b = some k → (nodeAt s.hf.nodes k).leaf = false →
      exec (.hfBit b) s = .next (State.answer { s with hf := { s.hf with cur := k } } ⟨.more, 0⟩))

/-- `HF.END` (43_huffman R224): `CORRUPT_MIDCODE` from active with the cursor off the root, `OK` from active at the root and from
failed; idle in each case, with nothing but the unit changed, so that `HF.BEGIN` from the same table is legal again; a contract violation
from idle. -/
def Obligations.HfEndChecksTheCursor : Prop :=
  (∀ cw : CmdWord, cmdField cw = 0x52 → decode cw = .ok .hfEnd) ∧
  ∀ s : State, s.fatal = false →
    (s.hf.phase = .idle → Violation s (exec .hfEnd s)) ∧
    (s.hf.phase ≠ .idle → ∃ t, exec .hfEnd s = .next t ∧ t = { s with hf := t.hf, result := t.result, draws := t.draws } ∧
      t.hf.phase = .idle ∧ violates .hfBegin t = !s.ctValid ∧
      (s.hf.phase = .active → s.hf.cur ≠ 0 → ∃ v, t.result = some ⟨.fail .corruptMidCode, v⟩) ∧
      (s.hf.phase = .active → s.hf.cur = 0 → t.result = some ⟨.ok, 0⟩) ∧ (s.hf.phase = .failed → t.result = some ⟨.ok, 0⟩))

/-- `HF.DECODE` on a Huffman stream (43_huffman R225, 30_encoding R103, 60_exceptions R321): for every prefix-free table and every
message of its symbols, `OK`, the message and nothing else is emitted, exactly the stream's bits are read, and the unit is idle. -/
def Obligations.HuffmanRoundTrip : Prop :=
  ∀ (h : TableHeader) (es : List Entry) (msg : List Byte) (s : State) (rest : List ReadAnswer), s.fatal = false →
    s.hf.phase = .idle → TableOk h es → PrefixFree (tableOf es) → (∀ v ∈ msg, (tableOf es)[v.toFin].length ≠ 0) →
    (messageBits (tableOf es) msg).length < 2 ^ 32 → s.input = (packBits (huffmanBits h es msg)).map .byte ++ rest →
    sinkAccepts msg.length s.sink = true →
    ∃ t, exec .hfDecode s = .next t ∧ t.result = some ⟨.ok, 0⟩ ∧ t.output = s.output ++ msg ∧ t.input = rest ∧
      t.hf.phase = .idle ∧ t.ct = tableOf es ∧ t.ctValid = true ∧ t.pos = (huffmanBits h es msg).length

/-- The failing `HF.DECODE`s (43_huffman R225, R227, 60_exceptions R305), each with the whole symbols before the failure emitted and the
unit idle. A channel that ends inside the codes is `IO_READ`, never a success; so is one that ends inside the bit count. A bit that
leaves every code is `CORRUPT_NODATA`, read and no further. A bit count that ends inside a code is `CORRUPT_MIDCODE`. A table that is
not prefix-free is `CORRUPT_TABLE`, the table and the bit count read and the table still valid. A byte the output channel refuses is
`IO_WRITE`, its code read and no further. Where `CT.LOAD` fails after `BR.INIT`, `HF.DECODE` returns its status. -/
def Obligations.HuffmanCutStreamFails : Prop :=
  (∀ (h : TableHeader) (es : List Entry) (msg : List Byte) (q : List Bool) (b : Bool) (total : Nat) (s : State) (rest : List Bool),
    s.fatal = false → s.hf.phase = .idle → TableOk h es → PrefixFree (tableOf es) →
    (∀ w ∈ msg, (tableOf es)[w.toFin].length ≠ 0) →
    (q = [] ∨ ∃ v : Fin 256, (tableOf es)[v].length ≠ 0 ∧ q <+: pathOf (tableOf es)[v] ∧ q ≠ pathOf (tableOf es)[v]) →
    (∀ v : Fin 256, (tableOf es)[v].length ≠ 0 → ¬ (q ++ [b]) <+: pathOf (tableOf es)[v]) →
    total < 2 ^ 32 → (messageBits (tableOf es) msg).length + q.length < total →
    (brInit s).bitsAhead = tableBits h es ++ fieldBits 32 total ++ (messageBits (tableOf es) msg ++ (q ++ b :: rest)) →
    sinkAccepts msg.length s.sink = true →
    ∃ t r, exec .hfDecode s = .next t ∧ t.result = some ⟨.fail .corruptNoData, r⟩ ∧ t.hf.phase = .idle ∧
      Flows (brInit s) ((tableBits h es).length + 32 + (messageBits (tableOf es) msg).length + q.length + 1) msg t) ∧
  (∀ (h : TableHeader) (es : List Entry) (msg : List Byte) (v : Byte) (part : List Bool) (total : Nat) (s : State) (rest : List Bool),
    s.fatal = false → s.hf.phase = .idle → TableOk h es → PrefixFree (tableOf es) →
    (∀ w ∈ msg, (tableOf es)[w.toFin].length ≠ 0) → (tableOf es)[v.toFin].length ≠ 0 → part <+: pathOf (tableOf es)[v.toFin] →
    part ≠ pathOf (tableOf es)[v.toFin] → part ≠ [] → total < 2 ^ 32 →
    total = (messageBits (tableOf es) msg).length + part.length →
    (brInit s).bitsAhead = tableBits h es ++ fieldBits 32 total ++ (messageBits (tableOf es) msg ++ (part ++ rest)) →
    sinkAccepts msg.length s.sink = true →
    ∃ t r, exec .hfDecode s = .next t ∧ t.result = some ⟨.fail .corruptMidCode, r⟩ ∧ t.hf.phase = .idle ∧
      Flows (brInit s) ((tableBits h es).length + 32 + total) msg t) ∧
  (∀ (h : TableHeader) (es : List Entry) (total : Nat) (s : State) (rest : List Bool), s.fatal = false → s.hf.phase = .idle →
    TableOk h es → ¬ PrefixFree (tableOf es) → total < 2 ^ 32 →
    (brInit s).bitsAhead = tableBits h es ++ fieldBits 32 total ++ rest →
    ∃ t r, exec .hfDecode s = .next t ∧ t.result = some ⟨.fail .corruptTable, r⟩ ∧ t.hf.phase = .idle ∧ t.ct = tableOf es ∧
      t.ctValid = true ∧ Flows (brInit s) ((tableBits h es).length + 32) [] t) ∧
  (∀ (h : TableHeader) (es : List Entry) (msg : List Byte) (v : Byte) (total : Nat) (s : State) (rest : List Bool)
    (as : List WriteAnswer), s.fatal = false → s.hf.phase = .idle → TableOk h es → PrefixFree (tableOf es) →
    (∀ w ∈ msg, (tableOf es)[w.toFin].length ≠ 0) → (tableOf es)[v.toFin].length ≠ 0 → total < 2 ^ 32 →
    (messageBits (tableOf es) (msg ++ [v])).length ≤ total →
    (brInit s).bitsAhead = tableBits h es ++ fieldBits 32 total ++ (messageBits (tableOf es) (msg ++ [v]) ++ rest) →
    s.sink = List.replicate msg.length .ok ++ .fail :: as →
    ∃ t r, exec .hfDecode s = .next t ∧ t.result = some ⟨.fail .ioWrite, r⟩ ∧ t.hf.phase = .idle ∧ t.output = s.output ++ msg ∧
      t.sink = as ∧
      t.rd = ((brInit s).afterRead ((tableBits h es).length + 32 + (messageBits (tableOf es) (msg ++ [v])).length)).rd ∧
      t.input = ((brInit s).afterRead ((tableBits h es).length + 32 + (messageBits (tableOf es) (msg ++ [v])).length)).input) ∧
  (∀ (s t : State) (f : Failure) (v : Word), s.fatal = false → s.hf.phase = .idle → exec .ctLoad (brInit s) = .next t →
    t.result = some ⟨.fail f, v⟩ →
    ∃ u r, exec .hfDecode s = .next u ∧ u.result = some ⟨.fail f, r⟩ ∧ u.hf.phase = .idle ∧ u.ctValid = false ∧ SameStreams t u) ∧
  (∀ (h : TableHeader) (es : List Entry) (part : List Bool) (s : State), s.fatal = false → s.hf.phase = .idle → TableOk h es →
    part.length < 32 → (brInit s).bitsAhead = tableBits h es ++ part → dryAnswer s.input = true →
    ∃ t r, exec .hfDecode s = .next t ∧ t.result = some ⟨.fail .ioRead, r⟩ ∧ t.hf.phase = .idle ∧ t.output = s.output) ∧
  ∀ (h : TableHeader) (es : List Entry) (msg : List Byte) (v : Byte) (part : List Bool) (total : Nat) (s : State), s.fatal = false →
    s.hf.phase = .idle → TableOk h es → PrefixFree (tableOf es) → (∀ w ∈ msg, (tableOf es)[w.toFin].length ≠ 0) →
    (tableOf es)[v.toFin].length ≠ 0 → part <+: pathOf (tableOf es)[v.toFin] → part ≠ pathOf (tableOf es)[v.toFin] →
    total < 2 ^ 32 → (messageBits (tableOf es) msg).length + part.length < total →
    (brInit s).bitsAhead = tableBits h es ++ fieldBits 32 total ++ messageBits (tableOf es) msg ++ part → dryAnswer s.input = true →
    sinkAccepts msg.length s.sink = true →
    ∃ t r, exec .hfDecode s = .next t ∧ t.result = some ⟨.fail .ioRead, r⟩ ∧ t.output = s.output ++ msg ∧ t.hf.phase = .idle

/-- The frame of the Huffman commands: only the Huffman unit and (by a contract violation) `fatal` change, and with `HF.DECODE` the
reader, the channels, the record and the code table too; output already accepted stays. -/
def Obligations.HuffmanFrame : Prop :=
  ∀ (i : Instr) (s t : State), exec i s = .next t →
    (i = .hfBegin ∨ (∃ b, i = .hfBit b) ∨ i = .hfEnd →
      t = { s with hf := t.hf, result := t.result, fatal := s.fatal || violates i s, draws := t.draws } ∧ t.output = s.output) ∧
    (i = .hfDecode →
      t = { s with rd := t.rd, input := t.input, sink := t.sink, trace := t.trace, ct := t.ct, ctValid := t.ctValid, hf := t.hf,
                   result := t.result, fatal := s.fatal || violates i s, draws := t.draws } ∧ s.output <+: t.output)

/-! ## LZW -/

/-- `LZ.BEGIN` (44_lzw R261): the 256 one-byte sequences at the codes 0 to 255, an empty `lz_prev`, an active unit, and nothing else
changed; a contract violation where the unit is not idle. -/
def Obligations.LzBeginSeedsTheDictionary : Prop :=
  (∀ cw : CmdWord, cmdField cw = 0x60 → decode cw = .ok .lzBegin) ∧
  ∀ s : State, s.fatal = false →
    (s.lz.phase ≠ .idle → Violation s (exec .lzBegin s)) ∧
    (s.lz.phase = .idle → ∃ t, exec .lzBegin s = .next t ∧ t = { s with lz := t.lz, result := some ⟨.ok, 0⟩ } ∧
      t.lz = { s.lz with dict := t.lz.dict, prev := [], phase := .active } ∧ t.lz.size = 256 ∧
      ∀ c, c < 256 → t.lz.dict[c]? = some [BitVec.ofNat 8 c])

/-- `LZ.PUT` of a known code (44_lzw R263, R262): its sequence is emitted, `prev + S[0]` is inserted under the next code unless it is
there, and `prev` becomes the sequence. -/
def Obligations.LzPutKnownCode : Prop :=
  ∀ (s : State) (code : Word) (seq : List Byte), s.fatal = false → s.lz.phase = .active → s.lz.dict[code.toNat]? = some seq →
    sinkAccepts seq.length s.sink = true →
    (s.lz.prev ++ seq.take 1 ∈ s.lz.dict ∨
      (s.lz.size ≠ s.params.dictMax ∧ tooLong s.params.seqMax (s.lz.prev ++ seq.take 1) = false)) →
    ∃ t, exec (.lzPut code) s = .next t ∧ t.result = some ⟨.ok, BitVec.ofNat 32 seq.length⟩ ∧ Flows s 0 seq t ∧
      t.lz = { s.lz with prev := seq, dict := if s.lz.prev ++ seq.take 1 ∈ s.lz.dict then s.lz.dict
        else s.lz.dict ++ [s.lz.prev ++ seq.take 1] }

/-- `LZ.PUT` of the KwK code (44_lzw R263): the code is `lz_size` and `prev` is not empty; `prev + prev[0]` is emitted, inserted unless
it is there, and becomes `prev`. -/
def Obligations.LzPutKwK : Prop :=
  ∀ (s : State) (code : Word), s.fatal = false → s.lz.phase = .active → code.toNat = s.lz.size → s.lz.prev ≠ [] →
    sinkAccepts (s.lz.prev.length + 1) s.sink = true →
    (s.lz.prev ++ s.lz.prev.take 1 ∈ s.lz.dict ∨
      (s.lz.size ≠ s.params.dictMax ∧ tooLong s.params.seqMax (s.lz.prev ++ s.lz.prev.take 1) = false)) →
    ∃ t, exec (.lzPut code) s = .next t ∧ t.result = some ⟨.ok, BitVec.ofNat 32 (s.lz.prev.length + 1)⟩ ∧
      Flows s 0 (s.lz.prev ++ s.lz.prev.take 1) t ∧
      t.lz = { s.lz with
        prev := s.lz.prev ++ s.lz.prev.take 1
        dict := if s.lz.prev ++ s.lz.prev.take 1 ∈ s.lz.dict then s.lz.dict
          else s.lz.dict ++ [s.lz.prev ++ s.lz.prev.take 1] }

/-- The failing `LZ.PUT`s (44_lzw R263, R262): an unresolvable code emits nothing; where the channel refuses a byte the ones before it
stay emitted; a full dictionary (`DICT_MAX`) or a sequence above `SEQ_MAX` is `LIMIT` after the whole sequence was emitted; nothing is
inserted, `prev` stays, and the unit fails. The known code and the KwK code are `resolveCode`'s two answers. -/
def Obligations.LzPutFailures : Prop :=
  ∀ (s : State) (code : Word), s.fatal = false → s.lz.phase = .active →
    (∀ seq, s.lz.dict[code.toNat]? = some seq → resolveCode code.toNat s.lz = some (seq, s.lz.prev ++ seq.take 1)) ∧
    (code.toNat = s.lz.size → s.lz.prev ≠ [] →
      resolveCode code.toNat s.lz = some (s.lz.prev ++ s.lz.prev.take 1, s.lz.prev ++ s.lz.prev.take 1)) ∧
    (s.lz.size ≤ code.toNat → code.toNat ≠ s.lz.size ∨ s.lz.prev = [] →
      FailsWith .corruptCode (setLzPhase .failed s) (exec (.lzPut code) s)) ∧
    (∀ seq new, resolveCode code.toNat s.lz = some (seq, new) →
      (∀ (k : Nat) (as : List WriteAnswer), s.sink = List.replicate k .ok ++ .fail :: as → k < seq.length →
        ∃ t v, exec (.lzPut code) s = .next t ∧ t.result = some ⟨.fail .ioWrite, v⟩ ∧ t.sink = as ∧
          t.output = s.output ++ seq.take k ∧ t.lz = { s.lz with phase := .failed }) ∧
      (sinkAccepts seq.length s.sink = true → new ∉ s.lz.dict → s.lz.size = s.params.dictMax ∨ tooLong s.params.seqMax new = true →
        ∃ t v, exec (.lzPut code) s = .next t ∧ t.result = some ⟨.fail .limit, v⟩ ∧ Flows s 0 seq t ∧
          t.lz = { s.lz with phase := .failed }))

/-- `LZ.END` (44_lzw R264): idle from active and from failed, `OK`, nothing but the unit changed and no byte emitted; a contract
violation from idle. -/
def Obligations.LzEndClosesTheUnit : Prop :=
  (∀ cw : CmdWord, cmdField cw = 0x62 → decode cw = .ok .lzEnd) ∧
  ∀ s : State, s.fatal = false →
    (s.lz.phase = .idle → Violation s (exec .lzEnd s)) ∧
    (s.lz.phase ≠ .idle → ∃ t, exec .lzEnd s = .next t ∧ t.result = some ⟨.ok, 0⟩ ∧
      t = { s with lz := t.lz, result := t.result, draws := t.draws } ∧ t.lz.phase = .idle ∧ t.output = s.output)

/-- Decompress after compress for the plain framing (44_lzw R266, 30_encoding R106, 60_exceptions R321): the codes of any byte sequence
that the limits leave room for decode to it, to the end of the channel: a channel that is used up after the stream, or one whose next
answer is `None` (20_memory R61). -/
def Obligations.LzwPlainRoundTrip : Prop :=
  ∀ (bytes : List Byte) (s : State) (tail : List ReadAnswer), s.fatal = false → s.lz.phase = .idle → s.params.wf →
    roomFor s.params bytes.length → s.input = (packBits (plainBits (lzwCodes bytes))).map .byte ++ tail →
    (tail = [] ∨ ∃ rest, tail = .none :: rest) → sinkAccepts bytes.length s.sink = true →
    ∃ t, exec .lzDecodeP s = .next t ∧ t.result = some ⟨.ok, 0⟩ ∧ t.output = s.output ++ bytes ∧ t.input = tail.tail ∧
      t.lz.phase = .idle ∧ t.rd.off = 8

/-- Decompress after compress for the bit-packed framing (44_lzw R265, 30_encoding R105, 60_exceptions R321): with any minimum and width
that carry the codes, the stream decodes to the byte sequence, and the bytes after it stay in the channel; the empty stream is legal
with every width. And what `LZ.DECODEB` does with any other stream: a width above 32 with a count above 0 is `CORRUPT_TABLE`, the 72
header bits read; a channel that ends inside the header is `IO_READ`; else the codes are put one after another, as the host-driven
`LZ.PUT`s would (30_encoding R96), up to the first that fails, with its status; `min` + delta at or above 2^32 is `CORRUPT_RANGE`, the
delta read and nothing put; a channel that ends inside a delta is `IO_READ`; in each case the codes before have been put. -/
def Obligations.LzwPackedRoundTrip : Prop :=
  (∀ s : State, s.fatal = false → s.lz.phase = .idle → (brInit s).bitsAhead.length < 72 → dryAnswer s.input = true →
    ∃ u v, exec .lzDecodeB s = .next u ∧ u.result = some ⟨.fail .ioRead, v⟩ ∧ u.lz.phase = .idle ∧ u.output = s.output) ∧
  (∀ (count min width : Nat) (s : State) (rest : List Bool), s.fatal = false → s.lz.phase = .idle → count ≠ 0 → count < 2 ^ 32 →
    min < 2 ^ 32 → 32 < width → width < 2 ^ 8 →
    (brInit s).bitsAhead = fieldBits 32 count ++ fieldBits 32 min ++ fieldBits 8 width ++ rest →
    ∃ u v, exec .lzDecodeB s = .next u ∧ u.result = some ⟨.fail .corruptTable, v⟩ ∧ u.lz.phase = .idle ∧
      Flows (brInit s) 72 [] u) ∧
  (∀ (cs : List Nat) (count min width : Nat) (s : State) (rest : List Bool), s.fatal = false → s.lz.phase = .idle →
    s.sink.all (· != .never) = true → cs.length ≤ count → count < 2 ^ 32 → min < 2 ^ 32 → width < 2 ^ 8 → count = 0 ∨ width ≤ 32 →
    (∀ c ∈ cs, min ≤ c ∧ c - min < 2 ^ width ∧ c < 2 ^ 32) →
    (brInit s).bitsAhead = fieldBits 32 count ++ fieldBits 32 min ++ fieldBits 8 width ++
      (cs.flatMap (fun c => fieldBits width (c - min)) ++ rest) →
    ∃ (st : Status) (t : State),
      execUntil (.brInit :: .lzBegin :: cs.map fun c => .lzPut (BitVec.ofNat 32 c)) s = some (st, t) ∧
      (st ≠ .ok → ∃ u r, exec .lzDecodeB s = .next u ∧ u.result = some r ∧ r.res = st ∧ u.lz.phase = .idle ∧ u.sink = t.sink ∧
        u.output = t.output) ∧
      (st = .ok → cs.length = count → ∃ u, exec .lzDecodeB s = .next u ∧ u.result = some ⟨.ok, 0⟩ ∧ u.lz.phase = .idle ∧
        u.sink = t.sink ∧ u.output = t.output ∧ u.rd = ((brInit s).afterRead (72 + count * width)).rd ∧
        u.input = ((brInit s).afterRead (72 + count * width)).input) ∧
      (st = .ok → cs.length < count → ∀ (d : Nat) (rest' : List Bool), d < 2 ^ width → 2 ^ 32 ≤ min + d →
        rest = fieldBits width d ++ rest' →
        ∃ u v, exec .lzDecodeB s = .next u ∧ u.result = some ⟨.fail .corruptRange, v⟩ ∧ u.lz.phase = .idle ∧ u.sink = t.sink ∧
          u.output = t.output ∧ u.rd = ((brInit s).afterRead (72 + (cs.length + 1) * width)).rd ∧
          u.input = ((brInit s).afterRead (72 + (cs.length + 1) * width)).input) ∧
      (st = .ok → cs.length < count → rest.length < width → dryAnswer s.input = true →
        ∃ u v, exec .lzDecodeB s = .next u ∧ u.result = some ⟨.fail .ioRead, v⟩ ∧ u.lz.phase = .idle ∧ u.sink = t.sink ∧
          u.output = t.output)) ∧
  ∀ (bytes : List Byte) (min width : Nat) (s : State) (rest : List ReadAnswer), s.fatal = false → s.lz.phase = .idle →
    s.params.wf → roomFor s.params bytes.length → min < 2 ^ 32 → width < 2 ^ 8 → bytes = [] ∨ width ≤ 32 →
    (∀ c ∈ lzwCodes bytes, min ≤ c ∧ c - min < 2 ^ width) → bytes.length < 2 ^ 32 →
    s.input = (packBits (packedBits min width (lzwCodes bytes))).map .byte ++ rest → sinkAccepts bytes.length s.sink = true →
    ∃ t, exec .lzDecodeB s = .next t ∧ t.result = some ⟨.ok, 0⟩ ∧ t.output = s.output ++ bytes ∧ t.input = rest ∧
      t.lz.phase = .idle

/-- `LZ.DECODEP` to the end of its channel (44_lzw R266): the codes are put one after another, as the host-driven `LZ.PUT`s would
(30_encoding R96), up to the first that fails, with its status; where none fails, a channel that gives out at a code boundary, before
the first code or after any, is `OK`, and one that gives out after 1 to 3 bytes of a code is `IO_READ`, the codes before it put. -/
def Obligations.LzDecodePAtTheEnd : Prop :=
  ∀ (cs : List Nat) (extra : List Byte) (s : State), s.fatal = false → s.lz.phase = .idle → s.sink.all (· != .never) = true →
    (∀ c ∈ cs, c < 2 ^ 32) → extra.length ≤ 3 → leadBytes s.input = packBits (plainBits cs) ++ extra → dryAnswer s.input = true →
    ∃ (st : Status) (t u : State) (r : Result),
      execUntil (.brInit :: .lzBegin :: cs.map fun c => .lzPut (BitVec.ofNat 32 c)) s = some (st, t) ∧
      exec .lzDecodeP s = .next u ∧ u.result = some r ∧ u.lz.phase = .idle ∧ u.sink = t.sink ∧ u.output = t.output ∧
      (st ≠ .ok → r.res = st) ∧
      (st = .ok → extra = [] → r = ⟨.ok, 0⟩) ∧
      (st = .ok → extra ≠ [] → r.res = .fail .ioRead) ∧
      (st = .ok → u.rd.off = 8 ∧ u.input = s.afterDry.input)

/-- The frame of the LZW commands: `LZ.BEGIN` and `LZ.END` change only the unit; `LZ.PUT` the unit and the output channel; the `DECODE`
commands the reader and the input channel too; `fatal` only by a contract violation; output already accepted stays. -/
def Obligations.LzwFrame : Prop :=
  ∀ (i : Instr) (s t : State), exec i s = .next t →
    (i = .lzBegin ∨ i = .lzEnd →
      t = { s with lz := t.lz, result := t.result, fatal := s.fatal || violates i s, draws := t.draws } ∧ t.output = s.output) ∧
    ((∃ c, i = .lzPut c) →
      t = { s with sink := t.sink, trace := t.trace, lz := t.lz, result := t.result, fatal := s.fatal || violates i s,
                   draws := t.draws } ∧ s.output <+: t.output) ∧
    (i = .lzDecodeP ∨ i = .lzDecodeB →
      t = { s with rd := t.rd, input := t.input, sink := t.sink, trace := t.trace, lz := t.lz, result := t.result,
                   fatal := s.fatal || violates i s, draws := t.draws } ∧ s.output <+: t.output)
end

