-- ==== Sys2Proof/Laws/State.lean ====
section
/-! SUPPORT. Beside State: what each named update does to each field, one lemma a field, true by rfl. -/

namespace Sys2Proof.Machine

/-! ### answer -/

@[simp] theorem answer_host (s : State) (r : Result) : (s.answer r).host = s.host := rfl
@[simp] theorem answer_input (s : State) (r : Result) : (s.answer r).input = s.input := rfl
@[simp] theorem answer_sink (s : State) (r : Result) : (s.answer r).sink = s.sink := rfl
@[simp] theorem answer_trace (s : State) (r : Result) : (s.answer r).trace = s.trace := rfl
@[simp] theorem answer_result (s : State) (r : Result) : (s.answer r).result = some r := rfl
@[simp] theorem answer_params (s : State) (r : Result) : (s.answer r).params = s.params := rfl
@[simp] theorem answer_rd (s : State) (r : Result) : (s.answer r).rd = s.rd := rfl
@[simp] theorem answer_wr (s : State) (r : Result) : (s.answer r).wr = s.wr := rfl
@[simp] theorem answer_ct (s : State) (r : Result) : (s.answer r).ct = s.ct := rfl
@[simp] theorem answer_ctValid (s : State) (r : Result) : (s.answer r).ctValid = s.ctValid := rfl
@[simp] theorem answer_rl (s : State) (r : Result) : (s.answer r).rl = s.rl := rfl
@[simp] theorem answer_hf (s : State) (r : Result) : (s.answer r).hf = s.hf := rfl
@[simp] theorem answer_lz (s : State) (r : Result) : (s.answer r).lz = s.lz := rfl
@[simp] theorem answer_fatal (s : State) (r : Result) : (s.answer r).fatal = s.fatal := rfl
@[simp] theorem answer_draws (s : State) (r : Result) : (s.answer r).draws = s.draws := rfl

/-! ### answerFailure -/

@[simp] theorem answerFailure_host (s : State) (f : Failure) : (s.answerFailure f).host = s.host := rfl
@[simp] theorem answerFailure_input (s : State) (f : Failure) : (s.answerFailure f).input = s.input := rfl
@[simp] theorem answerFailure_sink (s : State) (f : Failure) : (s.answerFailure f).sink = s.sink := rfl
@[simp] theorem answerFailure_trace (s : State) (f : Failure) : (s.answerFailure f).trace = s.trace := rfl
@[simp] theorem answerFailure_result (s : State) (f : Failure) : (s.answerFailure f).result = some ⟨.fail f, Config.freeVal s.draws⟩ := rfl
@[simp] theorem answerFailure_params (s : State) (f : Failure) : (s.answerFailure f).params = s.params := rfl
@[simp] theorem answerFailure_rd (s : State) (f : Failure) : (s.answerFailure f).rd = s.rd := rfl
@[simp] theorem answerFailure_wr (s : State) (f : Failure) : (s.answerFailure f).wr = s.wr := rfl
@[simp] theorem answerFailure_ct (s : State) (f : Failure) : (s.answerFailure f).ct = s.ct := rfl
@[simp] theorem answerFailure_ctValid (s : State) (f : Failure) : (s.answerFailure f).ctValid = s.ctValid := rfl
@[simp] theorem answerFailure_rl (s : State) (f : Failure) : (s.answerFailure f).rl = s.rl := rfl
@[simp] theorem answerFailure_hf (s : State) (f : Failure) : (s.answerFailure f).hf = s.hf := rfl
@[simp] theorem answerFailure_lz (s : State) (f : Failure) : (s.answerFailure f).lz = s.lz := rfl
@[simp] theorem answerFailure_fatal (s : State) (f : Failure) : (s.answerFailure f).fatal = s.fatal := rfl
@[simp] theorem answerFailure_draws (s : State) (f : Failure) : (s.answerFailure f).draws = s.draws + 1 := rfl

/-! ### resetBlock -/

@[simp] theorem resetBlock_host (s : State) : (resetBlock s).host = s.host := rfl
@[simp] theorem resetBlock_input (s : State) : (resetBlock s).input = s.input := rfl
@[simp] theorem resetBlock_sink (s : State) : (resetBlock s).sink = s.sink := rfl
@[simp] theorem resetBlock_trace (s : State) : (resetBlock s).trace = s.trace := rfl
@[simp] theorem resetBlock_result (s : State) : (resetBlock s).result = s.result := rfl
@[simp] theorem resetBlock_params (s : State) : (resetBlock s).params = s.params := rfl
@[simp] theorem resetBlock_rd (s : State) : (resetBlock s).rd = State.reset.rd := rfl
@[simp] theorem resetBlock_wr (s : State) : (resetBlock s).wr = State.reset.wr := rfl
@[simp] theorem resetBlock_ct (s : State) : (resetBlock s).ct = State.reset.ct := rfl
@[simp] theorem resetBlock_ctValid (s : State) : (resetBlock s).ctValid = State.reset.ctValid := rfl
@[simp] theorem resetBlock_rl (s : State) : (resetBlock s).rl = State.reset.rl := rfl
@[simp] theorem resetBlock_hf (s : State) : (resetBlock s).hf = State.reset.hf := rfl
@[simp] theorem resetBlock_lz (s : State) : (resetBlock s).lz = State.reset.lz := rfl
@[simp] theorem resetBlock_fatal (s : State) : (resetBlock s).fatal = State.reset.fatal := rfl
@[simp] theorem resetBlock_draws (s : State) : (resetBlock s).draws = s.draws := rfl

/-! ### brInit -/

@[simp] theorem brInit_host (s : State) : (brInit s).host = s.host := rfl
@[simp] theorem brInit_input (s : State) : (brInit s).input = s.input := rfl
@[simp] theorem brInit_sink (s : State) : (brInit s).sink = s.sink := rfl
@[simp] theorem brInit_trace (s : State) : (brInit s).trace = s.trace := rfl
@[simp] theorem brInit_result (s : State) : (brInit s).result = s.result := rfl
@[simp] theorem brInit_params (s : State) : (brInit s).params = s.params := rfl
@[simp] theorem brInit_rd (s : State) : (brInit s).rd = { s.rd with off := 8, pulled := 0 } := rfl
@[simp] theorem brInit_wr (s : State) : (brInit s).wr = s.wr := rfl
@[simp] theorem brInit_ct (s : State) : (brInit s).ct = s.ct := rfl
@[simp] theorem brInit_ctValid (s : State) : (brInit s).ctValid = s.ctValid := rfl
@[simp] theorem brInit_rl (s : State) : (brInit s).rl = s.rl := rfl
@[simp] theorem brInit_hf (s : State) : (brInit s).hf = s.hf := rfl
@[simp] theorem brInit_lz (s : State) : (brInit s).lz = s.lz := rfl
@[simp] theorem brInit_fatal (s : State) : (brInit s).fatal = s.fatal := rfl
@[simp] theorem brInit_draws (s : State) : (brInit s).draws = s.draws := rfl

/-! ### forgetTable -/

@[simp] theorem forgetTable_host (s : State) : (forgetTable s).host = s.host := rfl
@[simp] theorem forgetTable_input (s : State) : (forgetTable s).input = s.input := rfl
@[simp] theorem forgetTable_sink (s : State) : (forgetTable s).sink = s.sink := rfl
@[simp] theorem forgetTable_trace (s : State) : (forgetTable s).trace = s.trace := rfl
@[simp] theorem forgetTable_result (s : State) : (forgetTable s).result = s.result := rfl
@[simp] theorem forgetTable_params (s : State) : (forgetTable s).params = s.params := rfl
@[simp] theorem forgetTable_rd (s : State) : (forgetTable s).rd = s.rd := rfl
@[simp] theorem forgetTable_wr (s : State) : (forgetTable s).wr = s.wr := rfl
@[simp] theorem forgetTable_ct (s : State) : (forgetTable s).ct = Config.freeTable s.draws := rfl
@[simp] theorem forgetTable_ctValid (s : State) : (forgetTable s).ctValid = s.ctValid := rfl
@[simp] theorem forgetTable_rl (s : State) : (forgetTable s).rl = s.rl := rfl
@[simp] theorem forgetTable_hf (s : State) : (forgetTable s).hf = s.hf := rfl
@[simp] theorem forgetTable_lz (s : State) : (forgetTable s).lz = s.lz := rfl
@[simp] theorem forgetTable_fatal (s : State) : (forgetTable s).fatal = s.fatal := rfl
@[simp] theorem forgetTable_draws (s : State) : (forgetTable s).draws = s.draws + 1 := rfl

/-! ### forgetRle -/

@[simp] theorem forgetRle_host (s : State) : (forgetRle s).host = s.host := rfl
@[simp] theorem forgetRle_input (s : State) : (forgetRle s).input = s.input := rfl
@[simp] theorem forgetRle_sink (s : State) : (forgetRle s).sink = s.sink := rfl
@[simp] theorem forgetRle_trace (s : State) : (forgetRle s).trace = s.trace := rfl
@[simp] theorem forgetRle_result (s : State) : (forgetRle s).result = s.result := rfl
@[simp] theorem forgetRle_params (s : State) : (forgetRle s).params = s.params := rfl
@[simp] theorem forgetRle_rd (s : State) : (forgetRle s).rd = s.rd := rfl
@[simp] theorem forgetRle_wr (s : State) : (forgetRle s).wr = s.wr := rfl
@[simp] theorem forgetRle_ct (s : State) : (forgetRle s).ct = s.ct := rfl
@[simp] theorem forgetRle_ctValid (s : State) : (forgetRle s).ctValid = s.ctValid := rfl
@[simp] theorem forgetRle_rl (s : State) : (forgetRle s).rl = freeRle s.draws := rfl
@[simp] theorem forgetRle_hf (s : State) : (forgetRle s).hf = s.hf := rfl
@[simp] theorem forgetRle_lz (s : State) : (forgetRle s).lz = s.lz := rfl
@[simp] theorem forgetRle_fatal (s : State) : (forgetRle s).fatal = s.fatal := rfl
@[simp] theorem forgetRle_draws (s : State) : (forgetRle s).draws = s.draws + 1 := rfl

@[simp] theorem freeRle_phase (n : Nat) : (freeRle n).phase = .idle := rfl

/-! ### forgetTrie -/

@[simp] theorem freeTrie_length (n k : Nat) : (freeTrie n k).length = k := by simp [freeTrie]


@[simp] theorem forgetTrie_host (s : State) : (forgetTrie s).host = s.host := rfl
@[simp] theorem forgetTrie_input (s : State) : (forgetTrie s).input = s.input := rfl
@[simp] theorem forgetTrie_sink (s : State) : (forgetTrie s).sink = s.sink := rfl
@[simp] theorem forgetTrie_trace (s : State) : (forgetTrie s).trace = s.trace := rfl
@[simp] theorem forgetTrie_result (s : State) : (forgetTrie s).result = s.result := rfl
@[simp] theorem forgetTrie_params (s : State) : (forgetTrie s).params = s.params := rfl
@[simp] theorem forgetTrie_rd (s : State) : (forgetTrie s).rd = s.rd := rfl
@[simp] theorem forgetTrie_wr (s : State) : (forgetTrie s).wr = s.wr := rfl
@[simp] theorem forgetTrie_ct (s : State) : (forgetTrie s).ct = s.ct := rfl
@[simp] theorem forgetTrie_ctValid (s : State) : (forgetTrie s).ctValid = s.ctValid := rfl
@[simp] theorem forgetTrie_rl (s : State) : (forgetTrie s).rl = s.rl := rfl
@[simp] theorem forgetTrie_hf (s : State) : (forgetTrie s).hf = { s.hf with nodes := freeTrie s.draws s.hf.nodes.length } := rfl
@[simp] theorem forgetTrie_lz (s : State) : (forgetTrie s).lz = s.lz := rfl
@[simp] theorem forgetTrie_fatal (s : State) : (forgetTrie s).fatal = s.fatal := rfl
@[simp] theorem forgetTrie_draws (s : State) : (forgetTrie s).draws = s.draws + 1 := rfl

/-! ### forgetDict -/

@[simp] theorem forgetDict_host (s : State) : (forgetDict s).host = s.host := rfl
@[simp] theorem forgetDict_input (s : State) : (forgetDict s).input = s.input := rfl
@[simp] theorem forgetDict_sink (s : State) : (forgetDict s).sink = s.sink := rfl
@[simp] theorem forgetDict_trace (s : State) : (forgetDict s).trace = s.trace := rfl
@[simp] theorem forgetDict_result (s : State) : (forgetDict s).result = s.result := rfl
@[simp] theorem forgetDict_params (s : State) : (forgetDict s).params = s.params := rfl
@[simp] theorem forgetDict_rd (s : State) : (forgetDict s).rd = s.rd := rfl
@[simp] theorem forgetDict_wr (s : State) : (forgetDict s).wr = s.wr := rfl
@[simp] theorem forgetDict_ct (s : State) : (forgetDict s).ct = s.ct := rfl
@[simp] theorem forgetDict_ctValid (s : State) : (forgetDict s).ctValid = s.ctValid := rfl
@[simp] theorem forgetDict_rl (s : State) : (forgetDict s).rl = s.rl := rfl
@[simp] theorem forgetDict_hf (s : State) : (forgetDict s).hf = s.hf := rfl
@[simp] theorem forgetDict_lz (s : State) : (forgetDict s).lz = { s.lz with dict := freeDict s.params s.draws, prev := Config.freeSeq s.draws } := rfl
@[simp] theorem forgetDict_fatal (s : State) : (forgetDict s).fatal = s.fatal := rfl
@[simp] theorem forgetDict_draws (s : State) : (forgetDict s).draws = s.draws + 1 := rfl

/-! ### setEntry -/

@[simp] theorem setEntry_host (v c l : Nat) (s : State) : (setEntry v c l s).host = s.host := rfl
@[simp] theorem setEntry_input (v c l : Nat) (s : State) : (setEntry v c l s).input = s.input := rfl
@[simp] theorem setEntry_sink (v c l : Nat) (s : State) : (setEntry v c l s).sink = s.sink := rfl
@[simp] theorem setEntry_trace (v c l : Nat) (s : State) : (setEntry v c l s).trace = s.trace := rfl
@[simp] theorem setEntry_result (v c l : Nat) (s : State) : (setEntry v c l s).result = s.result := rfl
@[simp] theorem setEntry_params (v c l : Nat) (s : State) : (setEntry v c l s).params = s.params := rfl
@[simp] theorem setEntry_rd (v c l : Nat) (s : State) : (setEntry v c l s).rd = s.rd := rfl
@[simp] theorem setEntry_wr (v c l : Nat) (s : State) : (setEntry v c l s).wr = s.wr := rfl
@[simp] theorem setEntry_ct (v c l : Nat) (s : State) : (setEntry v c l s).ct = s.ct.setIfInBounds v ⟨BitVec.ofNat 32 c, Fin.ofNat 33 l⟩ := rfl
@[simp] theorem setEntry_ctValid (v c l : Nat) (s : State) : (setEntry v c l s).ctValid = s.ctValid := rfl
@[simp] theorem setEntry_rl (v c l : Nat) (s : State) : (setEntry v c l s).rl = s.rl := rfl
@[simp] theorem setEntry_hf (v c l : Nat) (s : State) : (setEntry v c l s).hf = s.hf := rfl
@[simp] theorem setEntry_lz (v c l : Nat) (s : State) : (setEntry v c l s).lz = s.lz := rfl
@[simp] theorem setEntry_fatal (v c l : Nat) (s : State) : (setEntry v c l s).fatal = s.fatal := rfl
@[simp] theorem setEntry_draws (v c l : Nat) (s : State) : (setEntry v c l s).draws = s.draws := rfl

/-! ### setRlPhase -/

@[simp] theorem setRlPhase_host (p : Phase) (s : State) : (setRlPhase p s).host = s.host := rfl
@[simp] theorem setRlPhase_input (p : Phase) (s : State) : (setRlPhase p s).input = s.input := rfl
@[simp] theorem setRlPhase_sink (p : Phase) (s : State) : (setRlPhase p s).sink = s.sink := rfl
@[simp] theorem setRlPhase_trace (p : Phase) (s : State) : (setRlPhase p s).trace = s.trace := rfl
@[simp] theorem setRlPhase_result (p : Phase) (s : State) : (setRlPhase p s).result = s.result := rfl
@[simp] theorem setRlPhase_params (p : Phase) (s : State) : (setRlPhase p s).params = s.params := rfl
@[simp] theorem setRlPhase_rd (p : Phase) (s : State) : (setRlPhase p s).rd = s.rd := rfl
@[simp] theorem setRlPhase_wr (p : Phase) (s : State) : (setRlPhase p s).wr = s.wr := rfl
@[simp] theorem setRlPhase_ct (p : Phase) (s : State) : (setRlPhase p s).ct = s.ct := rfl
@[simp] theorem setRlPhase_ctValid (p : Phase) (s : State) : (setRlPhase p s).ctValid = s.ctValid := rfl
@[simp] theorem setRlPhase_rl (p : Phase) (s : State) : (setRlPhase p s).rl = { s.rl with phase := p } := rfl
@[simp] theorem setRlPhase_hf (p : Phase) (s : State) : (setRlPhase p s).hf = s.hf := rfl
@[simp] theorem setRlPhase_lz (p : Phase) (s : State) : (setRlPhase p s).lz = s.lz := rfl
@[simp] theorem setRlPhase_fatal (p : Phase) (s : State) : (setRlPhase p s).fatal = s.fatal := rfl
@[simp] theorem setRlPhase_draws (p : Phase) (s : State) : (setRlPhase p s).draws = s.draws := rfl

/-! ### setLzPhase -/

@[simp] theorem setLzPhase_host (p : Phase) (s : State) : (setLzPhase p s).host = s.host := rfl
@[simp] theorem setLzPhase_input (p : Phase) (s : State) : (setLzPhase p s).input = s.input := rfl
@[simp] theorem setLzPhase_sink (p : Phase) (s : State) : (setLzPhase p s).sink = s.sink := rfl
@[simp] theorem setLzPhase_trace (p : Phase) (s : State) : (setLzPhase p s).trace = s.trace := rfl
@[simp] theorem setLzPhase_result (p : Phase) (s : State) : (setLzPhase p s).result = s.result := rfl
@[simp] theorem setLzPhase_params (p : Phase) (s : State) : (setLzPhase p s).params = s.params := rfl
@[simp] theorem setLzPhase_rd (p : Phase) (s : State) : (setLzPhase p s).rd = s.rd := rfl
@[simp] theorem setLzPhase_wr (p : Phase) (s : State) : (setLzPhase p s).wr = s.wr := rfl
@[simp] theorem setLzPhase_ct (p : Phase) (s : State) : (setLzPhase p s).ct = s.ct := rfl
@[simp] theorem setLzPhase_ctValid (p : Phase) (s : State) : (setLzPhase p s).ctValid = s.ctValid := rfl
@[simp] theorem setLzPhase_rl (p : Phase) (s : State) : (setLzPhase p s).rl = s.rl := rfl
@[simp] theorem setLzPhase_hf (p : Phase) (s : State) : (setLzPhase p s).hf = s.hf := rfl
@[simp] theorem setLzPhase_lz (p : Phase) (s : State) : (setLzPhase p s).lz = { s.lz with phase := p } := rfl
@[simp] theorem setLzPhase_fatal (p : Phase) (s : State) : (setLzPhase p s).fatal = s.fatal := rfl
@[simp] theorem setLzPhase_draws (p : Phase) (s : State) : (setLzPhase p s).draws = s.draws := rfl

/-! ### closeHf -/

@[simp] theorem closeHf_host (s : State) : (closeHf s).host = s.host := rfl
@[simp] theorem closeHf_input (s : State) : (closeHf s).input = s.input := rfl
@[simp] theorem closeHf_sink (s : State) : (closeHf s).sink = s.sink := rfl
@[simp] theorem closeHf_trace (s : State) : (closeHf s).trace = s.trace := rfl
@[simp] theorem closeHf_result (s : State) : (closeHf s).result = s.result := rfl
@[simp] theorem closeHf_params (s : State) : (closeHf s).params = s.params := rfl
@[simp] theorem closeHf_rd (s : State) : (closeHf s).rd = s.rd := rfl
@[simp] theorem closeHf_wr (s : State) : (closeHf s).wr = s.wr := rfl
@[simp] theorem closeHf_ct (s : State) : (closeHf s).ct = s.ct := rfl
@[simp] theorem closeHf_ctValid (s : State) : (closeHf s).ctValid = s.ctValid := rfl
@[simp] theorem closeHf_rl (s : State) : (closeHf s).rl = s.rl := rfl
@[simp] theorem closeHf_hf (s : State) : (closeHf s).hf = { s.hf with phase := .idle, nodes := freeTrie s.draws s.hf.nodes.length } := rfl
@[simp] theorem closeHf_lz (s : State) : (closeHf s).lz = s.lz := rfl
@[simp] theorem closeHf_fatal (s : State) : (closeHf s).fatal = s.fatal := rfl
@[simp] theorem closeHf_draws (s : State) : (closeHf s).draws = s.draws + 1 := rfl

/-! ### closeLz -/

@[simp] theorem closeLz_host (s : State) : (closeLz s).host = s.host := rfl
@[simp] theorem closeLz_input (s : State) : (closeLz s).input = s.input := rfl
@[simp] theorem closeLz_sink (s : State) : (closeLz s).sink = s.sink := rfl
@[simp] theorem closeLz_trace (s : State) : (closeLz s).trace = s.trace := rfl
@[simp] theorem closeLz_result (s : State) : (closeLz s).result = s.result := rfl
@[simp] theorem closeLz_params (s : State) : (closeLz s).params = s.params := rfl
@[simp] theorem closeLz_rd (s : State) : (closeLz s).rd = s.rd := rfl
@[simp] theorem closeLz_wr (s : State) : (closeLz s).wr = s.wr := rfl
@[simp] theorem closeLz_ct (s : State) : (closeLz s).ct = s.ct := rfl
@[simp] theorem closeLz_ctValid (s : State) : (closeLz s).ctValid = s.ctValid := rfl
@[simp] theorem closeLz_rl (s : State) : (closeLz s).rl = s.rl := rfl
@[simp] theorem closeLz_hf (s : State) : (closeLz s).hf = s.hf := rfl
@[simp] theorem closeLz_lz (s : State) : (closeLz s).lz = { s.lz with phase := .idle, dict := freeDict s.params s.draws, prev := Config.freeSeq s.draws } := rfl
@[simp] theorem closeLz_fatal (s : State) : (closeLz s).fatal = s.fatal := rfl
@[simp] theorem closeLz_draws (s : State) : (closeLz s).draws = s.draws + 1 := rfl

/-! ### attachInput -/

@[simp] theorem attachInput_host (a : List ReadAnswer) (s : State) : (attachInput a s).host = s.host := rfl
@[simp] theorem attachInput_input (a : List ReadAnswer) (s : State) : (attachInput a s).input = a := rfl
@[simp] theorem attachInput_sink (a : List ReadAnswer) (s : State) : (attachInput a s).sink = s.sink := rfl
@[simp] theorem attachInput_trace (a : List ReadAnswer) (s : State) : (attachInput a s).trace = .attachedInput :: s.trace := rfl
@[simp] theorem attachInput_result (a : List ReadAnswer) (s : State) : (attachInput a s).result = s.result := rfl
@[simp] theorem attachInput_params (a : List ReadAnswer) (s : State) : (attachInput a s).params = s.params := rfl
@[simp] theorem attachInput_rd (a : List ReadAnswer) (s : State) : (attachInput a s).rd = s.rd := rfl
@[simp] theorem attachInput_wr (a : List ReadAnswer) (s : State) : (attachInput a s).wr = s.wr := rfl
@[simp] theorem attachInput_ct (a : List ReadAnswer) (s : State) : (attachInput a s).ct = s.ct := rfl
@[simp] theorem attachInput_ctValid (a : List ReadAnswer) (s : State) : (attachInput a s).ctValid = s.ctValid := rfl
@[simp] theorem attachInput_rl (a : List ReadAnswer) (s : State) : (attachInput a s).rl = s.rl := rfl
@[simp] theorem attachInput_hf (a : List ReadAnswer) (s : State) : (attachInput a s).hf = s.hf := rfl
@[simp] theorem attachInput_lz (a : List ReadAnswer) (s : State) : (attachInput a s).lz = s.lz := rfl
@[simp] theorem attachInput_fatal (a : List ReadAnswer) (s : State) : (attachInput a s).fatal = s.fatal := rfl
@[simp] theorem attachInput_draws (a : List ReadAnswer) (s : State) : (attachInput a s).draws = s.draws := rfl

/-! ### attachOutput -/

@[simp] theorem attachOutput_host (a : List WriteAnswer) (s : State) : (attachOutput a s).host = s.host := rfl
@[simp] theorem attachOutput_input (a : List WriteAnswer) (s : State) : (attachOutput a s).input = s.input := rfl
@[simp] theorem attachOutput_sink (a : List WriteAnswer) (s : State) : (attachOutput a s).sink = a := rfl
@[simp] theorem attachOutput_trace (a : List WriteAnswer) (s : State) : (attachOutput a s).trace = .attachedOutput :: s.trace := rfl
@[simp] theorem attachOutput_result (a : List WriteAnswer) (s : State) : (attachOutput a s).result = s.result := rfl
@[simp] theorem attachOutput_params (a : List WriteAnswer) (s : State) : (attachOutput a s).params = s.params := rfl
@[simp] theorem attachOutput_rd (a : List WriteAnswer) (s : State) : (attachOutput a s).rd = s.rd := rfl
@[simp] theorem attachOutput_wr (a : List WriteAnswer) (s : State) : (attachOutput a s).wr = s.wr := rfl
@[simp] theorem attachOutput_ct (a : List WriteAnswer) (s : State) : (attachOutput a s).ct = s.ct := rfl
@[simp] theorem attachOutput_ctValid (a : List WriteAnswer) (s : State) : (attachOutput a s).ctValid = s.ctValid := rfl
@[simp] theorem attachOutput_rl (a : List WriteAnswer) (s : State) : (attachOutput a s).rl = s.rl := rfl
@[simp] theorem attachOutput_hf (a : List WriteAnswer) (s : State) : (attachOutput a s).hf = s.hf := rfl
@[simp] theorem attachOutput_lz (a : List WriteAnswer) (s : State) : (attachOutput a s).lz = s.lz := rfl
@[simp] theorem attachOutput_fatal (a : List WriteAnswer) (s : State) : (attachOutput a s).fatal = s.fatal := rfl
@[simp] theorem attachOutput_draws (a : List WriteAnswer) (s : State) : (attachOutput a s).draws = s.draws := rfl

/-! ### afterBytes -/

@[simp] theorem afterBytes_host (s : State) (bs : List Byte) : (s.afterBytes bs).host = s.host := rfl
@[simp] theorem afterBytes_input (s : State) (bs : List Byte) : (s.afterBytes bs).input = s.input := rfl
@[simp] theorem afterBytes_sink (s : State) (bs : List Byte) : (s.afterBytes bs).sink = s.sink.drop bs.length := rfl
@[simp] theorem afterBytes_trace (s : State) (bs : List Byte) : (s.afterBytes bs).trace = (bs.map fun b => ChanEvent.write .block b true).reverse ++ s.trace := rfl
@[simp] theorem afterBytes_result (s : State) (bs : List Byte) : (s.afterBytes bs).result = s.result := rfl
@[simp] theorem afterBytes_params (s : State) (bs : List Byte) : (s.afterBytes bs).params = s.params := rfl
@[simp] theorem afterBytes_rd (s : State) (bs : List Byte) : (s.afterBytes bs).rd = s.rd := rfl
@[simp] theorem afterBytes_wr (s : State) (bs : List Byte) : (s.afterBytes bs).wr = s.wr := rfl
@[simp] theorem afterBytes_ct (s : State) (bs : List Byte) : (s.afterBytes bs).ct = s.ct := rfl
@[simp] theorem afterBytes_ctValid (s : State) (bs : List Byte) : (s.afterBytes bs).ctValid = s.ctValid := rfl
@[simp] theorem afterBytes_rl (s : State) (bs : List Byte) : (s.afterBytes bs).rl = s.rl := rfl
@[simp] theorem afterBytes_hf (s : State) (bs : List Byte) : (s.afterBytes bs).hf = s.hf := rfl
@[simp] theorem afterBytes_lz (s : State) (bs : List Byte) : (s.afterBytes bs).lz = s.lz := rfl
@[simp] theorem afterBytes_fatal (s : State) (bs : List Byte) : (s.afterBytes bs).fatal = s.fatal := rfl
@[simp] theorem afterBytes_draws (s : State) (bs : List Byte) : (s.afterBytes bs).draws = s.draws := rfl

/-! ### afterRead -/

@[simp] theorem afterRead_host (s : State) (n : Nat) : (s.afterRead n).host = s.host := rfl
@[simp] theorem afterRead_sink (s : State) (n : Nat) : (s.afterRead n).sink = s.sink := rfl
@[simp] theorem afterRead_result (s : State) (n : Nat) : (s.afterRead n).result = s.result := rfl
@[simp] theorem afterRead_params (s : State) (n : Nat) : (s.afterRead n).params = s.params := rfl
@[simp] theorem afterRead_wr (s : State) (n : Nat) : (s.afterRead n).wr = s.wr := rfl
@[simp] theorem afterRead_ct (s : State) (n : Nat) : (s.afterRead n).ct = s.ct := rfl
@[simp] theorem afterRead_ctValid (s : State) (n : Nat) : (s.afterRead n).ctValid = s.ctValid := rfl
@[simp] theorem afterRead_rl (s : State) (n : Nat) : (s.afterRead n).rl = s.rl := rfl
@[simp] theorem afterRead_hf (s : State) (n : Nat) : (s.afterRead n).hf = s.hf := rfl
@[simp] theorem afterRead_lz (s : State) (n : Nat) : (s.afterRead n).lz = s.lz := rfl
@[simp] theorem afterRead_fatal (s : State) (n : Nat) : (s.afterRead n).fatal = s.fatal := rfl
@[simp] theorem afterRead_draws (s : State) (n : Nat) : (s.afterRead n).draws = s.draws := rfl

/-! ### afterWrite -/

@[simp] theorem afterWrite_host (s : State) (bits : List Bool) : (s.afterWrite bits).host = s.host := rfl
@[simp] theorem afterWrite_input (s : State) (bits : List Bool) : (s.afterWrite bits).input = s.input := rfl
@[simp] theorem afterWrite_result (s : State) (bits : List Bool) : (s.afterWrite bits).result = s.result := rfl
@[simp] theorem afterWrite_params (s : State) (bits : List Bool) : (s.afterWrite bits).params = s.params := rfl
@[simp] theorem afterWrite_rd (s : State) (bits : List Bool) : (s.afterWrite bits).rd = s.rd := rfl
@[simp] theorem afterWrite_ct (s : State) (bits : List Bool) : (s.afterWrite bits).ct = s.ct := rfl
@[simp] theorem afterWrite_ctValid (s : State) (bits : List Bool) : (s.afterWrite bits).ctValid = s.ctValid := rfl
@[simp] theorem afterWrite_rl (s : State) (bits : List Bool) : (s.afterWrite bits).rl = s.rl := rfl
@[simp] theorem afterWrite_hf (s : State) (bits : List Bool) : (s.afterWrite bits).hf = s.hf := rfl
@[simp] theorem afterWrite_lz (s : State) (bits : List Bool) : (s.afterWrite bits).lz = s.lz := rfl
@[simp] theorem afterWrite_fatal (s : State) (bits : List Bool) : (s.afterWrite bits).fatal = s.fatal := rfl
@[simp] theorem afterWrite_draws (s : State) (bits : List Bool) : (s.afterWrite bits).draws = s.draws := rfl

end Sys2Proof.Machine
end

