-- ==== Sys2Proof/Laws/Run.lean ====
section
/-! SUPPORT. How pieces of pseudocode compose: what `andThen` and `onRaise` do on each end, and the rule by which a property of every
state a piece can leave is carried through its parts. -/

namespace Sys2Proof.Machine

variable {α β γ : Type}

@[simp] theorem done_andThen (a : α) (s : State) (k : α → State → Run β) : (Run.done a s).andThen k = k a s := rfl
@[simp] theorem raised_andThen (f : Failure) (s : State) (k : α → State → Run β) : (Run.raised f s).andThen k = .raised f s := rfl
@[simp] theorem hung_andThen (x : Fault) (k : α → State → Run β) : (Run.hung x).andThen k = .hung x := rfl
@[simp] theorem done_onRaise (a : α) (s : State) (h : State → State) : (Run.done a s).onRaise h = .done a s := rfl
@[simp] theorem raised_onRaise (f : Failure) (s : State) (h : State → State) :
    (Run.raised f s : Run α).onRaise h = .raised f (h s) := rfl
@[simp] theorem hung_onRaise (x : Fault) (h : State → State) : (Run.hung x : Run α).onRaise h = .hung x := rfl
@[simp] theorem done_outcome (r : Result) (s : State) : (Run.done r s).outcome = .next (s.answer r) := rfl
@[simp] theorem raised_outcome (f : Failure) (s : State) : (Run.raised f s).outcome = .next (s.answerFailure f) := rfl
@[simp] theorem hung_outcome (x : Fault) : (Run.hung x).outcome = .fault x := rfl

theorem andThen_assoc (r : Run α) (k : α → State → Run β) (l : β → State → Run γ) :
    (r.andThen k).andThen l = r.andThen fun a s => (k a s).andThen l := by
  cases r <;> rfl

theorem andThen_eq_done {r : Run α} {k : α → State → Run β} {b : β} {t : State} :
    r.andThen k = .done b t ↔ ∃ a u, r = .done a u ∧ k a u = .done b t := by
  cases r <;> simp

theorem andThen_eq_raised {r : Run α} {k : α → State → Run β} {f : Failure} {t : State} :
    r.andThen k = .raised f t ↔ r = .raised f t ∨ ∃ a u, r = .done a u ∧ k a u = .raised f t := by
  cases r <;> simp

theorem onRaise_eq_done {r : Run α} {h : State → State} {a : α} {t : State} :
    r.onRaise h = .done a t ↔ r = .done a t := by
  cases r <;> simp

theorem onRaise_eq_raised {r : Run α} {h : State → State} {f : Failure} {t : State} :
    r.onRaise h = .raised f t ↔ ∃ u, r = .raised f u ∧ h u = t := by
  cases r <;> simp

/-- All a piece can do: `P` holds of its value and state if it ran to its end, `Q` of its status and state if it raised one, and
`N` if a channel never answered. -/
def Run.Ends (P : α → State → Prop) (Q : Failure → State → Prop) (N : Prop) (r : Run α) : Prop :=
  match r with
  | .done a s => P a s
  | .raised f s => Q f s
  | .hung _ => N

section Ends
variable {P P' : α → State → Prop} {Q Q' : Failure → State → Prop} {N N' : Prop} {r : Run α}

@[simp] theorem ends_done (a : α) (s : State) : (Run.done a s).Ends P Q N = P a s := rfl
@[simp] theorem ends_raised (f : Failure) (s : State) : (Run.raised f s : Run α).Ends P Q N = Q f s := rfl
@[simp] theorem ends_hung (x : Fault) : (Run.hung x : Run α).Ends P Q N = N := rfl

theorem Run.Ends.mono (h : r.Ends P Q N) (hp : ∀ a s, P a s → P' a s) (hq : ∀ f s, Q f s → Q' f s) (hn : N → N') :
    r.Ends P' Q' N' := by
  cases r with
  | done a s => exact hp a s h
  | raised f s => exact hq f s h
  | hung x => exact hn h

theorem Run.Ends.andThen {R : β → State → Prop} {k : α → State → Run β} (h : r.Ends P Q N)
    (hk : ∀ a s, P a s → (k a s).Ends R Q N) : (r.andThen k).Ends R Q N := by
  cases r with
  | done a s => exact hk a s h
  | raised f s => exact h
  | hung x => exact h

theorem Run.Ends.onRaise {g : State → State} (h : r.Ends P Q N) (hq : ∀ f s, Q f s → Q' f (g s)) : (r.onRaise g).Ends P Q' N := by
  cases r with
  | done a s => exact h
  | raised f s => exact hq f s h
  | hung x => exact h

theorem Run.Ends.of_done {a : α} {s : State} (h : r.Ends P Q N) (hr : r = .done a s) : P a s := by subst hr; exact h

theorem Run.Ends.of_raised {f : Failure} {s : State} (h : r.Ends P Q N) (hr : r = .raised f s) : Q f s := by subst hr; exact h

end Ends

/-! ### What a finished command answers -/

theorem outcome_next {r : Run Result} {t : State} :
    r.outcome = .next t ↔ (∃ a s, r = .done a s ∧ t = s.answer a) ∨ (∃ f s, r = .raised f s ∧ t = s.answerFailure f) := by
  cases r <;> simp [Run.outcome, eq_comm]

theorem command_next {body : State → Run Result} {s t : State} :
    command body s = .next t ↔
      (s.fatal = true ∧ t = s.answerFailure .fatal) ∨ (s.fatal = false ∧ (body s).outcome = .next t) := by
  unfold command
  cases s.fatal <;> simp [eq_comm]

theorem command_of_fatal (body : State → Run Result) {s : State} (h : s.fatal = true) :
    command body s = .next (s.answerFailure .fatal) := by simp [command, h]

theorem command_of_not_fatal (body : State → Run Result) {s : State} (h : s.fatal = false) :
    command body s = (body s).outcome := by simp [command, h]

@[simp] theorem okWith_done (v : Word) (s : State) : okWith (.done v s) = .done ⟨.ok, v⟩ s := rfl
@[simp] theorem okWith_raised (f : Failure) (s : State) : okWith (.raised f s) = .raised f s := rfl
@[simp] theorem okWith_hung (x : Fault) : okWith (.hung x) = .hung x := rfl
@[simp] theorem okZero_done (s : State) : okZero (.done () s) = .done ⟨.ok, 0⟩ s := rfl
@[simp] theorem okZero_raised (f : Failure) (s : State) : okZero (.raised f s) = .raised f s := rfl
@[simp] theorem okZero_hung (x : Fault) : okZero (.hung x) = .hung x := rfl

end Sys2Proof.Machine
end

