-- ==== Sys2Proof/Laws/Bits.lean ====
section
/-! SUPPORT. Bit sequences: fields, bytes, packing (20_memory R63, R66), and `bitwidth` (00_scope R8). -/

namespace Sys2Proof.Machine

@[simp] theorem bitsOfByte_length (b : Byte) : (bitsOfByte b).length = 8 := by simp [bitsOfByte]

@[simp] theorem fieldBits_length (n v : Nat) : (fieldBits n v).length = n := by
  induction n generalizing v with
  | zero => rfl
  | succ n ih => simp [fieldBits, ih]

theorem fieldValue_lt (bs : List Bool) : fieldValue bs < 2 ^ bs.length := by
  induction bs with
  | nil => simp [fieldValue]
  | cons b bs ih =>
    have := b.toNat_le
    simp only [fieldValue, List.length_cons, pow_succ]
    omega

theorem fieldValue_fieldBits (n v : Nat) : fieldValue (fieldBits n v) = v % 2 ^ n := by
  induction n generalizing v with
  | zero => simp [fieldBits, fieldValue, Nat.mod_one]
  | succ n ih =>
    have h : (v.testBit 0).toNat = v % 2 := by
      rw [Nat.testBit_zero]
      rcases Nat.mod_two_eq_zero_or_one v with h | h <;> simp [h]
    have := Nat.mod_mul (x := v) (a := 2) (b := 2 ^ n)
    simp only [fieldBits, fieldValue, ih, h, pow_succ]
    rw [Nat.mul_comm (2 ^ n) 2, this]

theorem fieldValue_fieldBits_of_lt {n v : Nat} (h : v < 2 ^ n) : fieldValue (fieldBits n v) = v := by
  rw [fieldValue_fieldBits, Nat.mod_eq_of_lt h]

theorem fieldBits_fieldValue (bs : List Bool) : fieldBits bs.length (fieldValue bs) = bs := by
  induction bs with
  | nil => rfl
  | cons b bs ih =>
    have h1 : (b.toNat + 2 * fieldValue bs) / 2 = fieldValue bs := by
      have := b.toNat_lt; omega
    have h2 : (b.toNat + 2 * fieldValue bs).testBit 0 = b := by
      rw [Nat.testBit_zero]; cases b <;> simp
    simp only [List.length_cons, fieldBits, fieldValue, h1, h2, ih]

theorem fieldValue_append (as bs : List Bool) : fieldValue (as ++ bs) = fieldValue as + 2 ^ as.length * fieldValue bs := by
  induction as with
  | nil => simp [fieldValue]
  | cons a as ih => simp only [List.cons_append, fieldValue, ih, List.length_cons, pow_succ]; ring

theorem fieldValue_replicate_false (n : Nat) : fieldValue (List.replicate n false) = 0 := by
  induction n with
  | zero => rfl
  | succ n ih => simp [List.replicate_succ, fieldValue, ih]

theorem fieldBits_getElem? (n v i : Nat) : (fieldBits n v)[i]? = if i < n then some (v.testBit i) else none := by
  induction n generalizing v i with
  | zero => simp [fieldBits]
  | succ n ih =>
    cases i with
    | zero => simp [fieldBits]
    | succ i => simp [fieldBits, ih, Nat.testBit_succ]

theorem bitsOfByte_eq_fieldBits (b : Byte) : bitsOfByte b = fieldBits 8 b.toNat := by
  apply List.ext_getElem?
  intro i
  rw [fieldBits_getElem?]
  by_cases h : i < 8
  · simp [bitsOfByte, h, BitVec.testBit_toNat]
  · simp [bitsOfByte, h]

theorem fieldBits_append (m n v : Nat) : fieldBits (m + n) v = fieldBits m v ++ fieldBits n (v / 2 ^ m) := by
  induction m generalizing v with
  | zero => simp [fieldBits]
  | succ m ih =>
    rw [Nat.succ_add]
    simp only [fieldBits, ih, List.cons_append]
    rw [Nat.div_div_eq_div_mul, pow_succ, Nat.mul_comm (2 ^ m) 2]

@[simp] theorem packBits_length (bits : List Bool) : (packBits bits).length = (bits.length + 7) / 8 := by simp [packBits]

/-- Packing takes the first eight bits, zero-padded, as the first byte. -/
theorem packBits_of_ne_nil {bits : List Bool} (h : bits ≠ []) :
    packBits bits = BitVec.ofNat 8 (fieldValue (bits.take 8)) :: packBits (bits.drop 8) := by
  have hpos : 0 < bits.length := List.length_pos_iff.mpr h
  apply List.ext_getElem?
  intro k
  cases k with
  | zero =>
    have : 0 < (bits.length + 7) / 8 := by omega
    simp [packBits, this]
  | succ k =>
    have : (k + 1 < (bits.length + 7) / 8) ↔ (k < (bits.length - 8 + 7) / 8) := by omega
    by_cases hk : k + 1 < (bits.length + 7) / 8
    · have hk' := this.mp hk
      simp [packBits, hk, hk', List.drop_drop, Nat.mul_add, Nat.add_comm 8]
    · have hk' := mt this.mpr hk
      simp [packBits, hk, hk']

@[simp] theorem packBits_nil : packBits [] = [] := rfl

/-- The bits of the packed bytes are the bits themselves and then the zero padding (30_encoding R107). -/
theorem bitsOf_packBits (bits : List Bool) :
    (packBits bits).flatMap bitsOfByte = bits ++ List.replicate (8 * ((bits.length + 7) / 8) - bits.length) false := by
  induction bits using (measure List.length).wf.induction with
  | _ bits ih =>
    by_cases hb : bits = []
    · subst hb; simp
    · have hpos : 0 < bits.length := List.length_pos_iff.mpr hb
      rw [packBits_of_ne_nil hb, List.flatMap_cons]
      have hbyte : bitsOfByte (BitVec.ofNat 8 (fieldValue (bits.take 8))) =
          bits.take 8 ++ List.replicate (8 - bits.length) false := by
        have hlen : (bits.take 8 ++ List.replicate (8 - bits.length) false).length = 8 := by simp; omega
        have hval : fieldValue (bits.take 8 ++ List.replicate (8 - bits.length) false) = fieldValue (bits.take 8) := by
          rw [fieldValue_append, fieldValue_replicate_false]; simp
        have hlt : fieldValue (bits.take 8) < 2 ^ 8 := by
          have := fieldValue_lt (bits.take 8)
          exact lt_of_lt_of_le this (Nat.pow_le_pow_right (by norm_num) (by simp))
        rw [bitsOfByte_eq_fieldBits, BitVec.toNat_ofNat, Nat.mod_eq_of_lt hlt, ← hval]
        have := fieldBits_fieldValue (bits.take 8 ++ List.replicate (8 - bits.length) false)
        rwa [hlen] at this
      rw [hbyte]
      by_cases h8 : bits.length ≤ 8
      · have hd : bits.drop 8 = [] := by simp [h8]
        have ht : bits.take 8 = bits := List.take_of_length_le h8
        rw [hd, ht]
        have : 8 * ((bits.length + 7) / 8) - bits.length = 8 - bits.length := by omega
        simp [this]
      · rw [ih (bits.drop 8) (by simp only [InvImage, WellFoundedRelation.rel, List.length_drop]; omega)]
        have h0 : 8 - bits.length = 0 := by omega
        have hl : 8 * ((bits.length - 8 + 7) / 8) - (bits.length - 8) = 8 * ((bits.length + 7) / 8) - bits.length := by omega
        simp only [h0, List.replicate_zero, List.append_nil, List.length_drop, hl]
        rw [← List.append_assoc, List.take_append_drop]

/-! ### bitwidth (00_scope R8) -/

theorem bitwidth_pos (n : Nat) : 1 ≤ bitwidth n := by unfold bitwidth; split <;> omega

theorem lt_two_pow_bitwidth (n : Nat) : n < 2 ^ bitwidth n := by
  unfold bitwidth
  split
  · omega
  · exact Nat.lt_log2_self

theorem bitwidth_le {n k : Nat} (hk : 1 ≤ k) (h : n < 2 ^ k) : bitwidth n ≤ k := by
  unfold bitwidth
  split
  · exact hk
  · next hn => exact (Nat.log2_lt hn).mpr h

end Sys2Proof.Machine
end

