-- ==== Sys2Proof/Laws/Reader.lean ====
section
/-! SUPPORT. The bit reader (40_bitstream R144, 20_memory R64, R66): what `ReadBits` answers where the bits are there, and what it
answers where the channel fails to give a byte. -/

namespace Sys2Proof.Machine

/-! ### The bytes ahead -/

theorem leadBytes_drop {p : Nat} {input : List ReadAnswer} (h : p ≤ (leadBytes input).length) :
    leadBytes (input.drop p) = (leadBytes input).drop p := by
  induction p generalizing input with
  | zero => rfl
  | succ p ih =>
    match input with
    | [] => simp [leadBytes]
    | .byte b :: rest => simp [leadBytes] at h ⊢; exact ih h
    | .none :: rest => simp [leadBytes] at h
    | .never :: rest => simp [leadBytes] at h

theorem leadBytes_map_byte (bs : List Byte) (rest : List ReadAnswer) :
    leadBytes (bs.map .byte ++ rest) = bs ++ leadBytes rest := by
  induction bs with
  | nil => rfl
  | cons b bs ih => simp [leadBytes, ih]

theorem input_eq_lead (input : List ReadAnswer) :
    input = (leadBytes input).map .byte ++ input.drop (leadBytes input).length := by
  induction input with
  | nil => rfl
  | cons a input ih => cases a <;> simp [leadBytes, ← ih]

theorem length_flatMap_bitsOfByte (bs : List Byte) : (bs.flatMap bitsOfByte).length = 8 * bs.length := by
  induction bs with
  | nil => rfl
  | cons b bs ih => simp only [List.flatMap_cons, List.length_append, bitsOfByte_length, ih, List.length_cons]; omega

theorem bitsAhead_length (s : State) : s.bitsAhead.length = (8 - s.rd.off.val) + 8 * (leadBytes s.input).length := by
  simp only [State.bitsAhead, List.length_append, List.length_drop, bitsOfByte_length, length_flatMap_bitsOfByte]

/-! ### Counting the bytes pulled -/

theorem pullCount_zero (off : Fin 9) : pullCount off 0 = 0 := by unfold pullCount; omega

theorem pullCount_add (off : Fin 9) (a b : Nat) :
    pullCount off (a + b) = pullCount off a + pullCount (off + a - 8 * pullCount off a) b := by
  have := off.isLt; unfold pullCount; omega

theorem offAfter_le (off : Fin 9) (n : Nat) : off + n - 8 * pullCount off n < 9 := by
  have := off.isLt; unfold pullCount; omega

theorem pullCount_le {off : Fin 9} {n k : Nat} (h : n ≤ (8 - off.val) + 8 * k) : pullCount off n ≤ k := by
  have := off.isLt; unfold pullCount; omega

theorem afterRead_off (s : State) (n : Nat) :
    (s.afterRead n).rd.off.val = s.rd.off + n - 8 * pullCount s.rd.off n := by
  simp only [State.afterRead, Fin.ofNat]
  exact Nat.mod_eq_of_lt (offAfter_le _ _)

theorem getLastD_append {α : Type} (xs ys : List α) (d : α) : (xs ++ ys).getLastD d = ys.getLastD (xs.getLastD d) := by
  cases ys with
  | nil => simp
  | cons y ys => simp [List.getLastD_eq_getLast?, List.getLast?_append, List.getLast?_cons]

theorem afterRead_def (s : State) (n : Nat) : s.afterRead n =
    { s with
      input := s.input.drop (pullCount s.rd.off n)
      trace := (((leadBytes s.input).take (pullCount s.rd.off n)).map fun b => ChanEvent.read .block (some b)).reverse ++ s.trace
      rd := ⟨((leadBytes s.input).take (pullCount s.rd.off n)).getLastD s.rd.holder,
        Fin.ofNat 9 (s.rd.off + n - 8 * pullCount s.rd.off n), s.rd.pulled + pullCount s.rd.off n⟩ } := rfl

theorem afterRead_zero (s : State) : s.afterRead 0 = s := by
  obtain ⟨host, input, sink, trace, result, params, ⟨holder, off, pulled⟩, wr, ct, ctValid, rl, hf, lz, fatal, draws⟩ := s
  simp [State.afterRead, pullCount_zero]

/-- Reading on is reading more (40_bitstream R149). -/
theorem afterRead_afterRead {s : State} {a b : Nat} (h : a ≤ s.bitsAhead.length) :
    (s.afterRead a).afterRead b = s.afterRead (a + b) := by
  have hp : pullCount s.rd.off a ≤ (leadBytes s.input).length := pullCount_le (by rwa [bitsAhead_length] at h)
  have hoff := afterRead_off s a
  have hlead : leadBytes (s.afterRead a).input = (leadBytes s.input).drop (pullCount s.rd.off a) := leadBytes_drop hp
  have hq : pullCount (s.afterRead a).rd.off b = pullCount s.rd.off (a + b) - pullCount s.rd.off a := by
    rw [hoff, pullCount_add]; omega
  have hle : pullCount s.rd.off a ≤ pullCount s.rd.off (a + b) := by rw [pullCount_add]; omega
  have htake : (leadBytes s.input).take (pullCount s.rd.off (a + b)) =
      (leadBytes s.input).take (pullCount s.rd.off a) ++ ((leadBytes s.input).drop (pullCount s.rd.off a)).take
        (pullCount s.rd.off (a + b) - pullCount s.rd.off a) := by
    rw [← List.take_add]; congr 1; omega
  have hoff2 : s.rd.off + a - 8 * pullCount s.rd.off a + b - 8 * (pullCount s.rd.off (a + b) - pullCount s.rd.off a) =
      s.rd.off + (a + b) - 8 * pullCount s.rd.off (a + b) := by
    have := s.rd.off.isLt
    unfold pullCount; omega
  have hin : (s.afterRead a).input = s.input.drop (pullCount s.rd.off a) := rfl
  have htr : (s.afterRead a).trace =
      (((leadBytes s.input).take (pullCount s.rd.off a)).map fun b => ChanEvent.read .block (some b)).reverse ++ s.trace := rfl
  have hho : (s.afterRead a).rd.holder = ((leadBytes s.input).take (pullCount s.rd.off a)).getLastD s.rd.holder := rfl
  have hpu : (s.afterRead a).rd.pulled = s.rd.pulled + pullCount s.rd.off a := rfl
  have hsum : pullCount s.rd.off a + (pullCount s.rd.off (a + b) - pullCount s.rd.off a) = pullCount s.rd.off (a + b) := by omega
  rw [afterRead_def (s.afterRead a) b, afterRead_def s (a + b), hlead, hq, hin, htr, hho, hpu, hoff, hoff2, htake]
  simp only [List.map_append, List.reverse_append, List.append_assoc, getLastD_append, List.drop_drop, Nat.add_assoc, hsum]
  rfl

/-! ### One bit -/

theorem drop_bitsOfByte {holder : Byte} {k : Nat} (h : k < 8) :
    (bitsOfByte holder).drop k = holder.getLsbD k :: (bitsOfByte holder).drop (k + 1) := by
  rw [List.drop_eq_getElem_cons (by simpa using h)]
  simp [bitsOfByte]

/-- A filled holder delivers its next bit. -/
theorem takeBit_ok {s : State} (h : s.rd.off.val < 8) :
    takeBit s = .done (s.rd.holder.getLsbD s.rd.off) (s.afterRead 1) := by
  have hp : pullCount s.rd.off 1 = 0 := by unfold pullCount; omega
  have hoff : s.rd.off + 1 = Fin.ofNat 9 (s.rd.off.val + 1) := by
    apply Fin.ext; simp [Fin.val_add]
  rw [afterRead_def, hp, takeBit, hoff]
  rfl

theorem readBit_ok {s : State} {b : Bool} {rest : List Bool} (h : s.bitsAhead = b :: rest) :
    readBit s = .done b (s.afterRead 1) ∧ (s.afterRead 1).bitsAhead = rest := by
  by_cases h8 : s.rd.off = 8
  · have hv : s.rd.off.val = 8 := by rw [h8]; rfl
    have hp : pullCount s.rd.off 1 = 1 := by rw [hv]; rfl
    have hheld : (bitsOfByte s.rd.holder).drop s.rd.off.val = [] := by simp [hv]
    match hin : s.input with
    | [] => simp [State.bitsAhead, leadBytes, hheld, hin] at h
    | .none :: r => simp [State.bitsAhead, leadBytes, hheld, hin] at h
    | .never :: r => simp [State.bitsAhead, leadBytes, hheld, hin] at h
    | .byte c :: r =>
      have hc : bitsOfByte c = c.getLsbD 0 :: (bitsOfByte c).drop 1 := by
        simpa using drop_bitsOfByte (holder := c) (k := 0) (by omega)
      simp only [State.bitsAhead, leadBytes, hheld, hin, List.nil_append, List.flatMap_cons] at h
      rw [hc, List.cons_append, List.cons.injEq] at h
      constructor
      · rw [afterRead_def, hp]
        simp [readBit, h8, tryFill, chanRead, hin, takeBit, leadBytes, ← h.1]
        rfl
      · rw [afterRead_def, hp, ← h.2, hv]
        simp [State.bitsAhead, hin, leadBytes]
  · have hlt : s.rd.off.val < 8 := by
      have := s.rd.off.isLt
      have : s.rd.off.val ≠ 8 := fun e => h8 (Fin.ext e)
      omega
    have hp : pullCount s.rd.off 1 = 0 := by unfold pullCount; omega
    have hval : (Fin.ofNat 9 (s.rd.off.val + 1)).val = s.rd.off.val + 1 := by simp only [Fin.ofNat]; omega
    rw [State.bitsAhead, drop_bitsOfByte hlt, List.cons_append, List.cons.injEq] at h
    constructor
    · rw [readBit, if_neg h8, takeBit_ok hlt, h.1]
    · rw [← h.2, afterRead_def, hp]
      simp only [State.bitsAhead, List.take_zero, List.drop_zero, Nat.mul_zero, Nat.sub_zero, hval]
      rfl

/-! ### `ReadBits` -/

/-- `ReadBits` where the bits are there: their value, and the state after reading them (40_bitstream R142, R144). -/
theorem readBits_ok {n : Nat} {s : State} (h : n ≤ s.bitsAhead.length) :
    readBits n s = .done (fieldValue (s.bitsAhead.take n)) (s.afterRead n) ∧ (s.afterRead n).bitsAhead = s.bitsAhead.drop n := by
  induction n generalizing s with
  | zero => simp [readBits, fieldValue, afterRead_zero]
  | succ n ih =>
    match hb : s.bitsAhead, h with
    | [], h => simp at h
    | b :: rest, h =>
      obtain ⟨h1, h2⟩ := readBit_ok hb
      obtain ⟨h3, h4⟩ := ih (s := s.afterRead 1) (by rw [h2]; simpa using h)
      have h5 : (s.afterRead 1).afterRead n = s.afterRead (n + 1) := by
        rw [afterRead_afterRead (by rw [hb]; simp), Nat.add_comm]
      rw [h5] at h3 h4
      exact ⟨by simp [readBits, h1, h3, h2, fieldValue], by rw [h4, h2]; rfl⟩

theorem readBits_field {n : Nat} {s : State} {bits rest : List Bool} (h : s.bitsAhead = bits ++ rest) (hn : bits.length = n) :
    readBits n s = .done (fieldValue bits) (s.afterRead n) ∧ (s.afterRead n).bitsAhead = rest := by
  obtain ⟨h1, h2⟩ := readBits_ok (n := n) (s := s) (by rw [h]; simp [hn])
  subst hn
  rw [h, List.take_left] at h1
  rw [h, List.drop_left] at h2
  exact ⟨h1, h2⟩

/-- The answer of the input channel once its leading bytes are used up. -/
theorem lead_cases (input : List ReadAnswer) :
    input.drop (leadBytes input).length = [] ∨ (∃ r, input.drop (leadBytes input).length = .none :: r) ∨
      (∃ r, input.drop (leadBytes input).length = .never :: r) := by
  induction input with
  | nil => simp
  | cons a input ih =>
    cases a with
    | byte b => simpa only [leadBytes, List.length_cons, List.drop_succ_cons] using ih
    | none => simp [leadBytes]
    | never => simp [leadBytes]

/-! ### The channels' record -/

theorem replayReads_append (es fs : List ChanEvent) (as : List ReadAnswer) :
    replayReads (es ++ fs) as = (replayReads es as).bind (replayReads fs) := by
  fun_induction replayReads es as <;> simp_all [replayReads]

theorem replayWrites_append (es fs : List ChanEvent) (as : List WriteAnswer) :
    replayWrites (es ++ fs) as = (replayWrites es as).bind (replayWrites fs) := by
  fun_induction replayWrites es as <;> simp_all [replayWrites]

theorem ChanMoves.refl (s : State) : ChanMoves s s := ⟨[], rfl, rfl, rfl, rfl⟩

theorem ChanMoves.trans {s t u : State} (h : ChanMoves s t) (h' : ChanMoves t u) : ChanMoves s u := by
  obtain ⟨es, h1, h2, h3, h4⟩ := h
  obtain ⟨fs, k1, k2, k3, k4⟩ := h'
  refine ⟨es ++ fs, ?_, ?_, ?_, ?_⟩
  · rw [k1, h1, List.reverse_append, List.append_assoc]
  · rw [replayReads_append, h2]; exact k2
  · rw [replayWrites_append, h3]; exact k3
  · rw [List.all_append, h4, k4]; rfl

/-- Only the channel fields count. -/
theorem ChanMoves.congr {s t u : State} (h : ChanMoves s t) (hi : u.input = t.input) (hs : u.sink = t.sink)
    (ht : u.trace = t.trace) : ChanMoves s u := by
  obtain ⟨es, h1, h2, h3, h4⟩ := h
  exact ⟨es, by rw [ht, h1], by rw [hi, h2], by rw [hs, h3], h4⟩

theorem ChanMoves.congr_left {s s' t : State} (h : ChanMoves s t) (hi : s'.input = s.input) (hs : s'.sink = s.sink)
    (ht : s'.trace = s.trace) : ChanMoves s' t := by
  obtain ⟨es, h1, h2, h3, h4⟩ := h
  exact ⟨es, by rw [ht, h1], by rw [hi, h2], by rw [hs, h3], h4⟩

theorem replayReads_suffix {es : List ChanEvent} {as bs : List ReadAnswer} (h : replayReads es as = some bs) : bs <:+ as := by
  fun_induction replayReads es as <;> simp_all
  all_goals exact List.IsSuffix.trans (by assumption) (List.suffix_cons _ _)

theorem replayWrites_suffix {es : List ChanEvent} {as bs : List WriteAnswer} (h : replayWrites es as = some bs) : bs <:+ as := by
  fun_induction replayWrites es as <;> simp_all
  all_goals exact List.IsSuffix.trans (by assumption) (List.suffix_cons _ _)

theorem ChanMoves.alwaysAnswers {s t : State} (h : ChanMoves s t) (ha : alwaysAnswers s = true) : alwaysAnswers t = true := by
  obtain ⟨es, -, h2, h3, -⟩ := h
  simp only [Machine.alwaysAnswers, Bool.and_eq_true, List.all_eq_true] at ha ⊢
  exact ⟨fun a m => ha.1 a ((replayReads_suffix h2).subset m), fun a m => ha.2 a ((replayWrites_suffix h3).subset m)⟩

/-- Where a later access can hang, an earlier one could. -/
theorem ChanMoves.hung {s t : State} (h : ChanMoves s t) (hn : Machine.alwaysAnswers t = false) : Machine.alwaysAnswers s = false := by
  by_contra hs
  rw [h.alwaysAnswers (by simpa using hs)] at hn
  cases hn

theorem chanRead_ends (s : State) : (chanRead .block s).Ends
    (fun _ t => t = { s with input := t.input, trace := t.trace } ∧ ChanMoves s t) (fun _ _ => False) (alwaysAnswers s = false) := by
  unfold chanRead
  split
  · next h => exact ⟨rfl, [.read .block none], rfl, by simp [h, replayReads], rfl, rfl⟩
  · next r h => exact ⟨rfl, [.read .block none], rfl, by simp [h, replayReads], rfl, rfl⟩
  · next b r h => exact ⟨rfl, [.read .block (some b)], rfl, by simp [h, replayReads], rfl, rfl⟩
  · next r h => simp [alwaysAnswers, h]

theorem chanWrite_ends (b : Byte) (s : State) : (chanWrite .block b s).Ends
    (fun _ t => t = { s with sink := t.sink, trace := t.trace } ∧ ChanMoves s t) (fun _ _ => False) (alwaysAnswers s = false) := by
  unfold chanWrite
  split
  · next h => exact ⟨rfl, [.write .block b true], rfl, rfl, by simp [h, replayWrites], rfl⟩
  · next r h => exact ⟨rfl, [.write .block b true], rfl, rfl, by simp [h, replayWrites], rfl⟩
  · next r h => exact ⟨rfl, [.write .block b false], rfl, rfl, by simp [h, replayWrites], rfl⟩
  · next r h => simp [alwaysAnswers, h]

/-! ### All a read can do -/

/-- What a read can change: the reader, the input channel and the record; a reader in order stays in order. -/
def Reads (s t : State) : Prop :=
  t = { s with rd := t.rd, input := t.input, trace := t.trace } ∧ ChanMoves s t ∧ (s.rd.ok = true → t.rd.ok = true)

theorem Reads.refl (s : State) : Reads s s := ⟨rfl, .refl s, id⟩

theorem Reads.trans {s t u : State} (h : Reads s t) (h' : Reads t u) : Reads s u :=
  ⟨by rw [h'.1, h.1], h.2.1.trans h'.2.1, fun k => h'.2.2 (h.2.2 k)⟩

theorem takeBit_ok_inv {s : State} (h : s.rd.off ≠ 8) (hp : 1 ≤ s.rd.pulled ∨ s.rd.ok = true) :
    ({ s.rd with off := s.rd.off + 1 } : BitReader).ok = true := by
  have hlt : s.rd.off.val < 8 := by
    have := s.rd.off.isLt
    have : s.rd.off.val ≠ 8 := fun e => h (Fin.ext e)
    omega
  have hv : (s.rd.off + 1 : Fin 9).val = s.rd.off.val + 1 := by rw [Fin.val_add]; exact Nat.mod_eq_of_lt (by simp; omega)
  simp only [BitReader.ok, hv, Bool.and_eq_true, Bool.or_eq_true, decide_eq_true_eq, beq_iff_eq] at hp ⊢
  omega

theorem readBit_ends (s : State) : (readBit s).Ends (fun _ t => Reads s t ∧ (1 ≤ s.rd.pulled → t.rd.ok = true))
    (fun f t => f = .ioRead ∧ Reads s t) (alwaysAnswers s = false) := by
  unfold readBit
  split
  · next h8 =>
    unfold tryFill
    rw [andThen_assoc]
    refine ((chanRead_ends s).mono (fun _ _ h => h) (fun _ _ h => h.elim) id).andThen fun a t h => ?_
    cases a with
    | none => exact ⟨rfl, by rw [h.1], h.2, fun k => by rw [h.1]; exact k⟩
    | some b =>
      refine ⟨⟨by simp only; rw [h.1], h.2.congr rfl rfl rfl, fun _ => ?_⟩, fun _ => ?_⟩ <;> rfl
  · next h8 =>
    exact ⟨⟨rfl, .refl s, fun k => takeBit_ok_inv h8 (.inr k)⟩, fun k => takeBit_ok_inv h8 (.inl k)⟩

/-- `ReadBits(n)` answers a value below 2^n or raises `IO_READ`, and touches nothing but the reader and the input channel
(40_bitstream R144, 60_exceptions R304); it hangs only on an answer that never comes. -/
theorem readBits_ends (n : Nat) (s : State) : (readBits n s).Ends (fun v t => v < 2 ^ n ∧ Reads s t)
    (fun f t => f = .ioRead ∧ Reads s t) (alwaysAnswers s = false) := by
  induction n generalizing s with
  | zero => exact ⟨by norm_num, .refl s⟩
  | succ n ih =>
    unfold readBits
    refine ((readBit_ends s).mono (fun _ _ h => h.1) (fun _ _ h => h) id).andThen fun b u hu => ?_
    refine ((ih u).mono (fun v t h => And.intro h.1 (hu.trans h.2)) (fun f t h => And.intro h.1 (hu.trans h.2)) hu.2.1.hung).andThen
      fun v t h => ⟨?_, h.2⟩
    have := b.toNat_le
    have := h.1
    rw [pow_succ]; omega

/-! ### Where the bits are not there -/

theorem afterDry_afterRead {s : State} {n : Nat} (h : n ≤ s.bitsAhead.length) : (s.afterRead n).afterDry = s.afterDry := by
  have hp : pullCount s.rd.off n ≤ (leadBytes s.input).length := pullCount_le (by rwa [bitsAhead_length] at h)
  have hlead : leadBytes (s.afterRead n).input = (leadBytes s.input).drop (pullCount s.rd.off n) := leadBytes_drop hp
  have hin : (s.afterRead n).input = s.input.drop (pullCount s.rd.off n) := rfl
  have htr : (s.afterRead n).trace =
      (((leadBytes s.input).take (pullCount s.rd.off n)).map fun b => ChanEvent.read .block (some b)).reverse ++ s.trace := rfl
  have hho : (s.afterRead n).rd.holder = ((leadBytes s.input).take (pullCount s.rd.off n)).getLastD s.rd.holder := rfl
  have hpu : (s.afterRead n).rd.pulled = s.rd.pulled + pullCount s.rd.off n := rfl
  have hsplit := List.take_append_drop (pullCount s.rd.off n) (leadBytes s.input)
  have hlen : pullCount s.rd.off n + ((leadBytes s.input).length - pullCount s.rd.off n) = (leadBytes s.input).length := by omega
  unfold State.afterDry
  rw [hlead, hin, htr, hho, hpu, ← getLastD_append, hsplit]
  simp only [List.length_drop, List.drop_drop, List.cons_append, ← List.append_assoc, ← List.reverse_append, ← List.map_append, hsplit,
    Nat.add_assoc, hlen]
  rfl

theorem readBit_dry {s : State} (h : s.bitsAhead = []) (ha : dryAnswer s.input = true) : readBit s = .raised .ioRead s.afterDry := by
  have hlen := bitsAhead_length s
  rw [h, List.length_nil] at hlen
  have := s.rd.off.isLt
  have h8 : s.rd.off = 8 := Fin.ext (by show s.rd.off.val = 8; omega)
  have hl : leadBytes s.input = [] := List.length_eq_zero_iff.mp (by omega)
  have hrd : (⟨s.rd.holder, 8, s.rd.pulled⟩ : BitReader) = s.rd := by rw [← h8]
  unfold dryAnswer at ha
  rw [hl] at ha
  match hin : s.input with
  | [] => simp [readBit, h8, tryFill, chanRead, hin, State.afterDry, leadBytes, hrd]
  | .none :: r => simp [readBit, h8, tryFill, chanRead, hin, State.afterDry, leadBytes, hrd]
  | .never :: r => simp [hin] at ha
  | .byte b :: r => simp [hin, leadBytes] at hl

/-- `ReadBits` where the bits are not there (40_bitstream R142): `IO_READ`, every byte the channel gave used up. -/
theorem readBits_dry {n : Nat} {s : State} (h : s.bitsAhead.length < n) (ha : dryAnswer s.input = true) :
    readBits n s = .raised .ioRead s.afterDry := by
  induction n generalizing s with
  | zero => omega
  | succ n ih =>
    match hb : s.bitsAhead with
    | [] => simp [readBits, readBit_dry hb ha]
    | b :: rest =>
      obtain ⟨h1, h2⟩ := readBit_ok hb
      have hle : 1 ≤ s.bitsAhead.length := by rw [hb]; simp
      have hp : pullCount s.rd.off 1 ≤ (leadBytes s.input).length := pullCount_le (by rwa [bitsAhead_length] at hle)
      have ha' : dryAnswer (s.afterRead 1).input = true := by
        have hin : (s.afterRead 1).input = s.input.drop (pullCount s.rd.off 1) := rfl
        unfold dryAnswer at ha ⊢
        rw [hin, leadBytes_drop hp, List.drop_drop, List.length_drop, Nat.add_sub_cancel' hp]
        exact ha
      have h3 := ih (s := s.afterRead 1) (by rw [h2]; rw [hb] at h; simpa using h) ha'
      simp [readBits, h1, h3, afterDry_afterRead hle]

end Sys2Proof.Machine
end

