-- ==== Sys2Proof/Laws/Writer.lean ====
section
/-! SUPPORT. The bit writer and the output channel (40_bitstream R144, R146, R147, 20_memory R62, R66). -/

namespace Sys2Proof.Machine

/-! ### The output channel -/

theorem acceptedBytes_append (bs : List Byte) (tr : List ChanEvent) :
    acceptedBytes ((bs.map fun b => ChanEvent.write .block b true).reverse ++ tr) = bs.reverse ++ acceptedBytes tr := by
  induction bs generalizing tr with
  | nil => rfl
  | cons b bs ih => simp [ih, acceptedBytes]

theorem acceptedBytes_reads (bs : List Byte) (tr : List ChanEvent) :
    acceptedBytes ((bs.map fun b => ChanEvent.read .block (some b)).reverse ++ tr) = acceptedBytes tr := by
  induction bs generalizing tr with
  | nil => rfl
  | cons b bs ih => simp [ih, acceptedBytes]

/-- The bytes accepted are appended to the output, in order (20_memory R62). -/
@[simp] theorem output_afterBytes (s : State) (bs : List Byte) : (s.afterBytes bs).output = s.output ++ bs := by
  simp only [State.output, afterBytes_trace, acceptedBytes_append, List.reverse_append, List.reverse_reverse]

@[simp] theorem output_afterRead (s : State) (n : Nat) : (s.afterRead n).output = s.output := by
  simp only [State.output, State.afterRead, acceptedBytes_reads]

theorem sinkAccepts_mono {j k : Nat} {sink : List WriteAnswer} (h : sinkAccepts k sink = true) (hj : j ≤ k) :
    sinkAccepts j sink = true := by
  unfold sinkAccepts at *
  rw [List.all_eq_true] at *
  intro a ha
  exact h a (List.take_subset_take_left _ hj ha)

theorem sinkAccepts_drop {j k : Nat} {sink : List WriteAnswer} (h : sinkAccepts (j + k) sink = true) :
    sinkAccepts k (sink.drop j) = true := by
  unfold sinkAccepts at *
  rw [List.all_eq_true] at *
  intro a ha
  apply h
  rw [List.take_add]
  exact List.mem_append_right _ ha

@[simp] theorem sinkAccepts_nil (k : Nat) : sinkAccepts k [] = true := by simp [sinkAccepts]

@[simp] theorem afterBytes_nil (s : State) : s.afterBytes [] = s := rfl

theorem afterBytes_afterBytes (s : State) (as bs : List Byte) : (s.afterBytes as).afterBytes bs = s.afterBytes (as ++ bs) := by
  simp [State.afterBytes, List.drop_drop]

theorem chanWrite_ok {s : State} (who : Agent) (b : Byte) (h : sinkAccepts 1 s.sink = true) :
    chanWrite who b s = .done true { s with sink := s.sink.drop 1, trace := .write who b true :: s.trace } := by
  unfold chanWrite
  match hs : s.sink with
  | [] => simp
  | .ok :: r => simp
  | .fail :: r => simp [hs, sinkAccepts] at h
  | .never :: r => simp [hs, sinkAccepts] at h

/-- `Emit` of a sequence where the channel accepts it (40_bitstream R144). -/
theorem emitAll_ok {bs : List Byte} {s : State} (h : sinkAccepts bs.length s.sink = true) :
    emitAll bs s = .done () (s.afterBytes bs) := by
  induction bs generalizing s with
  | nil => rfl
  | cons b bs ih =>
    have h1 : emit b s = .done () (s.afterBytes [b]) := by
      simp [emit, chanWrite_ok .block b (sinkAccepts_mono h (by simp)), State.afterBytes]
    have h2 := ih (s := s.afterBytes [b]) (sinkAccepts_drop (j := 1) (by simpa [Nat.add_comm] using h))
    simp only [emitAll, h1, done_andThen, h2, afterBytes_afterBytes, List.singleton_append]

/-- What an emission can change: the output channel and the record. -/
def Emits (s t : State) : Prop := t = { s with sink := t.sink, trace := t.trace } ∧ ChanMoves s t

theorem Emits.refl (s : State) : Emits s s := ⟨rfl, .refl s⟩

theorem Emits.trans {s t u : State} (h : Emits s t) (h' : Emits t u) : Emits s u :=
  ⟨by rw [h'.1, h.1], h.2.trans h'.2⟩

theorem emit_ends (b : Byte) (s : State) :
    (emit b s).Ends (fun _ t => Emits s t) (fun f t => f = .ioWrite ∧ Emits s t) (alwaysAnswers s = false) := by
  unfold emit
  refine ((chanWrite_ends b s).mono (fun _ _ h => h) (fun _ _ h => h.elim) id).andThen fun a t h => ?_
  cases a
  · exact ⟨rfl, h⟩
  · exact h

/-- `Emit` touches nothing but the output channel and raises nothing but `IO_WRITE` (40_bitstream R144, 60_exceptions R304). -/
theorem emitAll_ends (bs : List Byte) (s : State) :
    (emitAll bs s).Ends (fun _ t => Emits s t) (fun f t => f = .ioWrite ∧ Emits s t) (alwaysAnswers s = false) := by
  induction bs generalizing s with
  | nil => exact .refl s
  | cons b bs ih =>
    refine (emit_ends b s).andThen fun _ u hu => (ih u).mono (fun _ _ h => hu.trans h) (fun _ _ h => ⟨h.1, hu.trans h.2⟩) hu.2.hung

/-! ### The writer as its pending bits -/

@[simp] theorem pending_length (w : BitWriter) : w.pending.length = w.off.val := by
  have := w.off.isLt
  simp [BitWriter.pending]; omega

theorem fieldValue_pending {w : BitWriter} (h : w.ok = true) : fieldValue w.pending = w.holder.toNat := by
  simp only [BitWriter.ok, Bool.and_eq_true, decide_eq_true_eq] at h
  have h8 := fieldBits_append w.off.val (8 - w.off.val) w.holder.toNat
  rw [show w.off.val + (8 - w.off.val) = 8 by omega] at h8
  rw [BitWriter.pending, bitsOfByte_eq_fieldBits, h8, List.take_left' (by simp), fieldValue_fieldBits_of_lt h.2]

theorem writerOf_pending {w : BitWriter} (h : w.ok = true) : writerOf w.pending = w := by
  have hf := fieldValue_pending h
  obtain ⟨holder, off⟩ := w
  simp only [writerOf, hf, pending_length, BitVec.ofNat_toNat, BitVec.setWidth_eq, BitWriter.mk.injEq, true_and]
  exact Fin.ext (Nat.mod_eq_of_lt off.isLt)

theorem pending_writerOf {bits : List Bool} (h : bits.length < 8) : (writerOf bits).pending = bits := by
  have hlt := fieldValue_lt bits
  have hle : 2 ^ bits.length ≤ 2 ^ 8 := Nat.pow_le_pow_right (by norm_num) (by omega)
  have h8 := fieldBits_append bits.length (8 - bits.length) (fieldValue bits)
  rw [show bits.length + (8 - bits.length) = 8 by omega] at h8
  have hoff : (Fin.ofNat 9 bits.length).val = bits.length := Nat.mod_eq_of_lt (by omega)
  have hv : (BitVec.ofNat 8 (fieldValue bits)).toNat = fieldValue bits := by
    rw [BitVec.toNat_ofNat, Nat.mod_eq_of_lt (by omega)]
  rw [BitWriter.pending, writerOf, hoff, bitsOfByte_eq_fieldBits, hv, h8, List.take_left' (by simp)]
  exact fieldBits_fieldValue bits

theorem writerOf_ok {bits : List Bool} (h : bits.length < 8) : (writerOf bits).ok = true := by
  have hlt := fieldValue_lt bits
  have hle : 2 ^ bits.length ≤ 2 ^ 8 := Nat.pow_le_pow_right (by norm_num) (by omega)
  have hoff : (Fin.ofNat 9 bits.length).val = bits.length := Nat.mod_eq_of_lt (by omega)
  simp only [BitWriter.ok, writerOf, hoff, BitVec.toNat_ofNat, Bool.and_eq_true, decide_eq_true_eq]
  exact ⟨h, by rw [Nat.mod_eq_of_lt (by omega)]; exact hlt⟩

theorem packBits_append {as bs : List Bool} {k : Nat} (h : as.length = 8 * k) :
    packBits (as ++ bs) = packBits as ++ packBits bs := by
  induction k generalizing as with
  | zero => have : as = [] := List.length_eq_zero_iff.mp (by omega); subst this; simp
  | succ k ih =>
    have hne : as ≠ [] := by rintro rfl; simp at h
    have h8 : 8 ≤ as.length := by omega
    rw [packBits_of_ne_nil hne, packBits_of_ne_nil (by simp [hne]), List.take_append_of_le_length h8,
      List.drop_append_of_le_length h8, ih (by simp; omega)]
    rfl

theorem afterWrite_wr_ok (s : State) (bits : List Bool) : (s.afterWrite bits).wr.ok = true := by
  apply writerOf_ok
  simp only [List.length_drop]
  omega

theorem afterWrite_pending (s : State) (bits : List Bool) :
    (s.afterWrite bits).wr.pending = (s.wr.pending ++ bits).drop (8 * ((s.wr.pending ++ bits).length / 8)) := by
  apply pending_writerOf
  simp only [List.length_drop]
  omega

theorem afterWrite_def (s : State) (bits : List Bool) : s.afterWrite bits =
    { s.afterBytes (packBits ((s.wr.pending ++ bits).take (8 * ((s.wr.pending ++ bits).length / 8)))) with
      wr := writerOf ((s.wr.pending ++ bits).drop (8 * ((s.wr.pending ++ bits).length / 8))) } := rfl

theorem afterWrite_nil {s : State} (h : s.wr.ok = true) : s.afterWrite [] = s := by
  have h0 : s.wr.pending.length / 8 = 0 := by
    have := h
    simp only [BitWriter.ok, Bool.and_eq_true, decide_eq_true_eq] at this
    simp; omega
  rw [afterWrite_def, List.append_nil, h0]
  simp [writerOf_pending h]

/-- Writing on is writing more (40_bitstream R149). -/
theorem afterWrite_afterWrite (s : State) (as bs : List Bool) : (s.afterWrite as).afterWrite bs = s.afterWrite (as ++ bs) := by
  rw [afterWrite_def (s.afterWrite as), afterWrite_pending, afterWrite_def s (as ++ bs)]
  generalize hp : s.wr.pending ++ as = xs
  rw [← List.append_assoc, hp]
  have hx : (s.afterWrite as) = { s.afterBytes (packBits (xs.take (8 * (xs.length / 8)))) with
      wr := writerOf (xs.drop (8 * (xs.length / 8))) } := by rw [afterWrite_def, hp]
  have hlen : (xs.drop (8 * (xs.length / 8)) ++ bs).length / 8 + xs.length / 8 = (xs ++ bs).length / 8 := by
    simp only [List.length_append, List.length_drop]; omega
  have hle : 8 * (xs.length / 8) ≤ xs.length := by omega
  have hdrop : (xs ++ bs).drop (8 * (xs.length / 8)) = xs.drop (8 * (xs.length / 8)) ++ bs := List.drop_append_of_le_length hle
  have htake : (xs ++ bs).take (8 * ((xs ++ bs).length / 8)) = xs.take (8 * (xs.length / 8)) ++
      (xs.drop (8 * (xs.length / 8)) ++ bs).take (8 * ((xs.drop (8 * (xs.length / 8)) ++ bs).length / 8)) := by
    rw [← hlen, Nat.mul_add, Nat.add_comm, List.take_add, hdrop, List.take_append_of_le_length hle]
  have hdd : (xs ++ bs).drop (8 * ((xs ++ bs).length / 8)) =
      (xs.drop (8 * (xs.length / 8)) ++ bs).drop (8 * ((xs.drop (8 * (xs.length / 8)) ++ bs).length / 8)) := by
    rw [← hlen, Nat.mul_add, Nat.add_comm, ← List.drop_drop, hdrop]
  rw [hx, htake, hdd, packBits_append (k := xs.length / 8) (by simp; omega), ← afterBytes_afterBytes]
  rfl

/-! ### One bit, and `BW.WRITE`'s loop -/

theorem setBit_toNat {h : Byte} {i : Nat} (b : Bool) (hi : i < 8) (hlt : h.toNat < 2 ^ i) :
    (setBit h i b).toNat = h.toNat + 2 ^ i * b.toNat := by
  have h1 : (1#8 <<< i).toNat = 2 ^ i := by
    rw [BitVec.toNat_shiftLeft, BitVec.toNat_ofNat]
    have : 2 ^ i < 2 ^ 8 := Nat.pow_lt_pow_right (by norm_num) hi
    simp [Nat.shiftLeft_eq]; omega
  cases b with
  | true =>
    simp only [setBit, if_true, BitVec.toNat_or, h1, Bool.toNat_true, mul_one]
    rw [Nat.or_comm, Nat.add_comm]
    have := Nat.two_pow_add_eq_or_of_lt hlt 1
    simpa using this.symm
  | false =>
    simp only [setBit, Bool.false_eq_true, if_false, Bool.toNat_false, mul_zero, add_zero]
    congr 1
    apply BitVec.eq_of_getLsbD_eq
    intro j hj
    simp only [BitVec.getLsbD_and, BitVec.getLsbD_not, hj, decide_true, Bool.true_and]
    by_cases hij : j = i
    · subst hij
      have : h.getLsbD j = false := by
        rw [← BitVec.testBit_toNat]; exact Nat.testBit_lt_two_pow hlt
      simp [this]
    · have : (1#8 <<< i).getLsbD j = false := by
        rw [← BitVec.testBit_toNat, h1, Nat.testBit_two_pow]
        simp [Ne.symm hij]
      simp [this]

theorem writeBit_ok {b : Bool} {s : State} (hw : s.wr.ok = true) (h : sinkAccepts (pushCount s.wr.off 1) s.sink = true) :
    writeBit b s = .done () (s.afterWrite [b]) := by
  have hw' := hw
  simp only [BitWriter.ok, Bool.and_eq_true, decide_eq_true_eq] at hw'
  obtain ⟨hoff, hlt⟩ := hw'
  have hset := setBit_toNat b hoff hlt
  have hval : fieldValue (s.wr.pending ++ [b]) = s.wr.holder.toNat + 2 ^ s.wr.off.val * b.toNat := by
    rw [fieldValue_append, fieldValue_pending hw, pending_length]; simp [fieldValue]
  have hbyte : BitVec.ofNat 8 (fieldValue (s.wr.pending ++ [b])) = setBit s.wr.holder s.wr.off b := by
    rw [hval, ← hset]; simp
  have hlen : (s.wr.pending ++ [b]).length = s.wr.off.val + 1 := by simp
  have hnext : (s.wr.off + 1 : Fin 9) = Fin.ofNat 9 (s.wr.off.val + 1) := by apply Fin.ext; simp [Fin.val_add]
  have hnextv : (s.wr.off + 1 : Fin 9).val = s.wr.off.val + 1 := by
    rw [hnext]; exact Nat.mod_eq_of_lt (by omega)
  rw [afterWrite_def, hlen]
  by_cases h7 : s.wr.off.val = 7
  · have h8 : (s.wr.off + 1 : Fin 9) = 8 := Fin.ext (by rw [hnextv, h7]; rfl)
    have hk : (s.wr.off.val + 1) / 8 = 1 := by omega
    have hs : sinkAccepts 1 s.sink = true := by simpa [pushCount, h7] using h
    have ht : (s.wr.pending ++ [b]).take (8 * 1) = s.wr.pending ++ [b] := List.take_of_length_le (by omega)
    have hd : (s.wr.pending ++ [b]).drop (8 * 1) = [] := List.drop_eq_nil_of_le (by omega)
    have hne : s.wr.pending ++ [b] ≠ [] := by simp
    have hpk : packBits (s.wr.pending ++ [b]) = [setBit s.wr.holder s.wr.off b] := by
      rw [packBits_of_ne_nil hne, List.take_of_length_le (by omega), List.drop_eq_nil_of_le (by omega), hbyte, packBits_nil]
    rw [hk, ht, hd, hpk]
    simp only [writeBit, h8, if_true, flushHolder]
    rw [chanWrite_ok (s := { s with wr := ⟨0, 0⟩ }) .block _ hs]
    rfl
  · have h8 : ¬ (s.wr.off + 1 : Fin 9) = 8 := by
      intro e
      have := congrArg Fin.val e
      rw [hnextv] at this
      have h8' : (8 : Fin 9).val = 8 := rfl
      omega
    have hk : (s.wr.off.val + 1) / 8 = 0 := by omega
    have hwr : writerOf (s.wr.pending ++ [b]) = ⟨setBit s.wr.holder s.wr.off b, s.wr.off + 1⟩ := by
      rw [writerOf, hbyte, hlen, hnext]
    rw [hk]
    simp only [writeBit, h8, if_false, Nat.mul_zero, List.take_zero, List.drop_zero, packBits_nil, afterBytes_nil, hwr]

/-- The loop of `BW.WRITE` where the channel accepts every full byte (40_bitstream R146). -/
theorem writeBits_ok {n v : Nat} {s : State} (hw : s.wr.ok = true)
    (h : sinkAccepts (pushCount s.wr.off n) s.sink = true) :
    writeBits n v s = .done () (s.afterWrite (fieldBits n v)) := by
  induction n generalizing v s with
  | zero => simp [writeBits, fieldBits, afterWrite_nil hw]
  | succ n ih =>
    have hoff : s.wr.off.val < 8 := by
      simp only [BitWriter.ok, Bool.and_eq_true, decide_eq_true_eq] at hw; exact hw.1
    have h1 := writeBit_ok (b := v.testBit 0) hw (sinkAccepts_mono h (by unfold pushCount; omega))
    have hsink : (s.afterWrite [v.testBit 0]).sink = s.sink.drop (pushCount s.wr.off 1) := by
      simp only [State.afterWrite, afterBytes_sink, packBits_length, List.length_take, List.length_append, pending_length,
        List.length_singleton, pushCount]
      congr 1; omega
    have hoff' : (s.afterWrite [v.testBit 0]).wr.off.val = s.wr.off.val + 1 - 8 * pushCount s.wr.off 1 := by
      have := pending_length (s.afterWrite [v.testBit 0]).wr
      rw [afterWrite_pending] at this
      simp only [List.length_drop, List.length_append, pending_length, List.length_singleton] at this
      unfold pushCount; omega
    have h2 := ih (v := v / 2) (s := s.afterWrite [v.testBit 0]) (afterWrite_wr_ok _ _) (by
      rw [hsink, hoff']
      apply sinkAccepts_drop
      convert h using 2
      unfold pushCount; omega)
    simp only [writeBits, h1, done_andThen, h2, afterWrite_afterWrite, fieldBits, List.singleton_append]

/-! ### All a write can do -/

/-- What a bit write can change: the writer, the output channel and the record; a writer in order stays in order. -/
def Writes (s t : State) : Prop :=
  t = { s with wr := t.wr, sink := t.sink, trace := t.trace } ∧ ChanMoves s t ∧ (s.wr.ok = true → t.wr.ok = true)

theorem Writes.refl (s : State) : Writes s s := ⟨rfl, .refl s, id⟩

theorem Writes.trans {s t u : State} (h : Writes s t) (h' : Writes t u) : Writes s u :=
  ⟨by rw [h'.1, h.1], h.2.1.trans h'.2.1, fun k => h'.2.2 (h.2.2 k)⟩

/-- A flush leaves the writer empty, whether or not the channel takes the byte (40_bitstream R146, R147, D22). -/
theorem flushHolder_ends (s : State) : (flushHolder s).Ends (fun _ t => Writes s t ∧ t.wr = ⟨0, 0⟩)
    (fun f t => f = .ioWrite ∧ Writes s t ∧ t.wr = ⟨0, 0⟩) (alwaysAnswers s = false) := by
  have key : ∀ t, t = { { s with wr := ⟨0, 0⟩ } with sink := t.sink, trace := t.trace } ∧
      ChanMoves { s with wr := ⟨0, 0⟩ } t → Writes s t ∧ t.wr = ⟨0, 0⟩ := by
    rintro t ⟨h1, h2⟩
    have hw : t.wr = ⟨0, 0⟩ := by rw [h1]
    exact ⟨⟨by rw [h1], h2.congr_left rfl rfl rfl, fun _ => by rw [hw]; rfl⟩, hw⟩
  unfold flushHolder
  refine ((chanWrite_ends s.wr.holder { s with wr := ⟨0, 0⟩ }).mono (fun _ t h => key t h) (fun _ _ h => h.elim) id).andThen
    fun a t h => ?_
  cases a
  · exact ⟨rfl, h⟩
  · exact h

theorem writeBit_wr_ok {b : Bool} {w : BitWriter} (h : w.ok = true) (h8 : (w.off + 1 : Fin 9) ≠ 8) :
    (⟨setBit w.holder w.off b, w.off + 1⟩ : BitWriter).ok = true := by
  simp only [BitWriter.ok, Bool.and_eq_true, decide_eq_true_eq] at h ⊢
  obtain ⟨hoff, hlt⟩ := h
  have hv : (w.off + 1 : Fin 9).val = w.off.val + 1 := by rw [Fin.val_add]; exact Nat.mod_eq_of_lt (by simp; omega)
  have hne : w.off.val + 1 ≠ 8 := fun e => h8 (Fin.ext (by rw [hv, e]; rfl))
  rw [hv, setBit_toNat b hoff hlt, pow_succ]
  have := b.toNat_le
  refine ⟨by omega, ?_⟩
  nlinarith [Nat.two_pow_pos w.off.val]

theorem writeBit_ends (b : Bool) (s : State) : (writeBit b s).Ends (fun _ t => Writes s t)
    (fun f t => f = .ioWrite ∧ Writes s t ∧ t.wr = ⟨0, 0⟩) (alwaysAnswers s = false) := by
  have key : ∀ (s' t : State), s' = { s with wr := s'.wr } → Writes s' t → t.wr = ⟨0, 0⟩ → Writes s t := by
    rintro s' t h1 ⟨h2, h3, -⟩ h4
    refine ⟨by rw [h2, h1], h3.congr_left ?_ ?_ ?_, fun _ => by rw [h4]; rfl⟩ <;> rw [h1]
  unfold writeBit
  dsimp only
  split
  · refine (flushHolder_ends _).mono (fun _ t h => key _ t rfl h.1 h.2) (fun f t h => ⟨h.1, key _ t rfl h.2.1 h.2.2, h.2.2⟩) id
  · next h8 => exact ⟨rfl, (ChanMoves.refl s).congr rfl rfl rfl, fun h => writeBit_wr_ok h h8⟩

/-- The loop of `BW.WRITE` touches nothing but the writer and the output channel and raises nothing but `IO_WRITE`
(40_bitstream R146, 60_exceptions R304). -/
theorem writeBits_ends (n v : Nat) (s : State) : (writeBits n v s).Ends (fun _ t => Writes s t)
    (fun f t => f = .ioWrite ∧ Writes s t ∧ t.wr = ⟨0, 0⟩) (alwaysAnswers s = false) := by
  induction n generalizing v s with
  | zero => exact .refl s
  | succ n ih =>
    unfold writeBits
    refine (writeBit_ends _ s).andThen fun _ u hu =>
      (ih _ u).mono (fun _ _ h => hu.trans h) (fun _ _ h => ⟨h.1, hu.trans h.2.1, h.2.2⟩) hu.2.1.hung

end Sys2Proof.Machine
end

