-- ==== Sys2Proof/Laws/CodeTable.lean ====
section
/-! SUPPORT. `CT.LOAD` (41_code_table R170 to R172): all it can do, what it makes of a legal table, and that it accepts nothing else. -/

namespace Sys2Proof.Machine

/-! ### The table's invariant -/

theorem tableOk_iff (ct : CodeTable) :
    tableOk ct = true ↔ ∀ v (h : v < 256), ct[v].code.toNat < 2 ^ ct[v].length.val := by
  simp only [tableOk, List.all_eq_true, decide_eq_true_eq, Vector.mem_toList_iff, Vector.mem_iff_getElem]
  constructor
  · intro h v hv; exact h _ ⟨v, hv, rfl⟩
  · rintro h e ⟨v, hv, rfl⟩; exact h v hv

theorem tableOk_empty : tableOk emptyTable = true := by
  rw [tableOk_iff]; intro v h; simp [emptyTable]

theorem entryAccepted_iff {floor value code length : Nat} : entryAccepted floor value code length = true ↔
    value ≤ 255 ∧ floor ≤ value ∧ 1 ≤ length ∧ length ≤ 32 ∧ code < 2 ^ length := by
  unfold entryAccepted Config.lenMax
  simp only [Bool.and_eq_true, decide_eq_true_eq, and_assoc]

theorem tableOk_set {ct : CodeTable} {value code length : Nat} (h : tableOk ct = true) (hl : length ≤ 32)
    (hc : code < 2 ^ length) :
    tableOk (ct.setIfInBounds value ⟨BitVec.ofNat 32 code, Fin.ofNat 33 length⟩) = true := by
  rw [tableOk_iff] at h ⊢
  intro v hv
  rw [Vector.getElem_setIfInBounds]
  split
  · have h1 : (Fin.ofNat 33 length).val = length := Nat.mod_eq_of_lt (by omega)
    have h2 : 2 ^ length ≤ 2 ^ 32 := Nat.pow_le_pow_right (by norm_num) hl
    simp only [h1, BitVec.toNat_ofNat]
    rw [Nat.mod_eq_of_lt (by omega)]; exact hc
  · exact h v hv

/-! ### All `CT.LOAD` can do -/

/-- What a table load can change: the reader, the input channel, the record, the table and its valid bit, the draws. -/
def Loads (s t : State) : Prop :=
  t = { s with rd := t.rd, input := t.input, trace := t.trace, ct := t.ct, ctValid := t.ctValid, draws := t.draws } ∧
    ChanMoves s t ∧ (s.rd.ok = true → t.rd.ok = true)

theorem Loads.refl (s : State) : Loads s s := ⟨rfl, .refl s, id⟩

theorem Loads.trans {s t u : State} (h : Loads s t) (h' : Loads t u) : Loads s u :=
  ⟨by rw [h'.1, h.1], h.2.1.trans h'.2.1, fun k => h'.2.2 (h.2.2 k)⟩

theorem Reads.loads {s t : State} (h : Reads s t) : Loads s t := ⟨by rw [h.1], h.2⟩

/-- A read inside a command that has come from `s` to `t`: the same relation goes on from `s`. -/
theorem readBits_from {R : State → State → Prop} {s t : State} (n : Nat) (h : R s t) (hm : R s t → ChanMoves s t)
    (hr : ∀ u, Reads t u → R s t → R s u) :
    (readBits n t).Ends (fun v u => v < 2 ^ n ∧ Reads t u ∧ R s u) (fun f u => f = .ioRead ∧ Reads t u ∧ R s u)
      (alwaysAnswers s = false) :=
  (readBits_ends n t).mono (fun _ u k => ⟨k.1, k.2, hr u k.2 h⟩) (fun _ u k => ⟨k.1, k.2, hr u k.2 h⟩) (hm h).hung

theorem readTableHeader_ends (s : State) : (readTableHeader s).Ends (fun _ t => Reads s t) (fun f t => f = .ioRead ∧ Reads s t)
    (alwaysAnswers s = false) := by
  have next : ∀ (n : Nat) (t : State), Reads s t → (readBits n t).Ends (fun _ u => Reads s u) (fun f u => f = .ioRead ∧ Reads s u)
      (alwaysAnswers s = false) := fun n t h =>
    (readBits_from n h (fun h => h.2.1) (fun _ h h' => h'.trans h)).mono (fun _ _ k => k.2.2) (fun _ _ k => ⟨k.1, k.2.2⟩) id
  unfold readTableHeader
  exact (next _ _ (.refl s)).andThen fun _ t h => (next _ t h).andThen fun _ t h => (next _ t h).andThen fun _ t h =>
    (next _ t h).andThen fun _ t h => (next _ t h).andThen fun _ t h => (next _ t h).andThen fun _ t h =>
    (next _ t h).andThen fun _ t h => h

theorem loadEntries_ends (h : TableHeader) (k floor : Nat) (s : State) : (loadEntries h k floor s).Ends
    (fun _ t => Loads s t ∧ t.ctValid = s.ctValid ∧ (tableOk s.ct = true → tableOk t.ct = true))
    (fun f t => (f = .ioRead ∨ f = .corruptTable) ∧ Loads s t ∧ t.ctValid = s.ctValid) (alwaysAnswers s = false) := by
  induction k generalizing floor s with
  | zero => exact ⟨.refl s, rfl, id⟩
  | succ k ih =>
    have next : ∀ (n : Nat) (t : State), Reads s t → (readBits n t).Ends (fun _ u => Reads s u)
        (fun f u => (f = .ioRead ∨ f = .corruptTable) ∧ Loads s u ∧ u.ctValid = s.ctValid) (alwaysAnswers s = false) := fun n t h =>
      (readBits_from n h (fun h => h.2.1) (fun _ h h' => h'.trans h)).mono (fun _ _ k => k.2.2)
        (fun _ u k => ⟨.inl k.1, k.2.2.loads, by rw [k.2.2.1]⟩) id
    unfold loadEntries
    refine (next _ s (.refl s)).andThen fun dv t h1 => (next _ t h1).andThen fun dc t h2 => (next _ t h2).andThen fun dl t h3 => ?_
    dsimp only
    split
    · next hacc =>
      rw [entryAccepted_iff] at hacc
      have hset : Loads s (setEntry (h.minValue + dv) (h.minCode + dc) (h.minLength + dl) t) :=
        ⟨by rw [h3.1]; rfl, h3.2.1.congr rfl rfl rfl, h3.2.2⟩
      refine (ih _ _).mono (fun _ u k => ⟨hset.trans k.1, by rw [k.2.1, setEntry_ctValid, h3.1], fun hk => k.2.2 ?_⟩)
        (fun _ u k => ⟨k.1, hset.trans k.2.1, by rw [k.2.2, setEntry_ctValid, h3.1]⟩) hset.2.1.hung
      rw [setEntry_ct]
      refine tableOk_set ?_ hacc.2.2.2.1 hacc.2.2.2.2
      rw [h3.1]; exact hk
    · exact ⟨.inr rfl, h3.loads, by rw [h3.1]⟩

/-- `CT.LOAD` in a unit that may run it (41_code_table R170, R171): it ends with a valid table in order, or with `IO_READ` or
`CORRUPT_TABLE` and no valid table; it changes no unit. -/
theorem ctLoad_ends {s : State} (hp : s.hf.phase = .idle) : (ctLoad s).Ends
    (fun _ t => Loads s t ∧ t.ctValid = true ∧ tableOk t.ct = true)
    (fun f t => (f = .ioRead ∨ f = .corruptTable) ∧ Loads s t ∧ t.ctValid = false) (alwaysAnswers s = false) := by
  unfold ctLoad
  rw [if_neg (by simp [hp])]
  have hs0 : Loads s { s with ct := emptyTable, ctValid := false } := ⟨rfl, (ChanMoves.refl s).congr rfl rfl rfl, id⟩
  have hload : (loadTable { s with ct := emptyTable, ctValid := false }).Ends
      (fun _ t => Loads s t ∧ t.ctValid = false ∧ tableOk t.ct = true)
      (fun f t => (f = .ioRead ∨ f = .corruptTable) ∧ Loads s t ∧ t.ctValid = false) (alwaysAnswers s = false) := by
    unfold loadTable
    refine ((readTableHeader_ends _).mono (fun _ t h => (⟨hs0.trans h.loads, h⟩ : _ ∧ Reads _ t))
      (fun f t h => ⟨.inl h.1, hs0.trans h.2.loads, by rw [h.2.1]⟩) id).andThen fun h t ht => ?_
    split
    · refine ((loadEntries_ends h h.count 0 t).mono (fun _ u k => (⟨ht.1.trans k.1, by rw [k.2.1, ht.2.1], k.2.2 ?_⟩ :
        _ ∧ u.ctValid = false ∧ tableOk u.ct = true)) (fun f u k => ⟨k.1, ht.1.trans k.2.1, by rw [k.2.2, ht.2.1]⟩)
        ht.1.2.1.hung).andThen fun _ u k => k
      rw [ht.2.1]; exact tableOk_empty
    · exact ⟨.inr rfl, ht.1, by rw [ht.2.1]⟩
  refine (hload.onRaise (g := forgetTable) (Q' := fun f t => (f = .ioRead ∨ f = .corruptTable) ∧ Loads s t ∧ t.ctValid = false)
    fun f t h => ⟨h.1, ⟨by rw [h.2.1.1]; rfl, h.2.1.2.1.congr rfl rfl rfl, h.2.1.2.2⟩, h.2.2⟩).andThen fun c t h => ?_
  exact ⟨⟨by rw [h.1.1], h.1.2.1.congr rfl rfl rfl, h.1.2.2⟩, rfl, h.2.2⟩

end Sys2Proof.Machine
end

