-- ==== Sys2Proof/Laws/Trie.lean ====
section
/-! SUPPORT. The decode trie (43_huffman R221, R222, R226): the arena `HF.BEGIN` builds is the tree of the table's codes, and it is
built exactly where the table is prefix-free. -/

namespace Sys2Proof.Machine

open Sys2Proof.Wire

/-- The node a bit path leads to from node `c` (43_huffman R221). -/
def walk (nodes : List Node) : Nat → List Bool → Option Nat
  | c, [] => some c
  | c, b :: p =>
    match (nodeAt nodes c).child b with
    | none => none
    | some k => walk nodes k p

theorem walk_append (nodes : List Node) (c : Nat) (p q : List Bool) :
    walk nodes c (p ++ q) = (walk nodes c p).bind fun k => walk nodes k q := by
  induction p generalizing c with
  | nil => rfl
  | cons b p ih =>
    simp only [List.cons_append, walk]
    cases (nodeAt nodes c).child b with
    | none => rfl
    | some k => exact ih k

theorem walk_snoc (nodes : List Node) (c : Nat) (p : List Bool) (b : Bool) :
    walk nodes c (p ++ [b]) = (walk nodes c p).bind fun k => (nodeAt nodes k).child b := by
  rw [walk_append]
  congr 1; funext k
  simp only [walk]
  cases (nodeAt nodes k).child b <;> rfl

/-- The arena is a tree: its nodes are reached by one path each, the paths that lead somewhere are the prefixes of the inserted codes
(`S`, with their symbols) and of the path being replayed (`r`), and its leaves are the ends of the inserted codes. -/
structure Tree (nodes : List Node) (S : List Bool → Byte → Prop) (r : List Bool) : Prop where
  nonempty : 0 < nodes.length
  child : ∀ c b k, (nodeAt nodes c).child b = some k → c < k ∧ k < nodes.length
  unique : ∀ p q c, walk nodes 0 p = some c → walk nodes 0 q = some c → p = q
  paths : ∀ p, (walk nodes 0 p).isSome ↔ p = [] ∨ (∃ q v, S q v ∧ p <+: q) ∨ p <+: r
  leaf : ∀ p c, walk nodes 0 p = some c → ((nodeAt nodes c).leaf = true ↔ ∃ v, S p v)
  sym : ∀ p c v, walk nodes 0 p = some c → S p v → (nodeAt nodes c).sym = v
  bare : ∀ c, (nodeAt nodes c).leaf = true → (nodeAt nodes c).left = none ∧ (nodeAt nodes c).right = none

theorem nodeAt_of_le {nodes : List Node} {k : Nat} (h : nodes.length ≤ k) : nodeAt nodes k = freshNode := by
  simp [nodeAt, List.getD_eq_getElem?_getD, List.getElem?_eq_none h]

theorem nodeAt_set {nodes : List Node} {c : Nat} (hc : c < nodes.length) (x : Node) (d : Nat) :
    nodeAt (nodes.set c x) d = if d = c then x else nodeAt nodes d := by
  simp only [nodeAt, List.getD_eq_getElem?_getD, List.getElem?_set]
  by_cases h : c = d
  · subst h; simp [hc]
  · simp [h, Ne.symm h]

theorem nodeAt_append_fresh (nodes : List Node) (d : Nat) : nodeAt (nodes ++ [freshNode]) d = nodeAt nodes d := by
  simp only [nodeAt, List.getD_eq_getElem?_getD]
  rcases lt_trichotomy d nodes.length with h | h | h
  · rw [List.getElem?_append_left h]
  · subst h; simp
  · rw [List.getElem?_eq_none (by simp; omega), List.getElem?_eq_none (by omega)]

theorem child_setChild (n : Node) (b : Bool) (k : Nat) (b' : Bool) :
    (n.setChild b k).child b' = if b' = b then some k else n.child b' := by
  cases b <;> cases b' <;> rfl

theorem leaf_setChild (n : Node) (b : Bool) (k : Nat) : (n.setChild b k).leaf = n.leaf := by cases b <;> rfl

theorem sym_setChild (n : Node) (b : Bool) (k : Nat) : (n.setChild b k).sym = n.sym := by cases b <;> rfl

theorem freshNode_child (b : Bool) : freshNode.child b = none := by cases b <;> rfl

theorem children_none {n : Node} : (n.left = none ∧ n.right = none) ↔ ∀ b, n.child b = none := by
  simp [Node.child, and_comm]

theorem Tree.lt {nodes : List Node} {S : List Bool → Byte → Prop} {r : List Bool} (T : Tree nodes S r) {p : List Bool} {c : Nat}
    (h : walk nodes 0 p = some c) : c < nodes.length := by
  induction p using List.reverseRecOn with
  | nil => simp only [walk, Option.some.injEq] at h; rw [← h]; exact T.nonempty
  | append_singleton p b _ =>
    rw [walk_snoc] at h
    obtain ⟨k, -, hk⟩ := Option.bind_eq_some_iff.mp h
    exact (T.child _ _ _ hk).2

/-- The arena with a fresh child of node `c` on side `b` (43_huffman R222). -/
def extend (nodes : List Node) (c : Nat) (b : Bool) : List Node :=
  nodes.set c ((nodeAt nodes c).setChild b nodes.length) ++ [freshNode]

theorem nodeAt_extend {nodes : List Node} {c : Nat} (hc : c < nodes.length) (b : Bool) (d : Nat) :
    nodeAt (extend nodes c b) d = if d = c then (nodeAt nodes c).setChild b nodes.length else nodeAt nodes d := by
  rw [extend, nodeAt_append_fresh, nodeAt_set hc]

theorem length_extend (nodes : List Node) (c : Nat) (b : Bool) : (extend nodes c b).length = nodes.length + 1 := by simp [extend]

theorem walk_extend {nodes : List Node} {S : List Bool → Byte → Prop} {r : List Bool} (T : Tree nodes S r) {c : Nat} {b : Bool}
    (hr : walk nodes 0 r = some c) (hb : (nodeAt nodes c).child b = none) (p : List Bool) :
    walk (extend nodes c b) 0 p = if p = r ++ [b] then some nodes.length else walk nodes 0 p := by
  have hc := T.lt hr
  induction p using List.reverseRecOn with
  | nil => simp [walk]
  | append_singleton p b' ih =>
    rw [walk_snoc, walk_snoc, ih]
    by_cases hp : p = r ++ [b]
    · subst hp
      have h1 : nodeAt (extend nodes c b) nodes.length = freshNode := by
        rw [nodeAt_extend hc, if_neg (by omega), nodeAt_of_le (le_refl _)]
      have h2 : walk nodes 0 (r ++ [b]) = none := by rw [walk_snoc, hr]; exact hb
      have h3 : r ++ [b] ++ [b'] ≠ r ++ [b] := by simp
      simp [h1, freshNode_child, h2]
    · rw [if_neg hp]
      cases hw : walk nodes 0 p with
      | none =>
        have : p ++ [b'] ≠ r ++ [b] := by
          intro e
          rw [(List.append_inj' e rfl).1, hr] at hw
          cases hw
        simp [this]
      | some d =>
        simp only [Option.bind_some, nodeAt_extend hc]
        by_cases hd : d = c
        · subst hd
          have hpr : p = r := T.unique _ _ _ hw hr
          subst hpr
          rw [if_pos rfl, child_setChild]
          simp
        · have : p ++ [b'] ≠ r ++ [b] := by
            intro e
            rw [(List.append_inj' e rfl).1, hr, Option.some.injEq] at hw
            exact hd hw.symm
          rw [if_neg hd, if_neg this]

theorem prefix_snoc {p r : List Bool} {b : Bool} : p <+: r ++ [b] ↔ p = r ++ [b] ∨ p <+: r := by
  exact List.prefix_concat_iff

/-- Replaying one more edge on demand keeps the tree. -/
theorem Tree.extend {nodes : List Node} {S : List Bool → Byte → Prop} {r : List Bool} (T : Tree nodes S r) {c : Nat} {b : Bool}
    (hr : walk nodes 0 r = some c) (hb : (nodeAt nodes c).child b = none) (hl : (nodeAt nodes c).leaf = false) :
    Tree (Machine.extend nodes c b) S (r ++ [b]) := by
  have hc := T.lt hr
  have hw := walk_extend T hr hb
  have hnone : walk nodes 0 (r ++ [b]) = none := by rw [walk_snoc, hr]; exact hb
  have hlt : ∀ {p k}, walk nodes 0 p = some k → k < nodes.length := fun h => T.lt h
  have hleaf : ∀ d, (nodeAt (Machine.extend nodes c b) d).leaf = (nodeAt nodes d).leaf := fun d => by
    rw [nodeAt_extend hc]; split
    · next h => rw [leaf_setChild, h]
    · rfl
  have hfresh : nodeAt nodes nodes.length = freshNode := nodeAt_of_le (le_refl _)
  have hS : ∀ v, ¬ S (r ++ [b]) v := fun v hv => by
    have := (T.paths (r ++ [b])).mpr (.inr (.inl ⟨_, v, hv, List.prefix_rfl⟩))
    rw [hnone] at this; cases this
  refine ⟨?_, ?_, ?_, ?_, ?_, ?_, ?_⟩
  · rw [length_extend]; omega
  · intro d b' k h
    rw [length_extend]
    rw [nodeAt_extend hc] at h
    split at h
    · next hd =>
      rw [child_setChild] at h
      split at h
      · cases h; omega
      · have := T.child _ _ _ h; omega
    · have := T.child _ _ _ h; omega
  · intro p q d hp hq
    rw [hw] at hp hq
    split at hp <;> split at hq
    · next h1 h2 => rw [h1, h2]
    · cases hp; exact absurd (hlt hq) (lt_irrefl _)
    · cases hq; exact absurd (hlt hp) (lt_irrefl _)
    · exact T.unique _ _ _ hp hq
  · intro p
    rw [hw]
    split
    · next h => subst h; simp
    · next h =>
      rw [T.paths, prefix_snoc]
      simp [h]
  · intro p d h
    rw [hleaf]
    rw [hw] at h
    split at h
    · next hp =>
      cases h; subst hp
      rw [hfresh]
      exact ⟨fun h => (Bool.false_ne_true h).elim, fun ⟨v, hv⟩ => (hS v hv).elim⟩
    · exact T.leaf _ _ h
  · intro p d v h hv
    rw [hw] at h
    split at h
    · next hp => subst hp; exact (hS v hv).elim
    · rw [nodeAt_extend hc]
      split
      · next hd => subst hd; rw [sym_setChild]; exact T.sym _ _ _ h hv
      · exact T.sym _ _ _ h hv
  · intro d h
    rw [hleaf] at h
    rw [nodeAt_extend hc]
    split
    · next hd => rw [hd, hl] at h; cases h
    · exact T.bare d h

/-- Following an edge that is there keeps the tree. -/
theorem Tree.follow {nodes : List Node} {S : List Bool → Byte → Prop} {r : List Bool} (T : Tree nodes S r) {c k : Nat} {b : Bool}
    (hr : walk nodes 0 r = some c) (hb : (nodeAt nodes c).child b = some k) : Tree nodes S (r ++ [b]) := by
  have hk : walk nodes 0 (r ++ [b]) = some k := by rw [walk_snoc, hr]; exact hb
  refine ⟨T.nonempty, T.child, T.unique, fun p => ?_, T.leaf, T.sym, T.bare⟩
  rw [T.paths, prefix_snoc]
  constructor
  · rintro (h | h | h)
    · exact .inl h
    · exact .inr (.inl h)
    · exact .inr (.inr (.inr h))
  · rintro (h | h | h | h)
    · exact .inl h
    · exact .inr (.inl h)
    · subst h; exact (T.paths _).mp (by rw [hk]; rfl)
    · exact .inr (.inr h)

/-- Replaying a code's path (43_huffman R222): it fails exactly where an inserted code is a proper prefix of the whole path. -/
theorem replayPath_tree (len code : Nat) {nodes : List Node} {S : List Bool → Byte → Prop} {r : List Bool} {c : Nat}
    (T : Tree nodes S r) (hr : walk nodes 0 r = some c) :
    match replayPath len code c nodes with
    | .error nodes' => nodes'.length ≤ nodes.length + len ∧ ∃ i < len, ∃ v, S (r ++ (fieldBits len code).take i) v
    | .ok (c', nodes') => Tree nodes' S (r ++ fieldBits len code) ∧ walk nodes' 0 (r ++ fieldBits len code) = some c' ∧
        nodes'.length ≤ nodes.length + len ∧ ∀ i < len, ∀ v, ¬ S (r ++ (fieldBits len code).take i) v := by
  induction len generalizing code nodes r c with
  | zero => simpa [replayPath, fieldBits] using ⟨T, hr⟩
  | succ len ih =>
    unfold replayPath
    by_cases hl : (nodeAt nodes c).leaf = true
    · rw [if_pos hl]
      obtain ⟨v, hv⟩ := (T.leaf _ _ hr).mp hl
      exact ⟨by omega, 0, by omega, v, by simpa using hv⟩
    · rw [if_neg hl]
      have hl' : (nodeAt nodes c).leaf = false := by simpa using hl
      have hno : ∀ v, ¬ S r v := fun v hv => hl ((T.leaf _ _ hr).mpr ⟨v, hv⟩)
      have key : ∀ (nodes1 : List Node) (c1 : Nat), Tree nodes1 S (r ++ [code.testBit 0]) →
          walk nodes1 0 (r ++ [code.testBit 0]) = some c1 → nodes1.length ≤ nodes.length + 1 →
          match replayPath len (code / 2) c1 nodes1 with
          | .error nodes' => nodes'.length ≤ nodes.length + (len + 1) ∧
              ∃ i < len + 1, ∃ v, S (r ++ (fieldBits (len + 1) code).take i) v
          | .ok (c', nodes') => Tree nodes' S (r ++ fieldBits (len + 1) code) ∧
              walk nodes' 0 (r ++ fieldBits (len + 1) code) = some c' ∧ nodes'.length ≤ nodes.length + (len + 1) ∧
              ∀ i < len + 1, ∀ v, ¬ S (r ++ (fieldBits (len + 1) code).take i) v := by
        intro nodes1 c1 T1 h1 hlen
        have := ih (code / 2) T1 h1
        cases hrep : replayPath len (code / 2) c1 nodes1 with
        | error nodes' =>
          rw [hrep] at this
          obtain ⟨hl', i, hi, v, hv⟩ := this
          exact ⟨by omega, i + 1, by omega, v, by simpa [fieldBits] using hv⟩
        | ok x =>
          obtain ⟨c', nodes'⟩ := x
          rw [hrep] at this
          simp only [List.append_assoc, List.singleton_append] at this
          refine ⟨this.1, this.2.1, by have := this.2.2.1; omega, fun i hi v => ?_⟩
          cases i with
          | zero => simpa using hno v
          | succ i => simpa [fieldBits] using this.2.2.2 i (by omega) v
      cases hb : (nodeAt nodes c).child (code.testBit 0) with
      | some k =>
        exact key nodes k (T.follow hr hb) (by rw [walk_snoc, hr]; exact hb) (by omega)
      | none =>
        refine key (Machine.extend nodes c (code.testBit 0)) nodes.length (T.extend hr hb hl') ?_ (by rw [length_extend])
        rw [walk_extend T hr hb, if_pos rfl]

/-- A node's children are there exactly where an inserted code goes on from it. -/
theorem Tree.children {nodes : List Node} {S : List Bool → Byte → Prop} {r : List Bool} (T : Tree nodes S r) {c : Nat}
    (hr : walk nodes 0 r = some c) :
    (((nodeAt nodes c).leaf || (nodeAt nodes c).left.isSome || (nodeAt nodes c).right.isSome) = true) ↔
      ∃ q v, S q v ∧ r <+: q := by
  have hchild : ∀ b k, (nodeAt nodes c).child b = some k → ∃ q v, S q v ∧ r <+: q := by
    intro b k h
    have hw : walk nodes 0 (r ++ [b]) = some k := by rw [walk_snoc, hr]; exact h
    rcases (T.paths (r ++ [b])).mp (by rw [hw]; rfl) with h | ⟨q, v, hq, hp⟩ | h
    · simp at h
    · exact ⟨q, v, hq, (List.prefix_append r [b]).trans hp⟩
    · have := h.length_le; simp at this
  simp only [Bool.or_eq_true, Option.isSome_iff_exists]
  constructor
  · rintro ((h | ⟨k, h⟩) | ⟨k, h⟩)
    · obtain ⟨v, hv⟩ := (T.leaf _ _ hr).mp h; exact ⟨r, v, hv, List.prefix_rfl⟩
    · exact hchild true k h
    · exact hchild false k h
  · rintro ⟨q, v, hq, p, rfl⟩
    cases p with
    | nil => exact .inl (.inl ((T.leaf _ _ hr).mpr ⟨v, by simpa using hq⟩))
    | cons b p =>
      have : (walk nodes 0 (r ++ [b])).isSome := (T.paths _).mpr (.inr (.inl ⟨_, v, hq, ⟨p, by simp⟩⟩))
      rw [walk_snoc, hr, Option.bind_some, Option.isSome_iff_exists] at this
      cases b with
      | true => exact .inl (.inr this)
      | false => exact .inr this

theorem walk_congr {nodes nodes' : List Node} (h : ∀ c b, (nodeAt nodes' c).child b = (nodeAt nodes c).child b) (c : Nat)
    (p : List Bool) : walk nodes' c p = walk nodes c p := by
  induction p generalizing c with
  | nil => rfl
  | cons b p ih =>
    simp only [walk, h]
    cases (nodeAt nodes c).child b with
    | none => rfl
    | some k => exact ih k

/-- Marking the end of a replayed path a leaf inserts its code. -/
theorem Tree.mark {nodes : List Node} {S : List Bool → Byte → Prop} {r : List Bool} (T : Tree nodes S r) {c : Nat} (v : Byte)
    (hr : walk nodes 0 r = some c) (hfree : ¬ ∃ q v, S q v ∧ r <+: q) :
    Tree (nodes.set c { nodeAt nodes c with leaf := true, sym := v }) (fun q w => S q w ∨ (q = r ∧ w = v)) [] := by
  have hc := T.lt hr
  have hat := nodeAt_set hc { nodeAt nodes c with leaf := true, sym := v }
  have hbare := mt (T.children hr).mp hfree
  simp only [Bool.or_eq_true, not_or, Bool.not_eq_true, Option.isSome_eq_false_iff, Option.isNone_iff_eq_none] at hbare
  have hchild : ∀ d b, (nodeAt (nodes.set c { nodeAt nodes c with leaf := true, sym := v }) d).child b = (nodeAt nodes d).child b := by
    intro d b
    rw [hat]; split
    · next h => subst h; rfl
    · rfl
  have hw := walk_congr hchild 0
  have hnoS : ∀ w, ¬ S r w := fun w hw => hfree ⟨r, w, hw, List.prefix_rfl⟩
  refine ⟨by simpa using T.nonempty, ?_, ?_, ?_, ?_, ?_, ?_⟩
  · intro d b k h
    rw [hchild] at h
    simpa using T.child _ _ _ h
  · intro p q d hp hq
    rw [hw] at hp hq
    exact T.unique _ _ _ hp hq
  · intro p
    rw [hw, T.paths]
    constructor
    · rintro (h | ⟨q, w, h, hp⟩ | h)
      · exact .inl h
      · exact .inr (.inl ⟨q, w, .inl h, hp⟩)
      · exact .inr (.inl ⟨r, v, .inr ⟨rfl, rfl⟩, h⟩)
    · rintro (h | ⟨q, w, h | ⟨rfl, rfl⟩, hp⟩ | h)
      · exact .inl h
      · exact .inr (.inl ⟨q, w, h, hp⟩)
      · exact .inr (.inr hp)
      · exact .inl (List.prefix_nil.mp h)
  · intro p d h
    rw [hw] at h
    rw [hat]
    split
    · next hd =>
      subst hd
      have := T.unique _ _ _ h hr
      subst this
      simp
    · next hd =>
      have hne : p ≠ r := by
        rintro rfl; rw [hr, Option.some.injEq] at h; exact hd h.symm
      rw [T.leaf _ _ h]
      simp [hne]
  · intro p d w h hS
    rw [hw] at h
    rw [hat]
    split
    · next hd =>
      subst hd
      have := T.unique _ _ _ h hr
      subst this
      rcases hS with hS | ⟨-, rfl⟩
      · exact (hnoS _ hS).elim
      · rfl
    · next hd =>
      have hne : p ≠ r := by
        rintro rfl; rw [hr, Option.some.injEq] at h; exact hd h.symm
      rcases hS with hS | ⟨rfl, -⟩
      · exact T.sym _ _ _ h hS
      · exact (hne rfl).elim
  · intro d h
    rw [hat] at h ⊢
    by_cases hd : d = c
    · rw [if_pos hd]; exact ⟨hbare.1.2, hbare.2⟩
    · rw [if_neg hd] at h ⊢; exact T.bare d h

/-- One entry into the tree (43_huffman R222): refused exactly where its code and an inserted one are one a prefix of the other. -/
theorem insertCode_tree (v : Byte) (e : CodeLength) {nodes : List Node} {S : List Bool → Byte → Prop} (T : Tree nodes S []) :
    match insertCode v e nodes with
    | .error nodes' => nodes'.length ≤ nodes.length + 32 ∧ e.length ≠ 0 ∧ ∃ q w, S q w ∧ (q <+: pathOf e ∨ pathOf e <+: q)
    | .ok nodes' => Tree nodes' (fun q w => S q w ∨ (e.length ≠ 0 ∧ q = pathOf e ∧ w = v)) [] ∧ nodes'.length ≤ nodes.length + 32 ∧
        (e.length ≠ 0 → ¬ ∃ q w, S q w ∧ (q <+: pathOf e ∨ pathOf e <+: q)) := by
  unfold insertCode
  by_cases h0 : e.length = 0
  · rw [if_pos h0]
    refine ⟨?_, by omega, fun h => (h h0).elim⟩
    simpa [h0] using T
  · rw [if_neg h0]
    have hrep := replayPath_tree e.length.val e.code.toNat T (c := 0) rfl
    have hlen : e.length.val ≤ 32 := by have := e.length.isLt; omega
    cases hr : replayPath e.length e.code.toNat 0 nodes with
    | error nodes1 =>
      rw [hr] at hrep
      obtain ⟨hl, i, hi, w, hw⟩ := hrep
      exact ⟨by omega, h0, _, w, hw, .inl (List.take_prefix _ _)⟩
    | ok x =>
      obtain ⟨c, nodes1⟩ := x
      rw [hr] at hrep
      simp only [List.nil_append] at hrep
      obtain ⟨T1, hw, hl, hno⟩ := hrep
      have hproper : ∀ q w, S q w → q <+: pathOf e → pathOf e <+: q := by
        intro q w hS hp
        have hq : q = (pathOf e).take q.length := List.prefix_iff_eq_take.mp hp
        by_contra hn
        have hlt : q.length < e.length.val := by
          by_contra hge
          have : (pathOf e).length ≤ q.length := by rw [pathOf, fieldBits_length]; omega
          rw [List.take_of_length_le this] at hq
          exact hn (by rw [hq])
        exact hno _ hlt w (by rw [pathOf] at hq; rwa [← hq])
      dsimp only
      by_cases hbad : ((nodeAt nodes1 c).leaf || (nodeAt nodes1 c).left.isSome || (nodeAt nodes1 c).right.isSome) = true
      · rw [if_pos hbad]
        obtain ⟨q, w, hS, hp⟩ := (T1.children hw).mp hbad
        exact ⟨by omega, h0, q, w, hS, .inr hp⟩
      · rw [if_neg hbad]
        have hfree := mt (T1.children hw).mpr hbad
        refine ⟨?_, by simp; omega, fun _ => ?_⟩
        · have := T1.mark v hw hfree
          simpa [h0, pathOf] using this
        · rintro ⟨q, w, hS, hp | hp⟩
          · exact hfree ⟨q, w, hS, hproper q w hS hp⟩
          · exact hfree ⟨q, w, hS, hp⟩

/-- The codes of the byte values below `k`, with their symbols. -/
def codesBelow (ct : CodeTable) (k : Nat) (q : List Bool) (w : Byte) : Prop :=
  ∃ u, ∃ h : u < 256, u < k ∧ ct[u].length ≠ 0 ∧ q = pathOf ct[u] ∧ w = BitVec.ofNat 8 u

/-- No two of the byte values below `k` have codes one of which is a prefix of the other. -/
def freeBelow (ct : CodeTable) (k : Nat) : Prop :=
  ∀ u v, ∀ hu : u < 256, ∀ hv : v < 256, u < v → v < k → ct[u].length ≠ 0 → ct[v].length ≠ 0 →
    ¬ (pathOf ct[u] <+: pathOf ct[v]) ∧ ¬ (pathOf ct[v] <+: pathOf ct[u])

theorem insertFrom_tree (ct : CodeTable) (k v : Nat) (hkv : v + k = 256) {nodes : List Node}
    (T : Tree nodes (codesBelow ct v) []) (hf : freeBelow ct v) :
    match insertFrom ct k v nodes with
    | .error nodes' => nodes'.length ≤ nodes.length + 32 * k ∧ ¬ freeBelow ct 256
    | .ok nodes' => Tree nodes' (codesBelow ct 256) [] ∧ freeBelow ct 256 ∧ nodes'.length ≤ nodes.length + 32 * k := by
  induction k generalizing v nodes with
  | zero =>
    have : v = 256 := by omega
    subst this
    exact ⟨T, hf, by omega⟩
  | succ k ih =>
    have hv : v < 256 := by omega
    have hget : ct.getD v ⟨0, 0⟩ = ct[v] := by simp [Vector.getD, hv]
    unfold insertFrom
    rw [hget]
    have hins := insertCode_tree (BitVec.ofNat 8 v) ct[v] T
    cases hi : insertCode (BitVec.ofNat 8 v) ct[v] nodes with
    | error nodes1 =>
      rw [hi] at hins
      obtain ⟨hl, h0, q, w, ⟨u, hu, huv, hu0, rfl, rfl⟩, hp⟩ := hins
      refine ⟨show nodes1.length ≤ _ by omega, fun hfree => ?_⟩
      have := hfree u v hu hv huv hv hu0 h0
      exact hp.elim this.1 this.2
    | ok nodes1 =>
      rw [hi] at hins
      obtain ⟨T1, hlen, hno⟩ := hins
      have hS : (fun q w => codesBelow ct v q w ∨ (ct[v].length ≠ 0 ∧ q = pathOf ct[v] ∧ w = BitVec.ofNat 8 v)) =
          codesBelow ct (v + 1) := by
        funext q w
        apply propext
        constructor
        · rintro (⟨u, hu, huv, h⟩ | h)
          · exact ⟨u, hu, by omega, h⟩
          · exact ⟨v, hv, by omega, h⟩
        · rintro ⟨u, hu, huv, h⟩
          rcases Nat.lt_succ_iff_lt_or_eq.mp huv with h' | rfl
          · exact .inl ⟨u, hu, h', h⟩
          · exact .inr h
      rw [hS] at T1
      have hf1 : freeBelow ct (v + 1) := by
        intro a b ha hb hab hbv ha0 hb0
        rcases Nat.lt_succ_iff_lt_or_eq.mp hbv with h' | rfl
        · exact hf a b ha hb hab h' ha0 hb0
        · have := hno hb0
          exact ⟨fun h => this ⟨_, _, ⟨a, ha, hab, ha0, rfl, rfl⟩, .inl h⟩, fun h => this ⟨_, _, ⟨a, ha, hab, ha0, rfl, rfl⟩, .inr h⟩⟩
      have := ih (v + 1) (by omega) T1 hf1
      cases hr : insertFrom ct k (v + 1) nodes1 with
      | error nodes2 =>
        rw [hr] at this
        simp only [hr]
        exact ⟨by have := this.1; omega, this.2⟩
      | ok nodes2 =>
        rw [hr] at this
        simp only [hr]
        exact ⟨this.1, this.2.1, by have := this.2.2; omega⟩

theorem tree_root (ct : CodeTable) : Tree [freshNode] (codesBelow ct 0) [] := by
  have hat : ∀ c, nodeAt [freshNode] c = freshNode := fun c => by
    cases c with
    | zero => rfl
    | succ c => exact nodeAt_of_le (by simp)
  have hS : ∀ q w, ¬ codesBelow ct 0 q w := by rintro q w ⟨u, _, h, _⟩; omega
  have hw : ∀ p k, walk [freshNode] 0 p = some k → p = [] := by
    intro p k h
    cases p with
    | nil => rfl
    | cons b p => simp [walk, hat, freshNode_child] at h
  refine ⟨by simp, ?_, ?_, ?_, ?_, ?_, ?_⟩
  · intro c b k h; rw [hat, freshNode_child] at h; cases h
  · intro p q c hp hq; rw [hw _ _ hp, hw _ _ hq]
  · intro p
    constructor
    · intro h
      obtain ⟨k, hk⟩ := Option.isSome_iff_exists.mp h
      exact .inl (hw _ _ hk)
    · rintro (rfl | ⟨q, v, h, -⟩ | h)
      · rfl
      · exact (hS _ _ h).elim
      · rw [List.prefix_nil.mp h]; rfl
  · intro p c _
    rw [hat]
    exact ⟨fun h => (Bool.false_ne_true h).elim, fun ⟨v, hv⟩ => (hS _ _ hv).elim⟩
  · intro p c v _ h; exact (hS _ _ h).elim
  · intro c _; rw [hat]; exact ⟨rfl, rfl⟩

theorem freeBelow_iff (ct : CodeTable) : freeBelow ct 256 ↔ PrefixFree ct := by
  constructor
  · intro h u v huv hu hv hp
    rcases lt_trichotomy u.val v.val with hlt | he | hgt
    · exact (h u v u.isLt v.isLt hlt v.isLt hu hv).1 hp
    · exact huv (Fin.ext he)
    · exact (h v u v.isLt u.isLt hgt u.isLt hv hu).2 hp
  · intro h u v hu hv huv _ hu0 hv0
    have hne : (⟨u, hu⟩ : Fin 256) ≠ ⟨v, hv⟩ := fun e => by
      have := congrArg Fin.val e
      simp at this; omega
    exact ⟨h ⟨u, hu⟩ ⟨v, hv⟩ hne hu0 hv0, h ⟨v, hv⟩ ⟨u, hu⟩ hne.symm hv0 hu0⟩

/-- `HF.BEGIN`'s build (43_huffman R222): it succeeds exactly on a prefix-free table, within the arena's capacity, and its arena is
the tree of the table's codes; where it fails, the arena it leaves keeps within the capacity too. -/
theorem buildTrie_tree (ct : CodeTable) :
    match buildTrie ct with
    | .error nodes => nodes.length ≤ Config.trieNodes ∧ ¬ PrefixFree ct
    | .ok nodes => Tree nodes (codesBelow ct 256) [] ∧ PrefixFree ct ∧ nodes.length ≤ Config.trieNodes := by
  have := insertFrom_tree ct 256 0 rfl (tree_root ct) (fun _ _ _ _ _ h => absurd h (by omega))
  unfold buildTrie
  cases hr : insertFrom ct 256 0 [freshNode] with
  | error nodes => rw [hr] at this; rwa [freeBelow_iff] at this
  | ok nodes =>
    rw [hr, freeBelow_iff] at this
    exact ⟨this.1, this.2.1, this.2.2⟩

end Sys2Proof.Machine
end

