-- ==== Sys2Proof/Laws/Huffman.lean ====
section
/-! SUPPORT. The Huffman unit (43_huffman R220 to R227): all each command can do. -/

namespace Sys2Proof.Machine

open Sys2Proof.Wire

/-- What a Huffman command can change: the reader, the channels and their record, the code table, the Huffman unit, the draws; a
valid table stays well formed, and the arena keeps within its capacity. -/
def HfMoves (s t : State) : Prop :=
  t = { s with rd := t.rd, input := t.input, sink := t.sink, trace := t.trace, ct := t.ct, ctValid := t.ctValid, hf := t.hf,
               draws := t.draws } ∧
    ChanMoves s t ∧ (s.rd.ok = true → t.rd.ok = true) ∧
    ((s.ctValid = true → tableOk s.ct = true) → t.ctValid = true → tableOk t.ct = true) ∧
    (s.hf.nodes.length ≤ Config.trieNodes → t.hf.nodes.length ≤ Config.trieNodes)

theorem HfMoves.refl (s : State) : HfMoves s s := ⟨rfl, .refl s, id, id, id⟩

theorem HfMoves.trans {s t u : State} (h : HfMoves s t) (h' : HfMoves t u) : HfMoves s u :=
  ⟨by rw [h'.1, h.1], h.2.1.trans h'.2.1, fun k => h'.2.2.1 (h.2.2.1 k), fun k => h'.2.2.2.1 (h.2.2.2.1 k),
    fun k => h'.2.2.2.2 (h.2.2.2.2 k)⟩

theorem Reads.hfMoves {s t : State} (h : Reads s t) : HfMoves s t :=
  ⟨by rw [h.1], h.2.1, h.2.2, fun k => by rw [h.1]; exact k, fun k => by rw [h.1]; exact k⟩

theorem Emits.hfMoves {s t : State} (h : Emits s t) : HfMoves s t :=
  ⟨by rw [h.1], h.2, fun k => by rw [h.1]; exact k, fun k => by rw [h.1]; exact k, fun k => by rw [h.1]; exact k⟩

theorem hfMoves_hf (s : State) {u : HuffUnit} (hu : s.hf.nodes.length ≤ Config.trieNodes → u.nodes.length ≤ Config.trieNodes) :
    HfMoves s { s with hf := u } := ⟨rfl, (ChanMoves.refl s).congr rfl rfl rfl, id, id, hu⟩

theorem hfMoves_forget (s : State) : HfMoves s (forgetTrie s) :=
  ⟨rfl, (ChanMoves.refl s).congr rfl rfl rfl, id, id, fun k => by simpa using k⟩

theorem hfMoves_close (s : State) : HfMoves s (closeHf s) :=
  ⟨rfl, (ChanMoves.refl s).congr rfl rfl rfl, id, id, fun k => by simpa using k⟩

theorem hfMoves_brInit (s : State) : HfMoves s (brInit s) := ⟨rfl, (ChanMoves.refl s).congr rfl rfl rfl, fun _ => rfl, id, id⟩

theorem hf_ok_length {u : HuffUnit} (h : u.ok = true) : u.nodes.length ≤ Config.trieNodes := by
  simp only [HuffUnit.ok, Bool.and_eq_true, decide_eq_true_eq] at h
  exact h.1

theorem hf_ok_idle {u : HuffUnit} (h : u.phase = .idle) (hl : u.nodes.length ≤ Config.trieNodes) : u.ok = true := by
  simp [HuffUnit.ok, h, hl]

theorem childOk_iff {size k : Nat} {c : Option Nat} : childOk size k c = true ↔ ∀ j, c = some j → k < j ∧ j < size := by
  cases c <;> simp [childOk]

/-- The form of an arena, node by node (10_state R26). -/
theorem arenaOk_iff {nodes : List Node} : arenaOk nodes = true ↔
    (∀ c b k, (nodeAt nodes c).child b = some k → c < k ∧ k < nodes.length) ∧
      ∀ c, (nodeAt nodes c).leaf = true → (nodeAt nodes c).left = none ∧ (nodeAt nodes c).right = none := by
  simp only [arenaOk, List.all_eq_true, List.mem_range, Bool.and_eq_true, childOk_iff, Bool.or_eq_true, Bool.not_eq_true',
    Option.isNone_iff_eq_none]
  constructor
  · intro h
    constructor
    · intro c b k hk
      by_cases hc : c < nodes.length
      · have := h c hc
        cases b with
        | true => exact this.1.1 k hk
        | false => exact this.1.2 k hk
      · rw [nodeAt_of_le (by omega), freshNode_child] at hk; cases hk
    · intro c hl
      by_cases hc : c < nodes.length
      · have := (h c hc).2
        simpa [hl] using this
      · rw [nodeAt_of_le (by omega)] at hl; cases hl
  · rintro ⟨h1, h2⟩ c -
    refine ⟨⟨fun j hj => h1 c true j hj, fun j hj => h1 c false j hj⟩, ?_⟩
    cases hl : (nodeAt nodes c).leaf with
    | false => exact .inl rfl
    | true => exact .inr (h2 c hl)

/-- What 10_state R26 says of a Huffman unit that is not `IDLE`. -/
theorem hf_ok_iff {u : HuffUnit} (h : u.phase ≠ .idle) : u.ok = true ↔
    u.nodes.length ≤ Config.trieNodes ∧ arenaOk u.nodes = true ∧ (nodeAt u.nodes 0).leaf = false ∧ u.cur < u.nodes.length ∧
      (nodeAt u.nodes u.cur).leaf = false ∧ (u.phase = .active ∨ u.cur = 0) := by
  simp only [HuffUnit.ok, Bool.or_eq_true, beq_iff_eq, h, false_or, Bool.and_eq_true, decide_eq_true_eq, Bool.not_eq_true', and_assoc]

theorem hf_ok_left {u : HuffUnit} (w : Word) (h : u.ok = true) : ({ u with left := w } : HuffUnit).ok = true := h

/-- A unit that `HF.BEGIN` has built is in order. -/
theorem hf_ok_built {ct : CodeTable} {nodes : List Node} (h : buildTrie ct = .ok nodes) (w : Word) :
    (⟨.active, nodes, 0, w⟩ : HuffUnit).ok = true := by
  have hb := buildTrie_tree ct
  rw [h] at hb
  obtain ⟨T, -, hl⟩ := hb
  have hroot : (nodeAt nodes 0).leaf = false := by
    by_contra hn
    rw [Bool.not_eq_false] at hn
    obtain ⟨v, u, hu, -, hu0, hq, -⟩ := (T.leaf [] 0 rfl).mp hn
    have := congrArg List.length hq
    rw [pathOf, fieldBits_length] at this
    exact hu0 (Fin.ext this.symm)
  rw [hf_ok_iff (fun e => by cases e)]
  exact ⟨hl, arenaOk_iff.mpr ⟨T.child, T.bare⟩, hroot, T.nonempty, hroot, .inl rfl⟩

/-- `HF.BEGIN` in an idle unit with a valid table (43_huffman R222): an active unit in order, or `CORRUPT_TABLE`. -/
theorem hfBegin_ends {s : State} (hp : s.hf.phase = .idle) (hv : s.ctValid = true) : (hfBegin s).Ends
    (fun _ t => HfMoves s t ∧ PrefixFree s.ct ∧ t.hf.ok = true ∧ t.hf.phase = .active ∧ t.hf.left = s.hf.left)
    (fun f t => f = .corruptTable ∧ ¬ PrefixFree s.ct ∧ HfMoves s t ∧ t.hf.phase = .idle ∧
      t.hf.nodes.length ≤ Config.trieNodes) (alwaysAnswers s = false) := by
  unfold hfBegin
  rw [if_neg (by simp [hp, hv])]
  have hb := buildTrie_tree s.ct
  cases hr : buildTrie s.ct with
  | error nodes =>
    rw [hr] at hb
    exact ⟨rfl, hb.2, (hfMoves_hf s fun _ => hb.1).trans (hfMoves_forget _), hp, by simpa using hb.1⟩
  | ok nodes =>
    rw [hr] at hb
    exact ⟨hfMoves_hf s fun _ => hb.2.2, hb.2.1, hf_ok_built hr _, rfl, rfl⟩

/-- `HF.BIT` in an active unit (43_huffman R223): a symbol with the cursor back at the root, or one edge further, or
`CORRUPT_NO_DATA` and a failed unit; nothing but the unit changes. -/
theorem hfBit_ends (b : Bool) {s : State} (hp : s.hf.phase = .active) : (hfBit b s).Ends
    (fun _ t => (∃ c, t = { s with hf := { s.hf with cur := c } }) ∧ (s.hf.ok = true → t.hf.ok = true))
    (fun f t => f = .corruptNoData ∧ t = { s with hf := { s.hf with cur := 0, phase := .failed } } ∧
      (s.hf.ok = true → t.hf.ok = true)) (alwaysAnswers s = false) := by
  have hok : s.hf.ok = true → _ := (hf_ok_iff (u := s.hf) (by rw [hp]; decide)).mp
  unfold hfBit
  rw [if_neg (by simp [hp])]
  cases hc : (nodeAt s.hf.nodes s.hf.cur).child b with
  | none =>
    refine ⟨rfl, rfl, fun k => ?_⟩
    obtain ⟨h1, h2, h3, h4, -, -⟩ := hok k
    exact (hf_ok_iff (by simp)).mpr ⟨h1, h2, h3, by simp only; omega, h3, .inr rfl⟩
  | some k =>
    dsimp only
    split
    · refine ⟨⟨0, rfl⟩, fun k => ?_⟩
      obtain ⟨h1, h2, h3, h4, -, -⟩ := hok k
      exact (hf_ok_iff (by simp [hp])).mpr ⟨h1, h2, h3, by simp only; omega, h3, .inr rfl⟩
    · next hleaf =>
      refine ⟨⟨k, rfl⟩, fun k' => ?_⟩
      obtain ⟨h1, h2, h3, -, -, -⟩ := hok k'
      exact (hf_ok_iff (by simp [hp])).mpr
        ⟨h1, h2, h3, ((arenaOk_iff.mp h2).1 _ _ _ hc).2, by simpa using hleaf, .inl hp⟩

/-- `HF.END` in a unit that is not `IDLE` (43_huffman R224). -/
theorem hfEnd_ends {s : State} (hp : s.hf.phase ≠ .idle) : (hfEnd s).Ends
    (fun _ t => HfMoves s t ∧ t.hf.phase = .idle ∧ t = closeHf s)
    (fun f t => f = .corruptMidCode ∧ HfMoves s t ∧ t.hf.phase = .idle ∧ t = closeHf s) (alwaysAnswers s = false) := by
  unfold hfEnd
  rw [if_neg hp]
  split
  · exact ⟨rfl, hfMoves_close s, rfl, rfl⟩
  · exact ⟨hfMoves_close s, rfl, rfl⟩

/-- The statuses with which the loop of `HF.DECODE` can fail (43_huffman R225). -/
def turnFailure (f : Failure) : Prop := f = .ioRead ∨ f = .ioWrite ∨ f = .corruptNoData

theorem hfTurn_ends {s : State} (hp : s.hf.phase = .active) : (hfTurn s).Ends
    (fun _ t => HfMoves s t ∧ t.hf.phase = .active) (fun f t => turnFailure f ∧ HfMoves s t) (alwaysAnswers s = false) := by
  unfold hfTurn
  refine ((readBits_ends 1 s).mono (fun _ _ h => h.2) (fun _ t h => ⟨.inl h.1, h.2.hfMoves⟩) id).andThen fun b t h => ?_
  have hp' : t.hf.phase = .active := by rw [h.1]; exact hp
  have hm : HfMoves s { t with hf := { t.hf with left := BitVec.ofNat 32 (t.hf.left.toNat - 1) } } :=
    h.hfMoves.trans (hfMoves_hf t id)
  dsimp only
  refine ((hfBit_ends (b.testBit 0) (s := { t with hf := { t.hf with left := BitVec.ofNat 32 (t.hf.left.toNat - 1) } }) hp').mono
    (fun _ u k => (?_ : HfMoves s u ∧ u.hf.phase = .active)) (fun f u k => ?_) hm.2.1.hung).andThen fun r u k => ?_
  · obtain ⟨⟨c, hc⟩, -⟩ := k
    rw [hc]
    exact ⟨hm.trans (hfMoves_hf _ id), hp'⟩
  · rw [k.2.1]
    exact ⟨.inr (.inr k.1), hm.trans (hfMoves_hf _ id)⟩
  · cases r with
    | none => exact k
    | some sym =>
      exact (emit_ends sym u).mono (fun _ v e => ⟨k.1.trans e.hfMoves, by rw [e.1]; exact k.2⟩)
        (fun f v e => ⟨.inr (.inl e.1), k.1.trans e.2.hfMoves⟩) k.1.2.1.hung

theorem hfLoop_ends (k : Nat) {s : State} (hp : s.hf.phase = .active) : (hfLoop k s).Ends
    (fun _ t => HfMoves s t ∧ t.hf.phase = .active) (fun f t => turnFailure f ∧ HfMoves s t) (alwaysAnswers s = false) := by
  induction k generalizing s with
  | zero => exact ⟨.refl s, hp⟩
  | succ k ih =>
    unfold hfLoop
    split
    · exact ⟨.refl s, hp⟩
    · refine (hfTurn_ends hp).andThen fun _ t h => ?_
      exact (ih h.2).mono (fun _ u k => ⟨h.1.trans k.1, k.2⟩) (fun _ u k => ⟨k.1, h.1.trans k.2⟩) h.1.2.1.hung

/-- The statuses with which `HF.DECODE` can fail, `FATAL` apart (43_huffman R225). -/
def hfFailure (f : Failure) : Prop := turnFailure f ∨ f = .corruptTable ∨ f = .corruptMidCode

theorem Loads.hfMoves {s t : State} (h : Loads s t) (hc : t.ctValid = true → tableOk t.ct = true) : HfMoves s t :=
  ⟨by rw [h.1], h.2.1, h.2.2, fun _ => hc, fun k => by rw [h.1]; exact k⟩

/-- `HF.DECODE` in an idle unit (43_huffman R225): whatever its status, the unit is `IDLE` afterwards. -/
theorem hfDecode_ends {s : State} (hp : s.hf.phase = .idle) : (hfDecode s).Ends
    (fun _ t => HfMoves s t ∧ t.hf.phase = .idle) (fun f t => hfFailure f ∧ HfMoves s t ∧ t.hf.phase = .idle)
    (alwaysAnswers s = false) := by
  unfold hfDecode
  rw [if_neg (by simp [hp])]
  have hphase : ∀ t, Loads (brInit s) t → t.hf.phase = .idle := fun t h => by rw [h.1]; exact hp
  refine ((ctLoad_ends (s := brInit s) hp).mono
    (fun _ t h => (⟨(hfMoves_brInit s).trans (h.1.hfMoves fun _ => h.2.2), hphase t h.1, h.2.1⟩ :
      HfMoves s t ∧ t.hf.phase = .idle ∧ t.ctValid = true))
    (fun f t h => ⟨h.1.elim (fun e => .inl (.inl e)) (fun e => .inr (.inl e)), (hfMoves_brInit s).trans (h.2.1.hfMoves fun k => by rw [h.2.2] at k; cases k), hphase t h.2.1⟩)
    id).andThen fun _ t h => ?_
  refine ((readBits_ends 32 t).mono (fun _ u k => (⟨h.1.trans k.2.hfMoves, by rw [k.2.1]; exact h.2.1, by rw [k.2.1]; exact h.2.2⟩ :
      HfMoves s u ∧ u.hf.phase = .idle ∧ u.ctValid = true))
    (fun f u k => ⟨.inl (.inl k.1), h.1.trans k.2.hfMoves, by rw [k.2.1]; exact h.2.1⟩) h.1.2.1.hung).andThen fun total u h => ?_
  have hm : HfMoves s { u with hf := { u.hf with left := BitVec.ofNat 32 total } } := h.1.trans (hfMoves_hf u id)
  refine ((hfBegin_ends (s := { u with hf := { u.hf with left := BitVec.ofNat 32 total } }) h.2.1 h.2.2).mono
    (fun _ v k => (⟨hm.trans k.1, k.2.2.2.1⟩ : HfMoves s v ∧ v.hf.phase = .active))
    (fun f v k => ⟨.inr (.inl k.1), hm.trans k.2.2.1, k.2.2.2.1⟩) hm.2.1.hung).andThen fun _ v h => ?_
  refine (((hfLoop_ends v.hf.left.toNat h.2).onRaise (g := closeHf)
    (Q' := fun f t => hfFailure f ∧ HfMoves s t ∧ t.hf.phase = .idle)
    fun f u k => ⟨.inl k.1, (h.1.trans k.2).trans (hfMoves_close u), rfl⟩).mono
    (fun _ u k => (⟨h.1.trans k.1, k.2⟩ : HfMoves s u ∧ u.hf.phase = .active)) (fun _ _ k => k) h.1.2.1.hung).andThen fun _ u k => ?_
  exact (hfEnd_ends (s := u) (by rw [k.2]; decide)).mono (fun _ v e => ⟨k.1.trans e.1, e.2.1⟩)
    (fun f v e => ⟨.inr (.inr e.1), k.1.trans e.2.1, e.2.2.1⟩) k.1.2.1.hung

end Sys2Proof.Machine
end

