-- ==== Sys2Proof/Laws/Lzw.lean ====
section
/-! SUPPORT. The LZW unit (44_lzw R260 to R267): all each command can do. -/

namespace Sys2Proof.Machine

/-- What an LZW command can change: the reader, the channels and their record, the LZW unit, the draws; `lz_size` stays in
its range and no sequence becomes empty. -/
def LzMoves (s t : State) : Prop :=
  t = { s with rd := t.rd, input := t.input, sink := t.sink, trace := t.trace, lz := t.lz, draws := t.draws } ∧
    ChanMoves s t ∧ (s.rd.ok = true → t.rd.ok = true) ∧ (s.params.wf → s.lz.ranged s.params → t.lz.ranged s.params)

theorem LzMoves.refl (s : State) : LzMoves s s := ⟨rfl, .refl s, id, fun _ => id⟩

theorem LzMoves.trans {s t u : State} (h : LzMoves s t) (h' : LzMoves t u) : LzMoves s u :=
  ⟨by rw [h'.1, h.1], h.2.1.trans h'.2.1, fun k => h'.2.2.1 (h.2.2.1 k), fun w k => by
    have e : t.params = s.params := by rw [h.1]
    rw [← e] at w k ⊢
    exact h'.2.2.2 w (e ▸ h.2.2.2 (e ▸ w) (e ▸ k))⟩

theorem Reads.lzMoves {s t : State} (h : Reads s t) : LzMoves s t := ⟨by rw [h.1], h.2.1, h.2.2, fun _ k => by rw [h.1]; exact k⟩

theorem Emits.lzMoves {s t : State} (h : Emits s t) : LzMoves s t := ⟨by rw [h.1], h.2, fun k => by rw [h.1]; exact k, fun _ k => by rw [h.1]; exact k⟩

theorem lzMoves_lz (s : State) {u : LzwUnit} (hu : s.params.wf → s.lz.ranged s.params → u.ranged s.params) :
    LzMoves s { s with lz := u } := ⟨rfl, (ChanMoves.refl s).congr rfl rfl rfl, id, hu⟩

/-- What `LZ.END` leaves of the dictionary keeps to its range. -/
theorem freeDict_ranged {p : Config.Params} (h : p.wf) (u : LzwUnit) (n : Nat) (q : List Byte) :
    ({ u with dict := freeDict p n, prev := q } : LzwUnit).ranged p := by
  have hlt := Nat.mod_lt (Config.freeSize n) (show 0 < p.dictMax - Config.seedSize + 1 by omega)
  have := h.1
  simp only [LzwUnit.ranged, LzwUnit.size, freeDict, List.length_map, List.length_range]
  refine ⟨by omega, by omega, fun q hq => ?_⟩
  obtain ⟨c, -, rfl⟩ := List.mem_map.mp hq
  simp

theorem lzMoves_close (s : State) : LzMoves s (closeLz s) :=
  ⟨rfl, (ChanMoves.refl s).congr rfl rfl rfl, id, fun w _ => freeDict_ranged w { s.lz with phase := .idle } _ _⟩

theorem lzMoves_brInit (s : State) : LzMoves s (brInit s) := ⟨rfl, (ChanMoves.refl s).congr rfl rfl rfl, fun _ => rfl, fun _ => id⟩

theorem lz_ok_ranged {p : Config.Params} {u : LzwUnit} (h : u.ok p = true) : u.ranged p := by
  simp only [LzwUnit.ok, Bool.and_eq_true, decide_eq_true_eq] at h
  exact h.1

theorem lz_ok_idle {p : Config.Params} {u : LzwUnit} (h : u.phase = .idle) (hr : u.ranged p) : u.ok p = true := by
  rw [LzwUnit.ok, h, decide_eq_true hr]; rfl

theorem seedDict_length : seedDict.length = 256 := by simp [seedDict, Config.seedSize]

/-- What 10_state R27 and 44_lzw R262 say of an LZW unit that is not `IDLE`. -/
theorem lz_ok_iff {p : Config.Params} {u : LzwUnit} (h : u.phase ≠ .idle) : u.ok p = true ↔
    u.dict.take Config.seedSize = seedDict ∧ u.dict.length ≤ p.dictMax ∧
      (∀ q ∈ u.dict, q ≠ [] ∧ tooLong p.seqMax q = false) ∧ u.dict.Nodup ∧ (u.prev = [] ∨ u.prev ∈ u.dict) := by
  simp only [LzwUnit.ok, seqOk, Bool.or_eq_true, beq_iff_eq, h, false_or, Bool.and_eq_true, decide_eq_true_eq,
    Bool.not_eq_true', and_assoc, List.all_eq_true]
  constructor
  · rintro ⟨-, h2, -, h1, h3⟩
    exact ⟨h1, h2, h3⟩
  · rintro ⟨h1, h2, h3, h4⟩
    have := congrArg List.length h1
    rw [List.length_take, seedDict_length, Config.seedSize] at this
    exact ⟨by rw [Config.seedSize, LzwUnit.size]; omega, h2, fun q hq => (h3 q hq).1, h1, h3, h4⟩

theorem seedDict_nodup : seedDict.Nodup := by
  unfold seedDict
  refine (List.nodup_map_iff_inj_on List.nodup_range).mpr fun a ha b hb h => ?_
  simp only [List.mem_range, Config.seedSize, List.cons.injEq, and_true] at ha hb h
  have := congrArg BitVec.toNat h
  simp only [BitVec.toNat_ofNat] at this
  omega

theorem mem_seedDict {q : List Byte} : q ∈ seedDict ↔ ∃ b, q = [b] := by
  simp only [seedDict, List.mem_map, List.mem_range, Config.seedSize]
  constructor
  · rintro ⟨c, -, rfl⟩; exact ⟨_, rfl⟩
  · rintro ⟨b, rfl⟩; exact ⟨b.toNat, b.isLt, by simp⟩

/-- `DictInsert` (44_lzw R262): a sequence already there changes nothing; else it is appended, or `LIMIT` and nothing changes. -/
theorem dictInsert_ends (seq : List Byte) (s : State) {N : Prop} : (dictInsert seq s).Ends
    (fun _ t => ∃ d, t = { s with lz := { s.lz with dict := d } } ∧ seq ∈ d ∧ (d = s.lz.dict ∨
      (seq ∉ s.lz.dict ∧ s.lz.size ≠ s.params.dictMax ∧ tooLong s.params.seqMax seq = false ∧ d = s.lz.dict ++ [seq])))
    (fun f t => f = .limit ∧ t = s) N := by
  unfold dictInsert
  split
  · next h => exact ⟨s.lz.dict, rfl, h, .inl rfl⟩
  · next h =>
    split
    · exact ⟨rfl, rfl⟩
    · next h' =>
      rw [not_or, Bool.not_eq_true] at h'
      exact ⟨_, rfl, by simp, .inr ⟨h, h'.1, h'.2, rfl⟩⟩

/-- The statuses a failing `LZ.PUT` can return, `FATAL` apart (44_lzw R263). -/
def putFailure (f : Failure) : Prop := f = .ioWrite ∨ f = .corruptCode ∨ f = .limit

/-- A dictionary in order stays so when a sequence that keeps to the limits is added and `lz_prev` becomes one of its sequences. -/
theorem lz_ok_insert {p : Config.Params} {u : LzwUnit} (hu : u.phase ≠ .idle) (h : u.ok p = true) {seq new : List Byte}
    {d : List (List Byte)} (hnew : new ≠ []) (hseq : seq ∈ d)
    (hd : d = u.dict ∨ (new ∉ u.dict ∧ u.size ≠ p.dictMax ∧ tooLong p.seqMax new = false ∧ d = u.dict ++ [new])) :
    ({ u with dict := d, prev := seq } : LzwUnit).ok p = true := by
  obtain ⟨h1, h2, h3, h4, -⟩ := (lz_ok_iff hu).mp h
  have hlen : 256 ≤ u.dict.length := by
    have := congrArg List.length h1
    rw [List.length_take, seedDict_length, Config.seedSize] at this; omega
  refine (lz_ok_iff (u := { u with dict := d, prev := seq }) hu).mpr ?_
  rcases hd with rfl | ⟨hn, hs, ht, rfl⟩
  · exact ⟨h1, h2, h3, h4, .inr hseq⟩
  · refine ⟨?_, ?_, ?_, ?_, .inr hseq⟩
    · show (u.dict ++ [new]).take Config.seedSize = seedDict
      rw [List.take_append_of_le_length (by rw [Config.seedSize]; omega), h1]
    · have : u.dict.length ≠ p.dictMax := hs
      simp only [List.length_append, List.length_singleton]; omega
    · intro q hq
      rcases List.mem_append.mp hq with hq | hq
      · exact h3 q hq
      · rw [List.mem_singleton] at hq; subst hq; exact ⟨hnew, ht⟩
    · exact List.nodup_append.mpr ⟨h4, by simp, fun a ha b hb e => by
        rw [List.mem_singleton] at hb; subst hb; subst e; exact hn ha⟩

/-- `LZ.PUT` in an active unit (44_lzw R263): all it can do. -/
theorem lzPut_ends (code : Nat) {s : State} (hp : s.lz.phase = .active) : (lzPut code s).Ends
    (fun _ t => LzMoves s t ∧ (∃ d q, t.lz = { s.lz with dict := d, prev := q }) ∧
      (s.lz.ok s.params = true → t.lz.ok s.params = true))
    (fun f t => putFailure f ∧ LzMoves s t ∧ t.lz = { s.lz with phase := .failed } ∧
      (s.lz.ok s.params = true → t.lz.ok s.params = true)) (alwaysAnswers s = false) := by
  have hok : s.lz.ok s.params = true → _ := (lz_ok_iff (p := s.params) (u := s.lz) (by rw [hp]; decide)).mp
  have hfail : s.lz.ok s.params = true → ({ s.lz with phase := .failed } : LzwUnit).ok s.params = true := fun h =>
    (lz_ok_iff (by simp)).mpr (hok h)
  unfold lzPut
  rw [if_neg (by simp [hp])]
  have hstep : (lzPutStep code s).Ends
      (fun _ t => LzMoves s t ∧ (∃ d q, t.lz = { s.lz with dict := d, prev := q }) ∧
        (s.lz.ok s.params = true → t.lz.ok s.params = true))
      (fun f t => putFailure f ∧ LzMoves s t ∧ t.lz = s.lz) (alwaysAnswers s = false) := by
    unfold lzPutStep
    cases hres : resolveCode code s.lz with
    | none => exact ⟨.inr (.inl rfl), .refl s, rfl⟩
    | some x =>
      obtain ⟨seq, new⟩ := x
      have hfacts : (∀ q ∈ s.lz.dict, q ≠ []) → new ≠ [] ∧ (seq ∈ s.lz.dict ∨ seq = new) := by
        intro h3
        unfold resolveCode at hres
        cases hget : s.lz.dict[code]? with
        | some q =>
          rw [hget] at hres
          simp only [Option.some.injEq, Prod.mk.injEq] at hres
          obtain ⟨rfl, rfl⟩ := hres
          have hmem := List.mem_of_getElem? hget
          refine ⟨?_, .inl hmem⟩
          have := h3 _ hmem
          cases hq : q with
          | nil => exact (this hq).elim
          | cons a l => simp
        | none =>
          rw [hget] at hres
          simp only at hres
          split at hres
          · next hk =>
            simp only [Option.some.injEq, Prod.mk.injEq] at hres
            obtain ⟨rfl, rfl⟩ := hres
            exact ⟨by simp [hk.2], .inr rfl⟩
          · cases hres
      refine ((emitAll_ends seq s).mono (fun _ t k => k) (fun f t k => ⟨.inl k.1, k.2.lzMoves, by rw [k.2.1]⟩)
        id).andThen fun _ t k => ?_
      have hlz : t.lz = s.lz := by rw [k.1]
      have hpar : t.params = s.params := by rw [k.1]
      refine ((dictInsert_ends new t).mono (fun _ _ h => h) (fun f u h => ⟨.inr (.inr h.1), by rw [h.2]; exact k.lzMoves,
        by rw [h.2]; exact hlz⟩) id).andThen fun _ u h => ?_
      obtain ⟨d, rfl, hmem, hd⟩ := h
      rw [hlz, hpar] at hd
      refine ⟨(k.lzMoves.trans (lzMoves_lz t (u := { t.lz with dict := d, prev := seq }) fun _ hr => ?_) :), ⟨d, seq, by simp [hlz]⟩,
        fun h => ?_⟩
      · rw [hlz, hpar] at hr ⊢
        rcases hd with rfl | ⟨-, hs, -, rfl⟩
        · exact hr
        · refine ⟨hr.1.trans (by simp [LzwUnit.size]), ?_, fun q hq => ?_⟩
          · have h2 := hr.2.1
            simp only [LzwUnit.size, List.length_append, List.length_singleton] at h2 hs ⊢; omega
          · rcases List.mem_append.mp hq with hq | hq
            · exact hr.2.2 q hq
            · rw [List.mem_singleton.mp hq]; exact (hfacts hr.2.2).1
      obtain ⟨hne, hs⟩ := hfacts (lz_ok_ranged h).2.2
      have hseq : seq ∈ d := by
        rcases hs with hs | rfl
        · rcases hd with rfl | ⟨-, -, -, rfl⟩
          · exact hs
          · exact List.mem_append_left _ hs
        · exact hmem
      show ({ t.lz with dict := d, prev := seq } : LzwUnit).ok s.params = true
      rw [hlz]
      exact lz_ok_insert (by rw [hp]; decide) h hne hseq hd
  refine hstep.onRaise fun f t h => ?_
  refine ⟨h.1, h.2.1.trans (lzMoves_lz t fun _ => id), by rw [setLzPhase_lz, h.2.2], fun k => ?_⟩
  rw [setLzPhase_lz, h.2.2]
  exact hfail k

/-- `LZ.BEGIN` in an idle unit (44_lzw R261). -/
theorem lzBegin_ok {s : State} (hp : s.lz.phase = .idle) :
    lzBegin s = .done () { s with lz := { s.lz with dict := seedDict, prev := [], phase := .active } } := by
  simp [lzBegin, hp]

theorem lz_ok_begun {p : Config.Params} (h : p.wf) (u : LzwUnit) :
    ({ u with dict := seedDict, prev := [], phase := .active } : LzwUnit).ok p = true := by
  rw [lz_ok_iff (by simp)]
  refine ⟨List.take_of_length_le (by rw [seedDict_length]; exact le_refl _), ?_, ?_, seedDict_nodup, .inl rfl⟩
  · have := h.1
    rw [seedDict_length]; unfold Config.seedSize at this; omega
  · intro q hq
    obtain ⟨b, rfl⟩ := mem_seedDict.mp hq
    refine ⟨by simp, ?_⟩
    unfold tooLong
    have h3 := h.2.2
    cases hm : p.seqMax with
    | none => rfl
    | some m =>
      have := h3 m hm
      simp; omega

/-- The seeded dictionary keeps to its range. -/
theorem seed_ranged {p : Config.Params} {u v : LzwUnit} (h : p.wf) (_ : v.ranged p) :
    ({ u with dict := seedDict, prev := [], phase := .active } : LzwUnit).ranged p := lz_ok_ranged (lz_ok_begun h u)

/-- `LZ.END` in a unit that is not `IDLE` (44_lzw R264). -/
theorem lzEnd_ok {s : State} (hp : s.lz.phase ≠ .idle) : lzEnd s = .done () (closeLz s) := by simp [lzEnd, hp]

/-- The statuses with which the loops of the whole-stream commands can fail (44_lzw R265, R266). -/
def lzFailure (f : Failure) : Prop := f = .ioRead ∨ f = .corruptTable ∨ f = .corruptRange ∨ putFailure f

theorem lzTurnB_ends {s : State} (hp : s.lz.phase = .active) : (lzTurnB s).Ends
    (fun _ t => LzMoves s t ∧ t.lz.phase = .active) (fun f t => lzFailure f ∧ LzMoves s t) (alwaysAnswers s = false) := by
  unfold lzTurnB
  refine ((readBits_ends _ s).mono (fun _ _ h => h.2) (fun f t h => ⟨.inl h.1, h.2.lzMoves⟩) id).andThen fun d t h => ?_
  have hm : LzMoves s { t with lz := { t.lz with left := BitVec.ofNat 32 (t.lz.left.toNat - 1) } } := h.lzMoves.trans (lzMoves_lz t fun _ => id)
  have hp' : t.lz.phase = .active := by rw [h.1]; exact hp
  dsimp only
  split
  · exact ⟨.inr (.inr (.inl rfl)), hm⟩
  · refine ((lzPut_ends _ (s := { t with lz := { t.lz with left := BitVec.ofNat 32 (t.lz.left.toNat - 1) } }) hp').mono
      (fun _ u k => (⟨hm.trans k.1, ?_⟩ : LzMoves s u ∧ u.lz.phase = .active)) (fun f u k => ⟨.inr (.inr (.inr k.1)), hm.trans k.2.1⟩)
      hm.2.1.hung).andThen fun _ u k => k
    obtain ⟨d, q, hq⟩ := k.2.1
    rw [hq]; exact hp'

theorem lzLoopB_ends (k : Nat) {s : State} (hp : s.lz.phase = .active) : (lzLoopB k s).Ends
    (fun _ t => LzMoves s t ∧ t.lz.phase = .active) (fun f t => lzFailure f ∧ LzMoves s t) (alwaysAnswers s = false) := by
  induction k generalizing s with
  | zero => exact ⟨.refl s, hp⟩
  | succ k ih =>
    unfold lzLoopB
    split
    · exact ⟨.refl s, hp⟩
    · refine (lzTurnB_ends hp).andThen fun _ t h => ?_
      exact (ih h.2).mono (fun _ u k => ⟨h.1.trans k.1, k.2⟩) (fun _ u k => ⟨k.1, h.1.trans k.2⟩) h.1.2.1.hung

theorem readLzwHeader_ends {s : State} : (readLzwHeader s).Ends
    (fun _ t => LzMoves s t ∧ t.lz.phase = s.lz.phase) (fun f t => (f = .ioRead ∨ f = .corruptTable) ∧ LzMoves s t ∧ t.lz.phase = s.lz.phase)
    (alwaysAnswers s = false) := by
  have next : ∀ (n : Nat) (t : State), LzMoves s t ∧ t.lz.phase = s.lz.phase → (readBits n t).Ends
      (fun _ u => LzMoves s u ∧ u.lz.phase = s.lz.phase)
      (fun f u => (f = .ioRead ∨ f = .corruptTable) ∧ LzMoves s u ∧ u.lz.phase = s.lz.phase) (alwaysAnswers s = false) := fun n t h =>
    (readBits_ends n t).mono (fun _ u k => ⟨h.1.trans k.2.lzMoves, by rw [k.2.1]; exact h.2⟩)
      (fun _ u k => ⟨.inl k.1, h.1.trans k.2.lzMoves, by rw [k.2.1]; exact h.2⟩) h.1.2.1.hung
  have set : ∀ (t : State) (u : LzwUnit), u.phase = t.lz.phase → u.dict = t.lz.dict → LzMoves s t ∧ t.lz.phase = s.lz.phase →
      LzMoves s { t with lz := u } ∧ u.phase = s.lz.phase := fun t u hu hd h =>
    ⟨h.1.trans (lzMoves_lz t fun _ k => by simpa only [LzwUnit.ranged, LzwUnit.size, hd] using k), hu.trans h.2⟩
  unfold readLzwHeader
  refine (next 32 s ⟨.refl s, rfl⟩).andThen fun a t h => (next 32 _ (set t { t.lz with left := BitVec.ofNat 32 a } rfl rfl h)).andThen fun b u k =>
    (next 8 _ (set u { u.lz with min := BitVec.ofNat 32 b } rfl rfl k)).andThen fun c v l => ?_
  dsimp only
  split
  · exact ⟨.inr rfl, set v _ rfl rfl l⟩
  · exact set v _ rfl rfl l

/-- The end of a whole-stream command once its loop has run: the unit is closed. -/
theorem lzClose_ends {s t : State} {r : Run Unit} {F : Failure → Prop} (h : LzMoves s t)
    (hr : r.Ends (fun _ u => LzMoves t u ∧ u.lz.phase = .active) (fun f u => F f ∧ LzMoves t u) (alwaysAnswers t = false)) :
    ((r.onRaise closeLz).andThen fun _ u => lzEnd u).Ends (fun _ u => LzMoves s u ∧ u.lz.phase = .idle)
      (fun f u => F f ∧ LzMoves s u ∧ u.lz.phase = .idle) (alwaysAnswers s = false) := by
  refine ((hr.onRaise (g := closeLz) (Q' := fun f u => F f ∧ LzMoves s u ∧ u.lz.phase = .idle)
    fun f u k => ⟨k.1, (h.trans k.2).trans (lzMoves_close u), rfl⟩).mono (fun _ _ k => k) (fun _ _ k => k)
    h.2.1.hung).andThen fun _ u k => ?_
  rw [lzEnd_ok (by rw [k.2]; decide)]
  exact ⟨(h.trans k.1).trans (lzMoves_close u), rfl⟩

/-- `LZ.DECODEB` in an idle unit (44_lzw R265): whatever its status, the unit is `IDLE` afterwards. -/
theorem lzDecodeB_ends {s : State} (hp : s.lz.phase = .idle) : (lzDecodeB s).Ends
    (fun _ t => LzMoves s t ∧ t.lz.phase = .idle) (fun f t => lzFailure f ∧ LzMoves s t ∧ t.lz.phase = .idle)
    (alwaysAnswers s = false) := by
  unfold lzDecodeB
  rw [if_neg (by simp [hp])]
  refine ((readLzwHeader_ends (s := brInit s)).mono
    (fun _ t h => (⟨(lzMoves_brInit s).trans h.1, h.2.trans hp⟩ : LzMoves s t ∧ t.lz.phase = .idle))
    (fun f t h => ⟨h.1.elim .inl (fun e => .inr (.inl e)), (lzMoves_brInit s).trans h.2.1, h.2.2.trans hp⟩) id).andThen fun _ t h => ?_
  rw [lzBegin_ok h.2, done_andThen]
  exact lzClose_ends (h.1.trans (lzMoves_lz t seed_ranged)) (lzLoopB_ends _ rfl)

/-- One turn of `LZ.DECODEP` up to its code (44_lzw R266): the channel has no byte, or a byte is in hand and 32 bits are read. -/
theorem tryFill_ends (s : State) : (tryFill s).Ends (fun b t => t = { s with rd := t.rd, input := t.input, trace := t.trace } ∧
      ChanMoves s t ∧ (b = true → 1 ≤ t.rd.pulled) ∧ (b = false → t.rd = s.rd)) (fun _ _ => False) (alwaysAnswers s = false) := by
  unfold tryFill
  refine (chanRead_ends s).andThen fun a t h => ?_
  cases a with
  | none => exact ⟨by rw [h.1], h.2, nofun, fun _ => by rw [h.1]⟩
  | some b => exact ⟨by simp only; rw [h.1], h.2.congr rfl rfl rfl, fun _ => Nat.le_add_left _ _, nofun⟩

/-- A read with a byte in hand leaves the reader in order, wherever `rd_off` stood. -/
theorem readBits_pulled {n : Nat} {s : State} (hp : 1 ≤ s.rd.pulled) : (readBits (n + 1) s).Ends (fun _ t => Reads s t ∧ t.rd.ok = true)
    (fun f t => f = .ioRead ∧ Reads s t ∧ t.rd.ok = true) (alwaysAnswers s = false) := by
  unfold readBits
  by_cases hok : s.rd.ok = true
  · exact (readBits_ends (n + 1) s).mono (fun _ t h => ⟨h.2, h.2.2.2 hok⟩) (fun _ t h => ⟨h.1, h.2, h.2.2.2 hok⟩) id
  have h8 : s.rd.off ≠ 8 := fun e => hok (by simp [BitReader.ok, e])
  unfold readBit
  rw [if_neg h8]
  have h1 : Reads s { s with rd := { s.rd with off := s.rd.off + 1 } } := ⟨rfl, .refl s, fun k => (hok k).elim⟩
  have h2 : ({ s.rd with off := s.rd.off + 1 } : BitReader).ok = true := takeBit_ok_inv h8 (.inl hp)
  rw [takeBit, done_andThen]
  exact ((readBits_ends n { s with rd := { s.rd with off := s.rd.off + 1 } }).mono (fun _ t h => h.2) (fun _ t h =>
    ⟨h.1, h1.trans h.2, h.2.2.2 h2⟩) id).andThen fun v t h => ⟨h1.trans h, h.2.2 h2⟩

/-- The statuses with which `LZ.DECODEP` can fail, `FATAL` apart (44_lzw R266). -/
def plainFailure (f : Failure) : Prop := f = .ioRead ∨ putFailure f

theorem lzLoopP_ends (k : Nat) {s : State} (hp : s.lz.phase = .active) : (lzLoopP k s).Ends
    (fun _ t => LzMoves s t ∧ t.lz.phase = .active) (fun f t => plainFailure f ∧ LzMoves s t) (alwaysAnswers s = false) := by
  induction k generalizing s with
  | zero => exact ⟨.refl s, hp⟩
  | succ k ih =>
    unfold lzLoopP
    refine ((tryFill_ends s).mono (fun _ _ h => h) (fun _ _ h => h.elim) id).andThen fun filled t h => ?_
    have hp' : t.lz.phase = .active := by rw [h.1]; exact hp
    cases filled with
    | true =>
      have key : ∀ u, Reads t u ∧ u.rd.ok = true → LzMoves s u := fun u k =>
        ⟨by rw [k.1.1, h.1], h.2.1.trans k.1.2.1, fun _ => k.2, fun _ l => by rw [k.1.1, h.1]; exact l⟩
      refine ((readBits_pulled (n := 31) (h.2.2.1 rfl)).mono (fun _ u k => (⟨key u k, by rw [k.1.1]; exact hp'⟩ :
        LzMoves s u ∧ u.lz.phase = .active)) (fun f u k => ⟨.inl k.1, key u k.2⟩) h.2.1.hung).andThen fun code u k => ?_
      refine ((lzPut_ends code k.2).mono (fun _ v l => (⟨k.1.trans l.1, ?_⟩ : LzMoves s v ∧ v.lz.phase = .active))
        (fun f v l => ⟨.inr l.1, k.1.trans l.2.1⟩) k.1.2.1.hung).andThen fun _ v l => ?_
      · obtain ⟨d, q, hq⟩ := l.2.1
        rw [hq]; exact k.2
      · exact (ih l.2).mono (fun _ w m => ⟨l.1.trans m.1, m.2⟩) (fun _ w m => ⟨m.1, l.1.trans m.2⟩) l.1.2.1.hung
    | false =>
      exact ⟨⟨by rw [h.1], h.2.1, fun k => by rw [h.2.2.2 rfl]; exact k, fun _ k => by rw [h.1]; exact k⟩, hp'⟩

/-- `LZ.DECODEP` in an idle unit (44_lzw R266): whatever its status, the unit is `IDLE` afterwards. -/
theorem lzDecodeP_ends {s : State} (hp : s.lz.phase = .idle) : (lzDecodeP s).Ends
    (fun _ t => LzMoves s t ∧ t.lz.phase = .idle) (fun f t => plainFailure f ∧ LzMoves s t ∧ t.lz.phase = .idle)
    (alwaysAnswers s = false) := by
  unfold lzDecodeP
  rw [if_neg (by simp [hp]), lzBegin_ok (s := brInit s) hp, done_andThen]
  exact lzClose_ends ((lzMoves_brInit s).trans (lzMoves_lz _ seed_ranged)) (lzLoopP_ends _ rfl)

end Sys2Proof.Machine
end

