-- ==== Sys2Proof/Laws/Rle.lean ====
section
/-! SUPPORT. The RLE unit (42_rle R190 to R194): all each command can do. -/

namespace Sys2Proof.Machine

/-- What an RLE command can change: the reader, the channels and their record, the RLE unit, the draws. -/
def RlMoves (s t : State) : Prop :=
  t = { s with rd := t.rd, input := t.input, sink := t.sink, trace := t.trace, rl := t.rl, draws := t.draws } ∧
    ChanMoves s t ∧ (s.rd.ok = true → t.rd.ok = true)

theorem RlMoves.refl (s : State) : RlMoves s s := ⟨rfl, .refl s, id⟩

theorem RlMoves.trans {s t u : State} (h : RlMoves s t) (h' : RlMoves t u) : RlMoves s u :=
  ⟨by rw [h'.1, h.1], h.2.1.trans h'.2.1, fun k => h'.2.2 (h.2.2 k)⟩

theorem Reads.rlMoves {s t : State} (h : Reads s t) : RlMoves s t := ⟨by rw [h.1], h.2⟩

theorem Emits.rlMoves {s t : State} (h : Emits s t) : RlMoves s t := ⟨by rw [h.1], h.2, fun k => by rw [h.1]; exact k⟩

theorem rlMoves_forget (s : State) : RlMoves s (forgetRle s) := ⟨rfl, (ChanMoves.refl s).congr rfl rfl rfl, id⟩

theorem rlMoves_rl (s : State) (u : RleUnit) : RlMoves s { s with rl := u } := ⟨rfl, (ChanMoves.refl s).congr rfl rfl rfl, id⟩

theorem forgetRle_ok (s : State) : (forgetRle s).rl.ok = true := rfl

theorem fin9_bitwidth {n : Nat} (h : n < 256) : (Fin.ofNat 9 (bitwidth n)).val = bitwidth n :=
  Nat.mod_eq_of_lt (by have := bitwidth_le (n := n) (k := 8) (by omega) (by omega); omega)

/-- The header of an RLE stream: an active unit in order, or `IO_READ` or `CORRUPT_TABLE` (42_rle R191). -/
theorem readRleHeader_ends (s : State) : (readRleHeader s).Ends (fun u t => Reads s t ∧ u.ok = true ∧ u.phase = .active)
    (fun f t => (f = .ioRead ∨ f = .corruptTable) ∧ Reads s t) (alwaysAnswers s = false) := by
  have next : ∀ (n : Nat) (t : State), Reads s t → (readBits n t).Ends (fun v u => v < 2 ^ n ∧ Reads s u)
      (fun f u => (f = .ioRead ∨ f = .corruptTable) ∧ Reads s u) (alwaysAnswers s = false) := fun n t h =>
    (readBits_from n h (fun h => h.2.1) (fun _ h h' => h'.trans h)).mono (fun _ _ k => ⟨k.1, k.2.2⟩)
      (fun _ _ k => ⟨.inl k.1, k.2.2⟩) id
  unfold readRleHeader
  refine (next _ _ (.refl s)).andThen fun minV t h1 => (next _ t h1.2).andThen fun maxV t h2 =>
    (next _ t h2.2).andThen fun minR t h3 => (next _ t h3.2).andThen fun maxR t h4 => (next _ t h4.2).andThen fun total t h5 => ?_
  split
  · exact ⟨.inr rfl, h5.2⟩
  · next hord =>
    refine ⟨h5.2, ?_, rfl⟩
    have hm : ∀ x : Nat, x < 2 ^ 8 → x % 256 = x := fun x hx => Nat.mod_eq_of_lt (by omega)
    simp only [RleUnit.ok, BitVec.toNat_ofNat, hm _ h1.1, hm _ h2.1, hm _ h3.1, hm _ h4.1, Nat.reducePow, Bool.or_eq_true, Bool.and_eq_true,
      decide_eq_true_eq, beq_iff_eq]
    rw [fin9_bitwidth (by omega), fin9_bitwidth (by omega)]
    exact ⟨⟨bitwidth_pos _, bitwidth_pos _⟩, .inr ⟨⟨⟨by omega, by omega⟩, rfl⟩, rfl⟩⟩

theorem rlBegin_ends {s : State} (hp : s.rl.phase = .idle) : (rlBegin s).Ends
    (fun v t => RlMoves s t ∧ t.rl.ok = true ∧ t.rl.phase = .active ∧ v = t.rl.left)
    (fun f t => (f = .ioRead ∨ f = .corruptTable) ∧ RlMoves s t ∧ t.rl.phase = .idle ∧ t.rl.ok = true) (alwaysAnswers s = false) := by
  unfold rlBegin
  rw [if_neg (by simp [hp])]
  refine ((readRleHeader_ends s).onRaise (g := forgetRle)
    (Q' := fun f t => (f = .ioRead ∨ f = .corruptTable) ∧ RlMoves s t ∧ t.rl.phase = .idle ∧ t.rl.ok = true)
    fun f t h => ⟨h.1, h.2.rlMoves.trans (rlMoves_forget t), rfl, forgetRle_ok t⟩).andThen fun u t h => ?_
  exact ⟨h.1.rlMoves.trans (rlMoves_rl t u), h.2.1, h.2.2, rfl⟩

/-- The statuses a failing `RL.PAIR` can return, `FATAL` apart (42_rle R192). -/
def pairFailure (f : Failure) : Prop := f = .ioRead ∨ f = .ioWrite ∨ f = .corruptBitCount ∨ f = .corruptRange

theorem rlPairStep_ends (s : State) : (rlPairStep s).Ends
    (fun _ t => RlMoves s t ∧ ∃ w, t.rl = { s.rl with left := w } ∧ w.toNat + s.rl.pairBits = s.rl.left.toNat)
    (fun f t => pairFailure f ∧ RlMoves s t ∧ ∃ w, t.rl = { s.rl with left := w }) (alwaysAnswers s = false) := by
  unfold rlPairStep
  split
  · exact ⟨.inr (.inr (.inl rfl)), .refl s, _, rfl⟩
  · next hw =>
    have next : ∀ (n : Nat) (t : State), Reads s t → (readBits n t).Ends (fun _ u => Reads s u)
        (fun f u => pairFailure f ∧ RlMoves s u ∧ ∃ w, u.rl = { s.rl with left := w }) (alwaysAnswers s = false) := fun n t h =>
      (readBits_from n h (fun h => h.2.1) (fun _ h h' => h'.trans h)).mono (fun _ _ k => k.2.2)
        (fun _ u k => ⟨.inl k.1, k.2.2.rlMoves, s.rl.left, by rw [k.2.2.1]⟩) id
    refine (next _ s (.refl s)).andThen fun dv t h1 => (next _ t h1).andThen fun dr t h2 => ?_
    have hrl : t.rl = s.rl := by rw [h2.1]
    have hmv : RlMoves s { t with rl := { t.rl with left := BitVec.ofNat 32 (t.rl.left.toNat - t.rl.pairBits) } } :=
      h2.rlMoves.trans (rlMoves_rl t _)
    have hlt := s.rl.left.isLt
    have hleft : (BitVec.ofNat 32 (s.rl.left.toNat - s.rl.pairBits)).toNat + s.rl.pairBits = s.rl.left.toNat := by
      rw [BitVec.toNat_ofNat, Nat.mod_eq_of_lt (by omega)]; omega
    have hrl' : ({ t.rl with left := BitVec.ofNat 32 (t.rl.left.toNat - t.rl.pairBits) } : RleUnit) =
        { s.rl with left := BitVec.ofNat 32 (s.rl.left.toNat - s.rl.pairBits) } := by rw [hrl]
    dsimp only
    split
    · exact ⟨.inr (.inr (.inr rfl)), hmv, _, hrl'⟩
    · refine ((emitAll_ends _ _).mono (fun _ u k => (⟨hmv.trans k.rlMoves, _, by rw [k.1]; exact hrl', hleft⟩ : _ ∧ _))
        (fun f u k => ⟨.inr (.inl k.1), hmv.trans k.2.rlMoves, _, by rw [k.2.1]; exact hrl'⟩) hmv.2.1.hung).andThen fun _ u k => k

theorem rlPair_ends {s : State} (hp : s.rl.phase = .active) : (rlPair s).Ends
    (fun _ t => RlMoves s t ∧ ∃ w, t.rl = { s.rl with left := w } ∧ w.toNat + s.rl.pairBits = s.rl.left.toNat)
    (fun f t => pairFailure f ∧ RlMoves s t ∧ ∃ w, t.rl = { s.rl with left := w, phase := .failed })
    (alwaysAnswers s = false) := by
  unfold rlPair
  rw [if_neg (by simp [hp])]
  refine (rlPairStep_ends s).onRaise fun f t h => ⟨h.1, h.2.1.trans (rlMoves_rl t _), ?_⟩
  obtain ⟨w, hw⟩ := h.2.2
  exact ⟨w, by rw [setRlPhase_rl, hw]⟩

theorem rle_ok_left {u : RleUnit} (w : Word) (h : u.ok = true) : ({ u with left := w } : RleUnit).ok = true := h

theorem rle_ok_failed {u : RleUnit} (w : Word) (hp : u.phase = .active) (h : u.ok = true) :
    ({ u with left := w, phase := .failed } : RleUnit).ok = true := by
  unfold RleUnit.ok at *
  rw [hp] at h
  exact h

theorem rlEnd_ends {s : State} (hp : s.rl.phase ≠ .idle) : (rlEnd s).Ends
    (fun _ t => RlMoves s t ∧ t.rl.phase = .idle ∧ t = forgetRle s)
    (fun f t => f = .corruptBitCount ∧ RlMoves s t ∧ t.rl.phase = .idle ∧ t = forgetRle s) (alwaysAnswers s = false) := by
  unfold rlEnd
  rw [if_neg hp]
  split
  · exact ⟨rfl, rlMoves_forget s, rfl, rfl⟩
  · exact ⟨rlMoves_forget s, rfl, rfl⟩

theorem rlLoop_ends (k : Nat) {s : State} (hp : s.rl.phase = .active) : (rlLoop k s).Ends
    (fun _ t => RlMoves s t ∧ t.rl.phase = .active) (fun f t => pairFailure f ∧ RlMoves s t) (alwaysAnswers s = false) := by
  induction k generalizing s with
  | zero => exact ⟨.refl s, hp⟩
  | succ k ih =>
    unfold rlLoop
    split
    · exact ⟨.refl s, hp⟩
    · refine ((rlPair_ends hp).mono (fun _ t h => h) (fun _ t h => ⟨h.1, h.2.1⟩) id).andThen fun _ t h => ?_
      obtain ⟨hm, w, hw, -⟩ := h
      exact (ih (s := t) (by rw [hw]; exact hp)).mono (fun _ u k => ⟨hm.trans k.1, k.2⟩) (fun _ u k => ⟨k.1, hm.trans k.2⟩)
        hm.2.1.hung

theorem reads_brInit (s : State) : RlMoves s (brInit s) := ⟨rfl, (ChanMoves.refl s).congr rfl rfl rfl, fun _ => rfl⟩

/-- `RL.DECODE` in an idle unit (42_rle R194): whatever its status, the unit is `IDLE` afterwards. -/
theorem rlDecode_ends {s : State} (hp : s.rl.phase = .idle) : (rlDecode s).Ends
    (fun _ t => RlMoves s t ∧ t.rl.phase = .idle ∧ t.rl.ok = true)
    (fun f t => (pairFailure f ∨ f = .corruptTable) ∧ RlMoves s t ∧ t.rl.phase = .idle ∧ t.rl.ok = true) (alwaysAnswers s = false) := by
  unfold rlDecode
  rw [if_neg (by simp [hp])]
  refine ((rlBegin_ends (s := brInit s) hp).mono (fun v t h => (⟨(reads_brInit s).trans h.1, h.2.2.1⟩ : _ ∧ t.rl.phase = .active))
    (fun f t h => ⟨h.1.elim (fun e => .inl (.inl e)) .inr, (reads_brInit s).trans h.2.1, h.2.2⟩) id).andThen fun _ t h => ?_
  refine (((rlLoop_ends t.rl.left.toNat h.2).onRaise (g := forgetRle)
    (Q' := fun f t => (pairFailure f ∨ f = .corruptTable) ∧ RlMoves s t ∧ t.rl.phase = .idle ∧ t.rl.ok = true)
    fun f u k => ⟨.inl k.1, (h.1.trans k.2).trans (rlMoves_forget u), rfl, forgetRle_ok u⟩).mono
    (fun _ u k => (⟨h.1.trans k.1, k.2⟩ : _ ∧ u.rl.phase = .active)) (fun _ _ k => k) h.1.2.1.hung).andThen fun _ u k => ?_
  exact (rlEnd_ends (s := u) (by rw [k.2]; decide)).mono (fun _ v e => ⟨k.1.trans e.1, e.2.1, by rw [e.2.2]; exact forgetRle_ok u⟩)
    (fun f v e => ⟨.inl (.inr (.inr (.inl e.1))), k.1.trans e.2.1, e.2.2.1, by rw [e.2.2.2]; exact forgetRle_ok u⟩) k.1.2.1.hung

end Sys2Proof.Machine
end

