-- ==== Sys2Proof/Laws/Exec.lean ====
section
/-! SUPPORT. Once, everything a command can do (60_exceptions R302, R303): it is turned away because `fatal` is set, it is a contract
violation, or its pseudocode runs and moves the state within its frame. -/

namespace Sys2Proof.Machine

/-- The pseudocode of a command; `SYS.RESET` has none that can end otherwise than by `OK`. -/
def bodyOf : Instr → State → Run Result
  | .sysReset => fun s => .done ⟨.ok, 0⟩ (resetBlock s)
  | .brInit => fun s => .done ⟨.ok, 0⟩ (brInit s)
  | .brRead n => brRead n.toNat
  | .brAlign => fun s => .done ⟨.ok, 0⟩ { s with rd := { s.rd with off := 8 } }
  | .bwInit => fun s => .done ⟨.ok, 0⟩ { s with wr := ⟨0, 0⟩ }
  | .bwWrite n v => bwWrite n.toNat v.toNat
  | .bwComplete => bwComplete
  | .ctLoad => fun s => okWith (ctLoad s)
  | .rlBegin => fun s => okWith (rlBegin s)
  | .rlPair => fun s => okWith (rlPair s)
  | .rlEnd => fun s => okZero (rlEnd s)
  | .rlDecode => fun s => okZero (rlDecode s)
  | .hfBegin => fun s => okZero (hfBegin s)
  | .hfBit b => fun s => (hfBit b s).andThen fun r s => .done (bitResult r) s
  | .hfEnd => fun s => okZero (hfEnd s)
  | .hfDecode => fun s => okZero (hfDecode s)
  | .lzBegin => fun s => okZero (lzBegin s)
  | .lzPut c => fun s => okWith (lzPut c.toNat s)
  | .lzEnd => fun s => okZero (lzEnd s)
  | .lzDecodeP => fun s => okZero (lzDecodeP s)
  | .lzDecodeB => fun s => okZero (lzDecodeB s)

theorem exec_eq_command {i : Instr} (h : i ≠ .sysReset) (s : State) : exec i s = command (bodyOf i) s := by
  cases i <;> first | rfl | exact (h rfl).elim

/-- The frame of a command's pseudocode, what it keeps in order, and the phase it leaves; `good`: it returned no failure. -/
def Moves (i : Instr) (good : Bool) (s u : State) : Prop :=
  match i with
  | .sysReset => u = resetBlock s
  | .brInit | .brRead _ | .brAlign => Reads s u
  | .bwInit | .bwWrite _ _ | .bwComplete => Writes s u
  | .ctLoad => Loads s u ∧ u.ctValid = good ∧ (u.ctValid = true → tableOk u.ct = true)
  | .rlBegin | .rlPair | .rlDecode => RlMoves s u ∧ (s.rl.ok = true → u.rl.ok = true) ∧ u.rl.phase = rlPhaseAfter i good s.rl.phase
  | .rlEnd => u = forgetRle s
  | .hfBegin | .hfEnd => (∃ v n, u = { s with hf := v, draws := n }) ∧ (s.hf.ok = true → u.hf.ok = true) ∧
      u.hf.phase = hfPhaseAfter i good s.hf.phase
  | .hfBit _ => (∃ v n, u = { s with hf := v, draws := n }) ∧ (s.hf.ok = true → u.hf.ok = true) ∧
      u.hf.phase = hfPhaseAfter i good s.hf.phase ∧ u.hf.nodes = s.hf.nodes
  | .hfDecode => HfMoves s u ∧ u.hf.phase = .idle
  | .lzBegin | .lzEnd => (∃ v n, u = { s with lz := v, draws := n }) ∧
      (s.params.wf → s.lz.ok s.params = true → u.lz.ok s.params = true) ∧ u.lz.phase = lzPhaseAfter i good s.lz.phase
  | .lzPut _ => u = { s with sink := u.sink, trace := u.trace, lz := u.lz } ∧ ChanMoves s u ∧
      (s.lz.ok s.params = true → u.lz.ok s.params = true) ∧ u.lz.phase = lzPhaseAfter i good s.lz.phase
  | .lzDecodeP | .lzDecodeB => LzMoves s u ∧ u.lz.phase = .idle

/-- What a command that runs can return: `OK`, or `MORE` from `HF.BIT`. -/
def goodFor (i : Instr) (r : Result) : Prop := r.res = .ok ∨ (r.res = .more ∧ ∃ b, i = .hfBit b)

theorem okWith_ends {r : Run Word} {P : Word → State → Prop} {Q : Failure → State → Prop} {N : Prop} {R : Result → State → Prop}
    (h : r.Ends P Q N) (hr : ∀ v s, P v s → R ⟨.ok, v⟩ s) : (okWith r).Ends R Q N := h.andThen fun v s k => hr v s k

theorem okZero_ends {r : Run Unit} {P : Unit → State → Prop} {Q : Failure → State → Prop} {N : Prop} {R : Result → State → Prop}
    (h : r.Ends P Q N) (hr : ∀ s, P () s → R ⟨.ok, 0⟩ s) : (okZero r).Ends R Q N := h.andThen fun _ s k => hr s k

/-- A contract violation ends the pseudocode at its first line (60_exceptions R303). -/
theorem body_of_violates {i : Instr} {s : State} (h : violates i s = true) : bodyOf i s = fatalViolation s := by
  cases i <;> simp only [violates, bne_iff_ne, ne_eq, beq_iff_eq, decide_eq_true_eq, Bool.or_eq_true, Bool.not_eq_true',
    Bool.false_eq_true] at h
  case brRead n => exact if_pos h
  case bwWrite n v => exact if_pos h
  case ctLoad => simp only [bodyOf, ctLoad, ne_eq, h, not_false_eq_true, if_true]; rfl
  case rlBegin => simp only [bodyOf, rlBegin, ne_eq, h, not_false_eq_true, if_true]; rfl
  case rlPair => simp only [bodyOf, rlPair, ne_eq, h, not_false_eq_true, if_true]; rfl
  case rlEnd => simp only [bodyOf, rlEnd, h, if_true]; rfl
  case rlDecode => simp only [bodyOf, rlDecode, ne_eq, h, not_false_eq_true, if_true]; rfl
  case hfBegin => simp only [bodyOf, hfBegin, ne_eq, h, if_true]; rfl
  case hfBit b => simp only [bodyOf, hfBit, ne_eq, h, not_false_eq_true, if_true]; rfl
  case hfEnd => simp only [bodyOf, hfEnd, h, if_true]; rfl
  case hfDecode => simp only [bodyOf, hfDecode, ne_eq, h, not_false_eq_true, if_true]; rfl
  case lzBegin => simp only [bodyOf, lzBegin, ne_eq, h, not_false_eq_true, if_true]; rfl
  case lzPut c => simp only [bodyOf, lzPut, ne_eq, h, not_false_eq_true, if_true]; rfl
  case lzEnd => simp only [bodyOf, lzEnd, h, if_true]; rfl
  case lzDecodeP => simp only [bodyOf, lzDecodeP, ne_eq, h, not_false_eq_true, if_true]; rfl
  case lzDecodeB => simp only [bodyOf, lzDecodeB, ne_eq, h, not_false_eq_true, if_true]; rfl

/-- The pseudocode of a command that is no contract violation stays within its frame, returns what its rule lists, and hangs only on
an answer that never comes. -/
theorem body_ends {i : Instr} {s : State} (h : violates i s = false) : (bodyOf i s).Ends
    (fun r u => goodFor i r ∧ Moves i true s u) (fun f u => (mayFail i f = true ∧ f ≠ .fatal) ∧ Moves i false s u)
    (alwaysAnswers s = false) := by
  have idle : ∀ p : Phase, (p != .idle) = false → p = .idle := fun p => by cases p <;> simp
  have active : ∀ p : Phase, (p != .active) = false → p = .active := fun p => by cases p <;> simp
  cases i <;> simp only [violates] at h
  case sysReset => exact ⟨.inl rfl, rfl⟩
  case brInit => exact ⟨.inl rfl, rfl, (ChanMoves.refl s).congr rfl rfl rfl, fun _ => rfl⟩
  case brRead n =>
    simp only [decide_eq_false_iff_not] at h
    show Run.Ends _ _ _ (brRead n.toNat s)
    unfold brRead
    rw [if_neg h]
    exact ((readBits_ends n.toNat s).mono (fun _ _ k => k.2) (fun f u k => (⟨by rw [k.1]; exact ⟨rfl, nofun⟩, k.2⟩ : _ ∧ _)) id).andThen
      fun v u k => ⟨.inl rfl, k⟩
  case brAlign => exact ⟨.inl rfl, rfl, (ChanMoves.refl s).congr rfl rfl rfl, fun _ => rfl⟩
  case bwInit => exact ⟨.inl rfl, rfl, (ChanMoves.refl s).congr rfl rfl rfl, fun _ => rfl⟩
  case bwWrite n v =>
    simp only [decide_eq_false_iff_not] at h
    show Run.Ends _ _ _ (bwWrite n.toNat v.toNat s)
    unfold bwWrite
    rw [if_neg h]
    exact okZero_ends ((writeBits_ends n.toNat v.toNat s).mono (fun _ _ k => k)
      (fun f u k => (⟨by rw [k.1]; exact ⟨rfl, nofun⟩, k.2.1⟩ : _ ∧ _)) id) fun u k => ⟨.inl rfl, k⟩
  case bwComplete =>
    show Run.Ends _ _ _ (bwComplete s)
    unfold bwComplete
    split
    · exact okZero_ends ((flushHolder_ends s).mono (fun _ _ k => k)
        (fun f u k => (⟨by rw [k.1]; exact ⟨rfl, nofun⟩, k.2.1⟩ : _ ∧ _)) id) fun u k => ⟨.inl rfl, k.1⟩
    · exact ⟨.inl rfl, Writes.refl s⟩
  case ctLoad =>
    refine okWith_ends ((ctLoad_ends (idle _ h)).mono (fun _ _ k => k) (fun f u k => (⟨?_, k.2.1, k.2.2, ?_⟩ : _ ∧ _)) id)
      fun v u k => ⟨.inl rfl, k.1, k.2.1, fun _ => k.2.2⟩
    · rcases k.1 with e | e <;> rw [e] <;> exact ⟨rfl, nofun⟩
    · intro hc; rw [k.2.2] at hc; cases hc
  case rlBegin =>
    refine okWith_ends ((rlBegin_ends (idle _ h)).mono (fun _ _ k => k) (fun f u k => (⟨?_, k.2.1, fun _ => ?_, k.2.2.1⟩ : _ ∧ _)) id)
      fun v u k => ⟨.inl rfl, k.1, fun _ => k.2.1, k.2.2.1⟩
    · rcases k.1 with e | e <;> rw [e] <;> exact ⟨rfl, nofun⟩
    · exact k.2.2.2
  case rlPair =>
    have hp := active _ h
    have hf : ∀ f, pairFailure f → mayFail .rlPair f = true ∧ f ≠ .fatal := by
      rintro f (e | e | e | e) <;> rw [e] <;> exact ⟨rfl, nofun⟩
    exact okWith_ends ((rlPair_ends hp).mono (fun _ _ k => k) (fun f u k => (⟨hf f k.1, k.2.1, fun hk => by
        obtain ⟨w, hw⟩ := k.2.2
        rw [hw]; exact rle_ok_failed w hp hk, by
        obtain ⟨w, hw⟩ := k.2.2
        rw [hw]; rfl⟩ : _ ∧ Moves .rlPair false s u)) id)
      fun v u k => ⟨.inl rfl, k.1, fun hk => by
        obtain ⟨w, hw, -⟩ := k.2
        rw [hw]; exact rle_ok_left w hk, by
        obtain ⟨w, hw, -⟩ := k.2
        rw [hw]; exact hp⟩
  case rlEnd =>
    have hp : s.rl.phase ≠ .idle := by simpa using h
    exact okZero_ends ((rlEnd_ends hp).mono (fun _ _ k => k) (fun f u k => (⟨by rw [k.1]; exact ⟨rfl, nofun⟩, k.2.2.2⟩ : _ ∧ _)) id)
      fun u k => ⟨.inl rfl, k.2.2⟩
  case rlDecode =>
    have hf : ∀ f, pairFailure f ∨ f = .corruptTable → mayFail .rlDecode f = true ∧ f ≠ .fatal := by
      rintro f ((e | e | e | e) | e) <;> rw [e] <;> exact ⟨rfl, nofun⟩
    exact okZero_ends ((rlDecode_ends (idle _ h)).mono (fun _ _ k => k) (fun f u k =>
      (⟨hf f k.1, k.2.1, fun _ => k.2.2.2, k.2.2.1⟩ : _ ∧ Moves .rlDecode false s u)) id)
      fun u k => ⟨.inl rfl, k.1, fun _ => k.2.2, k.2.1⟩
  case hfBegin =>
    simp only [Bool.or_eq_false_iff, Bool.not_eq_false'] at h
    have hp := idle _ h.1
    show Run.Ends _ _ _ (okZero (hfBegin s))
    unfold hfBegin
    rw [if_neg (by simp [hp, h.2])]
    cases hr : buildTrie s.ct with
    | error nodes =>
      have hb := buildTrie_tree s.ct
      rw [hr] at hb
      exact ⟨⟨rfl, nofun⟩, ⟨_, _, rfl⟩, fun _ => hf_ok_idle hp (by simpa using hb.1), hp⟩
    | ok nodes => exact ⟨.inl rfl, ⟨_, _, rfl⟩, fun _ => hf_ok_built hr _, rfl⟩
  case hfBit b =>
    have hp := active _ h
    have hends : (hfBit b s).Ends (fun _ u => Moves (.hfBit b) true s u)
        (fun f u => (mayFail (.hfBit b) f = true ∧ f ≠ .fatal) ∧ Moves (.hfBit b) false s u) (alwaysAnswers s = false) :=
      (hfBit_ends b hp).mono (fun _ u k => by
          obtain ⟨⟨c, hc⟩, hk⟩ := k
          exact ⟨⟨_, s.draws, hc⟩, hk, by rw [hc]; exact hp, by rw [hc]⟩)
        (fun f u k => by
          obtain ⟨hf, hc, hk⟩ := k
          exact ⟨by rw [hf]; exact ⟨rfl, nofun⟩, ⟨_, s.draws, hc⟩, hk, by rw [hc]; rfl, by rw [hc]⟩) id
    refine hends.andThen fun r u k => ⟨?_, k⟩
    cases r with
    | none => exact .inr ⟨rfl, b, rfl⟩
    | some v => exact .inl rfl
  case hfEnd =>
    have hp : s.hf.phase ≠ .idle := by simpa using h
    have hm : ∀ u, u = closeHf s → (∃ v n, u = { s with hf := v, draws := n }) ∧ (s.hf.ok = true → u.hf.ok = true) ∧
        u.hf.phase = .idle := fun u e => by
      subst e; exact ⟨⟨_, _, rfl⟩, fun k => hf_ok_idle rfl ((hfMoves_close s).2.2.2.2 (hf_ok_length k)), rfl⟩
    exact okZero_ends ((hfEnd_ends hp).mono (fun _ _ k => k)
      (fun f u k => (⟨by rw [k.1]; exact ⟨rfl, nofun⟩, hm u k.2.2.2⟩ : _ ∧ _)) id) fun u k => ⟨.inl rfl, hm u k.2.2⟩
  case hfDecode =>
    refine okZero_ends ((hfDecode_ends (idle _ h)).mono (fun _ _ k => k) (fun f u k => (⟨?_, k.2⟩ : _ ∧ _)) id)
      fun u k => ⟨.inl rfl, k⟩
    rcases k.1 with (e | e | e) | e | e <;> rw [e] <;> exact ⟨rfl, nofun⟩
  case lzBegin =>
    show Run.Ends _ _ _ (okZero (lzBegin s))
    rw [lzBegin_ok (idle _ h), okZero_done]
    exact ⟨.inl rfl, ⟨_, s.draws, rfl⟩, fun hw _ => lz_ok_begun hw _, rfl⟩
  case lzPut c =>
    have hp := active _ h
    have key : ∀ u d q p, LzMoves s u → u.lz = { s.lz with dict := d, prev := q, phase := p } → u.rd = s.rd → u.input = s.input →
        u.draws = s.draws → u = { s with sink := u.sink, trace := u.trace, lz := u.lz } := by
      intro u d q p k1 k2 k3 k4 k5
      rw [k1.1]; simp only [k3, k4, k5]
    have hframe : (lzPut c.toNat s).Ends (fun _ u => u.rd = s.rd ∧ u.input = s.input ∧ u.draws = s.draws)
        (fun _ u => u.rd = s.rd ∧ u.input = s.input ∧ u.draws = s.draws) True := by
      unfold lzPut lzPutStep
      rw [if_neg (by simp [hp])]
      cases resolveCode c.toNat s.lz with
      | none => exact ⟨rfl, rfl, rfl⟩
      | some x =>
        refine Run.Ends.onRaise (Q := fun _ u => u.rd = s.rd ∧ u.input = s.input ∧ u.draws = s.draws) ?_ fun f u k => k
        refine ((emitAll_ends x.1 s).mono (fun _ _ k => k) (fun f u k => ?_) fun _ => trivial).andThen fun _ u k => ?_
        · rw [k.2.1]; exact ⟨rfl, rfl, rfl⟩
        · refine ((dictInsert_ends x.2 u).mono (fun _ _ k => k) (fun f v l => ?_) id).andThen fun _ v l => ?_
          · rw [l.2, k.1]; exact ⟨rfl, rfl, rfl⟩
          · obtain ⟨d, rfl, -, -⟩ := l
            show u.rd = s.rd ∧ u.input = s.input ∧ u.draws = s.draws
            rw [k.1]; exact ⟨rfl, rfl, rfl⟩
    have hends := lzPut_ends c.toNat hp
    show Run.Ends _ _ _ (okWith (lzPut c.toNat s))
    cases hrun : lzPut c.toNat s with
    | done v u =>
      rw [hrun] at hends hframe
      obtain ⟨k1, ⟨d, q, k2⟩, k3⟩ := hends
      refine ⟨.inl rfl, key u d q .active k1 (by rw [k2, ← hp]) hframe.1 hframe.2.1 hframe.2.2, k1.2.1, k3, ?_⟩
      rw [k2]; exact hp
    | raised f u =>
      rw [hrun] at hends hframe
      obtain ⟨k0, k1, k2, k3⟩ := hends
      refine ⟨?_, key u s.lz.dict s.lz.prev .failed k1 k2 hframe.1 hframe.2.1 hframe.2.2, k1.2.1, k3, by rw [k2]; rfl⟩
      rcases k0 with e | e | e <;> rw [e] <;> exact ⟨rfl, nofun⟩
    | hung x =>
      rw [hrun] at hends
      exact hends
  case lzEnd =>
    have hp : s.lz.phase ≠ .idle := by simpa using h
    show Run.Ends _ _ _ (okZero (lzEnd s))
    rw [lzEnd_ok hp, okZero_done]
    exact ⟨.inl rfl, ⟨_, _, rfl⟩, fun w k => lz_ok_idle rfl ((lzMoves_close s).2.2.2 w (lz_ok_ranged k)), rfl⟩
  case lzDecodeP =>
    refine okZero_ends ((lzDecodeP_ends (idle _ h)).mono (fun _ _ k => k) (fun f u k => (⟨?_, k.2⟩ : _ ∧ _)) id)
      fun u k => ⟨.inl rfl, k⟩
    rcases k.1 with e | e | e | e <;> rw [e] <;> exact ⟨rfl, nofun⟩
  case lzDecodeB =>
    refine okZero_ends ((lzDecodeB_ends (idle _ h)).mono (fun _ _ k => k) (fun f u k => (⟨?_, k.2⟩ : _ ∧ _)) id)
      fun u k => ⟨.inl rfl, k⟩
    rcases k.1 with e | e | e | e | e | e <;> rw [e] <;> exact ⟨rfl, nofun⟩

/-- All a command but `SYS.RESET` can do. -/
theorem exec_cases {i : Instr} {s t : State} (hi : i ≠ .sysReset) (h : exec i s = .next t) :
    (s.fatal = true ∧ t = s.answerFailure .fatal) ∨
    (s.fatal = false ∧ violates i s = true ∧ t = State.answerFailure { s with fatal := true } .fatal) ∨
    (s.fatal = false ∧ violates i s = false ∧
      ((∃ r u, goodFor i r ∧ Moves i true s u ∧ t = u.answer r) ∨
        (∃ f u, mayFail i f = true ∧ f ≠ .fatal ∧ Moves i false s u ∧ t = u.answerFailure f))) := by
  rw [exec_eq_command hi, command_next] at h
  rcases h with ⟨hf, rfl⟩ | ⟨hf, h⟩
  · exact .inl ⟨hf, rfl⟩
  · refine .inr ?_
    cases hv : violates i s with
    | true =>
      rw [body_of_violates hv] at h
      exact .inl ⟨hf, rfl, by cases h; rfl⟩
    | false =>
      have hb := body_ends hv
      rcases outcome_next.mp h with ⟨r, u, hr, rfl⟩ | ⟨f, u, hr, rfl⟩
      · have := hb.of_done hr
        exact .inr ⟨hf, rfl, .inl ⟨r, u, this.1, this.2, rfl⟩⟩
      · have := hb.of_raised hr
        exact .inr ⟨hf, rfl, .inr ⟨f, u, this.1.1, this.1.2, this.2, rfl⟩⟩

end Sys2Proof.Machine
end

