-- ==== Sys2Proof/Laws/Quiet.lean ====
section
/-! SUPPORT. What each step of the pseudocode leaves in the output channel (20_memory R62): a read writes nothing to it, and no command
takes back a byte it has accepted. -/

namespace Sys2Proof.Machine

variable {α β : Type}

/-- However the piece ends, the output channel's content is what it was. -/
abbrev Quiet (s : State) (r : Run α) : Prop := r.Ends (fun _ t => t.output = s.output) (fun _ t => t.output = s.output) True

theorem Quiet.andThen {s : State} {r : Run α} {k : α → State → Run β} (h : Quiet s r) (hk : ∀ a t, Quiet t (k a t)) :
    Quiet s (r.andThen k) := by
  cases r with
  | done a t =>
    have ht : t.output = s.output := h
    have := hk a t
    unfold Quiet at this
    rw [ht] at this
    exact this
  | raised f t => exact h
  | hung x => trivial

theorem quiet_done (s t : State) (a : α) (h : t.trace = s.trace) : Quiet s (.done a t) := by
  show t.output = s.output
  simp [State.output, h]

theorem quiet_raised (s t : State) (f : Failure) (h : t.trace = s.trace) : Quiet s (.raised f t : Run α) := by
  show t.output = s.output
  simp [State.output, h]

theorem quiet_readBit (s : State) : Quiet s (readBit s) := by
  unfold readBit tryFill
  split
  · rw [andThen_assoc]
    unfold chanRead
    split <;> first | exact trivial | simp [takeBit, State.output, acceptedBytes]
  · exact quiet_done _ _ _ rfl

theorem quiet_readBits (n : Nat) (s : State) : Quiet s (readBits n s) := by
  induction n generalizing s with
  | zero => exact quiet_done _ _ _ rfl
  | succ n ih => exact (quiet_readBit s).andThen fun _ t => (ih t).andThen fun _ u => quiet_done _ _ _ rfl

theorem quiet_readTableHeader (s : State) : Quiet s (readTableHeader s) := by
  unfold readTableHeader
  iterate 7 refine (quiet_readBits _ _).andThen fun _ _ => ?_
  exact quiet_done _ _ _ rfl

theorem quiet_loadEntries (h : TableHeader) (k floor : Nat) (s : State) : Quiet s (loadEntries h k floor s) := by
  induction k generalizing floor s with
  | zero => exact quiet_done _ _ _ rfl
  | succ k ih =>
    unfold loadEntries
    iterate 3 refine (quiet_readBits _ _).andThen fun _ _ => ?_
    dsimp only
    split
    · exact (ih _ _).mono (fun _ _ h => h) (fun _ _ h => h) id
    · exact quiet_raised _ _ _ rfl

/-- `CT.LOAD` writes nothing to the output channel (41_code_table R172). -/
theorem quiet_ctLoad (s : State) : Quiet s (ctLoad s) := by
  unfold ctLoad
  split
  · exact quiet_raised _ _ _ rfl
  · refine Quiet.andThen (Run.Ends.onRaise ?_ fun f t h => h) fun _ _ => quiet_done _ _ _ rfl
    unfold loadTable
    refine Quiet.andThen ((quiet_readTableHeader _).mono (fun _ _ h => h) (fun _ _ h => h) id) fun h t => ?_
    split
    · exact (quiet_loadEntries _ _ _ _).andThen fun _ _ => quiet_done _ _ _ rfl
    · exact quiet_raised _ _ _ rfl

/-- `RL.BEGIN` writes nothing to the output channel (42_rle R191). -/
theorem quiet_rlBegin (s : State) : Quiet s (rlBegin s) := by
  unfold rlBegin
  split
  · exact quiet_raised _ _ _ rfl
  · refine Quiet.andThen (Run.Ends.onRaise (Q := fun _ t => t.output = s.output) ?_ fun f t h => h) fun _ _ => quiet_done _ _ _ rfl
    unfold readRleHeader
    iterate 5 refine (quiet_readBits _ _).andThen fun _ _ => ?_
    split
    · exact quiet_raised _ _ _ rfl
    · exact quiet_done _ _ _ rfl

/-- Channel accesses of the block take nothing out of the output channel (20_memory R62). -/
theorem ChanMoves.output {s t : State} (h : ChanMoves s t) : s.output <+: t.output := by
  obtain ⟨evs, h1, -, -, h4⟩ := h
  unfold State.output
  rw [h1]
  suffices ∀ l : List ChanEvent, l.all ChanEvent.byBlock = true → acceptedBytes s.trace <:+ acceptedBytes (l ++ s.trace) by
    obtain ⟨x, hx⟩ := this evs.reverse (by simpa using h4)
    exact ⟨x.reverse, by rw [← List.reverse_append, hx]⟩
  intro l
  induction l with
  | nil => intro _; exact List.suffix_rfl
  | cons e l ih =>
    intro hl
    simp only [List.all_cons, Bool.and_eq_true] at hl
    have := ih hl.2
    cases e with
    | read => simpa [acceptedBytes] using this
    | write w b acc =>
      cases acc
      · simpa [acceptedBytes] using this
      · simp only [List.cons_append, acceptedBytes]; exact this.trans (List.suffix_cons _ _)
    | attachedInput => simp [ChanEvent.byBlock] at hl
    | attachedOutput => simp [ChanEvent.byBlock] at hl

end Sys2Proof.Machine
end

