-- ==== Sys2Proof/Laws/Commands.lean ====
section
/-! SUPPORT. From the pseudocode of a command to what `exec` answers, and the frame of every command. -/

namespace Sys2Proof.Machine

open Sys2Proof.Wire

/-- The pseudocode of a command that is no contract violation leaves `fatal` alone. -/
theorem moves_fatal {i g s u} (hi : i ≠ .sysReset) (h : Moves i g s u) : u.fatal = s.fatal := by
  cases i <;> simp only [Moves] at h
  case sysReset => exact (hi rfl).elim
  case rlEnd => rw [h]; rfl
  case hfBegin | hfBit | hfEnd | lzBegin | lzEnd => obtain ⟨⟨v, n, rfl⟩, -⟩ := h; rfl
  case ctLoad | rlBegin | rlPair | rlDecode | hfDecode | lzDecodeP | lzDecodeB => rw [h.1.1]
  all_goals rw [h.1]

/-- And it moves the channels only forward. -/
theorem moves_chan {i g s u} (hi : i ≠ .sysReset) (h : Moves i g s u) : ChanMoves s u := by
  cases i <;> simp only [Moves] at h
  case sysReset => exact (hi rfl).elim
  case rlEnd => rw [h]; exact (ChanMoves.refl s).congr rfl rfl rfl
  case hfBegin | hfBit | hfEnd | lzBegin | lzEnd => obtain ⟨⟨v, n, rfl⟩, -⟩ := h; exact (ChanMoves.refl s).congr rfl rfl rfl
  case ctLoad | rlBegin | rlPair | rlDecode | hfDecode | lzDecodeP | lzDecodeB => exact h.1.2.1
  case lzPut => exact h.2.1
  all_goals exact h.2.1

/-- All a command but `SYS.RESET` leaves: a state within its frame, or the same block. -/
theorem exec_frame {i s t} (hi : i ≠ .sysReset) (h : exec i s = .next t) :
   ∃ g u, (Moves i g s u ∨ u = s) ∧ t = { u with result := t.result, fatal := s.fatal || violates i s, draws := t.draws } := by
  rcases exec_cases hi h with ⟨h0, rfl⟩ | ⟨h0, h1, rfl⟩ | ⟨h0, h1, ⟨r', u, h2, h3, rfl⟩ | ⟨f, u, h2, h3, h4, rfl⟩⟩
  · refine ⟨true, s, .inr rfl, ?_⟩; simp [State.answerFailure, h0]
  · refine ⟨true, s, .inr rfl, ?_⟩; simp [State.answerFailure, h0, h1]
  · refine ⟨true, u, .inl h3, ?_⟩
    have := moves_fatal hi h3
    rw [h1, Bool.or_false, ← this]; rfl
  · refine ⟨false, u, .inl h4, ?_⟩
    have := moves_fatal hi h4
    rw [h1, Bool.or_false, ← this]; rfl

/-- A command whose pseudocode writes nothing leaves the output as it was. -/
theorem exec_quiet {i s t} (hi : i ≠ .sysReset) (h : exec i s = .next t) (hq : Quiet s (bodyOf i s)) : t.output = s.output := by
  rw [exec_eq_command hi, command_next] at h
  rcases h with ⟨-, rfl⟩ | ⟨-, h⟩
  · rfl
  · rcases outcome_next.mp h with ⟨r, u, hr, rfl⟩ | ⟨f, u, hr, rfl⟩
    · have := hq.of_done hr; exact this
    · have := hq.of_raised hr; exact this

/-- `okWith` writes nothing. -/
theorem quiet_okWith {s : State} {r : Run Word} (h : Quiet s r) : Quiet s (okWith r) := h.andThen fun _ _ => quiet_done _ _ _ rfl

/-- `okZero` writes nothing. -/
theorem quiet_okZero {s : State} {r : Run Unit} (h : Quiet s r) : Quiet s (okZero r) := h.andThen fun _ _ => quiet_done _ _ _ rfl

/-- A command whose pseudocode runs to its end answers its result. -/
theorem exec_ok {i s r u} (hi : i ≠ .sysReset) (hf : s.fatal = false) (h : bodyOf i s = .done r u) : exec i s = .next (u.answer r) := by
  rw [exec_eq_command hi, command_of_not_fatal _ hf, h]; rfl

/-- A command whose pseudocode raises a failure answers it. -/
theorem exec_raise {i s f u} (hi : i ≠ .sysReset) (hf : s.fatal = false) (h : bodyOf i s = .raised f u) : exec i s = .next (u.answerFailure f) := by
  rw [exec_eq_command hi, command_of_not_fatal _ hf, h]; rfl

/-- The same, with the unspecified `val` left open (60_exceptions R300). -/
theorem raise_fails {i s f u} (hi : i ≠ .sysReset) (hf : s.fatal = false) (h : bodyOf i s = .raised f u) : FailsWith f u (exec i s) :=
  ⟨_, _, exec_raise hi hf h⟩

/-- One command more in front of a sequence. -/
theorem execResults_cons {i is s t r rs u} (h : exec i s = .next t) (hr : t.result = some r) (h2 : execResults is t = some (rs, u)) :
    execResults (i :: is) s = some (r :: rs, u) := by
  simp [execResults, h, hr, h2]

/-- Two sequences one after the other. -/
theorem execResults_append {is js s rs t qs u} (h : execResults is s = some (rs, t)) (h2 : execResults js t = some (qs, u)) :
    execResults (is ++ js) s = some (rs ++ qs, u) := by
  induction is generalizing s rs with
  | nil => simp [execResults] at h; obtain ⟨rfl, rfl⟩ := h; exact h2
  | cons i is ih =>
    unfold execResults at h
    split at h
    · rename_i t' ht
      split at h
      · rename_i r rs' u' hr hu
        simp at h
        obtain ⟨rfl, rfl⟩ := h
        exact execResults_cons ht hr (ih hu)
      · cases h
    · cases h
    · cases h

end Sys2Proof.Machine
end

