-- ==== Sys2Proof/Laws/Streams.lean ====
section
/-! SUPPORT. The parsers on streams in their wire formats (30_encoding R101 to R106): what each loop does where the bits it reads are
there and the output channel accepts. -/

namespace Sys2Proof.Machine

open Sys2Proof.Wire

/-! ### The code table (41_code_table R170) -/

/-- The table after the entries have been stored in order. -/
def storeEntries (ct : CodeTable) (es : List Entry) : CodeTable :=
  es.foldl (fun ct e => ct.setIfInBounds e.value ⟨BitVec.ofNat 32 e.code, Fin.ofNat 33 e.length⟩) ct

theorem storeEntries_getElem {es : List Entry} (hd : es.Pairwise fun a b => a.value < b.value) (ct : CodeTable) (v : Nat)
    (hv : v < 256) : (storeEntries ct es)[v] = match es.find? (fun e => e.value == v) with
      | some e => ⟨BitVec.ofNat 32 e.code, Fin.ofNat 33 e.length⟩
      | none => ct[v] := by
  induction es generalizing ct with
  | nil => rfl
  | cons e es ih =>
    rw [List.pairwise_cons] at hd
    have := ih hd.2 (ct.setIfInBounds e.value ⟨BitVec.ofNat 32 e.code, Fin.ofNat 33 e.length⟩)
    rw [storeEntries, List.foldl_cons, ← storeEntries, this, List.find?_cons]
    by_cases he : e.value = v
    · have hnone : es.find? (fun e => e.value == v) = none := by
        rw [List.find?_eq_none]
        intro x hx
        have := hd.1 x hx
        simp; omega
      simp [he, hnone]
    · have hb : (e.value == v) = false := by simpa using he
      simp only [hb]
      cases es.find? (fun e => e.value == v) with
      | some x => rfl
      | none => simp [he]

theorem storeEntries_empty {es : List Entry} (hd : es.Pairwise fun a b => a.value < b.value) :
    storeEntries emptyTable es = tableOf es := by
  apply Vector.ext
  intro v hv
  rw [storeEntries_getElem hd, tableOf, Vector.getElem_ofFn, entryFor]
  cases es.find? (fun e => e.value == v) with
  | some x => rfl
  | none => simp [emptyTable]

/-- A field read where it is there: its value, the state after it, and the bits that are left. -/
theorem readBits_value {n v : Nat} {s : State} {rest : List Bool} (hv : v < 2 ^ n) (h : s.bitsAhead = fieldBits n v ++ rest) :
    readBits n s = .done v (s.afterRead n) ∧ (s.afterRead n).bitsAhead = rest ∧ n ≤ s.bitsAhead.length := by
  obtain ⟨h1, h2⟩ := readBits_field h (fieldBits_length n v)
  rw [fieldValue_fieldBits_of_lt hv] at h1
  exact ⟨h1, h2, by rw [h]; simp⟩

/-- The next field, some bits into the stream. -/
theorem readBits_next {k n v : Nat} {s : State} {rest : List Bool} (hk : k ≤ s.bitsAhead.length) (hv : v < 2 ^ n)
    (h : (s.afterRead k).bitsAhead = fieldBits n v ++ rest) :
    readBits n (s.afterRead k) = .done v (s.afterRead (k + n)) ∧ (s.afterRead (k + n)).bitsAhead = rest ∧
      k + n ≤ s.bitsAhead.length := by
  obtain ⟨h1, h2, h3⟩ := readBits_value hv h
  have hd := (readBits_ok hk).2
  rw [afterRead_afterRead hk] at h1 h2
  refine ⟨h1, h2, ?_⟩
  rw [hd, List.length_drop] at h3; omega

/-- A header whose fields fit their widths is read whole, whatever they say (30_encoding R101). -/
theorem readTableHeader_fields {h : TableHeader} {s : State} {rest : List Bool} (h1 : h.count < 2 ^ 32) (h2 : h.valueBits < 2 ^ 32)
    (h3 : h.codeBits < 2 ^ 32) (h4 : h.lengthBits < 2 ^ 32) (h5 : h.minValue < 2 ^ 8) (h6 : h.minCode < 2 ^ 32)
    (h7 : h.minLength < 2 ^ 32) (hb : s.bitsAhead = tableHeaderBits h ++ rest) :
    readTableHeader s = .done h (s.afterRead 200) ∧ (s.afterRead 200).bitsAhead = rest ∧ 200 ≤ s.bitsAhead.length := by
  simp only [tableHeaderBits, List.append_assoc] at hb
  obtain ⟨r1, b1, l1⟩ := readBits_value h1 hb
  obtain ⟨r2, b2, l2⟩ := readBits_next l1 h2 b1
  obtain ⟨r3, b3, l3⟩ := readBits_next l2 h3 b2
  obtain ⟨r4, b4, l4⟩ := readBits_next l3 h4 b3
  obtain ⟨r5, b5, l5⟩ := readBits_next l4 h5 b4
  obtain ⟨r6, b6, l6⟩ := readBits_next l5 h6 b5
  obtain ⟨r7, b7, l7⟩ := readBits_next l6 h7 b6
  refine ⟨?_, b7, l7⟩
  unfold readTableHeader
  rw [r1, done_andThen, r2, done_andThen, r3, done_andThen, r4, done_andThen, r5, done_andThen, r6, done_andThen, r7, done_andThen]

theorem readTableHeader_ok {h : TableHeader} {s : State} {rest : List Bool} (hf : headerFits h = true)
    (hb : s.bitsAhead = tableHeaderBits h ++ rest) :
    readTableHeader s = .done h (s.afterRead 200) ∧ (s.afterRead 200).bitsAhead = rest ∧ 200 ≤ s.bitsAhead.length := by
  simp only [headerFits, Bool.and_eq_true, decide_eq_true_eq] at hf
  exact readTableHeader_fields (by omega) (by omega) (by omega) (by omega) (by omega) (by omega) (by omega) hb

/-- A header that fits is accepted (41_code_table R171, checks 1 and 2). -/
theorem accepted_of_fits {h : TableHeader} (hf : headerFits h = true) : h.accepted = true := by
  simp only [headerFits, Bool.and_eq_true, decide_eq_true_eq, and_assoc] at hf
  simp only [TableHeader.accepted, Bool.and_eq_true, decide_eq_true_eq]
  exact ⟨hf.1, hf.2.2.2.2.2.2.2⟩

theorem entryBits_length (h : TableHeader) (e : Entry) : (entryBits h e).length = h.valueBits + h.codeBits + h.lengthBits := by
  simp [entryBits]; omega

/-- `last + 1` after some entries (41_code_table R170). -/
def floorAfter (floor : Nat) (es : List Entry) : Nat := es.foldl (fun _ e => e.value + 1) floor

theorem le_floorAfter {es : List Entry} {floor v : Nat} (hf : ∀ e ∈ es, floor ≤ e.value) (hd : es.Pairwise fun a b => a.value < b.value) :
    floorAfter floor es ≤ v ↔ floor ≤ v ∧ ∀ e ∈ es, e.value < v := by
  induction es generalizing floor with
  | nil => simp [floorAfter]
  | cons e es ih =>
    rw [List.pairwise_cons] at hd
    rw [floorAfter, List.foldl_cons, ← floorAfter, ih hd.1 hd.2]
    have := hf e (by simp)
    simp only [List.mem_cons, forall_eq_or_imp]
    constructor
    · rintro ⟨h1, h2⟩; exact ⟨by omega, by omega, h2⟩
    · rintro ⟨h1, h2, h3⟩; exact ⟨by omega, h3⟩

/-- Good entries are loaded, and the loop goes on after them (41_code_table R170). -/
theorem loadEntries_more {h : TableHeader} {es : List Entry} {floor k : Nat} {s : State} {rest : List Bool}
    (hok : ∀ e ∈ es, e.legal = true ∧ e.fits h = true ∧ floor ≤ e.value) (hd : es.Pairwise fun a b => a.value < b.value)
    (hb : s.bitsAhead = es.flatMap (entryBits h) ++ rest) :
    loadEntries h (es.length + k) floor s = loadEntries h k (floorAfter floor es)
        { s.afterRead (es.flatMap (entryBits h)).length with ct := storeEntries s.ct es } ∧
      (s.afterRead (es.flatMap (entryBits h)).length).bitsAhead = rest := by
  induction es generalizing floor s with
  | nil => simpa [floorAfter, storeEntries, afterRead_zero] using hb
  | cons e es ih =>
    obtain ⟨hl, hfit, hfl⟩ := hok e (by simp)
    simp only [Entry.legal, Entry.fits, Bool.and_eq_true, decide_eq_true_eq] at hl hfit
    rw [List.pairwise_cons] at hd
    simp only [List.flatMap_cons, entryBits, List.append_assoc] at hb
    obtain ⟨h1, b1, l1⟩ := readBits_value (by omega) hb
    obtain ⟨h2, b2, l2⟩ := readBits_next l1 (by omega) b1
    obtain ⟨h3, b3, l3⟩ := readBits_next l2 (by omega) b2
    have b3' : (setEntry e.value e.code e.length (s.afterRead (h.valueBits + h.codeBits + h.lengthBits))).bitsAhead =
        es.flatMap (entryBits h) ++ rest := b3
    obtain ⟨h4, b4⟩ := ih (floor := e.value + 1)
      (fun x hx => ⟨(hok x (by simp [hx])).1, (hok x (by simp [hx])).2.1, hd.1 x hx⟩) hd.2 b3'
    have hv : h.minValue + (e.value - h.minValue) = e.value := by omega
    have hc : h.minCode + (e.code - h.minCode) = e.code := by omega
    have hln : h.minLength + (e.length - h.minLength) = e.length := by omega
    have hacc : entryAccepted floor e.value e.code e.length = true := by
      rw [entryAccepted_iff]; omega
    have e3 : (s.afterRead (h.valueBits + h.codeBits + h.lengthBits)).afterRead (es.flatMap (entryBits h)).length =
        s.afterRead ((e :: es).flatMap (entryBits h)).length := by
      rw [afterRead_afterRead l3]; simp [entryBits_length]
    constructor
    · rw [List.length_cons, Nat.succ_add, loadEntries, h1, done_andThen, h2, done_andThen, h3, done_andThen]
      simp only [hv, hc, hln, hacc, if_true]
      rw [h4, ← e3]
      rfl
    · rw [← e3]; exact b4

/-- `CT.LOAD` on a serialised table (41_code_table R170). -/
theorem ctLoad_ok {h : TableHeader} {es : List Entry} {s : State} {rest : List Bool} (hp : s.hf.phase = .idle) (ht : TableOk h es)
    (hb : s.bitsAhead = tableBits h es ++ rest) :
    ctLoad s = .done (BitVec.ofNat 32 es.length)
        { s.afterRead (tableBits h es).length with ct := tableOf es, ctValid := true } ∧
      (s.afterRead (tableBits h es).length).bitsAhead = rest := by
  obtain ⟨hf, hcount, hes, hd⟩ := ht
  rw [tableBits, List.append_assoc] at hb
  obtain ⟨h1, b1, l1⟩ := readTableHeader_ok (s := { s with ct := emptyTable, ctValid := false }) hf hb
  have hacc := accepted_of_fits hf
  obtain ⟨h2, b2⟩ := loadEntries_more (k := 0) (floor := 0) (fun e he => ⟨(hes e he).1, (hes e he).2, Nat.zero_le _⟩) hd b1
  have e1 : (s.afterRead 200).afterRead (es.flatMap (entryBits h)).length = s.afterRead (tableBits h es).length := by
    rw [afterRead_afterRead (s := s) l1]
    congr 1
    simp [tableBits, tableHeaderBits]; omega
  constructor
  · unfold ctLoad loadTable
    rw [if_neg (by simp [hp]), h1, done_andThen, if_pos hacc, hcount]
    rw [Nat.add_zero] at h2
    rw [h2, loadEntries]
    simp only [done_andThen, done_onRaise]
    rw [← e1, ← storeEntries_empty hd]
    rfl
  · rw [← e1]; exact b2

/-! ### What flowed (20_memory R62, R64) -/

theorem afterRead_input_congr {s t : State} (n : Nat) (h1 : t.input = s.input) (h2 : t.rd = s.rd) :
    (t.afterRead n).input = (s.afterRead n).input ∧ (t.afterRead n).rd = (s.afterRead n).rd := by
  simp [State.afterRead, h1, h2]

theorem bitsAhead_congr {s t : State} (h1 : t.input = s.input) (h2 : t.rd = s.rd) : t.bitsAhead = s.bitsAhead := by
  simp [State.bitsAhead, h1, h2]

theorem output_congr {s t : State} (h : t.trace = s.trace) : t.output = s.output := by simp [State.output, h]

theorem Flows.refl (s : State) : Flows s 0 [] s := by
  refine ⟨?_, ?_, rfl, (List.append_nil _).symm⟩ <;> rw [afterRead_zero]

theorem Flows.congr {s t u : State} {n : Nat} {bs : List Byte} (h : Flows s n bs t) (h1 : u.input = t.input) (h2 : u.rd = t.rd)
    (h3 : u.sink = t.sink) (h4 : u.trace = t.trace) : Flows s n bs u :=
  ⟨h1.trans h.1, h2.trans h.2.1, h3.trans h.2.2.1, (output_congr h4).trans h.2.2.2⟩

theorem Flows.congr_left {s t u : State} {n : Nat} {bs : List Byte} (h : Flows s n bs t) (h1 : u.input = s.input) (h2 : u.rd = s.rd)
    (h3 : u.sink = s.sink) (h4 : u.trace = s.trace) : Flows u n bs t := by
  obtain ⟨e1, e2⟩ := afterRead_input_congr n h1 h2
  exact ⟨h.1.trans e1.symm, h.2.1.trans e2.symm, by rw [h.2.2.1, h3], by rw [h.2.2.2, output_congr h4]⟩

theorem Flows.bitsAhead {s t : State} {n : Nat} {bs : List Byte} (h : Flows s n bs t) (hn : n ≤ s.bitsAhead.length) :
    t.bitsAhead = s.bitsAhead.drop n := by
  rw [bitsAhead_congr h.1 h.2.1, (readBits_ok hn).2]

theorem Flows.trans {s t u : State} {m n : Nat} {as bs : List Byte} (h : Flows s m as t) (h' : Flows t n bs u)
    (hm : m ≤ s.bitsAhead.length) : Flows s (m + n) (as ++ bs) u := by
  obtain ⟨e1, e2⟩ := afterRead_input_congr n h.1 h.2.1
  rw [afterRead_afterRead hm] at e1 e2
  exact ⟨h'.1.trans e1, h'.2.1.trans e2, by rw [h'.2.2.1, h.2.2.1, List.drop_drop, List.length_append],
    by rw [h'.2.2.2, h.2.2.2, List.append_assoc]⟩

theorem flows_read (s : State) (n : Nat) : Flows s n [] (s.afterRead n) :=
  ⟨rfl, rfl, rfl, by rw [output_afterRead, List.append_nil]⟩

theorem flows_bytes (s : State) (bs : List Byte) : Flows s 0 bs (s.afterBytes bs) := by
  refine ⟨?_, ?_, rfl, output_afterBytes s bs⟩ <;> rw [afterRead_zero] <;> rfl

/-- `CT.LOAD` past a header and entries that pass every check (41_code_table R171). -/
theorem ctLoad_more {h : TableHeader} {es : List Entry} {s : State} {rest : List Bool} (hp : s.hf.phase = .idle)
    (hf : headerFits h = true) {k : Nat} (hk : h.count = es.length + k) (hes : ∀ e ∈ es, e.legal = true ∧ e.fits h = true)
    (hd : es.Pairwise fun a b => a.value < b.value) (hb : s.bitsAhead = tableBits h es ++ rest) :
    ∃ s1, (s1.input = (s.afterRead (tableBits h es).length).input ∧ s1.rd = (s.afterRead (tableBits h es).length).rd ∧
        s1.sink = s.sink ∧ s1.output = s.output ∧ s1.ctValid = false) ∧ s1.bitsAhead = rest ∧
      ctLoad s = (((loadEntries h k (floorAfter 0 es) s1).andThen fun _ s => .done h.count s).onRaise forgetTable).andThen
        fun count s => .done (BitVec.ofNat 32 count) { s with ctValid := true } := by
  rw [tableBits, List.append_assoc] at hb
  obtain ⟨h1, b1, l1⟩ := readTableHeader_ok (s := { s with ct := emptyTable, ctValid := false }) hf hb
  obtain ⟨h2, b2⟩ := loadEntries_more (k := k) (floor := 0) (fun e he => ⟨(hes e he).1, (hes e he).2, Nat.zero_le _⟩) hd b1
  have e1 : (s.afterRead 200).afterRead (es.flatMap (entryBits h)).length = s.afterRead (tableBits h es).length := by
    rw [afterRead_afterRead (s := s) l1]
    congr 1
    simp [tableBits, tableHeaderBits]; omega
  refine ⟨{ (({ s with ct := emptyTable, ctValid := false } : State).afterRead 200).afterRead (es.flatMap (entryBits h)).length with
    ct := storeEntries emptyTable es }, ⟨?_, ?_, rfl, ?_, rfl⟩, b2, ?_⟩
  · rw [← e1]; rfl
  · rw [← e1]; rfl
  · show ((s.afterRead 200).afterRead (es.flatMap (entryBits h)).length).output = _
    rw [output_afterRead, output_afterRead]
  · unfold ctLoad loadTable
    rw [if_neg (by simp [hp]), h1, done_andThen, if_pos (accepted_of_fits hf), hk, h2]
    rfl

/-! ### RLE (42_rle R191 to R194) -/

theorem readRleHeader_ok {h : RleHeader} {total : Nat} {s : State} {rest : List Bool} (ho : h.ok = true) (ht : total < 2 ^ 32)
    (hb : s.bitsAhead = rleHeaderBits h total ++ rest) :
    readRleHeader s = .done (h.unit total) (s.afterRead 64) ∧ (s.afterRead 64).bitsAhead = rest ∧ 64 ≤ s.bitsAhead.length := by
  simp only [RleHeader.ok, Bool.and_eq_true, decide_eq_true_eq] at ho
  simp only [rleHeaderBits, List.append_assoc] at hb
  obtain ⟨h1, b1, l1⟩ := readBits_value (by omega) hb
  obtain ⟨h2, b2, l2⟩ := readBits_next l1 (by omega) b1
  obtain ⟨h3, b3, l3⟩ := readBits_next l2 (by omega) b2
  obtain ⟨h4, b4, l4⟩ := readBits_next l3 (by omega) b3
  obtain ⟨h5, b5, l5⟩ := readBits_next l4 (by omega) b4
  refine ⟨?_, b5, l5⟩
  unfold readRleHeader
  rw [h1, done_andThen, h2, done_andThen, h3, done_andThen, h4, done_andThen, h5, done_andThen, if_neg (by omega)]
  rfl

theorem vbits_lt {h : RleHeader} (ho : h.ok = true) : h.vbits ≤ 8 ∧ h.rbits ≤ 8 := by
  simp only [RleHeader.ok, Bool.and_eq_true, decide_eq_true_eq] at ho
  exact ⟨bitwidth_le (by omega) (by omega), bitwidth_le (by omega) (by omega)⟩

theorem unit_pairBits {h : RleHeader} (ho : h.ok = true) (left : Nat) : (h.unit left).pairBits = h.vbits + h.rbits := by
  have := vbits_lt ho
  simp only [RleUnit.pairBits, RleHeader.unit, Fin.ofNat]
  rw [Nat.mod_eq_of_lt (by omega), Nat.mod_eq_of_lt (by omega)]

theorem rleBegin_flows {h : RleHeader} {total : Nat} {s : State} {rest : List Bool} (hp : s.rl.phase = .idle) (ho : h.ok = true)
    (ht : total < 2 ^ 32) (hb : s.bitsAhead = rleHeaderBits h total ++ rest) :
    rlBegin s = .done (BitVec.ofNat 32 total) { s.afterRead 64 with rl := h.unit total } := by
  unfold rlBegin
  rw [if_neg (by simp [hp]), (readRleHeader_ok ho ht hb).1]
  rfl

/-- A pair the header's ranges hold (42_rle R192). -/
theorem rlPair_ok {h : RleHeader} {p : Nat × Nat} {left : Nat} {s : State} {rest : List Bool} (ho : h.ok = true)
    (hp : h.holds p = true) (hs : s.rl = h.unit left) (hl : h.vbits + h.rbits ≤ left) (hlt : left < 2 ^ 32)
    (hb : s.bitsAhead = pairBits h p ++ rest) (hk : sinkAccepts p.2 s.sink = true) :
    rlPair s = .done (BitVec.ofNat 32 (p.1 ||| p.2 <<< 8))
      { (s.afterRead (h.vbits + h.rbits)).afterBytes (List.replicate p.2 (BitVec.ofNat 8 p.1)) with
        rl := h.unit (left - (h.vbits + h.rbits)) } := by
  have hw := vbits_lt ho
  have ho' := ho
  simp only [RleHeader.ok, Bool.and_eq_true, decide_eq_true_eq] at ho
  simp only [RleHeader.holds, Bool.and_eq_true, decide_eq_true_eq] at hp
  simp only [pairBits, List.append_assoc] at hb
  have hv := lt_two_pow_bitwidth (h.maxV - h.minV)
  have hr := lt_two_pow_bitwidth (h.maxR - h.minR)
  have hv' : p.1 - h.minV < 2 ^ h.vbits := by unfold RleHeader.vbits; omega
  have hr' : p.2 - h.minR < 2 ^ h.rbits := by unfold RleHeader.rbits; omega
  obtain ⟨h1, b1, l1⟩ := readBits_value hv' hb
  obtain ⟨h2, b2, l2⟩ := readBits_next l1 hr' b1
  have hvb : (s.rl.vbits).val = h.vbits := by rw [hs]; exact Nat.mod_eq_of_lt (by omega)
  have hrb : (s.rl.rbits).val = h.rbits := by rw [hs]; exact Nat.mod_eq_of_lt (by omega)
  have hpb : s.rl.pairBits = h.vbits + h.rbits := by rw [hs, unit_pairBits ho']
  have hleft : s.rl.left.toNat = left := by rw [hs]; exact Nat.mod_eq_of_lt hlt
  have hminV : s.rl.minV.toNat = h.minV := by rw [hs]; exact Nat.mod_eq_of_lt (by omega)
  have hmaxV : s.rl.maxV.toNat = h.maxV := by rw [hs]; exact Nat.mod_eq_of_lt (by omega)
  have hminR : s.rl.minR.toNat = h.minR := by rw [hs]; exact Nat.mod_eq_of_lt (by omega)
  have hmaxR : s.rl.maxR.toNat = h.maxR := by rw [hs]; exact Nat.mod_eq_of_lt (by omega)
  have hphase : s.rl.phase = .active := by rw [hs]; rfl
  have hrl : ∀ n, (s.afterRead n).rl = s.rl := fun _ => rfl
  have e1 : h.minV + (p.1 - h.minV) = p.1 := by omega
  have e2 : h.minR + (p.2 - h.minR) = p.2 := by omega
  have hunit : ({ s.rl with left := BitVec.ofNat 32 (left - (h.vbits + h.rbits)) } : RleUnit) =
      h.unit (left - (h.vbits + h.rbits)) := by rw [hs]; rfl
  unfold rlPair rlPairStep
  rw [if_neg (by simp [hphase]), hleft, hpb, if_neg (by omega), hvb, h1, done_andThen]
  rw [show (s.afterRead h.vbits).rl.rbits = s.rl.rbits from rfl, hrb, h2, done_andThen]
  simp only [hrl, hleft, hpb, hminV, hmaxV, hminR, hmaxR, e1, e2, hunit]
  rw [if_neg (by omega), emitAll_ok (by simpa using hk)]
  rfl

theorem rlLoop_ok {h : RleHeader} {ps : List (Nat × Nat)} {k : Nat} {s : State} {rest : List Bool} (ho : h.ok = true)
    (hps : ∀ p ∈ ps, h.holds p = true) (hs : s.rl = h.unit (ps.length * (h.vbits + h.rbits)))
    (hlt : ps.length * (h.vbits + h.rbits) < 2 ^ 32) (hk : ps.length ≤ k)
    (hb : s.bitsAhead = ps.flatMap (pairBits h) ++ rest) (ha : sinkAccepts (rleBytes ps).length s.sink = true) :
    ∃ t, rlLoop k s = .done () t ∧ Flows s (ps.flatMap (pairBits h)).length (rleBytes ps) t ∧ t.rl = h.unit 0 := by
  induction ps generalizing k s with
  | nil =>
    refine ⟨s, ?_, .refl s, by simpa using hs⟩
    have hz : s.rl.left = 0 := by rw [hs]; simp [RleHeader.unit]
    cases k <;> simp [rlLoop, hz]
  | cons p ps ih =>
    have hw : 1 ≤ h.vbits := bitwidth_pos _
    have hmul : (p :: ps).length * (h.vbits + h.rbits) = ps.length * (h.vbits + h.rbits) + (h.vbits + h.rbits) := by
      rw [List.length_cons, Nat.succ_mul]
    rw [hmul] at hs hlt
    cases k with
    | zero => simp at hk
    | succ k =>
      have hb' : s.bitsAhead = pairBits h p ++ (ps.flatMap (pairBits h) ++ rest) := by rw [hb]; simp
      have hbytes : rleBytes (p :: ps) = List.replicate p.2 (BitVec.ofNat 8 p.1) ++ rleBytes ps := rfl
      rw [hbytes, List.length_append, List.length_replicate] at ha
      have hpair := rlPair_ok ho (hps p (by simp)) hs (by omega) hlt hb' (sinkAccepts_mono ha (by omega))
      rw [Nat.add_sub_cancel] at hpair
      have hplen : (pairBits h p).length = h.vbits + h.rbits := by simp [pairBits]
      have hle : h.vbits + h.rbits ≤ s.bitsAhead.length := by rw [hb', List.length_append, hplen]; omega
      generalize ht : ({ (s.afterRead (h.vbits + h.rbits)).afterBytes (List.replicate p.2 (BitVec.ofNat 8 p.1)) with
        rl := h.unit (ps.length * (h.vbits + h.rbits)) } : State) = t at hpair
      have hf : Flows s (h.vbits + h.rbits) (List.replicate p.2 (BitVec.ofNat 8 p.1)) t := by
        have := (flows_read s (h.vbits + h.rbits)).trans (flows_bytes _ (List.replicate p.2 (BitVec.ofNat 8 p.1))) hle
        rw [← ht]
        exact this.congr rfl rfl rfl rfl
      have hbt : t.bitsAhead = ps.flatMap (pairBits h) ++ rest := by
        rw [hf.bitsAhead hle, hb', ← hplen, List.drop_left]
      have hst : sinkAccepts (rleBytes ps).length t.sink = true := by
        rw [hf.2.2.1, List.length_replicate]; exact sinkAccepts_drop ha
      obtain ⟨u, hu, hfu, hlu⟩ := ih (k := k) (fun q hq => hps q (by simp [hq])) (by rw [← ht]) (by omega)
        (by simp at hk; omega) hbt hst
      refine ⟨u, ?_, ?_, hlu⟩
      · have hne : s.rl.left ≠ 0 := by
          intro hz
          have h0 := congrArg BitVec.toNat hz
          have h1 : s.rl.left.toNat = ps.length * (h.vbits + h.rbits) + (h.vbits + h.rbits) := by
            rw [hs]; exact Nat.mod_eq_of_lt hlt
          rw [h1] at h0
          simp at h0
          omega
        rw [rlLoop, if_neg hne, hpair, done_andThen, hu]
      · have := hf.trans hfu hle
        rw [hbytes, List.flatMap_cons, List.length_append, hplen]
        exact this

/-- `RL.DECODE` on an RLE stream (42_rle R194). -/
theorem rlDecode_ok {h : RleHeader} {ps : List (Nat × Nat)} {s : State} {rest : List Bool} (hp : s.rl.phase = .idle)
    (ho : h.ok = true) (hps : ∀ p ∈ ps, h.holds p = true) (hlt : ps.length * (h.vbits + h.rbits) < 2 ^ 32)
    (hb : (brInit s).bitsAhead = rleBits h ps ++ rest) (ha : sinkAccepts (rleBytes ps).length s.sink = true) :
    ∃ t, rlDecode s = .done () t ∧ Flows (brInit s) (rleBits h ps).length (rleBytes ps) t := by
  have hb' : (brInit s).bitsAhead = rleHeaderBits h (ps.length * (h.vbits + h.rbits)) ++ (ps.flatMap (pairBits h) ++ rest) := by
    rw [hb, rleBits, List.append_assoc]
  obtain ⟨-, b1, l1⟩ := readRleHeader_ok ho hlt hb'
  have hbegin := rleBegin_flows (s := brInit s) hp ho hlt hb'
  generalize ht : ({ (brInit s).afterRead 64 with rl := h.unit (ps.length * (h.vbits + h.rbits)) } : State) = t at hbegin
  have hf : Flows (brInit s) 64 [] t := by rw [← ht]; exact (flows_read _ 64).congr rfl rfl rfl rfl
  have hbt : t.bitsAhead = ps.flatMap (pairBits h) ++ rest := by rw [bitsAhead_congr hf.1 hf.2.1]; exact b1
  have hrl : t.rl = h.unit (ps.length * (h.vbits + h.rbits)) := by rw [← ht]
  have hk : ps.length ≤ t.rl.left.toNat := by
    rw [hrl]
    simp only [RleHeader.unit, BitVec.toNat_ofNat]
    rw [Nat.mod_eq_of_lt hlt]
    have : 1 ≤ h.vbits := bitwidth_pos _
    exact Nat.le_mul_of_pos_right _ (by omega)
  have hst : sinkAccepts (rleBytes ps).length t.sink = true := by rw [hf.2.2.1]; exact ha
  obtain ⟨u, hu, hfu, hlu⟩ := rlLoop_ok ho hps hrl hlt hk hbt hst
  refine ⟨forgetRle u, ?_, ?_⟩
  · unfold rlDecode
    rw [if_neg (by simp [hp]), hbegin, done_andThen, hu]
    simp [rlEnd, hlu, RleHeader.unit]
  · have hall := hf.trans hfu l1
    have hlen : (rleBits h ps).length = 64 + (ps.flatMap (pairBits h)).length := by simp [rleBits, rleHeaderBits]; omega
    rw [hlen]
    exact hall.congr rfl rfl rfl rfl

end Sys2Proof.Machine
end

