-- ==== Sys2Proof/Laws/Agree.lean ====
section
/-! SUPPORT. Two runs side by side: the same piece of pseudocode from two states that agree ends the same way in states that agree. It
carries the whole-stream commands over to the host-driven sequences they stand for (30_encoding R96). -/

namespace Sys2Proof.Machine

variable {α β : Type}

/-- Both runs end alike: with the same value, the same status or the same hang, in states that `R` relates. -/
def Run.Rel (R : State → State → Prop) : Run α → Run α → Prop
  | .done a s, .done b t => a = b ∧ R s t
  | .raised f s, .raised g t => f = g ∧ R s t
  | .hung x, .hung y => x = y
  | _, _ => False

theorem Run.Rel.andThen {R : State → State → Prop} {r r' : Run α} {k k' : α → State → Run β} (h : r.Rel R r')
    (hk : ∀ a s t, R s t → (k a s).Rel R (k' a t)) : (r.andThen k).Rel R (r'.andThen k') := by
  cases r <;> cases r' <;> first | exact h.elim | skip
  case done.done a s b t => obtain ⟨rfl, h⟩ := h; exact hk a s t h
  all_goals exact h

theorem Run.Rel.onRaise {R : State → State → Prop} {r r' : Run α} {g g' : State → State} (h : r.Rel R r')
    (hg : ∀ s t, R s t → R (g s) (g' t)) : (r.onRaise g).Rel R (r'.onRaise g') := by
  cases r <;> cases r' <;> first | exact h.elim | exact h | exact ⟨h.1, hg _ _ h.2⟩

/-! ### States that differ in the last result and the draws alone -/

/-- The same state but for what the last command returned and how many free values have been drawn. -/
def Alike (s t : State) : Prop := ∃ r n, t = { s with result := r, draws := n }

theorem Alike.refl (s : State) : Alike s s := ⟨s.result, s.draws, rfl⟩

theorem Alike.answer {s t : State} (h : Alike s t) (r : Result) : Alike s (t.answer r) := by
  obtain ⟨x, n, rfl⟩ := h; exact ⟨_, n, rfl⟩

theorem Alike.answerFailure {s t : State} (h : Alike s t) (f : Failure) : Alike s (t.answerFailure f) := by
  obtain ⟨x, n, rfl⟩ := h; exact ⟨_, _, rfl⟩

theorem Alike.lz {s t : State} (h : Alike s t) : t.lz = s.lz := by obtain ⟨r, n, rfl⟩ := h; rfl

theorem Alike.rl {s t : State} (h : Alike s t) : t.rl = s.rl := by obtain ⟨r, n, rfl⟩ := h; rfl

theorem Alike.fatal {s t : State} (h : Alike s t) : t.fatal = s.fatal := by obtain ⟨r, n, rfl⟩ := h; rfl

theorem Alike.streams {s t : State} (h : Alike s t) : SameStreams s t := by obtain ⟨r, n, rfl⟩ := h; exact ⟨rfl, rfl, rfl, rfl⟩

theorem alike_chanRead (who : Agent) {s t : State} (h : Alike s t) : (chanRead who s).Rel Alike (chanRead who t) := by
  obtain ⟨r, n, rfl⟩ := h
  cases hs : s.input with
  | nil => simp only [chanRead, hs]; exact ⟨rfl, r, n, rfl⟩
  | cons a rest => cases a <;> simp only [chanRead, hs] <;> first | exact ⟨rfl, r, n, rfl⟩ | rfl

theorem alike_chanWrite (who : Agent) (b : Byte) {s t : State} (h : Alike s t) : (chanWrite who b s).Rel Alike (chanWrite who b t) := by
  obtain ⟨r, n, rfl⟩ := h
  cases hs : s.sink with
  | nil => simp only [chanWrite, hs]; exact ⟨rfl, r, n, rfl⟩
  | cons a rest => cases a <;> simp only [chanWrite, hs] <;> first | exact ⟨rfl, r, n, rfl⟩ | rfl

theorem Alike.rd {s t : State} (h : Alike s t) (r : BitReader) : t.rd = s.rd ∧ Alike { s with rd := r } { t with rd := r } := by
  obtain ⟨x, n, rfl⟩ := h; exact ⟨rfl, x, n, rfl⟩

theorem alike_readBit {s t : State} (h : Alike s t) : (readBit s).Rel Alike (readBit t) := by
  have take : ∀ {s t : State}, Alike s t → (takeBit s).Rel Alike (takeBit t) := fun {s t} h => by
    unfold takeBit; rw [(h.rd s.rd).1]; exact ⟨rfl, (h.rd _).2⟩
  unfold readBit
  rw [(h.rd s.rd).1]
  split
  · refine Run.Rel.andThen ?_ fun filled _ _ h => ?_
    · refine (alike_chanRead _ h).andThen fun a s t h => ?_
      cases a with
      | none => exact ⟨rfl, h⟩
      | some b => dsimp only; rw [(h.rd s.rd).1]; exact ⟨rfl, (h.rd _).2⟩
    · cases filled with
      | false => exact ⟨rfl, h⟩
      | true => exact take h
  · exact take h

theorem alike_readBits (k : Nat) {s t : State} (h : Alike s t) : (readBits k s).Rel Alike (readBits k t) := by
  induction k generalizing s t with
  | zero => exact ⟨rfl, h⟩
  | succ k ih => exact (alike_readBit h).andThen fun _ _ _ h => (ih h).andThen fun _ _ _ h => ⟨rfl, h⟩

theorem alike_emitAll (bs : List Byte) {s t : State} (h : Alike s t) : (emitAll bs s).Rel Alike (emitAll bs t) := by
  induction bs generalizing s t with
  | nil => exact ⟨rfl, h⟩
  | cons b bs ih =>
    refine Run.Rel.andThen ((alike_chanWrite _ b h).andThen fun ok _ _ h => ?_) fun _ _ _ h => ih h
    cases ok <;> exact ⟨rfl, h⟩

/-! ### RLE (42_rle R194) -/

theorem alike_readRleHeader {s t : State} (h : Alike s t) : (readRleHeader s).Rel Alike (readRleHeader t) := by
  unfold readRleHeader
  iterate 5 refine (alike_readBits _ (by assumption)).andThen fun _ _ _ h => ?_
  split
  · exact ⟨rfl, h⟩
  · exact ⟨rfl, h⟩

theorem alike_rlPair {s t : State} (h : Alike s t) : (rlPair s).Rel Alike (rlPair t) := by
  have hrl : ∀ {s t : State}, Alike s t → t.rl = s.rl := fun h => by obtain ⟨r, n, rfl⟩ := h; rfl
  have hset : ∀ {s t : State} (u : RleUnit), Alike s t → Alike { s with rl := u } { t with rl := u } := fun u h => by
    obtain ⟨r, n, rfl⟩ := h; exact ⟨r, n, rfl⟩
  unfold rlPair
  rw [hrl h]
  split
  · obtain ⟨r, n, rfl⟩ := h; exact ⟨rfl, r, n, rfl⟩
  · refine Run.Rel.onRaise ?_ fun s t h => by
      unfold setRlPhase; rw [hrl h]; exact hset _ h
    unfold rlPairStep
    rw [hrl h]
    split
    · exact ⟨rfl, h⟩
    · refine (alike_readBits _ h).andThen fun dv s t h => ?_
      rw [hrl h]
      refine (alike_readBits _ h).andThen fun dr s t h => ?_
      rw [hrl h]
      dsimp only
      split
      · exact ⟨rfl, hset _ h⟩
      · exact (alike_emitAll _ (hset _ h)).andThen fun _ _ _ h => ⟨rfl, h⟩

/-- `RL.PAIR` so many times in a row. -/
def rlPairs : Nat → State → Run Unit
  | 0, s => .done () s
  | n + 1, s => (rlPair s).andThen fun _ s => rlPairs n s

/-- The loop of `RL.DECODE` is one `RL.PAIR` for each pair the count has room for, a last short one among them (42_rle R194). -/
theorem rlLoop_eq_pairs (k : Nat) {s : State} (hp : s.rl.phase = .active) (hw : 1 ≤ s.rl.pairBits) (hk : s.rl.left.toNat ≤ k) :
    rlLoop k s = rlPairs ((s.rl.left.toNat + s.rl.pairBits - 1) / s.rl.pairBits) s := by
  induction k generalizing s with
  | zero =>
    have h0 : s.rl.left.toNat = 0 := by omega
    rw [h0, Nat.zero_add, Nat.div_eq_of_lt (by omega)]; rfl
  | succ k ih =>
    unfold rlLoop
    by_cases hz : s.rl.left = 0
    · have h0 : s.rl.left.toNat = 0 := by rw [hz]; rfl
      rw [if_pos hz, h0, Nat.zero_add, Nat.div_eq_of_lt (by omega)]; rfl
    · have hpos : s.rl.left.toNat ≠ 0 := fun e => hz (BitVec.eq_of_toNat_eq e)
      rw [if_neg hz]
      obtain ⟨n, hn⟩ : ∃ n, (s.rl.left.toNat + s.rl.pairBits - 1) / s.rl.pairBits = n + 1 :=
        ⟨_, (Nat.succ_pred_eq_of_pos (Nat.div_pos (by omega) hw)).symm⟩
      rw [hn, rlPairs]
      have hends := rlPair_ends hp
      cases hr : rlPair s with
      | done v t =>
        obtain ⟨-, w, hw', hsum⟩ := hends.of_done hr
        have hpb : t.rl.pairBits = s.rl.pairBits := by rw [hw']; rfl
        have hleft : t.rl.left.toNat + s.rl.pairBits = s.rl.left.toNat := by rw [hw']; exact hsum
        have hdiv : (t.rl.left.toNat + s.rl.pairBits - 1) / s.rl.pairBits = n := by
          have e : s.rl.left.toNat + s.rl.pairBits - 1 = (t.rl.left.toNat + s.rl.pairBits - 1) + s.rl.pairBits := by omega
          rw [e, Nat.add_div_right _ hw] at hn
          omega
        rw [done_andThen, done_andThen, ih (by rw [hw']; exact hp) (by rw [hpb]; exact hw) (by omega), hpb, hdiv]
      | raised f t => rfl
      | hung x => rfl

theorem alike_rlPairs (n : Nat) {s t : State} (h : Alike s t) : (rlPairs n s).Rel Alike (rlPairs n t) := by
  induction n generalizing s t with
  | zero => exact ⟨rfl, h⟩
  | succ n ih => exact (alike_rlPair h).andThen fun _ _ _ h => ih h

/-- `RL.PAIR` so many times in an active unit: the unit stays active, or has failed (42_rle R192). -/
theorem rlPairs_ends (n : Nat) {s : State} (hp : s.rl.phase = .active) : (rlPairs n s).Ends
    (fun _ t => t.rl.phase = .active ∧ t.fatal = s.fatal) (fun _ t => t.rl.phase = .failed ∧ t.fatal = s.fatal) True := by
  induction n generalizing s with
  | zero => exact ⟨hp, rfl⟩
  | succ n ih =>
    have one : (rlPair s).Ends (fun _ t => t.rl.phase = .active ∧ t.fatal = s.fatal)
        (fun _ t => t.rl.phase = .failed ∧ t.fatal = s.fatal) True := by
      refine (rlPair_ends hp).mono (fun _ t k => ?_) (fun _ t k => ?_) fun _ => trivial
      · obtain ⟨k, w, hw, -⟩ := k
        exact ⟨by rw [hw]; exact hp, by rw [k.1]⟩
      · obtain ⟨-, k, w, hw⟩ := k
        exact ⟨by rw [hw], by rw [k.1]⟩
    refine one.andThen fun _ t ht => ?_
    exact (ih ht.1).mono (fun _ u k => ⟨k.1, k.2.trans ht.2⟩) (fun _ u k => ⟨k.1, k.2.trans ht.2⟩) id

/-! ### LZW (44_lzw R265, R266) -/

/-- States whose dictionaries, limits and output channels agree, and so `LZ.PUT` does the same in both. -/
structure PutAlike (s t : State) : Prop where
  phase : t.lz.phase = s.lz.phase
  dict : t.lz.dict = s.lz.dict
  prev : t.lz.prev = s.lz.prev
  params : t.params = s.params
  sink : t.sink = s.sink
  output : t.output = s.output

theorem Alike.putAlike {s t : State} (h : Alike s t) : PutAlike s t := by
  obtain ⟨r, n, rfl⟩ := h; exact ⟨rfl, rfl, rfl, rfl, rfl, rfl⟩

theorem PutAlike.trans {s t u : State} (h : PutAlike s t) (h' : PutAlike t u) : PutAlike s u :=
  ⟨h'.phase.trans h.phase, h'.dict.trans h.dict, h'.prev.trans h.prev, h'.params.trans h.params, h'.sink.trans h.sink,
    h'.output.trans h.output⟩

/-- Changing alike what a unit holds keeps two states alike. -/
structure Keeps (R : State → State → Prop) : Prop where
  put : ∀ {s t}, R s t → PutAlike s t
  emit : ∀ b {s t}, R s t → (emit b s).Rel R (emit b t)
  phase : ∀ p {s t}, R s t → R { s with lz := { s.lz with phase := p } } { t with lz := { t.lz with phase := p } }
  dict : ∀ d {s t}, R s t → R { s with lz := { s.lz with dict := d } } { t with lz := { t.lz with dict := d } }
  prev : ∀ q {s t}, R s t → R { s with lz := { s.lz with prev := q } } { t with lz := { t.lz with prev := q } }
  fatal : ∀ {s t}, R s t → R { s with fatal := true } { t with fatal := true }

theorem keeps_alike : Keeps Alike where
  put h := h.putAlike
  emit b _ _ h := (alike_chanWrite _ b h).andThen fun ok _ _ h => by cases ok <;> exact ⟨rfl, h⟩
  phase p s t h := by obtain ⟨r, n, rfl⟩ := h; exact ⟨r, n, rfl⟩
  dict d s t h := by obtain ⟨r, n, rfl⟩ := h; exact ⟨r, n, rfl⟩
  prev q s t h := by obtain ⟨r, n, rfl⟩ := h; exact ⟨r, n, rfl⟩
  fatal h := by obtain ⟨r, n, rfl⟩ := h; exact ⟨r, n, rfl⟩

theorem keeps_putAlike : Keeps PutAlike where
  put h := h
  emit b s t h := by
    refine Run.Rel.andThen ?_ fun ok _ _ h => by cases ok <;> exact ⟨rfl, h⟩
    have hout := h.output
    simp only [State.output, List.reverse_inj] at hout
    cases hs : s.sink with
    | nil =>
      have ht := h.sink.trans hs
      simp only [chanWrite, hs, ht]
      exact ⟨rfl, h.phase, h.dict, h.prev, h.params, rfl, by simp [State.output, acceptedBytes, hout]⟩
    | cons a rest =>
      have ht := h.sink.trans hs
      cases a <;> simp only [chanWrite, hs, ht]
      · exact ⟨rfl, h.phase, h.dict, h.prev, h.params, rfl, by simp [State.output, acceptedBytes, hout]⟩
      · exact ⟨rfl, h.phase, h.dict, h.prev, h.params, rfl, by simp [State.output, acceptedBytes, hout]⟩
      · rfl
  phase p s t h := ⟨rfl, h.dict, h.prev, h.params, h.sink, h.output⟩
  dict d s t h := ⟨h.phase, rfl, h.prev, h.params, h.sink, h.output⟩
  prev q s t h := ⟨h.phase, h.dict, rfl, h.params, h.sink, h.output⟩
  fatal h := ⟨h.phase, h.dict, h.prev, h.params, h.sink, h.output⟩

/-- `LZ.PUT` looks at the dictionary, `lz_prev`, the limits and the output channel alone. -/
theorem Keeps.lzPut {R : State → State → Prop} (K : Keeps R) (code : Nat) {s t : State} (h : R s t) :
    (lzPut code s).Rel R (lzPut code t) := by
  have hall : ∀ bs {s t : State}, R s t → (emitAll bs s).Rel R (emitAll bs t) := by
    intro bs
    induction bs with
    | nil => exact fun h => ⟨rfl, h⟩
    | cons b bs ih => exact fun h => (K.emit b h).andThen fun _ _ _ h => ih h
  unfold Machine.lzPut
  rw [(K.put h).phase]
  split
  · exact ⟨rfl, K.fatal h⟩
  · refine Run.Rel.onRaise ?_ fun s t h => ?_
    · unfold lzPutStep
      have hres : resolveCode code t.lz = resolveCode code s.lz := by
        unfold resolveCode LzwUnit.size; rw [(K.put h).dict, (K.put h).prev]
      rw [hres]
      cases resolveCode code s.lz with
      | none => exact ⟨rfl, h⟩
      | some x =>
        refine (hall x.1 h).andThen fun _ s t h => Run.Rel.andThen ?_ fun _ s t h => ⟨rfl, ?_⟩
        · have k := K.put h
          unfold dictInsert
          by_cases hm : x.2 ∈ s.lz.dict
          · rw [if_pos hm, if_pos (show x.2 ∈ t.lz.dict by rw [k.dict]; exact hm)]
            exact ⟨rfl, h⟩
          · rw [if_neg hm, if_neg (show x.2 ∉ t.lz.dict by rw [k.dict]; exact hm)]
            have hl' : (t.lz.size = t.params.dictMax ∨ tooLong t.params.seqMax x.2 = true) =
                (s.lz.size = s.params.dictMax ∨ tooLong s.params.seqMax x.2 = true) := by
              rw [LzwUnit.size, k.dict, k.params]; rfl
            by_cases hl : s.lz.size = s.params.dictMax ∨ tooLong s.params.seqMax x.2
            · rw [if_pos hl, if_pos (hl'.symm ▸ hl)]
              exact ⟨rfl, h⟩
            · rw [if_neg hl, if_neg (hl'.symm ▸ hl), show t.lz.dict = _ from k.dict]
              exact ⟨rfl, K.dict _ h⟩
        · exact K.prev x.1 h
    · exact K.phase .failed h

/-- `LZ.PUT` of each code in order. -/
def lzPuts : List Nat → State → Run Unit
  | [], s => .done () s
  | c :: cs, s => (lzPut c s).andThen fun _ s => lzPuts cs s

theorem Keeps.lzPuts {R : State → State → Prop} (K : Keeps R) (cs : List Nat) {s t : State} (h : R s t) :
    (lzPuts cs s).Rel R (lzPuts cs t) := by
  induction cs generalizing s t with
  | nil => exact ⟨rfl, h⟩
  | cons c cs ih => exact (K.lzPut c h).andThen fun _ _ _ h => ih h

/-! ### A host that issues commands until one fails (30_encoding R96) -/

/-- The pseudocode of each command in order. -/
def runBodies : List Instr → State → Run Unit
  | [], s => .done () s
  | i :: is, s => (bodyOf i s).andThen fun _ s => runBodies is s

/-- A command that does the same in states that differ in the last result and the draws alone. -/
def Steady (i : Instr) : Prop := i ≠ .sysReset ∧ ∀ s t, Alike s t → (bodyOf i s).Rel Alike (bodyOf i t)

theorem steady_brInit : Steady .brInit := ⟨by simp, fun s t h => ⟨rfl, by obtain ⟨r, n, rfl⟩ := h; exact ⟨r, n, rfl⟩⟩⟩

theorem steady_rlPair : Steady .rlPair := ⟨by simp, fun _ _ h => (alike_rlPair h).andThen fun _ _ _ h => ⟨rfl, h⟩⟩

theorem steady_lzBegin : Steady .lzBegin := ⟨by simp, fun s t h => by
  obtain ⟨r, n, rfl⟩ := h
  show (okZero (lzBegin s)).Rel Alike (okZero (lzBegin { s with result := r, draws := n }))
  unfold lzBegin
  dsimp only
  split <;> exact ⟨rfl, r, n, rfl⟩⟩

theorem steady_lzPut (c : Word) : Steady (.lzPut c) :=
  ⟨by simp, fun _ _ h => (keeps_alike.lzPut c.toNat h).andThen fun _ _ _ h => ⟨rfl, h⟩⟩

/-- What the host sees of the commands is what their pseudocode does, run through from the first to the last that does not fail. -/
theorem execUntil_eq {is : List Instr} (his : ∀ i ∈ is, Steady i) {s t : State} (hf : s.fatal = false) (h : Alike s t) :
    (runBodies is s).Ends (fun _ u => u.fatal = false ∧ ∃ v, Alike u v ∧ execUntil is t = some (.ok, v))
      (fun f u => ∃ v, Alike u v ∧ execUntil is t = some (.fail f, v)) (alwaysAnswers s = false) := by
  induction is generalizing s t with
  | nil => exact ⟨hf, t, h, rfl⟩
  | cons i is ih =>
    obtain ⟨hi, hsteady⟩ := his i (by simp)
    have hft : t.fatal = false := by obtain ⟨r, n, rfl⟩ := h; exact hf
    have hrel := hsteady s t h
    have hends : (bodyOf i s).Ends (fun r u => (goodFor i r ∧ u.fatal = false) ∧ ChanMoves s u) (fun _ _ => True)
        (alwaysAnswers s = false) := by
      cases hv : violates i s with
      | true => rw [body_of_violates hv]; trivial
      | false =>
        exact (body_ends hv).mono (fun r u k => ⟨⟨k.1, (moves_fatal hi k.2).trans hf⟩, moves_chan hi k.2⟩) (fun _ _ _ => trivial) id
    unfold runBodies execUntil
    cases hs : bodyOf i s with
    | done r u =>
      obtain ⟨⟨hgood, hfu⟩, hchan⟩ := hends.of_done hs
      rw [hs] at hrel
      cases ht : bodyOf i t with
      | done r' v =>
        rw [ht] at hrel
        obtain ⟨rfl, huv⟩ := hrel
        have hg : r.res.good = true := by rcases hgood with e | ⟨e, -⟩ <;> rw [e] <;> rfl
        simp only [done_andThen, exec_ok hi hft ht, answer_result, hg, if_true]
        exact (ih (fun j hj => his j (by simp [hj])) hfu (huv.answer r)).mono (fun _ _ k => k) (fun _ _ k => k) hchan.hung
      | raised f v => rw [ht] at hrel; exact hrel.elim
      | hung x => rw [ht] at hrel; exact hrel.elim
    | raised f u =>
      rw [hs] at hrel
      cases ht : bodyOf i t with
      | done r' v => rw [ht] at hrel; exact hrel.elim
      | raised f' v =>
        rw [ht] at hrel
        obtain ⟨rfl, huv⟩ := hrel
        simp only [raised_andThen, exec_raise hi hft ht, answerFailure_result, Status.good, Bool.false_eq_true, if_false]
        exact ⟨_, huv.answerFailure f, rfl⟩
      | hung x => rw [ht] at hrel; exact hrel.elim
    | hung x => rw [hs] at hends; exact hends

theorem runBodies_append (is js : List Instr) (s : State) :
    runBodies (is ++ js) s = (runBodies is s).andThen fun _ t => runBodies js t := by
  induction is generalizing s with
  | nil => rfl
  | cons i is ih => simp only [List.cons_append, runBodies, andThen_assoc, ih]

theorem runBodies_pairs (n : Nat) (s : State) : runBodies (List.replicate n .rlPair) s = rlPairs n s := by
  induction n generalizing s with
  | zero => rfl
  | succ n ih =>
    simp only [List.replicate_succ, runBodies, rlPairs, ← ih]
    exact andThen_assoc _ _ _

/-- `BR.INIT`, `LZ.BEGIN` and one `LZ.PUT` a code, from an idle unit (44_lzw R265, R266). -/
theorem runBodies_puts {cs : List Nat} (hcs : ∀ c ∈ cs, c < 2 ^ 32) {s : State} (hp : s.lz.phase = .idle) :
    runBodies (.brInit :: .lzBegin :: cs.map fun c => .lzPut (BitVec.ofNat 32 c)) s =
      lzPuts cs { brInit s with lz := { s.lz with dict := seedDict, prev := [], phase := .active } } := by
  have puts : ∀ (l : List Nat) (t : State), (∀ c ∈ l, c < 2 ^ 32) →
      runBodies (l.map fun c => .lzPut (BitVec.ofNat 32 c)) t = lzPuts l t := by
    intro l
    induction l with
    | nil => exact fun _ _ => rfl
    | cons c l ih =>
      intro t hl
      have hc : (BitVec.ofNat 32 c).toNat = c := Nat.mod_eq_of_lt (hl c (by simp))
      simp only [List.map_cons, runBodies, lzPuts, bodyOf, okWith, hc, andThen_assoc, done_andThen]
      congr 1
      funext _ u
      exact ih u fun d hd => hl d (by simp [hd])
  rw [← puts cs _ hcs]
  simp only [runBodies, bodyOf, done_andThen, lzBegin_ok (s := brInit s) hp, okZero_done]
  rfl

end Sys2Proof.Machine
end

