-- ==== Sys2Proof/Laws/Encoding.lean ====
section
/-! SUPPORT. How the fields of an encoded command word read back (30_encoding R90, R91). -/

namespace Sys2Proof.Machine

open Sys2Proof.Wire

/-- The `cmd` field of a word made from its fields. -/
theorem makeWord_cmd (c n : BitVec 8) (a : Word) : cmdField (makeWord c n a) = c := by
  unfold cmdField makeWord; ext i hi
  simp only [BitVec.getElem_extractLsb', BitVec.getLsbD_append]
  rw [if_pos (by omega)]; simp [hi]

/-- The `n` field. -/
theorem makeWord_n (c n : BitVec 8) (a : Word) : nField (makeWord c n a) = n := by
  unfold nField makeWord; ext i hi
  simp only [BitVec.getElem_extractLsb', BitVec.getLsbD_append]
  rw [if_neg (by omega), if_pos (by omega)]; simp [hi]

/-- The `arg` field. -/
theorem makeWord_arg (c n : BitVec 8) (a : Word) : argField (makeWord c n a) = a := by
  unfold argField makeWord; ext i hi;
  simp only [BitVec.getElem_extractLsb', BitVec.getLsbD_append]
  rw [if_neg (by omega)]; rw [if_neg (by omega)]
  simp [show 16 + i - 8 - 8 = i by omega, hi]

end Sys2Proof.Machine
end

