-- ==== Sys2Proof/Laws/HuffmanStream.lean ====
section
/-! SUPPORT. `HF.DECODE` on a Huffman stream (43_huffman R221, R225; 30_encoding R103): walking a code's path yields its symbol. -/

namespace Sys2Proof.Machine

open Sys2Proof.Wire

/-- One turn of the loop along an edge that is there (43_huffman R223, R225). -/
theorem hfTurn_ok {s : State} {b : Bool} {rest : List Bool} {c : Nat} (hp : s.hf.phase = .active)
    (hc : (nodeAt s.hf.nodes s.hf.cur).child b = some c) (hb : s.bitsAhead = b :: rest)
    (ha : (nodeAt s.hf.nodes c).leaf = true → sinkAccepts 1 s.sink = true) :
    ∃ t, hfTurn s = .done () t ∧ t.hf = { s.hf with
          cur := if (nodeAt s.hf.nodes c).leaf then 0 else c, left := BitVec.ofNat 32 (s.hf.left.toNat - 1) } ∧
      Flows s 1 (if (nodeAt s.hf.nodes c).leaf then [(nodeAt s.hf.nodes c).sym] else []) t ∧ t.ct = s.ct ∧ t.ctValid = s.ctValid := by
  have h1 := (readBits_ok (n := 1) (s := s) (by rw [hb]; simp)).1
  have hval : fieldValue (s.bitsAhead.take 1) = b.toNat := by rw [hb]; simp [fieldValue]
  have hbit : b.toNat.testBit 0 = b := by cases b <;> rfl
  have hle : 1 ≤ s.bitsAhead.length := by rw [hb]; simp
  rw [hval] at h1
  unfold hfTurn
  rw [h1, done_andThen, hbit]
  have hhf : (s.afterRead 1).hf = s.hf := rfl
  simp only [hhf]
  unfold hfBit
  rw [if_neg (by simp [hp])]
  simp only [hc]
  by_cases hleaf : (nodeAt s.hf.nodes c).leaf = true
  · simp only [hleaf, if_true, done_andThen]
    unfold emit
    rw [chanWrite_ok _ _ (by exact ha hleaf)]
    refine ⟨_, rfl, rfl, ?_, rfl, rfl⟩
    exact ((flows_read s 1).trans (flows_bytes (s.afterRead 1) [(nodeAt s.hf.nodes c).sym]) hle).congr rfl rfl rfl rfl
  · rw [Bool.not_eq_true] at hleaf
    simp only [hleaf]
    exact ⟨_, rfl, rfl, (flows_read s 1).congr rfl rfl rfl rfl, rfl, rfl⟩

/-- Walking the rest of a code's path emits its byte value and comes back to the root (43_huffman R221). -/
theorem hfLoop_code {ct : CodeTable} {nodes : List Node} (T : Tree nodes (codesBelow ct 256) []) (hfree : PrefixFree ct)
    (v : Byte) (hv : ct[v.toFin].length ≠ 0) {p q : List Bool} (hq : q ++ p = pathOf ct[v.toFin]) (hne : p ≠ []) {m k : Nat}
    {s : State} {rest : List Bool} (hp : s.hf.phase = .active) (hn : s.hf.nodes = nodes) (hw : walk nodes 0 q = some s.hf.cur)
    (hl : s.hf.left.toNat = p.length + m) (hk : p.length ≤ k) (hb : s.bitsAhead = p ++ rest)
    (ha : sinkAccepts 1 s.sink = true) :
    ∃ t, hfLoop k s = hfLoop (k - p.length) t ∧ Flows s p.length [v] t ∧
      t.hf = { s.hf with cur := 0, left := BitVec.ofNat 32 m } ∧ t.ct = s.ct ∧ t.ctValid = s.ctValid := by
  have hS : codesBelow ct 256 (pathOf ct[v.toFin]) v := ⟨v.toNat, v.isLt, v.isLt, hv, rfl, by simp⟩
  induction p generalizing q s k with
  | nil => exact (hne rfl).elim
  | cons b p ih =>
    cases k with
    | zero => simp at hk
    | succ k =>
      have hsome : (walk nodes 0 (q ++ [b])).isSome :=
        (T.paths _).mpr (.inr (.inl ⟨_, v, hS, ⟨p, by rw [← hq]; simp⟩⟩))
      obtain ⟨c, hc⟩ := Option.isSome_iff_exists.mp hsome
      have hchild : (nodeAt s.hf.nodes s.hf.cur).child b = some c := by
        rw [walk_snoc, hw, Option.bind_some] at hc
        rw [hn]; exact hc
      have hlen : 1 ≤ s.bitsAhead.length := by rw [hb]; simp
      obtain ⟨t, ht, hthf, hflow, hct, hcv⟩ := hfTurn_ok hp hchild (by rw [hb]; rfl) (fun _ => ha)
      have hleft0 : s.hf.left ≠ 0 := by
        intro h0; rw [h0] at hl; simp at hl; omega
      have hloop : hfLoop (k + 1) s = hfLoop k t := by rw [hfLoop, if_neg hleft0, ht, done_andThen]
      have hlt := s.hf.left.isLt
      cases p with
      | nil =>
        have hqb : q ++ [b] = pathOf ct[v.toFin] := hq
        have hleaf : (nodeAt nodes c).leaf = true := (T.leaf _ _ hc).mpr ⟨v, by rw [hqb]; exact hS⟩
        have hsym : (nodeAt nodes c).sym = v := T.sym _ _ _ hc (by rw [hqb]; exact hS)
        rw [hn, hleaf] at hthf hflow
        simp only [if_true, hsym] at hthf hflow
        refine ⟨t, hloop, hflow, ?_, hct, hcv⟩
        rw [hthf, hl]
        simp
      | cons b2 p =>
        have hleaf : (nodeAt nodes c).leaf = false := by
          by_contra hleaf
          rw [Bool.not_eq_false] at hleaf
          obtain ⟨w, u, hu, -, hu0, hpu, -⟩ := (T.leaf _ _ hc).mp hleaf
          have hne : (⟨u, hu⟩ : Fin 256) ≠ v.toFin := by
            intro e
            have h1 := congrArg List.length hpu
            have h2 : ct[u] = ct[v.toFin] := by
              have : ∀ x : Fin 256, ⟨u, hu⟩ = x → ct[u] = ct[x] := fun x hx => by subst hx; rfl
              exact this _ e
            rw [h2, ← hq] at h1
            simp at h1
          exact hfree _ _ hne hu0 hv ⟨b2 :: p, by
            show pathOf ct[u] ++ _ = _
            rw [← hpu, ← hq]; simp⟩
        rw [hn, hleaf] at hthf hflow
        simp only [Bool.false_eq_true, if_false] at hthf hflow
        have hbt : t.bitsAhead = b2 :: p ++ rest := by rw [hflow.bitsAhead hlen, hb]; rfl
        have hleft : t.hf.left.toNat = (b2 :: p).length + m := by
          rw [hthf]
          simp only [BitVec.toNat_ofNat]
          rw [Nat.mod_eq_of_lt (by omega), hl]; simp
        obtain ⟨u, hu, hfu, huhf, huct, hucv⟩ := ih (q := q ++ [b]) (k := k) (s := t) (by rw [← hq]; simp) (by simp)
          (by rw [hthf]; exact hp) (by rw [hthf]; exact hn) (by rw [hthf]; exact hc) hleft (by simp at hk ⊢; omega) hbt
          (by rw [hflow.2.2.1]; exact ha) hS
        refine ⟨u, ?_, ?_, ?_, huct.trans hct, hucv.trans hcv⟩
        · rw [hloop, hu]
          congr 1
          simp
        · have := hflow.trans hfu hlen
          rw [List.length_cons, Nat.add_comm]
          exact this
        · rw [huhf, hthf]

theorem pathOf_ne_nil {e : CodeLength} (h : e.length ≠ 0) : pathOf e ≠ [] := by
  intro h0
  have := congrArg List.length h0
  rw [pathOf, fieldBits_length] at this
  exact h (Fin.ext this)

theorem messageBits_cons (ct : CodeTable) (v : Byte) (msg : List Byte) :
    messageBits ct (v :: msg) = pathOf ct[v.toFin] ++ messageBits ct msg := rfl

theorem hfLoop_ok {ct : CodeTable} {nodes : List Node} (T : Tree nodes (codesBelow ct 256) []) (hfree : PrefixFree ct)
    {msg : List Byte} (hmsg : ∀ v ∈ msg, ct[v.toFin].length ≠ 0) {k : Nat} {s : State} {rest : List Bool}
    (hp : s.hf.phase = .active) (hn : s.hf.nodes = nodes) (hc : s.hf.cur = 0) (hl : s.hf.left.toNat = (messageBits ct msg).length)
    (hk : (messageBits ct msg).length ≤ k) (hb : s.bitsAhead = messageBits ct msg ++ rest)
    (ha : sinkAccepts msg.length s.sink = true) :
    ∃ t, hfLoop k s = .done () t ∧ Flows s (messageBits ct msg).length msg t ∧ t.hf.phase = .active ∧ t.hf.cur = 0 ∧
      t.ct = s.ct ∧ t.ctValid = s.ctValid := by
  induction msg generalizing k s with
  | nil =>
    refine ⟨s, ?_, .refl s, hp, hc, rfl, rfl⟩
    have hz : s.hf.left = 0 := BitVec.eq_of_toNat_eq (by simpa [messageBits] using hl)
    cases k <;> simp [hfLoop, hz]
  | cons v msg ih =>
    rw [messageBits_cons, List.length_append] at hl hk
    rw [messageBits_cons, List.append_assoc] at hb
    have hv := hmsg v (by simp)
    obtain ⟨t, ht, hft, hthf, htct, htcv⟩ := hfLoop_code T hfree v hv (p := pathOf ct[v.toFin]) (q := []) (m := (messageBits ct msg).length)
      (k := k) rfl (pathOf_ne_nil hv) hp hn (by rw [hc]; rfl) hl (by omega) hb (sinkAccepts_mono ha (by simp))
    have hle : (pathOf ct[v.toFin]).length ≤ s.bitsAhead.length := by rw [hb]; simp
    have hlt := s.hf.left.isLt
    have hbt : t.bitsAhead = messageBits ct msg ++ rest := by rw [hft.bitsAhead hle, hb, List.drop_left]
    obtain ⟨u, hu, hfu, hup, huc, huct, hucv⟩ := ih (k := k - (pathOf ct[v.toFin]).length) (s := t) (fun w hw => hmsg w (by simp [hw]))
      (by rw [hthf]; exact hp) (by rw [hthf]; exact hn) (by rw [hthf])
      (by rw [hthf]; exact Nat.mod_eq_of_lt (by omega)) (by omega) hbt
      (by
        rw [hft.2.2.1]
        rw [List.length_cons, Nat.add_comm] at ha
        exact sinkAccepts_drop ha)
    refine ⟨u, by rw [ht, hu], ?_, hup, huc, huct.trans htct, hucv.trans htcv⟩
    have := hft.trans hfu hle
    rw [messageBits_cons, List.length_append]
    exact this

/-- `HF.DECODE` up to its `HF.BEGIN`: a serialised table and a bit count have been read (43_huffman R225). -/
theorem hfDecode_open {h : TableHeader} {es : List Entry} {total : Nat} {s : State} {rest : List Bool} (hp : s.hf.phase = .idle)
    (ht : TableOk h es) (htot : total < 2 ^ 32) (hb : (brInit s).bitsAhead = tableBits h es ++ fieldBits 32 total ++ rest) :
    ∃ s2, hfDecode s = ((hfBegin s2).andThen fun _ s => ((hfLoop s.hf.left.toNat s).onRaise closeHf).andThen fun _ s => hfEnd s) ∧
      Flows (brInit s) ((tableBits h es).length + 32) [] s2 ∧ s2.bitsAhead = rest ∧ s2.ct = tableOf es ∧ s2.ctValid = true ∧
      s2.hf.phase = .idle ∧ s2.hf.left.toNat = total := by
  rw [List.append_assoc] at hb
  obtain ⟨h1, b1⟩ := ctLoad_ok (s := brInit s) hp ht hb
  generalize hs1 : ({ (brInit s).afterRead (tableBits h es).length with ct := tableOf es, ctValid := true } : State) = s1 at h1
  have hle1 : (tableBits h es).length ≤ (brInit s).bitsAhead.length := by rw [hb]; simp
  have f1 : Flows (brInit s) (tableBits h es).length [] s1 := by rw [← hs1]; exact (flows_read _ _).congr rfl rfl rfl rfl
  have hb1 : s1.bitsAhead = fieldBits 32 total ++ rest := by rw [bitsAhead_congr f1.1 f1.2.1]; exact b1
  obtain ⟨h2, b2, -⟩ := readBits_value htot hb1
  have f2 : Flows s1 32 [] { s1.afterRead 32 with hf := { (s1.afterRead 32).hf with left := BitVec.ofNat 32 total } } :=
    (flows_read _ _).congr rfl rfl rfl rfl
  refine ⟨_, ?_, f1.trans f2 hle1, b2, by rw [← hs1]; rfl, by rw [← hs1]; rfl, by rw [← hs1]; exact hp, Nat.mod_eq_of_lt htot⟩
  unfold hfDecode
  rw [if_neg (by simp [hp]), h1, done_andThen, h2, done_andThen]

/-- `HF.BEGIN` on a prefix-free table: the arena is the tree of its codes (43_huffman R222). -/
theorem hfBegin_built {s : State} (hp : s.hf.phase = .idle) (hv : s.ctValid = true) (hfree : PrefixFree s.ct) :
    ∃ nodes, Tree nodes (codesBelow s.ct 256) [] ∧
      hfBegin s = .done () { s with hf := { s.hf with nodes := nodes, cur := 0, phase := .active } } := by
  have hbuild := buildTrie_tree s.ct
  cases hr : buildTrie s.ct with
  | error nodes => rw [hr] at hbuild; exact (hbuild.2 hfree).elim
  | ok nodes =>
    rw [hr] at hbuild
    exact ⟨nodes, hbuild.1, by unfold hfBegin; rw [if_neg (by simp [hp, hv]), hr]⟩

/-- `HF.BEGIN` on a table that is not: `CORRUPT_TABLE`, and nothing but the arena and the draws changed (43_huffman R222). -/
theorem hfBegin_refuses {s : State} (hp : s.hf.phase = .idle) (hv : s.ctValid = true) (hfree : ¬ PrefixFree s.ct) :
    ∃ nodes n, nodes.length ≤ Config.trieNodes ∧
      hfBegin s = .raised .corruptTable { s with hf := { s.hf with nodes := nodes }, draws := n } := by
  have hbuild := buildTrie_tree s.ct
  cases hr : buildTrie s.ct with
  | ok nodes => rw [hr] at hbuild; exact (hfree hbuild.2.1).elim
  | error nodes =>
    rw [hr] at hbuild
    exact ⟨freeTrie s.draws nodes.length, s.draws + 1, by simpa using hbuild.1,
      by unfold hfBegin; rw [if_neg (by simp [hp, hv]), hr]; rfl⟩

/-- `HF.DECODE` up to its loop, where the table is prefix-free. -/
theorem hfDecode_loop {h : TableHeader} {es : List Entry} {total : Nat} {s : State} {rest : List Bool} (hp : s.hf.phase = .idle)
    (ht : TableOk h es) (hfree : PrefixFree (tableOf es)) (htot : total < 2 ^ 32)
    (hb : (brInit s).bitsAhead = tableBits h es ++ fieldBits 32 total ++ rest) :
    ∃ s3 nodes, hfDecode s = (((hfLoop total s3).onRaise closeHf).andThen fun _ s => hfEnd s) ∧
      Flows (brInit s) ((tableBits h es).length + 32) [] s3 ∧ s3.bitsAhead = rest ∧ s3.ct = tableOf es ∧ s3.ctValid = true ∧
      s3.hf = ⟨.active, nodes, 0, BitVec.ofNat 32 total⟩ ∧ Tree nodes (codesBelow (tableOf es) 256) [] := by
  obtain ⟨s2, h1, f2, b2, hct, hcv, hph, hleft⟩ := hfDecode_open hp ht htot hb
  obtain ⟨nodes, T, h3⟩ := hfBegin_built hph hcv (by rw [hct]; exact hfree)
  rw [hct] at T
  refine ⟨{ s2 with hf := { s2.hf with nodes := nodes, cur := 0, phase := .active } }, nodes, ?_, f2.congr rfl rfl rfl rfl, b2, hct,
    hcv, ?_, T⟩
  · rw [h1, h3, done_andThen, ← hleft]
  · have : s2.hf.left = BitVec.ofNat 32 total := BitVec.eq_of_toNat_eq (by rw [hleft]; exact (Nat.mod_eq_of_lt htot).symm)
    rw [← this]

/-- `HF.DECODE` on a Huffman stream (43_huffman R225). -/
theorem hfDecode_ok {h : TableHeader} {es : List Entry} {msg : List Byte} {s : State} {rest : List Bool} (hp : s.hf.phase = .idle)
    (ht : TableOk h es) (hfree : PrefixFree (tableOf es)) (hmsg : ∀ v ∈ msg, (tableOf es)[v.toFin].length ≠ 0)
    (hlen : (messageBits (tableOf es) msg).length < 2 ^ 32) (hb : (brInit s).bitsAhead = huffmanBits h es msg ++ rest)
    (ha : sinkAccepts msg.length s.sink = true) :
    ∃ t, hfDecode s = .done () t ∧ Flows (brInit s) (huffmanBits h es msg).length msg t ∧ t.ct = tableOf es ∧ t.ctValid = true := by
  rw [huffmanBits, List.append_assoc] at hb
  obtain ⟨s3, nodes, h1, f3, b3, hct, hcv, hhf, T⟩ := hfDecode_loop hp ht hfree hlen hb
  obtain ⟨u, hu, fu, hup, huc, huct, hucv⟩ := hfLoop_ok T hfree hmsg (s := s3) (by rw [hhf]) (by rw [hhf]) (by rw [hhf])
    (by rw [hhf]; exact Nat.mod_eq_of_lt hlen) (le_refl _) b3 (by rw [f3.2.2.1]; exact ha)
  refine ⟨closeHf u, ?_, ?_, huct.trans hct, hucv.trans hcv⟩
  · rw [h1, hu]
    simp [hfEnd, hup, huc]
  · have := f3.trans fu (by rw [hb]; simp only [List.length_append, fieldBits_length]; omega)
    rw [huffmanBits, List.length_append, List.length_append, fieldBits_length]
    exact this.congr rfl rfl rfl rfl

end Sys2Proof.Machine
end

