-- ==== Sys2Proof/Laws/LzwStream.lean ====
section
/-! SUPPORT. The LZW loops on streams of codes (44_lzw R263, R265, R266), and the agreement of the decoder's dictionary with the
encoder's (44_lzw R267, 95_test_vectors S5). -/

namespace Sys2Proof.Machine

open Sys2Proof.Wire

/-- The part of the unit that `LZ.PUT` works on: the dictionary and `lz_prev`. -/
abbrev DictPrev := List (List Byte) × List Byte

/-- A unit that holds this dictionary and this `lz_prev`. -/
def LzwUnit.holds (u : LzwUnit) (x : DictPrev) : Prop := u.dict = x.1 ∧ u.prev = x.2

/-- The bytes a code stands for, and the dictionary and `lz_prev` after it, where no limit is reached (44_lzw R263). -/
def putCode (p : Config.Params) (code : Nat) (x : DictPrev) : Option (List Byte × DictPrev) :=
  match resolveCode code ⟨.active, x.1, x.2, 0, 0, 0⟩ with
  | none => none
  | some (seq, new) =>
    if new ∈ x.1 then some (seq, x.1, seq)
    else if x.1.length = p.dictMax ∨ tooLong p.seqMax new then none
    else some (seq, x.1 ++ [new], seq)

/-- The same for a list of codes. -/
def putCodes (p : Config.Params) : List Nat → DictPrev → Option (List Byte × DictPrev)
  | [], x => some ([], x)
  | c :: cs, x =>
    match putCode p c x with
    | none => none
    | some (seq, x) =>
      match putCodes p cs x with
      | none => none
      | some (bytes, x) => some (seq ++ bytes, x)

theorem putCodes_cons {p : Config.Params} {c : Nat} {cs : List Nat} {x z : DictPrev} {bytes : List Byte} :
    putCodes p (c :: cs) x = some (bytes, z) ↔
      ∃ seq y bs, putCode p c x = some (seq, y) ∧ putCodes p cs y = some (bs, z) ∧ bytes = seq ++ bs := by
  rw [putCodes]
  cases putCode p c x with
  | none => simp
  | some w =>
    obtain ⟨seq, y⟩ := w
    dsimp only
    cases hcs : putCodes p cs y with
    | none =>
      constructor
      · rintro ⟨⟩
      · rintro ⟨_, _, bs, ⟨⟩, h, -⟩; rw [hcs] at h; cases h
    | some w' =>
      obtain ⟨bs, z'⟩ := w'
      constructor
      · rintro ⟨⟩; exact ⟨seq, y, bs, rfl, hcs, rfl⟩
      · rintro ⟨_, _, bs', ⟨⟩, h, rfl⟩
        rw [hcs] at h; cases h; rfl

/-- `LZ.PUT` where no limit is reached and the output channel accepts (44_lzw R263). -/
theorem lzPut_ok {code : Nat} {s : State} {seq : List Byte} {x y : DictPrev} (hp : s.lz.phase = .active) (hx : s.lz.holds x)
    (h : putCode s.params code x = some (seq, y)) (ha : sinkAccepts seq.length s.sink = true) :
    lzPut code s = .done (BitVec.ofNat 32 seq.length) { s.afterBytes seq with lz := { s.lz with dict := y.1, prev := y.2 } } := by
  obtain ⟨hd, hv⟩ := hx
  unfold putCode at h
  unfold lzPut lzPutStep
  have hres : resolveCode code s.lz = resolveCode code ⟨.active, x.1, x.2, 0, 0, 0⟩ := by
    unfold resolveCode LzwUnit.size; rw [hd, hv]
  rw [if_neg (by simp [hp]), hres]
  cases hr : resolveCode code ⟨.active, x.1, x.2, 0, 0, 0⟩ with
  | none => rw [hr] at h; cases h
  | some w =>
    obtain ⟨q, new⟩ := w
    rw [hr] at h
    dsimp only at h ⊢
    have hq : q = seq := by
      split at h
      · cases h; rfl
      · split at h
        · cases h
        · cases h; rfl
    subst hq
    rw [emitAll_ok ha, done_andThen]
    have hlz : (s.afterBytes q).lz = s.lz := rfl
    have hpar : (s.afterBytes q).params = s.params := rfl
    unfold dictInsert LzwUnit.size
    rw [hlz, hpar, hd]
    split at h
    · next hm => cases h; rw [if_pos hm, done_andThen, hlz, ← hd]; rfl
    · next hm =>
      split at h
      · cases h
      · next hl => cases h; rw [if_neg hm, if_neg hl]; rfl

theorem lzLoopB_ok {cs : List Nat} {min width k : Nat} {s : State} {rest : List Bool} {bytes : List Byte} {x y : DictPrev}
    (hp : s.lz.phase = .active) (hc : ∀ c ∈ cs, min ≤ c ∧ c - min < 2 ^ width ∧ c < 2 ^ 32) (hm : s.lz.min.toNat = min)
    (hwd : s.lz.width.toNat = width) (hl : s.lz.left.toNat = cs.length) (hk : cs.length ≤ k) (hx : s.lz.holds x)
    (hput : putCodes s.params cs x = some (bytes, y)) (hb : s.bitsAhead = cs.flatMap (fun c => fieldBits width (c - min)) ++ rest)
    (ha : sinkAccepts bytes.length s.sink = true) :
    ∃ t, lzLoopB k s = .done () t ∧ Flows s (cs.length * width) bytes t ∧ t.lz.phase = .active := by
  induction cs generalizing k s bytes x with
  | nil =>
    cases hput
    refine ⟨s, ?_, by simpa using Flows.refl s, hp⟩
    have hz : s.lz.left = 0 := BitVec.eq_of_toNat_eq (by simpa using hl)
    cases k <;> simp [lzLoopB, hz]
  | cons c cs ih =>
    cases k with
    | zero => simp at hk
    | succ k =>
      obtain ⟨hc1, hc2, hc3⟩ := hc c (by simp)
      rw [List.flatMap_cons, List.append_assoc] at hb
      obtain ⟨h1, b1, l1⟩ := readBits_value hc2 hb
      obtain ⟨seq, z, bs, hpc, hcs, rfl⟩ := putCodes_cons.mp hput
      rw [List.length_append] at ha
      have hlt := s.lz.left.isLt
      generalize hs1 : ({ s.afterRead width with lz := { s.lz with left := BitVec.ofNat 32 (s.lz.left.toNat - 1) } } : State) = s1
      have hput1 := lzPut_ok (code := c) (s := s1) (seq := seq) (x := x) (y := z) (by rw [← hs1]; exact hp) (by rw [← hs1]; exact hx)
        (by rw [← hs1]; exact hpc) (by rw [← hs1]; exact sinkAccepts_mono ha (by omega))
      generalize hs2 : ({ s1.afterBytes seq with lz := { s1.lz with dict := z.1, prev := z.2 } } : State) = s2 at hput1
      have hturn : lzTurnB s = .done () s2 := by
        unfold lzTurnB
        rw [hwd, h1, done_andThen]
        have hlz : (s.afterRead width).lz = s.lz := rfl
        simp only [hlz, hm]
        rw [show min + (c - min) = c by omega, if_neg (by omega), hs1, hput1]
        rfl
      have f1 : Flows s width [] s1 := by rw [← hs1]; exact (flows_read _ _).congr rfl rfl rfl rfl
      have f2 : Flows s width seq s2 := by
        have := f1.trans (flows_bytes s1 seq) l1
        rw [← hs2]
        exact this.congr rfl rfl rfl rfl
      have hlz2 : s2.lz = { s.lz with dict := z.1, prev := z.2, left := BitVec.ofNat 32 (s.lz.left.toNat - 1) } := by
        rw [← hs2, ← hs1]
      have hpar2 : s2.params = s.params := by rw [← hs2, ← hs1]; rfl
      obtain ⟨t, ht, ft, hph⟩ := ih (k := k) (s := s2) (bytes := bs) (x := z)
        (by rw [hlz2]; exact hp) (fun d hd => hc d (by simp [hd])) (by rw [hlz2]; exact hm) (by rw [hlz2]; exact hwd) (by
          rw [hlz2]
          simp only [BitVec.toNat_ofNat]
          rw [Nat.mod_eq_of_lt (by omega), hl]; simp)
        (by simp at hk; omega) (by rw [hlz2]; exact ⟨rfl, rfl⟩) (by rw [hpar2]; exact hcs) (by
          rw [f2.bitsAhead l1, hb]
          exact List.drop_left' (by simp))
        (by rw [f2.2.2.1]; exact sinkAccepts_drop ha)
      refine ⟨t, ?_, ?_, hph⟩
      · have hne : s.lz.left ≠ 0 := by intro h0; rw [h0] at hl; simp at hl
        rw [lzLoopB, if_neg hne, hturn, done_andThen, ht]
      · have := f2.trans ft l1
        rw [List.length_cons, Nat.succ_mul, Nat.add_comm]
        exact this

theorem length_flatMap_fields (w : Nat) (f : Nat → Nat) (cs : List Nat) :
    (cs.flatMap fun c => fieldBits w (f c)).length = cs.length * w := by
  induction cs with
  | nil => simp
  | cons c cs ih => simp only [List.flatMap_cons, List.length_append, fieldBits_length, ih, List.length_cons, Nat.succ_mul]; omega

theorem readLzwHeader_ok {n min width : Nat} {s : State} {rest : List Bool} (hn : n < 2 ^ 32) (hmin : min < 2 ^ 32)
    (hwd : width < 2 ^ 8) (hw : n = 0 ∨ width ≤ 32)
    (hb : s.bitsAhead = fieldBits 32 n ++ fieldBits 32 min ++ fieldBits 8 width ++ rest) :
    readLzwHeader s = .done () { s.afterRead 72 with lz := { s.lz with
        left := BitVec.ofNat 32 n, min := BitVec.ofNat 32 min, width := BitVec.ofNat 8 width } } ∧
      (s.afterRead 72).bitsAhead = rest ∧ 72 ≤ s.bitsAhead.length := by
  simp only [List.append_assoc] at hb
  obtain ⟨h1, b1, l1⟩ := readBits_value hn hb
  have h2 := readBits_next (s := { s with lz := { s.lz with left := BitVec.ofNat 32 n } }) l1 hmin b1
  have h3 := readBits_next (s := { s with lz := { s.lz with left := BitVec.ofNat 32 n, min := BitVec.ofNat 32 min } }) h2.2.2 hwd h2.2.1
  refine ⟨?_, h3.2.1, h3.2.2⟩
  unfold readLzwHeader
  rw [h1, done_andThen]
  refine (congrArg (Run.andThen · _) h2.1).trans ?_
  rw [done_andThen]
  refine (congrArg (Run.andThen · _) h3.1).trans ?_
  rw [done_andThen]
  dsimp only
  rw [if_neg]
  · rfl
  · rintro ⟨ha, hb⟩
    rcases hw with rfl | hw
    · exact ha rfl
    · rw [BitVec.toNat_ofNat, Nat.mod_eq_of_lt hwd] at hb; omega

/-- `LZ.DECODEB` on a bit-packed stream whose codes reach no limit (44_lzw R265). -/
theorem lzDecodeB_ok {cs : List Nat} {min width : Nat} {s : State} {rest : List Bool} {bytes : List Byte} {y : DictPrev}
    (hp : s.lz.phase = .idle) (hn : cs.length < 2 ^ 32) (hmin : min < 2 ^ 32) (hwd : width < 2 ^ 8) (hw : cs.length = 0 ∨ width ≤ 32)
    (hc : ∀ c ∈ cs, min ≤ c ∧ c - min < 2 ^ width ∧ c < 2 ^ 32) (hput : putCodes s.params cs (seedDict, []) = some (bytes, y))
    (hb : (brInit s).bitsAhead = packedBits min width cs ++ rest) (ha : sinkAccepts bytes.length s.sink = true) :
    ∃ t, lzDecodeB s = .done () t ∧ Flows (brInit s) (packedBits min width cs).length bytes t := by
  have hb' : (brInit s).bitsAhead = fieldBits 32 cs.length ++ fieldBits 32 min ++ fieldBits 8 width ++
      (cs.flatMap (fun c => fieldBits width (c - min)) ++ rest) := by rw [hb, packedBits, List.append_assoc]
  obtain ⟨h1, b1, l1⟩ := readLzwHeader_ok hn hmin hwd hw hb'
  generalize hs1 : ({ (brInit s).afterRead 72 with lz := { (brInit s).lz with
    left := BitVec.ofNat 32 cs.length, min := BitVec.ofNat 32 min, width := BitVec.ofNat 8 width } } : State) = s1 at h1
  have h2 := lzBegin_ok (s := s1) (by rw [← hs1]; exact hp)
  generalize hs2 : ({ s1 with lz := { s1.lz with dict := seedDict, prev := [], phase := .active } } : State) = s2 at h2
  have f2 : Flows (brInit s) 72 [] s2 := by rw [← hs2, ← hs1]; exact (flows_read _ _).congr rfl rfl rfl rfl
  obtain ⟨t, ht, ft, hph⟩ := lzLoopB_ok (cs := cs) (min := min) (width := width) (k := s2.lz.left.toNat) (s := s2)
    (x := (seedDict, [])) (bytes := bytes) (y := y) (rest := rest)
    (by rw [← hs2]) hc (by rw [← hs2, ← hs1]; exact Nat.mod_eq_of_lt hmin) (by rw [← hs2, ← hs1]; exact Nat.mod_eq_of_lt hwd)
    (by rw [← hs2, ← hs1]; exact Nat.mod_eq_of_lt hn) (by rw [← hs2, ← hs1]; exact (Nat.mod_eq_of_lt hn).ge)
    (by rw [← hs2]; exact ⟨rfl, rfl⟩) (by rw [← hs2, ← hs1]; exact hput) (by rw [bitsAhead_congr f2.1 f2.2.1]; exact b1)
    (by rw [f2.2.2.1]; exact ha)
  refine ⟨closeLz t, ?_, ?_⟩
  · unfold lzDecodeB
    rw [if_neg (by simp [hp]), h1, done_andThen, h2, done_andThen, ht, done_onRaise, done_andThen, lzEnd_ok (by rw [hph]; decide)]
  · have := f2.trans ft l1
    have hlen : (packedBits min width cs).length = 72 + cs.length * width := by
      simp only [packedBits, List.length_append, fieldBits_length, length_flatMap_fields]
    rw [hlen]
    exact this.congr rfl rfl rfl rfl

/-! ### The plain framing (44_lzw R266) -/

/-- A read from an exhausted reader is a fill and a read from the fresh byte. -/
theorem readBits_fill (n : Nat) {s : State} (h8 : s.rd.off = 8) :
    readBits (n + 1) s = (tryFill s).andThen fun filled t => if filled then readBits (n + 1) t else .raised .ioRead t := by
  have hoff : ∀ (b : Byte) (i : List ReadAnswer) (tr : List ChanEvent) (p : Nat),
      readBit { s with rd := ⟨b, 0, p⟩, input := i, trace := tr } = takeBit { s with rd := ⟨b, 0, p⟩, input := i, trace := tr } :=
    fun b i tr p => by unfold readBit; exact if_neg (fun e => by cases e)
  rw [readBits, readBit, if_pos h8]
  unfold tryFill chanRead
  split
  · rfl
  · rfl
  · simp only [done_andThen, if_true, readBits]
    rw [hoff]
  · rfl

/-- `None` at a code boundary ends the loop (44_lzw R266). -/
theorem tryFill_dry {s : State} (hl : leadBytes s.input = []) (ha : dryAnswer s.input = true) :
    tryFill s = .done false { s with input := s.input.tail, trace := .read .block none :: s.trace } := by
  unfold dryAnswer at ha
  rw [hl] at ha
  match hin : s.input with
  | [] => simp [tryFill, chanRead, hin]
  | .none :: r => simp [tryFill, chanRead, hin]
  | .never :: r => simp [hin] at ha
  | .byte b :: r => simp [hin, leadBytes] at hl

theorem dryAnswer_afterRead {s : State} {n : Nat} (h : n ≤ s.bitsAhead.length) :
    dryAnswer (s.afterRead n).input = dryAnswer s.input := by
  have hp : pullCount s.rd.off n ≤ (leadBytes s.input).length := pullCount_le (by rwa [bitsAhead_length] at h)
  have hin : (s.afterRead n).input = s.input.drop (pullCount s.rd.off n) := rfl
  unfold dryAnswer
  rw [hin, leadBytes_drop hp, List.drop_drop, List.length_drop, Nat.add_sub_cancel' hp]

theorem afterDry_congr {s t : State} (h1 : t.input = s.input) (h2 : t.rd = s.rd) :
    t.afterDry.input = s.afterDry.input ∧ t.afterDry.rd = s.afterDry.rd := by
  simp [State.afterDry, h1, h2]

theorem lzLoopP_ok {cs : List Nat} {k : Nat} {s : State} {bytes : List Byte} {x y : DictPrev} (hp : s.lz.phase = .active)
    (hc : ∀ c ∈ cs, c < 2 ^ 32) (hk : cs.length < k) (h8 : s.rd.off = 8) (hx : s.lz.holds x)
    (hput : putCodes s.params cs x = some (bytes, y)) (hb : s.bitsAhead = plainBits cs) (hdry : dryAnswer s.input = true)
    (ha : sinkAccepts bytes.length s.sink = true) :
    ∃ t, lzLoopP k s = .done () t ∧ t.input = s.afterDry.input ∧ t.rd = s.afterDry.rd ∧ t.sink = s.sink.drop bytes.length ∧
      t.output = s.output ++ bytes ∧ t.lz.phase = .active := by
  induction cs generalizing k s bytes x with
  | nil =>
    cases hput
    cases k with
    | zero => simp at hk
    | succ k =>
      have hl : leadBytes s.input = [] := by
        have := bitsAhead_length s
        rw [hb] at this
        exact List.length_eq_zero_iff.mp (by simp [plainBits] at this; omega)
      refine ⟨{ s with input := s.input.tail, trace := .read .block none :: s.trace },
        by rw [lzLoopP, tryFill_dry hl hdry]; rfl, ?_, ?_, rfl, ?_, hp⟩
      · simp [State.afterDry, hl]
      · simp only [State.afterDry, hl, List.getLastD_nil, List.length_nil, Nat.add_zero]
        rw [← h8]
      · simp [State.output, acceptedBytes]
  | cons c cs ih =>
    cases k with
    | zero => simp at hk
    | succ k =>
      have hb' : s.bitsAhead = fieldBits 32 c ++ plainBits cs := hb
      obtain ⟨h1, b1, l1⟩ := readBits_value (hc c (by simp)) hb'
      obtain ⟨seq, z, bs, hpc, hcs, rfl⟩ := putCodes_cons.mp hput
      rw [List.length_append] at ha
      have hfill := readBits_fill 31 h8
      rw [h1] at hfill
      obtain ⟨filled, s0, h0, hread⟩ := andThen_eq_done.mp hfill.symm
      have hfilled : filled = true := by
        cases filled with
        | true => rfl
        | false => cases hread
      subst hfilled
      simp only [if_true] at hread
      have hput1 := lzPut_ok (code := c) (s := s.afterRead 32) (seq := seq) (x := x) (y := z) hp hx hpc (sinkAccepts_mono ha (by omega))
      generalize hs2 : ({ (s.afterRead 32).afterBytes seq with lz := { (s.afterRead 32).lz with dict := z.1, prev := z.2 } } : State) = s2
        at hput1
      have f2 : Flows s 32 seq s2 := by
        have := (flows_read s 32).trans (flows_bytes (s.afterRead 32) seq) l1
        rw [← hs2]
        exact this.congr rfl rfl rfl rfl
      have hlz2 : s2.lz = { s.lz with dict := z.1, prev := z.2 } := by rw [← hs2]; rfl
      have hpar2 : s2.params = s.params := by rw [← hs2]; rfl
      have hoff2 : s2.rd.off = 8 := by
        apply Fin.ext
        rw [f2.2.1, afterRead_off, h8]
        rfl
      obtain ⟨t, ht, t1, t2, t3, t4, t5⟩ := ih (k := k) (s := s2) (bytes := bs) (x := z) (by rw [hlz2]; exact hp)
        (fun d hd => hc d (by simp [hd])) (by simp at hk; omega) hoff2 (by rw [hlz2]; exact ⟨rfl, rfl⟩) (by rw [hpar2]; exact hcs)
        (by rw [f2.bitsAhead l1, hb']; exact List.drop_left' (by simp)) (by rw [f2.1, dryAnswer_afterRead l1]; exact hdry)
        (by rw [f2.2.2.1]; exact sinkAccepts_drop ha)
      obtain ⟨e1, e2⟩ := afterDry_congr f2.1 f2.2.1
      rw [afterDry_afterRead l1] at e1 e2
      refine ⟨t, ?_, t1.trans e1, t2.trans e2, ?_, ?_, t5⟩
      · rw [lzLoopP, h0, done_andThen, if_pos rfl, hread, done_andThen, hput1, done_andThen, ht]
      · rw [t3, f2.2.2.1, List.drop_drop, List.length_append]
      · rw [t4, f2.2.2.2, List.append_assoc]

/-- `LZ.DECODEP` on a plain stream whose codes reach no limit, up to the end of the channel (44_lzw R266). -/
theorem lzDecodeP_ok {cs : List Nat} {s : State} {bytes : List Byte} {y : DictPrev} (hp : s.lz.phase = .idle)
    (hc : ∀ c ∈ cs, c < 2 ^ 32) (hput : putCodes s.params cs (seedDict, []) = some (bytes, y))
    (hb : (brInit s).bitsAhead = plainBits cs) (hdry : dryAnswer s.input = true) (ha : sinkAccepts bytes.length s.sink = true) :
    ∃ t, lzDecodeP s = .done () t ∧ t.input = (brInit s).afterDry.input ∧ t.rd = (brInit s).afterDry.rd ∧
      t.sink = s.sink.drop bytes.length ∧ t.output = s.output ++ bytes := by
  have h2 := lzBegin_ok (s := brInit s) hp
  generalize hs2 : ({ brInit s with lz := { (brInit s).lz with dict := seedDict, prev := [], phase := .active } } : State) = s2 at h2
  have hin : s2.input = s.input := by rw [← hs2]; rfl
  have hk : cs.length < s2.input.length + 1 := by
    have h1 := bitsAhead_length (brInit s)
    rw [hb, plainBits, length_flatMap_fields 32 fun c => c] at h1
    have h3 : (leadBytes s.input).length ≤ s.input.length := by
      have := congrArg List.length (input_eq_lead s.input)
      rw [List.length_append, List.length_map] at this; omega
    have h4 : (brInit s).rd.off.val = 8 := rfl
    have h5 : (brInit s).input = s.input := rfl
    rw [h4, h5] at h1
    rw [hin]; omega
  obtain ⟨t, ht, t1, t2, t3, t4, t5⟩ := lzLoopP_ok (cs := cs) (k := s2.input.length + 1) (s := s2) (x := (seedDict, [])) (bytes := bytes)
    (y := y) (by rw [← hs2]) hc hk (by rw [← hs2]; rfl) (by rw [← hs2]; exact ⟨rfl, rfl⟩) (by rw [← hs2]; exact hput)
    (by rw [← hs2]; exact hb) (by rw [hin]; exact hdry) (by rw [← hs2]; exact ha)
  obtain ⟨e1, e2⟩ := afterDry_congr (s := brInit s) (t := s2) (by rw [← hs2]) (by rw [← hs2])
  refine ⟨closeLz t, ?_, t1.trans e1, t2.trans e2, ?_, ?_⟩
  · unfold lzDecodeP
    rw [if_neg (by simp [hp]), h2, done_andThen, ht, done_onRaise, done_andThen, lzEnd_ok (by rw [t5]; decide)]
  · show t.sink = _
    rw [t3, ← hs2]; rfl
  · show t.output = _
    rw [t4, ← hs2]; rfl

end Sys2Proof.Machine
end

