-- ==== Sys2Proof/Laws/StreamEnds.lean ====
section
/-! SUPPORT. Reading and writing to the end of a channel, and what a finished parse says of the bits it read. -/

namespace Sys2Proof.Machine

open Sys2Proof.Wire

/-- Bit k of a field is the k-th bit read (20_memory R63). -/
theorem fieldValue_testBit (bs : List Bool) (k : Nat) : (fieldValue bs).testBit k = bs.getD k false := by
  induction bs generalizing k with
  | nil => simp [fieldValue]
  | cons b bs ih =>
    cases k with
    | zero => simp [fieldValue, Nat.testBit_zero]; cases b <;> simp
    | succ k =>
      rw [Nat.testBit_succ]
      have : fieldValue (b :: bs) / 2 = fieldValue bs := by simp only [fieldValue]; have := b.toNat_lt; omega
      rw [this, ih]; simp

/-- A read that ran to its end had its bits there. -/
theorem readBits_done {n : Nat} {s t : State} {v : Nat} (h : readBits n s = .done v t) : n ≤ s.bitsAhead.length := by
  by_contra hn
  have hlt : s.bitsAhead.length < n := by omega
  by_cases ha : dryAnswer s.input = true
  · rw [readBits_dry hlt ha] at h; cases h
  · induction n generalizing s v with
    | zero => omega
    | succ n ih =>
      match hb : s.bitsAhead with
      | [] =>
        have hl := bitsAhead_length s
        rw [hb] at hl; simp at hl
        have hoff : s.rd.off = 8 := by apply Fin.ext; have := s.rd.off.isLt; show s.rd.off.val = 8; omega
        have hlead : leadBytes s.input = [] := by apply List.length_eq_zero_iff.mp; omega
        unfold readBits readBit tryFill chanRead at h
        rw [if_pos hoff] at h
        unfold dryAnswer at ha
        rw [hlead] at ha
        match hin : s.input with
        | [] => rw [hin] at ha; simp at ha
        | .none :: r => rw [hin] at ha; simp at ha
        | .never :: r => rw [hin] at h; simp at h
        | .byte b :: r => rw [hin] at hlead; simp [leadBytes] at hlead
      | b :: bs =>
        obtain ⟨h1, h2⟩ := readBit_ok hb
        simp only [readBits, h1, done_andThen] at h
        rw [andThen_eq_done] at h
        obtain ⟨a, u, h3, h4⟩ := h
        have h1le : 1 ≤ s.bitsAhead.length := by rw [hb]; simp
        have h5 : ¬ dryAnswer (s.afterRead 1).input = true := by rw [dryAnswer_afterRead h1le]; exact ha
        simp at h4
        refine ih (by rw [h4.2] at h3; exact h3) ?_ ?_ h5 <;> rw [h2] <;> rw [hb] at hn hlt <;> simp at hn hlt <;> omega

/-- Whole bytes carry exactly their bits. -/
theorem bitsOf_packBits_full {bits : List Bool} {k : Nat} (h : bits.length = 8 * k) : (packBits bits).flatMap bitsOfByte = bits := by
  rw [bitsOf_packBits]
  have : 8 * ((bits.length + 7) / 8) - bits.length = 0 := by omega
  rw [this]; simp

/-- What a bit write hands to the output channel (40_bitstream R146). -/
theorem output_afterWrite (s : State) (bits : List Bool) : (s.afterWrite bits).output = s.output ++ packBits ((s.wr.pending ++ bits).take (8 * ((s.wr.pending ++ bits).length / 8))) := by
  have h := (flows_bytes s (packBits ((s.wr.pending ++ bits).take (8 * ((s.wr.pending ++ bits).length / 8))))).2.2.2
  rw [← h]; rfl

/-- A write in two parts (40_bitstream R149). -/
theorem writeBits_add (a b v : Nat) (s : State) : writeBits (a + b) v s = (writeBits a v s).andThen fun _ t => writeBits b (v / 2 ^ a) t := by
  induction a generalizing v s with
  | zero => simp [writeBits]
  | succ a ih =>
    rw [Nat.succ_add]
    simp only [writeBits, andThen_assoc, ih, Nat.div_div_eq_div_mul]
    rw [pow_succ, Nat.mul_comm (2^a) 2]

/-- Two fields in a row are one field of the joined width (40_bitstream R149). -/
theorem field_join (bs : List Bool) (a b : Nat) (h : a + b ≤ 32) : BitVec.ofNat 32 (fieldValue (bs.take (a + b))) =
    BitVec.ofNat 32 (fieldValue (bs.take a)) ||| BitVec.ofNat 32 (fieldValue ((bs.drop a).take b)) <<< a := by
  apply BitVec.eq_of_getLsbD_eq
  intro i hi
  simp only [BitVec.getLsbD_or, BitVec.getLsbD_shiftLeft, BitVec.getLsbD_ofNat, fieldValue_testBit, List.getD_eq_getElem?_getD, List.getElem?_take, List.getElem?_drop]
  by_cases h1 : i < a
  · simp [h1, hi, show i < a + b by omega]
  · have e : a + (i - a) = i := by omega
    have e3 : i - a < 32 := by omega
    rw [e]
    by_cases h2 : i < a + b
    · simp [h1, hi, e3, h2, show i - a < b by omega]
    · simp [h1, hi, e3, h2, show ¬ i - a < b by omega]

/-- What a read that ran to its end says of the bits ahead. -/
theorem readBits_inv {n : Nat} {s t : State} {v : Nat} (h : readBits n s = .done v t) :
   v < 2 ^ n ∧ t = s.afterRead n ∧ s.bitsAhead = fieldBits n v ++ t.bitsAhead ∧ n ≤ s.bitsAhead.length := by
  have hl := readBits_done h
  have hr := readBits_ok hl
  rw [hr.1] at h
  have hv : v = fieldValue (s.bitsAhead.take n) := by cases h; rfl
  have ht : t = s.afterRead n := by cases h; rfl
  subst hv ht
  refine ⟨?_, rfl, ?_, hl⟩
  · have := fieldValue_lt (s.bitsAhead.take n); simpa [hl] using this
  · have e := fieldBits_fieldValue (s.bitsAhead.take n)
    rw [List.length_take, Nat.min_eq_left hl] at e
    rw [e, hr.2, List.take_append_drop]

/-- A table header that was read is the header in the stream (30_encoding R101). -/
theorem readTableHeader_inv {s t : State} {h : TableHeader} (hh : readTableHeader s = .done h t) :
    s.bitsAhead = tableHeaderBits h ++ t.bitsAhead ∧ h.valueBits < 2 ^ 32 ∧ h.codeBits < 2 ^ 32 ∧ h.lengthBits < 2 ^ 32 ∧ h.minValue < 2 ^ 8 ∧
        h.minCode < 2 ^ 32 ∧ h.minLength < 2 ^ 32 ∧ t.ct = s.ct ∧ t.ctValid = s.ctValid := by
  unfold readTableHeader at hh
  simp only [andThen_eq_done] at hh
  obtain ⟨a1, s1, h1, a2, s2, h2, a3, s3, h3, a4, s4, h4, a5, s5, h5, a6, s6, h6, a7, s7, h7, hd⟩ := hh
  obtain ⟨l1, e1, b1, -⟩ := readBits_inv h1
  obtain ⟨l2, e2, b2, -⟩ := readBits_inv h2
  obtain ⟨l3, e3, b3, -⟩ := readBits_inv h3
  obtain ⟨l4, e4, b4, -⟩ := readBits_inv h4
  obtain ⟨l5, e5, b5, -⟩ := readBits_inv h5
  obtain ⟨l6, e6, b6, -⟩ := readBits_inv h6
  obtain ⟨l7, e7, b7, -⟩ := readBits_inv h7
  have ht : t = s7 := by cases hd; rfl
  have hh : h = ⟨a1, a2, a3, a4, a5, a6, a7⟩ := by cases hd; rfl
  subst ht hh
  refine ⟨?_, l2, l3, l4, l5, l6, l7, ?_, ?_⟩
  · rw [b1, b2, b3, b4, b5, b6, b7]; simp [tableHeaderBits]
  · rw [e7, e6, e5, e4, e3, e2, e1]; rfl
  · rw [e7, e6, e5, e4, e3, e2, e1]; rfl

/-- Entries that were loaded are the entries in the stream (30_encoding R102, 41_code_table R171). -/
theorem loadEntries_inv {h : TableHeader} {k floor : Nat} {s t : State} (hr : loadEntries h k floor s = .done () t) :
    ∃ es : List Entry, es.length = k ∧ (∀ e ∈ es, e.legal = true ∧ e.fits h = true ∧ floor ≤ e.value) ∧ es.Pairwise (fun a b => a.value < b.value) ∧
      s.bitsAhead = es.flatMap (entryBits h) ++ t.bitsAhead := by
  induction k generalizing floor s with
  | zero => simp [loadEntries] at hr; subst hr; exact ⟨[], rfl, by simp, by simp, by simp⟩
  | succ k ih =>
    unfold loadEntries at hr
    simp only [andThen_eq_done] at hr
    obtain ⟨dv, s1, h1, dc, s2, h2, dl, s3, h3, hr⟩ := hr
    obtain ⟨l1, e1, b1, -⟩ := readBits_inv h1
    obtain ⟨l2, e2, b2, -⟩ := readBits_inv h2
    obtain ⟨l3, e3, b3, -⟩ := readBits_inv h3
    split at hr
    · rename_i hacc
      rw [entryAccepted_iff] at hacc
      obtain ⟨c1, c2, c3, c4, c5⟩ := hacc
      obtain ⟨es, g1, g2, g3, g4⟩ := ih hr
      refine ⟨⟨h.minValue + dv, h.minCode + dc, h.minLength + dl⟩ :: es, by simp [g1], ?_, ?_, ?_⟩
      · intro e he
        rcases List.mem_cons.mp he with rfl | he
        · refine ⟨?_, ?_, c2⟩
          · simp [Entry.legal]; omega
          · simp [Entry.fits]; omega
        · obtain ⟨x, y, z⟩ := g2 e he
          exact ⟨x, y, by omega⟩
      · refine List.pairwise_cons.mpr ⟨fun e he => ?_, g3⟩
        have := (g2 e he).2.2; simp only; omega
      · have : (setEntry (h.minValue + dv) (h.minCode + dc) (h.minLength + dl) s3).bitsAhead = s3.bitsAhead := rfl
        rw [this] at g4
        rw [b1, b2, b3, g4]
        simp [entryBits]
    · cases hr

/-- A read that the channel cuts short ends the parse. -/
theorem readBits_raised {n : Nat} {s : State} (h : s.bitsAhead.length < n) (ha : dryAnswer s.input = true) {α} (k : Nat → State → Run α) :
    (readBits n s).andThen k = .raised .ioRead s.afterDry := by rw [readBits_dry h ha]; rfl

/-- A read in front of a parse that the channel cuts short. -/
theorem cut_step {α} {n : Nat} {s : State} {d : State} {k : Nat → State → Run α} (ha : dryAnswer s.input = true) (hd : s.afterDry = d)
    (hk : ∀ v, n ≤ s.bitsAhead.length → (k v (s.afterRead n)) = .raised .ioRead d) :
    (readBits n s).andThen k = .raised .ioRead d := by
  by_cases h : n ≤ s.bitsAhead.length
  · rw [(readBits_ok h).1]; exact hk _ h
  · rw [readBits_raised (by omega) ha, hd]

/-- The same, for a read that comes after `m` bits of the parse. -/
theorem cut_next {α : Type} {m n : Nat} {s : State} {k : Nat → State → Run α} (ha : dryAnswer s.input = true)
    (hm : m ≤ s.bitsAhead.length)
    (hk : ∀ v, m + n ≤ s.bitsAhead.length → k v (s.afterRead (m + n)) = .raised .ioRead s.afterDry) :
    (readBits n (s.afterRead m)).andThen k = .raised .ioRead s.afterDry := by
  refine cut_step (by rw [dryAnswer_afterRead hm]; exact ha) (afterDry_afterRead hm) fun v hv => ?_
  rw [(readBits_ok hm).2, List.length_drop] at hv
  rw [afterRead_afterRead hm]
  exact hk v (by omega)

/-- A table cut inside its header is `IO_READ` (60_exceptions R308). -/
theorem readTableHeader_cut {s : State} (h : s.bitsAhead.length < 200) (ha : dryAnswer s.input = true) :
    readTableHeader s = .raised .ioRead s.afterDry := by
  unfold readTableHeader
  conv => lhs; rw [← afterRead_zero s]
  iterate 7 refine cut_next ha (by omega) fun _ _ => ?_
  omega

/-- Bytes emitted until the channel refuses one (40_bitstream R144). -/
theorem emitAll_refused (bs : List Byte) : ∀ (k : Nat) (as : List WriteAnswer) (s : State), s.sink = List.replicate k .ok ++ .fail :: as → k < bs.length →
    ∃ t, emitAll bs s = .raised .ioWrite t ∧ t = { s with sink := t.sink, trace := t.trace } ∧ t.sink = as ∧ t.output = s.output ++ bs.take k := by
  induction bs with
  | nil => intro k as s _ h; simp at h
  | cons b bs ih =>
    intro k as s hs hk
    cases k with
    | zero =>
      rw [List.replicate_zero, List.nil_append] at hs
      refine ⟨{ s with sink := as, trace := .write .block b false :: s.trace }, ?_, rfl, rfl, ?_⟩
      · simp [emitAll, emit, chanWrite, hs]
      · simp [State.output, acceptedBytes]
    | succ k =>
      rw [List.replicate_succ, List.cons_append] at hs
      have h1 : emit b s = .done () { s with sink := List.replicate k .ok ++ .fail :: as, trace := .write .block b true :: s.trace } := by
        simp [emit, chanWrite, hs]
      obtain ⟨t, g1, g2, g3, g4⟩ := ih k as { s with sink := List.replicate k .ok ++ .fail :: as, trace := .write .block b true :: s.trace } rfl (by simp at hk; omega)
      refine ⟨t, by rw [emitAll, h1, done_andThen, g1], by rw [g2], g3, ?_⟩
      rw [g4]; simp [State.output, acceptedBytes]

/-- After `BR.INIT` the bits ahead are those of the channel. -/
theorem brInit_bitsAhead (s : State) : (brInit s).bitsAhead = (leadBytes s.input).flatMap bitsOfByte := by
  show (bitsOfByte s.rd.holder).drop 8 ++ _ = _
  simp [bitsOfByte]

/-- A packed stream in the channel is the bits ahead, then its padding. -/
theorem packed_ahead {s : State} {bits : List Bool} {rest : List ReadAnswer} (h : s.input = (packBits bits).map .byte ++ rest) :
    (brInit s).bitsAhead = bits ++ (List.replicate (8 * ((bits.length + 7) / 8) - bits.length) false ++ (leadBytes rest).flatMap bitsOfByte) := by
  rw [brInit_bitsAhead, h, leadBytes_map_byte, List.flatMap_append, bitsOf_packBits, List.append_assoc]

/-- Reading the bits of a packed stream takes exactly its bytes (20_memory R66). -/
theorem packed_input {s : State} {bits : List Bool} {rest : List ReadAnswer} (h : s.input = (packBits bits).map .byte ++ rest) :
    ((brInit s).afterRead bits.length).input = rest := by
  show s.input.drop (pullCount (8 : Fin 9) bits.length) = rest
  have : pullCount (8 : Fin 9) bits.length = (packBits bits).length := by simp [packBits]; unfold pullCount; rfl
  rw [h, this, List.drop_append_of_le_length (by simp)]
  simp

/-- An RLE header cut short is `IO_READ` (42_rle R191). -/
theorem readRleHeader_cut {s : State} (h : s.bitsAhead.length < 64) (ha : dryAnswer s.input = true) :
    readRleHeader s = .raised .ioRead s.afterDry := by
  unfold readRleHeader
  conv => lhs; rw [← afterRead_zero s]
  iterate 5 refine cut_next ha (by omega) fun _ _ => ?_
  omega

/-- A read that the channel cuts short writes nothing. -/
theorem output_afterDry (s : State) : s.afterDry.output = s.output := by
  simp only [State.output, State.afterDry, List.cons_append, acceptedBytes, acceptedBytes_reads]

/-- A channel that accepts `k` bytes and then answers otherwise accepts `k`. -/
theorem sinkAccepts_replicate (k : Nat) (as : List WriteAnswer) : sinkAccepts k (List.replicate k .ok ++ as) = true := by
  simp [sinkAccepts]

end Sys2Proof.Machine
end

