-- ==== Sys2Proof/Laws/HuffmanPaths.lean ====
section
/-! SUPPORT. Walking part of a code (43_huffman R221, R223): the nodes inside the trie, and a stream cut inside a code. -/

namespace Sys2Proof.Machine

open Sys2Proof.Wire

/-- The root, or a proper prefix of a code. -/
def interiorPath (ct : CodeTable) (x : List Bool) : Prop := x = [] ∨ ∃ v : Fin 256, ct[v].length ≠ 0 ∧ x <+: pathOf ct[v] ∧ x ≠ pathOf ct[v]

/-- A prefix of such a path is one. -/
theorem interiorPath.of_prefix {ct : CodeTable} {x y : List Bool} (h : interiorPath ct y) (hp : x <+: y) : interiorPath ct x := by
  rcases h with rfl | ⟨v, h1, h2, h3⟩
  · exact .inl (List.prefix_nil.mp hp)
  · refine .inr ⟨v, h1, hp.trans h2, fun e => h3 ?_⟩
    rw [← e]
    have l1 := hp.length_le
    rw [e] at l1
    have l2 := h2.length_le
    exact e ▸ (h2.eq_of_length (by omega)).trans (e ▸ rfl)

/-- The codes of the table are the codes of the trie. -/
theorem codesBelow_path {ct : CodeTable} {v : Fin 256} (h : ct[v].length ≠ 0) : codesBelow ct 256 (pathOf ct[v]) (BitVec.ofNat 8 v) :=
  ⟨v, v.isLt, v.isLt, h, rfl, rfl⟩

/-- Such a path leads to a node that is no leaf. -/
theorem interior_walk {ct : CodeTable} {nodes : List Node} (T : Tree nodes (codesBelow ct 256) []) (hfree : PrefixFree ct) {x : List Bool}
   (h : interiorPath ct x) : ∃ k, walk nodes 0 x = some k ∧ (nodeAt nodes k).leaf = false := by
  have hs : (walk nodes 0 x).isSome := by
    rw [T.paths]
    rcases h with rfl | ⟨v, h1, h2, h3⟩
    · exact .inl rfl
    · exact .inr (.inl ⟨_, _, codesBelow_path h1, h2⟩)
  obtain ⟨k, hk⟩ := Option.isSome_iff_exists.mp hs
  refine ⟨k, hk, ?_⟩
  by_contra hl
  rw [Bool.not_eq_false] at hl
  obtain ⟨w, u, hu, -, hu0, hpu, -⟩ := (T.leaf _ _ hk).mp hl
  rcases h with rfl | ⟨v, h1, h2, h3⟩
  · exact pathOf_ne_nil hu0 hpu.symm
  · by_cases he : (⟨u, hu⟩ : Fin 256) = v
    · subst he; exact h3 hpu
    · exact hfree ⟨u, hu⟩ v he hu0 h1 (by show pathOf ct[u] <+: _; rw [← hpu]; exact h2)

/-- A message at the front of the codes to come is decoded (43_huffman R225). -/
theorem hfLoop_msg {ct : CodeTable} {nodes : List Node} (T : Tree nodes (codesBelow ct 256) []) (hfree : PrefixFree ct)
    {msg : List Byte} (hmsg : ∀ v ∈ msg, ct[v.toFin].length ≠ 0) {k m : Nat} {s : State} {rest : List Bool}
    (hp : s.hf.phase = .active) (hn : s.hf.nodes = nodes) (hc : s.hf.cur = 0) (hl : s.hf.left.toNat = (messageBits ct msg).length + m)
    (hk : (messageBits ct msg).length ≤ k) (hb : s.bitsAhead = messageBits ct msg ++ rest)
    (ha : sinkAccepts msg.length s.sink = true) :
    ∃ t, hfLoop k s = hfLoop (k - (messageBits ct msg).length) t ∧ Flows s (messageBits ct msg).length msg t ∧
      t.hf = { s.hf with cur := 0, left := BitVec.ofNat 32 m } := by
  induction msg generalizing k s with
  | nil =>
    refine ⟨s, by simp [messageBits], .refl s, ?_⟩
    have hz : s.hf.left = BitVec.ofNat 32 m := BitVec.eq_of_toNat_eq (by have := s.hf.left.isLt; simp [messageBits] at hl; simp; omega)
    rw [← hz, ← hc]
  | cons v msg ih =>
    rw [messageBits_cons, List.length_append] at hl hk
    rw [messageBits_cons, List.append_assoc] at hb
    have hv := hmsg v (by simp)
    obtain ⟨t, ht, hft, hthf, htct, htcv⟩ := hfLoop_code T hfree v hv (p := pathOf ct[v.toFin]) (q := []) (m := (messageBits ct msg).length + m)
      (k := k) rfl (pathOf_ne_nil hv) hp hn (by rw [hc]; rfl) (by omega) (by omega) hb (sinkAccepts_mono ha (by simp))
    have hle : (pathOf ct[v.toFin]).length ≤ s.bitsAhead.length := by rw [hb]; simp
    have hlt := s.hf.left.isLt
    have hbt : t.bitsAhead = messageBits ct msg ++ rest := by rw [hft.bitsAhead hle, hb, List.drop_left]
    obtain ⟨u, hu, hfu, huhf⟩ := ih (k := k - (pathOf ct[v.toFin]).length) (s := t) (fun w hw => hmsg w (by simp [hw]))
      (by rw [hthf]; exact hp) (by rw [hthf]; exact hn) (by rw [hthf])
      (by rw [hthf]; exact Nat.mod_eq_of_lt (by omega)) (by omega) hbt
      (by
        rw [hft.2.2.1]
        rw [List.length_cons, Nat.add_comm] at ha
        exact sinkAccepts_drop ha)
    refine ⟨u, by rw [ht, hu, messageBits_cons, List.length_append, Nat.sub_add_eq], ?_, by rw [huhf, hthf]⟩
    have := hft.trans hfu hle
    rw [messageBits_cons, List.length_append]
    exact this

/-- Bits that lead along an interior path are walked and nothing is emitted (43_huffman R223, R225). -/
theorem hfLoop_walk {ct : CodeTable} {nodes : List Node} (T : Tree nodes (codesBelow ct 256) []) (hfree : PrefixFree ct)
    {p q : List Bool} {m j : Nat} {s : State} {rest : List Bool} (hp : s.hf.phase = .active) (hn : s.hf.nodes = nodes)
    (hw : walk nodes 0 q = some s.hf.cur) (hi : interiorPath ct (q ++ p)) (hl : s.hf.left.toNat = p.length + m)
    (hb : s.bitsAhead = p ++ rest) :
    ∃ t c, hfLoop (p.length + j) s = hfLoop j t ∧ Flows s p.length [] t ∧ t.bitsAhead = rest ∧ walk nodes 0 (q ++ p) = some c ∧
      t.hf = { s.hf with cur := c, left := BitVec.ofNat 32 m } ∧ t.ct = s.ct ∧ t.ctValid = s.ctValid := by
  induction p generalizing q s with
  | nil =>
    refine ⟨s, s.hf.cur, by simp, .refl s, hb, by simpa using hw, ?_, rfl, rfl⟩
    have : s.hf.left = BitVec.ofNat 32 m := BitVec.eq_of_toNat_eq (by
      have := s.hf.left.isLt; simp at hl; rw [hl, BitVec.toNat_ofNat, Nat.mod_eq_of_lt (by omega)])
    rw [← this]
  | cons b p ih =>
    rw [List.length_cons] at hl
    have hne : s.hf.left ≠ 0 := by intro h; rw [h] at hl; simp at hl; omega
    obtain ⟨c, hc, hlf⟩ := interior_walk T hfree (hi.of_prefix (x := q ++ [b]) ⟨p, by simp⟩)
    have hchild : (nodeAt s.hf.nodes s.hf.cur).child b = some c := by
      rw [walk_snoc, hw, Option.bind_some] at hc; rw [hn]; exact hc
    obtain ⟨t, ht, hthf, hflow, hct, hcv⟩ := hfTurn_ok hp hchild hb (fun h => by rw [hn, hlf] at h; cases h)
    rw [hn, hlf] at hthf hflow
    simp only [Bool.false_eq_true, if_false] at hthf hflow
    have hlen : 1 ≤ s.bitsAhead.length := by rw [hb]; simp
    have hlt := s.hf.left.isLt
    obtain ⟨u, d, h1, h2, h3, h4, h5, h6, h7⟩ := ih (q := q ++ [b]) (s := t) (by rw [hthf]; exact hp) (by rw [hthf]; exact hn)
      (by rw [hthf]; exact hc) (by simpa using hi)
      (by rw [hthf]; simp only [BitVec.toNat_ofNat]; rw [Nat.mod_eq_of_lt (by omega)]; omega) (by rw [hflow.bitsAhead hlen, hb]; rfl)
    refine ⟨u, d, ?_, ?_, h3, by simpa using h4, by rw [h5, hthf], h6.trans hct, h7.trans hcv⟩
    · rw [List.length_cons, Nat.succ_add, hfLoop, if_neg hne, ht, done_andThen, h1]
    · have := hflow.trans h2 hlen
      rw [List.length_cons, Nat.add_comm]; exact this

/-- A turn of the loop whose channel has no bit is `IO_READ`. -/
theorem hfLoop_dry {j : Nat} {s : State} (hl : s.hf.left ≠ 0) (hb : s.bitsAhead = []) (ha : dryAnswer s.input = true) :
    hfLoop (j + 1) s = .raised .ioRead s.afterDry := by
  rw [hfLoop, if_neg hl]
  unfold hfTurn
  rw [readBits_dry (by rw [hb]; simp) ha]; rfl

/-- A bit that leaves every code is `CORRUPT_NODATA` (43_huffman R223). -/
theorem hfLoop_offTrie {ct : CodeTable} {nodes : List Node} (T : Tree nodes (codesBelow ct 256) []) {q : List Bool} {b : Bool}
    {j : Nat} {s : State} {rest : List Bool} (hp : s.hf.phase = .active) (hn : s.hf.nodes = nodes)
    (hw : walk nodes 0 q = some s.hf.cur) (hoff : ∀ v : Fin 256, ct[v].length ≠ 0 → ¬ (q ++ [b]) <+: pathOf ct[v])
    (hl : s.hf.left ≠ 0) (hb : s.bitsAhead = b :: rest) :
    ∃ t, hfLoop (j + 1) s = .raised .corruptNoData t ∧ Flows s 1 [] t ∧ t.ct = s.ct ∧ t.ctValid = s.ctValid := by
  have hchild : (nodeAt s.hf.nodes s.hf.cur).child b = none := by
    by_contra hne
    obtain ⟨k, hk⟩ := Option.ne_none_iff_exists'.mp hne
    have hs : (walk nodes 0 (q ++ [b])).isSome := by rw [walk_snoc, hw, Option.bind_some, ← hn, hk]; rfl
    rw [T.paths] at hs
    rcases hs with hs | ⟨q', v, ⟨u, hu, -, hu0, rfl, -⟩, hpre⟩ | hs
    · simp at hs
    · exact hoff ⟨u, hu⟩ hu0 hpre
    · simp at hs
  have h1 : readBits 1 s = .done b.toNat (s.afterRead 1) := by
    have := (readBits_field (n := 1) (bits := [b]) (rest := rest) hb rfl).1
    simpa [fieldValue] using this
  have hbit : b.toNat.testBit 0 = b := by cases b <;> rfl
  rw [hfLoop, if_neg hl]
  unfold hfTurn
  rw [h1, done_andThen]
  simp only [hbit]
  unfold hfBit
  rw [if_neg (by simpa using hp)]
  have e : (nodeAt (s.afterRead 1).hf.nodes (s.afterRead 1).hf.cur).child b = none := hchild
  simp only [e, raised_andThen]
  exact ⟨_, rfl, (flows_read s 1).congr rfl rfl rfl rfl, rfl, rfl⟩

/-- A code whose byte the output channel refuses is `IO_WRITE`, its bits read (43_huffman R225, R305). -/
theorem hfLoop_refused {ct : CodeTable} {nodes : List Node} (T : Tree nodes (codesBelow ct 256) []) (hfree : PrefixFree ct)
    {v : Byte} (hv : ct[v.toFin].length ≠ 0) {m j : Nat} {s : State} {rest : List Bool} {as : List WriteAnswer}
    (hp : s.hf.phase = .active) (hn : s.hf.nodes = nodes) (hc : s.hf.cur = 0)
    (hl : s.hf.left.toNat = (pathOf ct[v.toFin]).length + m) (hb : s.bitsAhead = pathOf ct[v.toFin] ++ rest)
    (hs : s.sink = .fail :: as) :
    ∃ t, hfLoop ((pathOf ct[v.toFin]).length + j) s = .raised .ioWrite t ∧ t.sink = as ∧ t.output = s.output ∧
      t.input = (s.afterRead (pathOf ct[v.toFin]).length).input ∧ t.rd = (s.afterRead (pathOf ct[v.toFin]).length).rd := by
  obtain ⟨p, b, hpb⟩ : ∃ p b, pathOf ct[v.toFin] = p ++ [b] :=
    ⟨_, _, (List.dropLast_append_getLast (pathOf_ne_nil hv)).symm⟩
  have hS : codesBelow ct 256 (p ++ [b]) v := by
    have := codesBelow_path hv
    rw [hpb] at this
    simpa using this
  have hlen : (pathOf ct[v.toFin]).length = p.length + 1 := by rw [hpb]; simp
  obtain ⟨t, c, h1, h2, h3, h4, h5, -, -⟩ := hfLoop_walk T hfree (p := p) (q := []) (m := 1 + m) (j := 1 + j) hp hn (by rw [hc]; rfl)
    (.inr ⟨v.toFin, hv, by rw [hpb]; exact List.prefix_append _ _, by rw [hpb]; simp⟩) (by omega)
    (by rw [hb, hpb, List.append_assoc])
  obtain ⟨k, hk⟩ := Option.isSome_iff_exists.mp ((T.paths (p ++ [b])).mpr (.inr (.inl ⟨_, v, hS, List.prefix_rfl⟩)))
  have hchild : (nodeAt t.hf.nodes t.hf.cur).child b = some k := by
    rw [walk_snoc, show walk nodes 0 p = some c from h4, Option.bind_some] at hk
    rw [h5]; simpa [hn] using hk
  have hleaf : (nodeAt t.hf.nodes k).leaf = true := by
    rw [h5]; show (nodeAt s.hf.nodes k).leaf = true
    rw [hn]; exact (T.leaf _ _ hk).mpr ⟨v, hS⟩
  have hlt := s.hf.left.isLt
  have hne : t.hf.left ≠ 0 := by
    intro e
    have : (BitVec.ofNat 32 (1 + m)).toNat = 0 := by rw [h5] at e; exact congrArg BitVec.toNat e
    rw [BitVec.toNat_ofNat, Nat.mod_eq_of_lt (by omega)] at this
    omega
  have hread : readBits 1 t = .done b.toNat (t.afterRead 1) := by
    have := (readBits_field (n := 1) (bits := [b]) (rest := rest) h3 rfl).1
    simpa [fieldValue] using this
  have hbit : b.toNat.testBit 0 = b := by cases b <;> rfl
  have hle : p.length ≤ s.bitsAhead.length := by rw [hb, hpb]; simp
  have hsink : t.sink = .fail :: as := by rw [h2.2.2.1, hs]; rfl
  have hphase : t.hf.phase = .active := by rw [h5]; exact hp
  have hhf : (t.afterRead 1).hf = t.hf := rfl
  have hsink' : (t.afterRead 1).sink = .fail :: as := hsink
  have hturn : ∃ u, hfTurn t = .raised .ioWrite u ∧ u.sink = as ∧ u.output = t.output ∧ u.input = (t.afterRead 1).input ∧
      u.rd = (t.afterRead 1).rd := by
    unfold hfTurn
    rw [hread, done_andThen, hbit]
    simp only [hhf]
    unfold hfBit
    rw [if_neg (by simp [hphase])]
    simp only [hchild, hleaf, if_true, done_andThen, emit, chanWrite, hsink', Bool.false_eq_true, if_false]
    exact ⟨_, rfl, rfl, by simpa [State.output, acceptedBytes] using output_afterRead t 1, rfl, rfl⟩
  obtain ⟨u, g1, g2, g3, g4, g5⟩ := hturn
  obtain ⟨e1, e2⟩ := afterRead_input_congr 1 h2.1 h2.2.1
  rw [afterRead_afterRead hle, ← hlen] at e1 e2
  refine ⟨u, ?_, g2, by rw [g3, h2.2.2.2]; simp, g4.trans e1, g5.trans e2⟩
  rw [hlen, Nat.add_assoc, h1, Nat.add_comm, hfLoop, if_neg hne, g1]; rfl

theorem messageBits_append (ct : CodeTable) (a b : List Byte) : messageBits ct (a ++ b) = messageBits ct a ++ messageBits ct b := by
  simp [messageBits]

/-- The codes of a message with one symbol more, that symbol's path under a name of its own. -/
theorem messageBits_snoc (ct : CodeTable) (a : List Byte) (v : Byte) :
    ∃ p, pathOf ct[v.toFin] = p ∧ messageBits ct (a ++ [v]) = messageBits ct a ++ p := by
  refine ⟨_, rfl, ?_⟩
  rw [messageBits_append]; simp [messageBits]

/-- `HF.DECODE` up to the end of the symbols that the stream has whole (43_huffman R225). -/
theorem hfDecode_msg {h : TableHeader} {es : List Entry} {msg : List Byte} {total m : Nat} {s : State} {rest : List Bool}
    (hp : s.hf.phase = .idle) (ht : TableOk h es) (hfree : PrefixFree (tableOf es))
    (hmsg : ∀ w ∈ msg, (tableOf es)[w.toFin].length ≠ 0) (htot : total < 2 ^ 32)
    (hm : total = (messageBits (tableOf es) msg).length + m)
    (hb : (brInit s).bitsAhead = tableBits h es ++ fieldBits 32 total ++ (messageBits (tableOf es) msg ++ rest))
    (ha : sinkAccepts msg.length s.sink = true) :
    ∃ u nodes, hfDecode s = (((hfLoop m u).onRaise closeHf).andThen fun _ s => hfEnd s) ∧
      Flows (brInit s) ((tableBits h es).length + 32 + (messageBits (tableOf es) msg).length) msg u ∧ u.bitsAhead = rest ∧
      u.hf = ⟨.active, nodes, 0, BitVec.ofNat 32 m⟩ ∧ Tree nodes (codesBelow (tableOf es) 256) [] := by
  obtain ⟨s3, nodes, h1, f3, b3, hct, hcv, hhf, T⟩ := hfDecode_loop hp ht hfree htot hb
  have hl3 : s3.hf.left.toNat = total := by rw [hhf]; exact Nat.mod_eq_of_lt htot
  obtain ⟨u, h2, f2, hu⟩ := hfLoop_msg T hfree hmsg (k := total) (m := m) (by rw [hhf]) (by rw [hhf]) (by rw [hhf]) (by omega) (by omega) b3
    (by rw [f3.2.2.1]; exact ha)
  have hle3 : (messageBits (tableOf es) msg).length ≤ s3.bitsAhead.length := by rw [b3]; simp
  refine ⟨u, nodes, ?_, ?_, ?_, by rw [hu, hhf], T⟩
  · rw [h1, h2]; congr 3; omega
  · exact f3.trans f2 (by rw [hb]; simp only [List.length_append, fieldBits_length]; omega)
  · rw [f2.bitsAhead hle3, b3, List.drop_left]

end Sys2Proof.Machine
end

