-- ==== Sys2Proof/Laws/LzwAgree.lean ====
section
/-! SUPPORT. The whole-stream LZW commands against the sequence of `LZ.PUT`s they stand for (30_encoding R96, 44_lzw R265, R266). -/

namespace Sys2Proof.Machine

open Sys2Proof.Wire

/-- `LZ.PUT` in an active unit leaves the reader and the input channel alone, and of the unit's registers changes only the dictionary
and `lz_prev`. -/
theorem lzPut_frame {c : Nat} (hc : c < 2 ^ 32) {s : State} (hp : s.lz.phase = .active) : (lzPut c s).Ends
    (fun _ u => u.input = s.input ∧ u.rd = s.rd ∧ u.lz = { s.lz with dict := u.lz.dict, prev := u.lz.prev }) (fun _ _ => True) True := by
  have hends := lzPut_ends c hp
  have hbody := body_ends (i := .lzPut (BitVec.ofNat 32 c)) (s := s) (by simp [violates, hp])
  simp only [bodyOf, BitVec.toNat_ofNat, Nat.mod_eq_of_lt hc] at hbody
  cases hr : lzPut c s with
  | done v u =>
    rw [hr] at hends hbody
    obtain ⟨-, ⟨d, q, hlz⟩, -⟩ := hends
    obtain ⟨-, hframe, -⟩ := hbody
    refine ⟨by rw [hframe], by rw [hframe], ?_⟩
    rw [hlz]
  | raised f u => trivial
  | hung x => trivial

/-- The loop of `LZ.DECODEB` on codes whose deltas are there: it ends as the `LZ.PUT`s of the codes end, and where none fails it goes on
after them. -/
theorem lzLoopB_puts {cs : List Nat} {min width m j : Nat} {s s' : State} {rest : List Bool} (hp : s.lz.phase = .active)
    (hc : ∀ c ∈ cs, min ≤ c ∧ c - min < 2 ^ width ∧ c < 2 ^ 32) (hm : s.lz.min.toNat = min) (hwd : s.lz.width.toNat = width)
    (hl : s.lz.left.toNat = cs.length + m) (hb : s.bitsAhead = cs.flatMap (fun c => fieldBits width (c - min)) ++ rest)
    (h : PutAlike s' s) :
    (lzPuts cs s').Ends
      (fun _ t' => ∃ t, lzLoopB (cs.length + j) s = lzLoopB j t ∧ PutAlike t' t ∧ t.lz.phase = .active ∧ t.bitsAhead = rest ∧
        t.lz.left.toNat = m ∧ t.lz.min = s.lz.min ∧ t.lz.width = s.lz.width ∧ t.input = (s.afterRead (cs.length * width)).input ∧
        t.rd = (s.afterRead (cs.length * width)).rd)
      (fun f t' => ∃ t, lzLoopB (cs.length + j) s = .raised f t ∧ PutAlike t' t) True := by
  induction cs generalizing s s' with
  | nil =>
    exact ⟨s, by simp, h, hp, by simpa using hb, by simpa using hl, rfl, rfl, by simp [afterRead_zero], by simp [afterRead_zero]⟩
  | cons c cs ih =>
    obtain ⟨hc1, hc2, hc3⟩ := hc c (by simp)
    rw [List.flatMap_cons, List.append_assoc] at hb
    obtain ⟨h1, b1, l1⟩ := readBits_value hc2 hb
    have hlt := s.lz.left.isLt
    rw [List.length_cons] at hl
    generalize hs1 : ({ s.afterRead width with lz := { s.lz with left := BitVec.ofNat 32 (s.lz.left.toNat - 1) } } : State) = s1
    have hp1 : s1.lz.phase = .active := by rw [← hs1]; exact hp
    have hput : PutAlike s' s1 := by
      have : PutAlike s s1 := by
        rw [← hs1]; exact ⟨rfl, rfl, rfl, rfl, rfl, output_afterRead s width⟩
      exact h.trans this
    have hloop : lzLoopB ((c :: cs).length + j) s = (lzPut c s1).andThen fun _ t => lzLoopB (cs.length + j) t := by
      have hne : s.lz.left ≠ 0 := by intro h0; rw [h0] at hl; simp at hl; omega
      have hlz : (s.afterRead width).lz = s.lz := rfl
      rw [List.length_cons, Nat.succ_add, lzLoopB, if_neg hne]
      unfold lzTurnB
      rw [hwd, h1, done_andThen]
      simp only [hlz, hm, show min + (c - min) = c by omega, hs1]
      rw [if_neg (by omega), andThen_assoc]
      rfl
    have hrel := keeps_putAlike.lzPut c hput
    have hframe := lzPut_frame hc3 hp1
    rw [lzPuts, hloop]
    cases hr' : lzPut c s' with
    | done v' u' =>
      cases hr : lzPut c s1 with
      | done v u =>
        rw [hr', hr] at hrel
        obtain ⟨rfl, hu⟩ := hrel
        rw [hr] at hframe
        obtain ⟨f1, f2, f3⟩ := hframe
        have hlz1 : s1.lz = { s.lz with left := BitVec.ofNat 32 (s.lz.left.toNat - 1) } := by rw [← hs1]
        have hin : u.input = (s.afterRead width).input := by rw [f1, ← hs1]
        have hrd : u.rd = (s.afterRead width).rd := by rw [f2, ← hs1]
        have hleft : u.lz.left.toNat = cs.length + m := by
          rw [f3, hlz1]
          simp only [BitVec.toNat_ofNat]
          rw [Nat.mod_eq_of_lt (by omega)]; omega
        have hmin : u.lz.min = s.lz.min := by rw [f3, hlz1]
        have hwid : u.lz.width = s.lz.width := by rw [f3, hlz1]
        have := ih (s := u) (s' := u') (by rw [f3]; exact hp1) (fun d hd => hc d (by simp [hd])) (by rw [hmin]; exact hm) (by rw [hwid]; exact hwd)
          hleft (by rw [bitsAhead_congr hin hrd]; exact b1) hu
        refine this.mono (fun _ t' k => ?_) (fun f t' k => k) id
        obtain ⟨t, k1, k2, k3, k4, k5, k6, k7, k8, k9⟩ := k
        obtain ⟨e1, e2⟩ := afterRead_input_congr (cs.length * width) hin hrd
        rw [afterRead_afterRead l1] at e1 e2
        have hlen : (c :: cs).length * width = width + cs.length * width := by rw [List.length_cons, Nat.succ_mul, Nat.add_comm]
        exact ⟨t, k1, k2, k3, k4, k5, k6.trans hmin, k7.trans hwid, by rw [k8, e1, hlen], by rw [k9, e2, hlen]⟩
      | raised f u => rw [hr', hr] at hrel; exact hrel.elim
      | hung x => rw [hr', hr] at hrel; exact hrel.elim
    | raised f u' =>
      cases hr : lzPut c s1 with
      | done v u => rw [hr', hr] at hrel; exact hrel.elim
      | raised f' u =>
        rw [hr', hr] at hrel
        obtain ⟨rfl, hu⟩ := hrel
        exact ⟨u, rfl, hu⟩
      | hung x => rw [hr', hr] at hrel; exact hrel.elim
    | hung x => trivial

/-- The loop of `LZ.DECODEP` on whole codes: it ends as their `LZ.PUT`s end, and where none fails it goes on after them, the reader
exhausted. -/
theorem lzLoopP_puts {cs : List Nat} {j : Nat} {s s' : State} {rest : List Bool} (hp : s.lz.phase = .active) (h8 : s.rd.off = 8)
    (hc : ∀ c ∈ cs, c < 2 ^ 32) (hb : s.bitsAhead = plainBits cs ++ rest) (h : PutAlike s' s) :
    (lzPuts cs s').Ends
      (fun _ t' => ∃ t, lzLoopP (cs.length + j) s = lzLoopP j t ∧ PutAlike t' t ∧ t.lz.phase = .active ∧ t.bitsAhead = rest ∧
        t.rd.off = 8 ∧ t.input = (s.afterRead (cs.length * 32)).input ∧ t.rd = (s.afterRead (cs.length * 32)).rd)
      (fun f t' => ∃ t, lzLoopP (cs.length + j) s = .raised f t ∧ PutAlike t' t) True := by
  induction cs generalizing s s' with
  | nil => exact ⟨s, by simp, h, hp, by simpa [plainBits] using hb, h8, by simp [afterRead_zero], by simp [afterRead_zero]⟩
  | cons c cs ih =>
    have hc3 := hc c (by simp)
    have hb' : s.bitsAhead = fieldBits 32 c ++ (plainBits cs ++ rest) := by rw [hb, plainBits, List.flatMap_cons, List.append_assoc]; rfl
    obtain ⟨h1, b1, l1⟩ := readBits_value hc3 hb'
    have hput : PutAlike s' (s.afterRead 32) := h.trans ⟨rfl, rfl, rfl, rfl, rfl, output_afterRead s 32⟩
    have hloop : lzLoopP ((c :: cs).length + j) s = (lzPut c (s.afterRead 32)).andThen fun _ t => lzLoopP (cs.length + j) t := by
      have hfill := readBits_fill 31 h8
      rw [h1] at hfill
      obtain ⟨filled, s0, h0, hread⟩ := andThen_eq_done.mp hfill.symm
      have hfilled : filled = true := by
        cases filled with
        | true => rfl
        | false => cases hread
      subst hfilled
      simp only [if_true] at hread
      rw [List.length_cons, Nat.succ_add, lzLoopP, h0, done_andThen, if_pos rfl, hread, done_andThen]
    have hrel := keeps_putAlike.lzPut c hput
    have hframe := lzPut_frame hc3 (s := s.afterRead 32) hp
    rw [lzPuts, hloop]
    cases hr' : lzPut c s' with
    | done v' u' =>
      cases hr : lzPut c (s.afterRead 32) with
      | done v u =>
        rw [hr', hr] at hrel
        obtain ⟨rfl, hu⟩ := hrel
        rw [hr] at hframe
        obtain ⟨hin, hrd, hlz⟩ := hframe
        have hoff : u.rd.off = 8 := by
          rw [hrd]; apply Fin.ext
          have := afterRead_off s 32
          rw [show s.rd.off.val = 8 by rw [h8]; rfl] at this
          rw [this]; rfl
        have := ih (s := u) (s' := u') (by rw [hlz]; exact hp) hoff (fun d hd => hc d (by simp [hd]))
          (by rw [bitsAhead_congr hin hrd]; exact b1) hu
        refine this.mono (fun _ t' k => ?_) (fun f t' k => k) id
        obtain ⟨t, k1, k2, k3, k4, k5, k6, k7⟩ := k
        obtain ⟨e1, e2⟩ := afterRead_input_congr (cs.length * 32) hin hrd
        rw [afterRead_afterRead l1] at e1 e2
        have hlen : (c :: cs).length * 32 = 32 + cs.length * 32 := by rw [List.length_cons]; omega
        exact ⟨t, k1, k2, k3, k4, k5, by rw [k6, e1, hlen], by rw [k7, e2, hlen]⟩
      | raised f u => rw [hr', hr] at hrel; exact hrel.elim
      | hung x => rw [hr', hr] at hrel; exact hrel.elim
    | raised f u' =>
      cases hr : lzPut c (s.afterRead 32) with
      | done v u => rw [hr', hr] at hrel; exact hrel.elim
      | raised f' u =>
        rw [hr', hr] at hrel
        obtain ⟨rfl, hu⟩ := hrel
        exact ⟨u, rfl, hu⟩
      | hung x => rw [hr', hr] at hrel; exact hrel.elim
    | hung x => trivial

/-- What the host sees of `BR.INIT`, `LZ.BEGIN` and the `LZ.PUT`s, where the output channel always answers (30_encoding R96). -/
theorem runBodies_puts_ends {cs : List Nat} (hcs : ∀ c ∈ cs, c < 2 ^ 32) {s : State} (hf : s.fatal = false) (hp : s.lz.phase = .idle)
    (hs : s.sink.all (· != .never) = true) :
    (lzPuts cs { brInit s with lz := { s.lz with dict := seedDict, prev := [], phase := .active } }).Ends
      (fun _ u => ∃ v, Alike u v ∧ execUntil (.brInit :: .lzBegin :: cs.map fun c => .lzPut (BitVec.ofNat 32 c)) s = some (.ok, v))
      (fun f u => ∃ v, Alike u v ∧ execUntil (.brInit :: .lzBegin :: cs.map fun c => .lzPut (BitVec.ofNat 32 c)) s = some (.fail f, v))
      False := by
  have hst : ∀ i ∈ (Instr.brInit :: .lzBegin :: cs.map fun c => .lzPut (BitVec.ofNat 32 c)), Steady i := by
    intro i hi
    simp only [List.mem_cons, List.mem_map] at hi
    rcases hi with rfl | rfl | ⟨c, -, rfl⟩
    · exact steady_brInit
    · exact steady_lzBegin
    · exact steady_lzPut _
  have h1 := execUntil_eq hst hf (Alike.refl s)
  have h2 := execUntil_eq hst (s := { s with input := [] }) hf (Alike.refl _)
  rw [runBodies_puts hcs hp] at h1
  rw [runBodies_puts hcs (s := { s with input := [] }) hp] at h2
  have hrel := keeps_putAlike.lzPuts cs (s := { brInit s with lz := { s.lz with dict := seedDict, prev := [], phase := .active } })
    (t := { brInit { s with input := [] } with lz := { s.lz with dict := seedDict, prev := [], phase := .active } })
    ⟨rfl, rfl, rfl, rfl, rfl, rfl⟩
  cases h : lzPuts cs { brInit s with lz := { s.lz with dict := seedDict, prev := [], phase := .active } } with
  | done a u => rw [h] at h1; exact h1.2
  | raised f u => rw [h] at h1; exact h1
  | hung x =>
    rw [h] at hrel
    cases h' : lzPuts cs { brInit { s with input := [] } with lz := { s.lz with dict := seedDict, prev := [], phase := .active } } with
    | done a u => rw [h'] at hrel; exact hrel.elim
    | raised f u => rw [h'] at hrel; exact hrel.elim
    | hung y =>
      have h3 : alwaysAnswers { s with input := [] } = false := by
        have := h2
        rw [show (({ s with input := [] } : State).lz) = s.lz from rfl, h'] at this
        exact this
      simp only [alwaysAnswers, List.all_nil, Bool.true_and] at h3
      rw [hs] at h3; cases h3

end Sys2Proof.Machine
end

