-- ==== Sys2Proof/Laws/LzwSync.lean ====
section
/-! SUPPORT. The decoder's dictionary follows the encoder's one code behind (44_lzw R267, 95_test_vectors S5): the codes of a byte
sequence decode to it. -/

namespace Sys2Proof.Machine

open Sys2Proof.Wire

theorem putCodes_append {p : Config.Params} {as bs : List Nat} {x y z : DictPrev} {us vs : List Byte}
    (h : putCodes p as x = some (us, y)) (h' : putCodes p bs y = some (vs, z)) : putCodes p (as ++ bs) x = some (us ++ vs, z) := by
  induction as generalizing x us with
  | nil => cases h; exact h'
  | cons a as ih =>
    obtain ⟨seq, w, ws, h1, h2, rfl⟩ := putCodes_cons.mp h
    exact putCodes_cons.mpr ⟨seq, w, ws ++ vs, h1, ih h2, by rw [List.append_assoc]⟩

theorem putCodes_single {p : Config.Params} {c : Nat} {x y : DictPrev} {seq : List Byte} (h : putCode p c x = some (seq, y)) :
    putCodes p [c] x = some (seq, y) := putCodes_cons.mpr ⟨seq, y, [], h, rfl, by rw [List.append_nil]⟩

/-- The encoder's dictionary `dict` with candidate `cand`, against the decoder's `x`: equal before the first code, and after it ahead
by the one sequence the next code will insert. -/
def Synced (dict : List (List Byte)) (cand : List Byte) (x : DictPrev) : Prop :=
  (x.2 = [] ∧ dict = x.1) ∨ (x.2 ≠ [] ∧ dict = x.1 ++ [x.2 ++ cand.take 1])

/-- The code of the candidate, known or KwK, decodes to it and brings the decoder level (44_lzw R263). -/
theorem putCode_sync {p : Config.Params} {dict : List (List Byte)} {cand : List Byte} {x : DictPrev} (hs : Synced dict cand x)
    (hmem : cand ∈ dict) (hne : cand ≠ []) (hnd : dict.Nodup) (hseed : ∀ b : Byte, [b] ∈ dict) (hmax : dict.length ≤ p.dictMax)
    (hlong : tooLong p.seqMax (x.2 ++ cand.take 1) = false) : putCode p (dict.idxOf cand) x = some (cand, dict, cand) := by
  obtain ⟨d, prev⟩ := x
  have hi := List.idxOf_lt_length_of_mem hmem
  have hget : dict[dict.idxOf cand]? = some cand := by rw [List.getElem?_eq_getElem hi, List.getElem_idxOf hi]
  obtain ⟨a, l, rfl⟩ := List.exists_cons_of_ne_nil hne
  generalize dict.idxOf (a :: l) = i at hi hget
  rcases hs with ⟨hp, hd⟩ | ⟨hp, hd⟩
  · dsimp only at hp hd
    subst hp hd
    have := hseed a
    simp [putCode, resolveCode, hget, this]
  · dsimp only at hp hd hlong
    rw [hd] at hget hmax hi hnd
    have hnew : prev ++ (a :: l).take 1 ∉ d := by
      intro h
      exact (List.nodup_append.mp hnd).2.2 _ h _ (by simp) rfl
    have hsz : d.length ≠ p.dictMax := by rw [List.length_append, List.length_singleton] at hmax; omega
    rw [List.length_append, List.length_singleton] at hi
    by_cases hlt : i < d.length
    · rw [List.getElem?_append_left hlt] at hget
      have hres : resolveCode i ⟨.active, d, prev, 0, 0, 0⟩ = some (a :: l, prev ++ (a :: l).take 1) := by
        unfold resolveCode; rw [hget]
      unfold putCode
      rw [hres]
      dsimp only
      rw [if_neg hnew, if_neg (by rw [hlong]; simp [hsz]), hd]
    · have hie : i = d.length := by omega
      subst hie
      rw [List.getElem?_append_right (le_refl _), Nat.sub_self, List.getElem?_cons_zero, Option.some.injEq] at hget
      obtain ⟨c, q, rfl⟩ := List.exists_cons_of_ne_nil hp
      have hca : c = a := by simpa using (List.cons.inj hget).1
      subst hca
      have hres : resolveCode d.length ⟨.active, d, c :: q, 0, 0, 0⟩ = some (c :: l, c :: l) := by
        unfold resolveCode LzwUnit.size
        rw [List.getElem?_eq_none (le_refl _)]
        dsimp only
        rw [if_pos ⟨rfl, hp⟩]
        have : (c :: q) ++ (c :: q).take 1 = c :: l := hget
        rw [this]
      have he : (c :: q) ++ (c :: l).take 1 = c :: l := hget
      rw [he] at hnew hlong hd
      unfold putCode
      rw [hres]
      dsimp only
      rw [if_neg hnew, if_neg (by rw [hlong]; simp [hsz]), hd]

/-- What holds between the encoder and the decoder after the bytes `bytes` have been put. -/
structure InStep (p : Config.Params) (bytes : List Byte) (dict : List (List Byte)) (cand : List Byte) (out : List Nat) : Prop where
  nodup : dict.Nodup
  seed : ∀ b : Byte, [b] ∈ dict
  size : dict.length ≤ 256 + bytes.length
  codes : ∀ c ∈ out, c < 256 + bytes.length
  fresh : cand = [] → bytes = [] ∧ dict = seedDict ∧ out = []
  mem : cand ≠ [] → cand ∈ dict
  decoded : ∃ emitted x, putCodes p out (seedDict, []) = some (emitted, x) ∧ emitted ++ cand = bytes ∧ Synced dict cand x ∧
    x.2.length ≤ emitted.length ∧ out.length ≤ emitted.length

theorem inStep_start (p : Config.Params) : InStep p [] seedDict [] [] where
  nodup := seedDict_nodup
  seed := fun b => mem_seedDict.mpr ⟨b, rfl⟩
  size := by rw [seedDict_length]; simp
  codes := by simp
  fresh := fun _ => ⟨rfl, rfl, rfl⟩
  mem := fun h => (h rfl).elim
  decoded := ⟨[], (seedDict, []), rfl, rfl, .inl ⟨rfl, rfl⟩, le_refl _, le_refl _⟩

theorem tooLong_false {p : Config.Params} {n : Nat} {q : List Byte} (h : roomFor p n) (hq : q.length ≤ n) :
    tooLong p.seqMax q = false := by
  unfold tooLong
  have h2 := h.2
  cases hm : p.seqMax with
  | none => rfl
  | some m => have := h2 m hm; simp; omega

/-- The decoder can take the candidate's code. -/
theorem InStep.put {p : Config.Params} {bytes : List Byte} {dict : List (List Byte)} {cand : List Byte} {out : List Nat} {n : Nat}
    (h : InStep p bytes dict cand out) (hc : cand ≠ []) (hr : roomFor p n) (hn : bytes.length ≤ n) :
    putCodes p (out ++ [dict.idxOf cand]) (seedDict, []) = some (bytes, dict, cand) ∧ out.length + 1 ≤ bytes.length ∧
      dict.idxOf cand < 256 + bytes.length := by
  obtain ⟨emitted, x, hput, hbytes, hsync, hprev, hout⟩ := h.decoded
  have hlen := congrArg List.length hbytes
  rw [List.length_append] at hlen
  have hcl : 1 ≤ cand.length := List.length_pos_iff.mpr hc
  have hcode := putCode_sync hsync (h.mem hc) hc h.nodup h.seed (by have := h.size; have := hr.1; omega)
    (tooLong_false hr (by rw [List.length_append, List.length_take]; omega))
  refine ⟨?_, by omega, ?_⟩
  · rw [← hbytes]; exact putCodes_append hput (putCodes_single hcode)
  · have := List.idxOf_lt_length_of_mem (h.mem hc); have := h.size; omega

theorem InStep.step {p : Config.Params} {bytes : List Byte} {dict : List (List Byte)} {cand : List Byte} {out : List Nat} {n : Nat}
    (h : InStep p bytes dict cand out) (hr : roomFor p n) (hn : bytes.length ≤ n) (b : Byte) :
    InStep p (bytes ++ [b]) (lzwPutByte (dict, cand, out) b).1 (lzwPutByte (dict, cand, out) b).2.1 (lzwPutByte (dict, cand, out) b).2.2 := by
  unfold lzwPutByte
  by_cases hm : cand ++ [b] ∈ dict
  · simp only [hm, if_true]
    obtain ⟨emitted, x, hput, hbytes, hsync, hprev, hout⟩ := h.decoded
    refine ⟨h.nodup, h.seed, by have := h.size; simp; omega, fun c hc => by have := h.codes c hc; simp; omega, fun e => by simp at e,
      fun _ => hm, emitted, x, hput, by rw [← hbytes, List.append_assoc], ?_, hprev, hout⟩
    rcases hsync with hs | ⟨hs, hd⟩
    · exact .inl hs
    · refine .inr ⟨hs, ?_⟩
      cases hc : cand with
      | nil =>
        have he := (h.fresh hc).2.2
        rw [he] at hput
        cases hput
        exact (hs rfl).elim
      | cons a l => rw [hd, hc]; simp
  · simp only [hm, if_false]
    have hc : cand ≠ [] := by
      rintro rfl
      exact hm (h.seed b)
    obtain ⟨hput, hout, hidx⟩ := h.put hc hr hn
    have hcl : cand.length ≤ bytes.length := by
      obtain ⟨emitted, x, -, hbytes, -⟩ := h.decoded
      rw [← hbytes]; simp
    refine ⟨List.nodup_append.mpr ⟨h.nodup, by simp, fun a ha c hc' e => ?_⟩, fun c => List.mem_append_left _ (h.seed c), ?_, ?_,
      fun e => by simp at e, fun _ => List.mem_append_left _ (h.seed b), bytes, (dict, cand), hput, rfl, .inr ⟨hc, rfl⟩, hcl, ?_⟩
    · rw [List.mem_singleton] at hc'; subst hc'; subst e; exact hm ha
    · have := h.size; simp; omega
    · intro c hc'
      rw [List.length_append, List.length_singleton]
      rcases List.mem_append.mp hc' with hc' | hc'
      · have := h.codes c hc'; omega
      · rw [List.mem_singleton] at hc'; omega
    · rw [List.length_append, List.length_singleton]; omega

theorem inStep_fold {p : Config.Params} {n : Nat} (hr : roomFor p n) (more bytes : List Byte) (st : List (List Byte) × List Byte × List Nat)
    (h : InStep p bytes st.1 st.2.1 st.2.2) (hn : bytes.length + more.length ≤ n) :
    InStep p (bytes ++ more) (more.foldl lzwPutByte st).1 (more.foldl lzwPutByte st).2.1 (more.foldl lzwPutByte st).2.2 := by
  induction more generalizing bytes st with
  | nil => simpa using h
  | cons b more ih =>
    rw [List.length_cons] at hn
    have := ih (bytes ++ [b]) (lzwPutByte st b) (h.step hr (by omega) b) (by simp; omega)
    rw [List.append_assoc] at this
    exact this

/-- The codes of a byte sequence decode to it, where no limit is in the way (44_lzw R267, 30_encoding R110). -/
theorem putCodes_lzwCodes {p : Config.Params} {bytes : List Byte} (hr : roomFor p bytes.length) :
    (∃ y, putCodes p (lzwCodes bytes) (seedDict, []) = some (bytes, y)) ∧ (lzwCodes bytes).length ≤ bytes.length ∧
      ∀ c ∈ lzwCodes bytes, c < 256 + bytes.length := by
  have h := inStep_fold hr bytes [] (seedDict, [], []) (inStep_start p) (by simp)
  unfold lzwCodes
  generalize bytes.foldl lzwPutByte (seedDict, [], []) = st at h
  obtain ⟨dict, cand, out⟩ := st
  rw [List.nil_append] at h
  dsimp only at h ⊢
  by_cases hc : cand = []
  · rw [if_pos hc]
    obtain ⟨hb, -, ho⟩ := h.fresh hc
    subst ho hb
    exact ⟨⟨_, rfl⟩, le_refl _, by simp⟩
  · rw [if_neg hc]
    obtain ⟨hput, hout, hidx⟩ := h.put hc hr (le_refl _)
    refine ⟨⟨_, hput⟩, by simpa using hout, fun c hc' => ?_⟩
    rcases List.mem_append.mp hc' with hc' | hc'
    · exact h.codes c hc'
    · rw [List.mem_singleton] at hc'; omega

end Sys2Proof.Machine
end

