-- ==== Sys2Proof/Laws/Memory.lean ====
section
/-! SUPPORT. The form the internal memories keep, `Memory.wf` (20_memory R60, R74): it holds after reset, and every command keeps it. -/

namespace Sys2Proof.Machine

/-- `Memory.wf` in words: a valid table is well formed, and so are the trie and the dictionary in use. -/
theorem memory_wf_iff (s : State) :
    Memory.wf s = true ↔ (s.ctValid = true → tableOk s.ct = true) ∧ s.hf.ok = true ∧ s.lz.ok s.params = true := by
  cases h : s.ctValid <;> simp [Memory.wf, h, and_assoc]

/-- The LZW unit right after reset keeps to its range under every legal choice of the parameters. -/
theorem reset_lz_ok {p : Config.Params} (h : p.wf) : State.reset.lz.ok p = true :=
  lz_ok_idle rfl (lz_ok_ranged (lz_ok_begun h State.reset.lz) :)

/-- The machine right after reset has it. -/
theorem reset_memory_wf : Memory.wf State.reset = true := (memory_wf_iff _).mpr ⟨nofun, rfl, reset_lz_ok (by decide)⟩

/-- It speaks of the memories and the parameters alone. -/
theorem memory_wf_congr {s u : State} (h : Memory.wf s = true) (h1 : u.ct = s.ct) (h2 : u.ctValid = s.ctValid) (h3 : u.hf = s.hf)
    (h4 : u.lz = s.lz) (h5 : u.params = s.params) : Memory.wf u = true := by
  rw [memory_wf_iff] at *; rw [h1, h2, h3, h4, h5]; exact h

/-- The pseudocode of every command keeps it. -/
theorem moves_memory_wf {i : Instr} {g : Bool} {s u : State} (hp : s.params.wf) (h : Moves i g s u) (hs : Memory.wf s = true) :
    Memory.wf u = true := by
  rw [memory_wf_iff] at *
  obtain ⟨h4, h5, h6⟩ := hs
  cases i <;> simp only [Moves] at h
  case sysReset => rw [h]; exact ⟨nofun, rfl, reset_lz_ok hp⟩
  case brInit | brRead | brAlign | bwInit | bwWrite | bwComplete => rw [h.1]; exact ⟨h4, h5, h6⟩
  case rlBegin | rlPair | rlDecode => rw [h.1.1]; exact ⟨h4, h5, h6⟩
  case rlEnd => rw [h]; exact ⟨h4, h5, h6⟩
  case ctLoad => refine ⟨h.2.2, ?_⟩; rw [h.1.1]; exact ⟨h5, h6⟩
  case hfBegin | hfBit | hfEnd => obtain ⟨⟨v, n, rfl⟩, l, -⟩ := h; exact ⟨h4, l h5, h6⟩
  case hfDecode => refine ⟨h.1.2.2.2.1 h4, hf_ok_idle h.2 (h.1.2.2.2.2 (hf_ok_length h5)), ?_⟩; rw [h.1.1]; exact h6
  case lzBegin | lzEnd => obtain ⟨⟨v, n, rfl⟩, l, -⟩ := h; exact ⟨h4, h5, l hp h6⟩
  case lzPut =>
    obtain ⟨e, -, l, -⟩ := h
    have hl := l h6
    rw [e] at hl ⊢
    exact ⟨h4, h5, hl⟩
  case lzDecodeP | lzDecodeB =>
    have hl := lz_ok_idle h.2 (h.1.2.2.2 hp (lz_ok_ranged h6))
    have e := h.1.1
    rw [e] at hl ⊢
    exact ⟨h4, h5, hl⟩

/-- Every command keeps it, whatever it answers. -/
theorem exec_memory_wf {i : Instr} {s t : State} (hp : s.params.wf) (hs : Memory.wf s = true) (h : exec i s = .next t) :
    Memory.wf t = true := by
  by_cases hi : i = .sysReset
  · subst hi; cases h; exact (memory_wf_iff _).mpr ⟨nofun, rfl, reset_lz_ok hp⟩
  rcases exec_cases hi h with ⟨-, rfl⟩ | ⟨-, -, rfl⟩ | ⟨-, -, ⟨r, u, -, h2, rfl⟩ | ⟨f, u, -, -, h3, rfl⟩⟩
  · exact memory_wf_congr hs rfl rfl rfl rfl rfl
  · exact memory_wf_congr hs rfl rfl rfl rfl rfl
  · exact memory_wf_congr (moves_memory_wf hp h2 hs) rfl rfl rfl rfl rfl
  · exact memory_wf_congr (moves_memory_wf hp h3 hs) rfl rfl rfl rfl rfl

end Sys2Proof.Machine
end

