-- ==== Sys2Proof/Laws/PerInstr.lean ====
section
/-! SUPPORT. The statements made once an instruction: the fields of its encoding (30_encoding R91, R92). -/

namespace Sys2Proof.Laws.CmdByte

/-- The `cmd` byte of the row of 30_encoding R92. -/
def byte : Instr → BitVec 8
  | .sysReset => 0x00
  | .brInit => 0x10
  | .brRead _ => 0x11
  | .brAlign => 0x12
  | .bwInit => 0x20
  | .bwWrite _ _ => 0x21
  | .bwComplete => 0x22
  | .ctLoad => 0x30
  | .rlBegin => 0x40
  | .rlPair => 0x41
  | .rlEnd => 0x42
  | .rlDecode => 0x4F
  | .hfBegin => 0x50
  | .hfBit _ => 0x51
  | .hfEnd => 0x52
  | .hfDecode => 0x5F
  | .lzBegin => 0x60
  | .lzPut _ => 0x61
  | .lzEnd => 0x62
  | .lzDecodeP => 0x6E
  | .lzDecodeB => 0x6F

/-- The `n` field: used by `BR.READ` and `BW.WRITE` alone (30_encoding R91). -/
def count : Instr → BitVec 8
  | .brRead n => n
  | .bwWrite n _ => n
  | .sysReset | .brInit | .brAlign | .bwInit | .bwComplete | .ctLoad | .rlBegin | .rlPair | .rlEnd | .rlDecode | .hfBegin | .hfBit _ => 0
  | .hfEnd | .hfDecode | .lzBegin | .lzPut _ | .lzEnd | .lzDecodeP | .lzDecodeB => 0

/-- The `arg` field: used by `BW.WRITE`, `LZ.PUT` and, in bit 0, `HF.BIT` alone (30_encoding R91). -/
def operand : Instr → Word
  | .bwWrite _ v => v
  | .lzPut c => c
  | .hfBit b => BitVec.ofNat 32 b.toNat
  | .sysReset | .brInit | .brRead _ | .brAlign | .bwInit | .bwComplete | .ctLoad | .rlBegin | .rlPair | .rlEnd | .rlDecode => 0
  | .hfBegin | .hfEnd | .hfDecode | .lzBegin | .lzEnd | .lzDecodeP | .lzDecodeB => 0

/-- The three fields of the encoding hold what the row says, and the fields it does not use are 0. -/
def Statement (i : Instr) : Prop :=
  cmdField (encode i) = byte i ∧ nField (encode i) = count i ∧ argField (encode i) = operand i

theorem ofFields (c n : BitVec 8) (a : Word) {i : Instr} (h : encode i = makeWord c n a) (hc : c = byte i) (hn : n = count i)
    (ha : a = operand i) : Statement i := by
  unfold Statement
  rw [h, Machine.makeWord_cmd, Machine.makeWord_n, Machine.makeWord_arg]
  exact ⟨hc, hn, ha⟩

theorem sysReset : Statement .sysReset := ofFields _ _ _ rfl rfl rfl rfl
theorem brInit : Statement .brInit := ofFields _ _ _ rfl rfl rfl rfl
theorem brRead (n : BitVec 8) : Statement (.brRead n) := ofFields _ _ _ rfl rfl rfl rfl
theorem brAlign : Statement .brAlign := ofFields _ _ _ rfl rfl rfl rfl
theorem bwInit : Statement .bwInit := ofFields _ _ _ rfl rfl rfl rfl
theorem bwWrite (n : BitVec 8) (value : Word) : Statement (.bwWrite n value) := ofFields _ _ _ rfl rfl rfl rfl
theorem bwComplete : Statement .bwComplete := ofFields _ _ _ rfl rfl rfl rfl
theorem ctLoad : Statement .ctLoad := ofFields _ _ _ rfl rfl rfl rfl
theorem rlBegin : Statement .rlBegin := ofFields _ _ _ rfl rfl rfl rfl
theorem rlPair : Statement .rlPair := ofFields _ _ _ rfl rfl rfl rfl
theorem rlEnd : Statement .rlEnd := ofFields _ _ _ rfl rfl rfl rfl
theorem rlDecode : Statement .rlDecode := ofFields _ _ _ rfl rfl rfl rfl
theorem hfBegin : Statement .hfBegin := ofFields _ _ _ rfl rfl rfl rfl
theorem hfBit (b : Bool) : Statement (.hfBit b) := ofFields _ _ _ rfl rfl rfl rfl
theorem hfEnd : Statement .hfEnd := ofFields _ _ _ rfl rfl rfl rfl
theorem hfDecode : Statement .hfDecode := ofFields _ _ _ rfl rfl rfl rfl
theorem lzBegin : Statement .lzBegin := ofFields _ _ _ rfl rfl rfl rfl
theorem lzPut (code : Word) : Statement (.lzPut code) := ofFields _ _ _ rfl rfl rfl rfl
theorem lzEnd : Statement .lzEnd := ofFields _ _ _ rfl rfl rfl rfl
theorem lzDecodeP : Statement .lzDecodeP := ofFields _ _ _ rfl rfl rfl rfl
theorem lzDecodeB : Statement .lzDecodeB := ofFields _ _ _ rfl rfl rfl rfl

end Sys2Proof.Laws.CmdByte
end

