-- ==== Sys2Proof/Laws/Runs.lean ====
section
/-! SUPPORT. The runs of a byte sequence and the RLE header that carries them (00_scope Run, 95_test_vectors S2). -/

namespace Sys2Proof.Machine

open Sys2Proof.Wire

/-- The bits of the pairs. -/
theorem pairBits_length (h : RleHeader) (ps : List (Nat × Nat)) : (ps.flatMap (pairBits h)).length = ps.length * (h.vbits + h.rbits) := by
  induction ps with
  | nil => simp
  | cons p ps ih => simp [ih, pairBits, Nat.succ_mul]; omega

/-- The bits of an RLE stream (30_encoding R104). -/
theorem rleBits_length (h : RleHeader) (ps : List (Nat × Nat)) : (rleBits h ps).length = 64 + ps.length * (h.vbits + h.rbits) := by
  have : (rleBits h ps).length = 64 + (ps.flatMap (pairBits h)).length := by simp [rleBits, rleHeaderBits]; omega
  rw [this, pairBits_length]

/-- The bytes of one pair and of the pairs after it. -/
theorem rleBytes_cons (v r : Nat) (ps : List (Nat × Nat)) :
    rleBytes ((v, r) :: ps) = List.replicate r (BitVec.ofNat 8 v) ++ rleBytes ps := rfl

/-- The runs after an open run stand for that run and the bytes. -/
theorem rleBytes_runsFrom (v r : Nat) (bytes : List Byte) :
    rleBytes (runsFrom v r bytes) = List.replicate r (BitVec.ofNat 8 v) ++ bytes := by
  induction bytes generalizing v r with
  | nil => simp [runsFrom, rleBytes]
  | cons b bs ih =>
    unfold runsFrom
    split
    · rename_i h
      rw [ih, ← h.1, List.replicate_succ']
      simp
    · rw [rleBytes_cons, ih]
      simp

/-- The runs stand for the bytes. -/
theorem rleBytes_runsOf (bytes : List Byte) : rleBytes (runsOf bytes) = bytes := by
  cases bytes with
  | nil => rfl
  | cons b bs => rw [runsOf, rleBytes_runsFrom]; simp

/-- Each run after an open run has a byte value and 1 to 255 bytes, where the open run has. -/
theorem runsFrom_bounds {v r : Nat} (hv : v < 256) (h1 : 1 ≤ r) (h2 : r < 256) (bytes : List Byte) :
    ∀ p ∈ runsFrom v r bytes, p.1 < 256 ∧ 1 ≤ p.2 ∧ p.2 < 256 := by
  induction bytes generalizing v r with
  | nil => simp [runsFrom, hv, h1, h2]
  | cons b bs ih =>
    unfold runsFrom
    split
    · exact ih hv (by omega) (by omega)
    · simp only [List.mem_cons, forall_eq_or_imp]
      exact ⟨⟨hv, h1, h2⟩, ih b.isLt (by omega) (by omega)⟩

/-- Each run has a byte value and 1 to 255 bytes (00_scope R5 `RUN_MAX`). -/
theorem runsOf_bounds (bytes : List Byte) : ∀ p ∈ runsOf bytes, p.1 < 256 ∧ 1 ≤ p.2 ∧ p.2 < 256 := by
  cases bytes with
  | nil => simp [runsOf]
  | cons b bs => exact runsFrom_bounds b.isLt (by omega) (by omega) bs

/-- An ordered header, as a proposition. -/
def headerOrdered (h : RleHeader) : Prop := h.minV ≤ h.maxV ∧ h.maxV < 256 ∧ h.minR ≤ h.maxR ∧ h.maxR < 256

/-- The ranges an encoder computes hold every run. -/
theorem foldHeader_holds (ps : List (Nat × Nat)) (h : RleHeader) (ho : headerOrdered h) (hps : ∀ p ∈ ps, p.1 < 256 ∧ 1 ≤ p.2 ∧ p.2 < 256) :
    let g := ps.foldl (fun h p => (⟨min h.minV p.1, max h.maxV p.1, min h.minR p.2, max h.maxR p.2⟩ : RleHeader)) h
    headerOrdered g ∧ g.minV ≤ h.minV ∧ h.maxV ≤ g.maxV ∧ g.minR ≤ h.minR ∧ h.maxR ≤ g.maxR ∧ ∀ p ∈ ps, g.holds p = true := by
  induction ps generalizing h with
  | nil => simp [ho]
  | cons p ps ih =>
    simp only [List.mem_cons, forall_eq_or_imp] at hps
    have := ih ⟨min h.minV p.1, max h.maxV p.1, min h.minR p.2, max h.maxR p.2⟩ (by unfold headerOrdered at *; dsimp only; omega) hps.2
    dsimp only at this ⊢
    simp only [List.foldl_cons]
    obtain ⟨a, b, c, d, e, f⟩ := this
    refine ⟨a, by omega, by omega, by omega, by omega, ?_⟩
    simp only [List.mem_cons, forall_eq_or_imp]
    refine ⟨?_, f⟩
    simp [RleHeader.holds]; omega

/-- The header of some runs is ordered and holds them. -/
theorem headerOf_ok {ps : List (Nat × Nat)} (hps : ∀ p ∈ ps, p.1 < 256 ∧ 1 ≤ p.2 ∧ p.2 < 256) :
    (headerOf ps).ok = true ∧ ∀ p ∈ ps, (headerOf ps).holds p = true := by
  cases ps with
  | nil => simp [headerOf, RleHeader.ok]
  | cons p ps =>
    obtain ⟨pv, pr⟩ := p
    simp only [List.mem_cons, forall_eq_or_imp] at hps
    have := foldHeader_holds ps ⟨pv, pv, pr, pr⟩ (by unfold headerOrdered; dsimp only; omega) hps.2
    dsimp only at this
    have hh : headerOf ((pv, pr) :: ps) = ps.foldl (fun h p => (⟨min h.minV p.1, max h.maxV p.1, min h.minR p.2, max h.maxR p.2⟩ : RleHeader)) ⟨pv, pv, pr, pr⟩ := rfl
    rw [hh]
    generalize ps.foldl (fun h p => (⟨min h.minV p.1, max h.maxV p.1, min h.minR p.2, max h.maxR p.2⟩ : RleHeader)) ⟨pv, pv, pr, pr⟩ = g at *
    obtain ⟨a, b, c, d, e, f⟩ := this
    unfold headerOrdered at a
    refine ⟨?_, ?_⟩
    · simp only [RleHeader.ok, Bool.and_eq_true, decide_eq_true_eq]; omega
    · simp only [List.mem_cons, forall_eq_or_imp]
      refine ⟨?_, f⟩
      simp only [RleHeader.holds, Bool.and_eq_true, decide_eq_true_eq]; omega

end Sys2Proof.Machine
end

