-- ==== Sys2Proof/Tests/Slice0.lean ====
section
/-! SUPPORT. Tests. The expected results come from 95_test_vectors (the name of the vector or program stands at each test) and from
the encoding table 30_encoding R92; then one witness for the hypotheses of each statement of Certificates/Slice0/Obligations.lean. -/

namespace Sys2Proof.Tests

set_option maxRecDepth 100000
set_option Elab.async false

open Sys2Proof.Machine Sys2Proof.Wire

/-! ## Helpers -/

/-- The reset state with an input channel that holds these bytes and then answers `None` (95_test_vectors, conventions). -/
def feed (bytes : List Nat) : State := { State.reset with input := bytes.map fun b => .byte (BitVec.ofNat 8 b) }

/-- A list of numbers as bytes. -/
def bytesOf (l : List Nat) : List Byte := l.map (BitVec.ofNat 8)

/-- The outcome is a next state with the property. -/
def gives (o : Host.Outcome State Fault Refusal) (p : State → Bool) : Bool :=
  match o with
  | .next t => p t
  | .fault _ => false
  | .refused _ => false

theorem gives_exists {o : Host.Outcome State Fault Refusal} {p : State → Bool} (h : gives o p = true) :
    ∃ t, o = .next t ∧ p t = true := by
  cases o <;> simp_all [gives]

/-- The command answered `OK` with this value. -/
def okVal (v : Nat) (t : State) : Bool := t.result == some ⟨.ok, BitVec.ofNat 32 v⟩

/-- The command answered this status. -/
def status (r : Status) (t : State) : Bool := t.result.any fun x => x.res == r

/-- The command answered this failure. -/
def failed (f : Failure) (t : State) : Bool := status (.fail f) t

/-- Bytes pulled and `rd_off`. -/
def reader (pulled off : Nat) (t : State) : Bool := t.rd.pulled == pulled && t.rd.off.val == off

/-- The output channel has received exactly these bytes. -/
def sent (l : List Nat) (t : State) : Bool := t.output == bytesOf l

/-- The stream V-HF1 without its last bytes: 25 header bytes, the entries, the bit count, the codes. -/
def hf1 : List Nat :=
  [0x03, 0, 0, 0, 0x02, 0, 0, 0, 0x02, 0, 0, 0, 0x01, 0, 0, 0, 0x41, 0, 0, 0, 0, 0x01, 0, 0, 0] ++
    [0x24, 0x4B, 0x05, 0, 0, 0x80, 0xA6, 0x01]

/-- The stream V-RL1. -/
def rl1 : List Nat := [0x05, 0x07, 0x01, 0x03, 0x0C, 0, 0, 0, 0x68, 0]

/-- The stream V-LZ1. -/
def lz1 : List Nat := [0x41, 0, 0, 0, 0x42, 0, 0, 0, 0x00, 0x01, 0, 0, 0x02, 0x01, 0, 0]

/-- The stream V-LZ2. -/
def lz2 : List Nat := [0x04, 0, 0, 0, 0x41, 0, 0, 0, 0x08, 0x00, 0x01, 0xBF, 0xC1]

/-- The entries of V-CT1. -/
def ct1 : List Entry := [⟨0x41, 1, 1⟩, ⟨0x42, 2, 2⟩, ⟨0x43, 0, 2⟩]

/-- The header of V-CT1. -/
def head1 : TableHeader := ⟨3, 2, 2, 1, 0x41, 0, 1⟩

/-- A block whose table is V-CT1. -/
def tabled (s : State) : State := setEntry 0x41 1 1 (setEntry 0x42 2 2 (setEntry 0x43 0 2 { s with ctValid := true }))

/-- The table with these two entries at `0x41` and `0x42`. -/
def pairTable (a b : CodeLength) : CodeTable := (emptyTable.set 0x41 a).set 0x42 b

/-- The trie of V-HF1 (95_test_vectors 2.4): the root, A, the node for `0`, B, C. -/
def trie1 : List Node :=
  [⟨some 1, some 2, false, 0⟩, ⟨none, none, true, 0x41⟩, ⟨some 3, some 4, false, 0⟩, ⟨none, none, true, 0x42⟩,
    ⟨none, none, true, 0x43⟩]

/-- A block that walks the trie of V-HF1, the cursor at this node. -/
def walking (cur : Nat) : State := { State.reset with hf := ⟨.active, trie1, cur, 0⟩ }

/-- The RLE unit of V-RL1 with this many bits to come. -/
def unit1 (left : Nat) : RleUnit := ⟨.active, 5, 7, 1, 3, 2, 2, BitVec.ofNat 32 left⟩

/-- A block inside V-RL1, with these bytes to read and this many bits to come. -/
def pairing (bytes : List Nat) (left : Nat) : State := { feed bytes with rl := unit1 left }

/-- A block with these pending bits and this output channel. -/
def writing (h : Byte) (off : Fin 9) (sink : List WriteAnswer) : State := { State.reset with wr := ⟨h, off⟩, sink := sink }

/-- A block inside an LZW stream, with these entries after the seed and this previous sequence. -/
def putting (entries : List (List Byte)) (prev : List Byte) : State :=
  { State.reset with lz := ⟨.active, seedDict ++ entries, prev, 0, 0, 0⟩ }

/-! ## Well-formedness -/

theorem test_wellformed_count32 : (Instr.brRead 32).WellFormed ∧ (Instr.bwWrite 32 7).WellFormed := by decide
theorem test_illformed_brRead33 : ¬ (Instr.brRead 33).WellFormed := by decide
theorem test_illformed_bwWrite33 : ¬ (Instr.bwWrite 33 0).WellFormed := by decide
theorem test_illformed_word_refused : decode (encode (.brRead 33)) = .error (.illegalCount 33) := by decide

/-! ## Decoding: the words of 30_encoding R92 and of programs P1 to P6 -/

theorem test_decode_SYS_RESET : decode 0x000000000000#48 = .ok .sysReset := by decide
theorem test_decode_BR_INIT : decode 0x000000000010#48 = .ok .brInit := by decide
theorem test_decode_BR_READ : decode 0x000000000D11#48 = .ok (.brRead 13) := by decide
theorem test_decode_BR_ALIGN : decode 0x000000000012#48 = .ok .brAlign := by decide
theorem test_decode_BW_INIT : decode 0x000000000020#48 = .ok .bwInit := by decide
theorem test_decode_BW_WRITE : decode 0x00001ABC0D21#48 = .ok (.bwWrite 13 0x1ABC) := by decide
theorem test_decode_BW_COMPLETE : decode 0x000000000022#48 = .ok .bwComplete := by decide
theorem test_decode_CT_LOAD : decode 0x000000000030#48 = .ok .ctLoad := by decide
theorem test_decode_RL_BEGIN : decode 0x000000000040#48 = .ok .rlBegin := by decide
theorem test_decode_RL_PAIR : decode 0x000000000041#48 = .ok .rlPair := by decide
theorem test_decode_RL_END : decode 0x000000000042#48 = .ok .rlEnd := by decide
theorem test_decode_RL_DECODE : decode 0x00000000004F#48 = .ok .rlDecode := by decide
theorem test_decode_HF_BEGIN : decode 0x000000000050#48 = .ok .hfBegin := by decide
theorem test_decode_HF_BIT : decode 0xFFFFFFFF0051#48 = .ok (.hfBit true) := by decide
theorem test_decode_HF_END : decode 0x000000000052#48 = .ok .hfEnd := by decide
theorem test_decode_HF_DECODE : decode 0x00000000005F#48 = .ok .hfDecode := by decide
theorem test_decode_LZ_BEGIN : decode 0x000000000060#48 = .ok .lzBegin := by decide
theorem test_decode_LZ_PUT : decode 0x0000012C0061#48 = .ok (.lzPut 300) := by decide
theorem test_decode_LZ_END : decode 0x000000000062#48 = .ok .lzEnd := by decide
theorem test_decode_LZ_DECODEP : decode 0x00000000006E#48 = .ok .lzDecodeP := by decide
theorem test_decode_LZ_DECODEB : decode 0x00000000006F#48 = .ok .lzDecodeB := by decide
/-- V-BS7: an undefined command byte. -/
theorem test_decode_undefined : decode 0x000000000013#48 = .error (.undefinedCommand 0x13) := by decide
/-- V-BS7: a bit count of 33. -/
theorem test_decode_count33 : decode 0x000000002111#48 = .error (.illegalCount 33) := by decide
/-- The bits of a table row: `cmd` alone, the words above it zero. -/
theorem test_decodeTableWord : decodeTableWord 8 0x61 = some (.lzPut 0) ∧ decodeTableWord 48 0x0000012C0061 = some (.lzPut 300) := by
  decide

/-! ## The bit stream -/

/-- V-BS7, P3: reset clears `fatal` and leaves the channels alone. -/
theorem test_sysReset : gives (exec .sysReset { feed [0x12] with fatal := true })
    (fun t => okVal 0 t && !t.fatal && t.rd.off.val == 8 && t.input == [.byte 0x12]) = true := by decide +kernel
/-- P1: `BR.INIT` drops the bits in hand. -/
theorem test_brInit : gives (exec .brInit { feed [] with rd := ⟨0xA5, 3, 7⟩ }) (fun t => okVal 0 t && reader 0 8 t) = true := by
  decide +kernel
/-- V-BS3: an unaligned 32-bit field; 5 bits of `FF` are already read. -/
theorem test_brRead_unaligned : gives (exec (.brRead 32) { feed [0xDD, 0xB7, 0xD5, 0x1B] with rd := ⟨0xFF, 5, 1⟩ })
    (fun t => okVal 0xDEADBEEF t && reader 5 5 t) = true := by decide +kernel
/-- V-BS6: a read that the channel cuts short. -/
theorem test_brRead_short : gives (exec (.brRead 16) { feed [0x56] with rd := ⟨0x34, 4, 2⟩ })
    (fun t => failed .ioRead t && reader 3 8 t) = true := by decide +kernel
/-- V-BS5: `BR.ALIGN` drops the rest of `A5`. -/
theorem test_brAlign : gives (exec .brAlign { feed [0x3C] with rd := ⟨0xA5, 3, 1⟩ })
    (fun t => okVal 0 t && reader 1 8 t && t.input == [.byte 0x3C]) = true := by decide +kernel
/-- 40_bitstream R145: pending bits are dropped and not flushed. -/
theorem test_bwInit : gives (exec .bwInit { feed [] with wr := ⟨0x1A, 5⟩ })
    (fun t => okVal 0 t && t.wr == ⟨0, 0⟩ && sent [] t) = true := by decide +kernel
/-- V-BS3: a 32-bit field after 5 pending bits. -/
theorem test_bwWrite_unaligned : gives (exec (.bwWrite 32 0xDEADBEEF) { feed [] with wr := ⟨0x1F, 5⟩ })
    (fun t => okVal 0 t && t.wr == ⟨0x1B, 5⟩ && sent [0xFF, 0xDD, 0xB7, 0xD5] t) = true := by decide +kernel
/-- V-BS8: the filled holder is refused. -/
theorem test_bwWrite_refused : gives (exec (.bwWrite 8 0xFF) { feed [] with wr := ⟨0x0A, 4⟩, sink := [.fail] })
    (fun t => failed .ioWrite t && t.wr == ⟨0, 0⟩ && t.trace == [.write .block 0xFA false]) = true := by decide +kernel
/-- P1: the padded last byte. -/
theorem test_bwComplete : gives (exec .bwComplete { feed [] with wr := ⟨0x1A, 5⟩ })
    (fun t => okVal 0 t && t.wr == ⟨0, 0⟩ && sent [0x1A] t) = true := by decide +kernel
/-- V-BS2: nothing pending, nothing written. -/
theorem test_bwComplete_empty : gives (exec .bwComplete (feed [])) (fun t => okVal 0 t && t.trace == []) = true := by decide +kernel

/-! ## The code table -/

/-- V-CT1. -/
theorem test_ctLoad : gives (exec .ctLoad (feed (hf1.take 27)))
    (fun t => okVal 3 t && reader 27 7 t && t.ctValid && t.ct[0x41] == ⟨1, 1⟩ && t.ct[0x42] == ⟨2, 2⟩ && t.ct[0x44] == ⟨0, 0⟩) = true := by decide +kernel
/-- V-CT4, fourth row: the same value twice. -/
theorem test_ctLoad_twice : gives (exec .ctLoad (feed
    [2, 0, 0, 0, 1, 0, 0, 0, 1, 0, 0, 0, 1, 0, 0, 0, 0x41, 0, 0, 0, 0, 1, 0, 0, 0, 0x10]))
    (fun t => failed .corruptTable t && reader 26 6 t && !t.ctValid) = true := by decide +kernel

/-! ## RLE -/

/-- P3, second line. -/
theorem test_rlBegin : gives (exec .rlBegin (feed rl1))
    (fun t => okVal 0xC t && reader 8 8 t && t.rl == unit1 12) = true := by decide +kernel
/-- V-RL5, first row: disordered ranges, though the count is 0. -/
theorem test_rlBegin_disorder : gives (exec .rlBegin (feed [7, 5, 1, 3, 0, 0, 0, 0]))
    (fun t => failed .corruptTable t && reader 8 8 t && t.rl.phase == .idle) = true := by decide +kernel
/-- P3, third line. -/
theorem test_rlPair : gives (exec .rlPair (pairing [0x68, 0] 12))
    (fun t => okVal 0x0305 t && sent [5, 5, 5] t && t.rl == unit1 8) = true := by decide +kernel
/-- V-RL5: the second pair's value is above the range. -/
theorem test_rlPair_range : gives (exec .rlPair { pairing [] 8 with rd := ⟨0x78, 4, 1⟩ })
    (fun t => failed .corruptRange t && sent [] t && t.rl.phase == .failed) = true := by decide +kernel
/-- P3: `RL.END` from `FAILED`. -/
theorem test_rlEnd : gives (exec .rlEnd { feed [] with rl := { unit1 0 with phase := .failed } })
    (fun t => okVal 0 t && t.rl.phase == .idle) = true := by decide +kernel
/-- 42_rle R193: bits are left. -/
theorem test_rlEnd_left : gives (exec .rlEnd (pairing [] 1)) (fun t => failed .corruptBitCount t && t.rl.phase == .idle) = true := by
  decide +kernel
/-- V-RL1. -/
theorem test_rlDecode : gives (exec .rlDecode (feed rl1))
    (fun t => okVal 0 t && sent [5, 5, 5, 7, 7, 5] t && reader 10 4 t && t.rl.phase == .idle) = true := by decide +kernel
/-- V-RL5: a bit count of 13. -/
theorem test_rlDecode_count : gives (exec .rlDecode (feed [5, 7, 1, 3, 13, 0, 0, 0, 0x68, 0]))
    (fun t => failed .corruptBitCount t && sent [5, 5, 5, 7, 7, 5] t && t.rl.phase == .idle && !t.fatal) = true := by decide +kernel

/-! ## Huffman -/

/-- The trie the spec draws for V-HF1. -/
theorem test_hfBegin : gives (exec .hfBegin (tabled State.reset)) (fun t => okVal 0 t && t.hf == ⟨.active, trie1, 0, 0⟩) = true := by
  decide +kernel
/-- V-HF7, second row: a path that ends on an internal node. -/
theorem test_hfBegin_prefix : gives (exec .hfBegin { State.reset with ct := pairTable ⟨3, 2⟩ ⟨1, 1⟩, ctValid := true })
    (fun t => failed .corruptTable t && t.hf.phase == .idle && t.ctValid) = true := by decide +kernel
/-- P2: a 1 bit goes left, to the leaf of A. -/
theorem test_hfBit_leaf : gives (exec (.hfBit true) (walking 0)) (fun t => okVal 0x41 t && t.hf.cur == 0) = true := by decide +kernel
/-- P2: a 0 bit goes right, to node 2. -/
theorem test_hfBit_more : gives (exec (.hfBit false) (walking 0)) (fun t => status .more t && t.hf.cur == 2) = true := by decide +kernel
/-- P6: the cursor is off the root. -/
theorem test_hfEnd_midcode : gives (exec .hfEnd (walking 2)) (fun t => failed .corruptMidCode t && t.hf.phase == .idle) = true := by
  decide +kernel
/-- P2. -/
theorem test_hfEnd : gives (exec .hfEnd (walking 0)) (fun t => okVal 0 t && t.hf.phase == .idle) = true := by decide +kernel
/-- V-HF1. -/
theorem test_hfDecode : gives (exec .hfDecode (feed hf1))
    (fun t => okVal 0 t && sent [0x41, 0x42, 0x41, 0x43, 0x41, 0x42, 0x41] t && reader 33 1 t && t.hf.phase == .idle && t.ctValid) =
      true := by decide +kernel
/-- V-HF4: the last byte is missing. -/
theorem test_hfDecode_cut : gives (exec .hfDecode (feed (hf1.take 32)))
    (fun t => failed .ioRead t && sent [0x41, 0x42, 0x41, 0x43, 0x41, 0x42] t && reader 32 8 t && t.hf.phase == .idle) = true := by
  decide +kernel

/-! ## LZW -/

/-- P4. -/
theorem test_lzBegin : gives (exec .lzBegin State.reset)
    (fun t => okVal 0 t && t.lz.size == 256 && t.lz.dict[0x41]? == some [0x41] && t.lz.phase == .active) = true := by decide +kernel
/-- P4: code 256 after `41`, `42`. -/
theorem test_lzPut_known : gives (exec (.lzPut 256) (putting [[0x41, 0x42]] [0x42]))
    (fun t => okVal 2 t && sent [0x41, 0x42] t && t.lz.dict[257]? == some [0x42, 0x41] && t.lz.prev == [0x41, 0x42]) = true := by
  decide +kernel
/-- P4: code 258 is the KwK case. -/
theorem test_lzPut_kwk : gives (exec (.lzPut 258) (putting [[0x41, 0x42], [0x42, 0x41]] [0x41, 0x42]))
    (fun t => okVal 3 t && sent [0x41, 0x42, 0x41] t && t.lz.dict[258]? == some [0x41, 0x42, 0x41]) = true := by decide +kernel
/-- P5: `LZ.END` from `FAILED`. -/
theorem test_lzEnd : gives (exec .lzEnd (setLzPhase .failed (putting [] []))) (fun t => okVal 0 t && t.lz.phase == .idle) = true := by
  decide +kernel
/-- P5: `LZ.END` from `IDLE` is a contract violation. -/
theorem test_lzEnd_idle : gives (exec .lzEnd State.reset) (fun t => failed .fatal t && t.fatal && t.lz == State.reset.lz) = true := by
  decide +kernel
/-- V-LZ1. -/
theorem test_lzDecodeP : gives (exec .lzDecodeP (feed lz1))
    (fun t => okVal 0 t && sent [0x41, 0x42, 0x41, 0x42, 0x41, 0x42, 0x41] t && reader 16 8 t && t.lz.phase == .idle) = true := by
  decide +kernel
/-- V-LZ7: `DICT_MAX` = 258. -/
theorem test_lzDecodeP_limit : gives (exec .lzDecodeP { feed lz1 with params := ⟨258, none⟩ })
    (fun t => failed .limit t && sent [0x41, 0x42, 0x41, 0x42, 0x41, 0x42, 0x41] t && reader 16 8 t) = true := by decide +kernel
/-- V-LZ2. -/
theorem test_lzDecodeB : gives (exec .lzDecodeB (feed lz2))
    (fun t => okVal 0 t && sent [0x41, 0x42, 0x41, 0x42, 0x41, 0x42, 0x41] t && reader 13 8 t && t.lz.phase == .idle) = true := by
  decide +kernel
/-- V-LZ7: `min` + 1 = 2^32. -/
theorem test_lzDecodeB_range : gives (exec .lzDecodeB (feed [1, 0, 0, 0, 0xFF, 0xFF, 0xFF, 0xFF, 1, 1]))
    (fun t => failed .corruptRange t && sent [] t && reader 10 1 t && !t.fatal) = true := by decide +kernel

/-! ## Steps -/

/-- The word placed by `withFetchWord` is the one the very next step runs (P3, second line). -/
theorem test_step_runs_the_word : gives (step ((feed rl1).withFetchWord 48 0x40)) (fun t => okVal 0xC t && t.host == []) = true := by
  decide +kernel
/-- V-BS7: an undefined word. -/
theorem test_step_illegal : gives (step (State.reset.withFetchWord 48 0x13)) (fun t => failed .fatal t && t.fatal) = true := by
  decide +kernel
/-- 70_reset R358: a channel that never answers. -/
theorem test_step_hangs : exec (.brRead 1) { State.reset with input := [.never] } = .fault .inputNeverAnswers := by rfl

/-! ## Witnesses: concrete inputs that meet the hypotheses of each statement of the obligations, all of them together -/

/-- A state in which the host does this next, and then nothing. -/
def acting (a : HostAction) : State := { State.reset with host := [a] }

/-- A violated contract is remembered. -/
def stopped : State := { State.reset with fatal := true }

/-- A reader with this many zero bits ahead. -/
def headless (n : Nat) : State :=
  { feed (List.replicate (n / 8) 0) with rd := ⟨0, Fin.ofNat 9 (8 - n % 8), 1⟩ }

/-- The bits a list of bytes holds. -/
def bitsIn (l : List Nat) : List Bool := (bytesOf l).flatMap bitsOfByte

/-- The reset state with an input channel that holds these bits, padded to whole bytes, and then answers `None`. -/
def holding (bits : List Bool) : State := { State.reset with input := (packBits bits).map .byte }

theorem prefixFree_of_built {ct : CodeTable} (h : (buildTrie ct).isOk = true) : PrefixFree ct := by
  have := buildTrie_tree ct
  cases hb : buildTrie ct with
  | error nodes => rw [hb] at h; cases h
  | ok nodes => rw [hb] at this; exact this.2.1

theorem prefixFree_ct1 : PrefixFree (tableOf ct1) := prefixFree_of_built (by decide +kernel)

theorem not_prefixFree_of_refused {ct : CodeTable} (h : (buildTrie ct).isOk = false) : ¬ PrefixFree ct := by
  have := buildTrie_tree ct
  cases hb : buildTrie ct with
  | error nodes => rw [hb] at this; exact this.2
  | ok nodes => rw [hb] at h; cases h

theorem witness_DecodeOfEncode : (Instr.brRead 32).WellFormed ∧ (Instr.bwWrite 0 0xFFFFFFFF).WellFormed := by decide

theorem witness_UnusedFieldsHaveNoEffect :
    (0xABCDEF982011#48 ≠ 0x000000002011#48 ∧ cmdField 0xABCDEF982011 = cmdField 0x000000002011 ∧
      nField 0xABCDEF982011 = nField 0x000000002011) ∧
    (0xFFFFFFFFFF51#48 ≠ 0x000000010051#48 ∧ cmdField 0xFFFFFFFFFF51 = cmdField 0x000000010051 ∧
      (argField 0xFFFFFFFFFF51).getLsbD 0 = (argField 0x000000010051).getLsbD 0) := by decide

theorem witness_StepRunsTheDecodedCommand :
    (acting (.issue 0x000000002011)).host = .issue 0x000000002011 :: [] ∧ decode 0x000000002011 = .ok (.brRead 32) := by decide

theorem witness_StepOnAnIllegalWord :
    (acting (.issue 0x000000002111)).host = .issue 0x000000002111 :: [] ∧ decode 0x000000002111 = .error (.illegalCount 33) := by
  decide

theorem witness_StepsOfTheHost :
    State.reset.host = [] ∧ (acting .resetInput).host = .resetInput :: [] ∧
    ((acting .readByte).host = .readByte :: [] ∧ ({ acting .readByte with input := [.byte 7] } : State).input = .byte 7 :: []) ∧
    ((acting (.writeByte 7)).host = .writeByte 7 :: [] ∧ ({ acting (.writeByte 7) with sink := [.ok] } : State).sink = .ok :: []) ∧
    (({ acting .readByte with input := [.none, .byte 7] } : State).input = .none :: [.byte 7] ∧ (acting .readByte).input = [] ∧
      ({ acting .readByte with input := [.never] } : State).input = .never :: []) ∧
    (({ acting (.writeByte 7) with sink := [.fail, .ok] } : State).sink = .fail :: [.ok] ∧ (acting (.writeByte 7)).sink = [] ∧
      ({ acting (.writeByte 7) with sink := [.never] } : State).sink = .never :: []) ∧
    (acting (.attachInput [.none])).host = .attachInput [.none] :: [] ∧
    (acting (.attachOutput [.fail])).host = .attachOutput [.fail] :: [] := by decide

theorem witness_FatalIsSticky_set :
    State.reset.fatal = false ∧ violates .rlPair State.reset = true ∧ decode 0x13 = .error (.undefinedCommand 0x13) := by decide

theorem witness_FatalIsSticky_rises : ∃ t, step (acting (.issue 0x41)) = .next t ∧
    ((acting (.issue 0x41)).fatal == false && t.fatal) = true := gives_exists (p := fun t => _ && t.fatal) (by decide +kernel)

theorem witness_FatalIsSticky_falls : ∃ t, step { acting (.issue 0) with fatal := true } = .next t ∧ (!t.fatal) = true :=
  gives_exists (p := fun t => !t.fatal) (by decide +kernel)

theorem witness_FatalIsSticky_stays : stopped.fatal = true ∧ Instr.brInit ≠ .sysReset := by decide

theorem witness_ContractViolationsComplete :
    (State.reset.fatal = false ∧ violates (.brRead 33) State.reset = true ∧ violates (.bwWrite 33 0) State.reset = true) ∧
    (∃ t, exec (.brRead 0) State.reset = .next t ∧ (violates (.brRead 32) State.reset == false) = true) ∧
    ((feed [1]).rl.phase = State.reset.rl.phase ∧ (feed [1]).hf.phase = State.reset.hf.phase ∧
      (feed [1]).lz.phase = State.reset.lz.phase ∧ (feed [1]).ctValid = State.reset.ctValid ∧ feed [1] ≠ State.reset) ∧
    stopped.fatal = true :=
  ⟨by decide, ⟨_, rfl, by decide⟩, by decide +kernel, rfl⟩

theorem witness_EveryCommandReturns :
    alwaysAnswers { feed [1, 2] with sink := [.ok, .fail] } = true ∧ alwaysAnswers State.reset = true := by decide

theorem witness_StepKeepsTheInvariants :
    State.Invariant { feed rl1 with host := [.issue 0x4F] } ∧ ∃ t, step { feed rl1 with host := [.issue 0x4F] } = .next t ∧
      okVal 0 t = true := ⟨by decide +kernel, gives_exists (by decide +kernel)⟩

theorem witness_ResetStatesAndChannels : cmdField 0xFFFFFFFFFF00 = 0x00 ∧ cmdField 0x000000000000 = 0x00 := by decide

theorem witness_ChannelsMoveForward : ∃ t, exec .rlDecode (feed rl1) = .next t ∧ sent [5, 5, 5, 7, 7, 5] t = true :=
  gives_exists (by decide +kernel)

theorem witness_PhasesFollowTheProtocol :
    (∃ t, exec .lzBegin State.reset = .next t ∧ (State.reset.fatal == false && violates .lzBegin State.reset == false && okVal 0 t) = true) ∧
    (∃ t, exec .lzEnd State.reset = .next t ∧ (violates .lzEnd State.reset && failed .fatal t) = true) :=
  ⟨gives_exists (p := fun t => _ && okVal 0 t) (by decide +kernel), gives_exists (p := fun t => _ && failed .fatal t) (by decide +kernel)⟩

theorem witness_WritersOfTheInternalMemories :
    (∃ t, exec .ctLoad (tabled State.reset) = .next t ∧ (t.ctValid != (tabled State.reset).ctValid) = true) ∧
    (∃ t, exec .hfBegin (tabled State.reset) = .next t ∧ (t.hf.nodes != State.reset.hf.nodes) = true) ∧
    (∃ t, exec (.lzPut 65) (putting [] [0x41]) = .next t ∧ (t.lz.size == 257) = true) :=
  ⟨gives_exists (p := fun t => t.ctValid != _) (by decide +kernel), gives_exists (p := fun t => t.hf.nodes != _) (by decide +kernel),
    gives_exists (p := fun t => t.lz.size == 257) (by decide +kernel)⟩

theorem witness_FailuresByCommand :
    (∃ t, exec (.lzPut 300) (putting [] []) = .next t ∧ failed .corruptCode t = true) ∧
    (∃ t, exec (.hfBit false) (walking 0) = .next t ∧ status .more t = true) :=
  ⟨gives_exists (by decide +kernel), gives_exists (by decide +kernel)⟩

theorem witness_BitwidthIsTheBitCount :
    (0 < 1 ∧ bitwidth 1 = 1) ∧ (0 < 255 ∧ bitwidth 255 = 8) ∧ (0 < 256 ∧ bitwidth 256 = 9) := by decide +kernel

theorem witness_BrInitAndBrAlign :
    ({ feed [] with rd := ⟨0xA5, 3, 1⟩ } : State).fatal = false ∧ ({ feed [] with rd := ⟨0xA5, 3, 1⟩ } : State).rd.ok = true ∧
    State.reset.rd.ok = true := by decide

theorem witness_BrReadReturnsTheBits :
    ((feed [0xEF, 0xBE, 0xAD, 0xDE]).fatal = false ∧ (32 : BitVec 8).toNat ≤ 32 ∧
      (32 : BitVec 8).toNat ≤ (feed [0xEF, 0xBE, 0xAD, 0xDE]).bitsAhead.length) ∧
    ((0 : BitVec 8).toNat ≤ 32 ∧ (0 : BitVec 8).toNat ≤ State.reset.bitsAhead.length ∧ (0 : BitVec 8).toNat = 0) := by decide +kernel

theorem witness_BrReadCutShort :
    (feed [0x12]).fatal = false ∧ (9 : BitVec 8).toNat ≤ 32 ∧ (feed [0x12]).bitsAhead.length < (9 : BitVec 8).toNat ∧
      dryAnswer (feed [0x12]).input = true := by decide +kernel

theorem witness_ReadsAdvanceThePosition :
    ∃ t, exec (.brRead 13) (feed [0xBC, 0x1A]) = .next t ∧ ((feed [0xBC, 0x1A]).rd.ok && okVal 0x1ABC t) = true :=
  gives_exists (p := fun t => _ && okVal 0x1ABC t) (by decide +kernel)

theorem witness_BwInitDropsPendingBits : cmdField 0xFFFFFFFFFF20 = 0x20 ∧ (writing 0x1A 5 []).fatal = false := by decide

theorem witness_BwWriteAppendsTheBits :
    (writing 0x1F 7 [.ok, .ok, .ok, .ok, .fail]).fatal = false ∧ (writing 0x1F 7 [.ok, .ok, .ok, .ok, .fail]).wr.ok = true ∧
      (32 : BitVec 8).toNat ≤ 32 ∧ sinkAccepts (pushCount (writing 0x1F 7 [.ok, .ok, .ok, .ok, .fail]).wr.off (32 : BitVec 8).toNat)
        (writing 0x1F 7 [.ok, .ok, .ok, .ok, .fail]).sink = true := by decide

theorem witness_BwWriteRefused_last :
    (writing 0x0A 4 [.ok, .ok, .ok, .fail]).fatal = false ∧ (writing 0x0A 4 [.ok, .ok, .ok, .fail]).wr.ok = true ∧
      (32 : BitVec 8).toNat ≤ 32 ∧ (writing 0x0A 4 [.ok, .ok, .ok, .fail]).sink = List.replicate 3 .ok ++ .fail :: [] ∧
      3 < pushCount (writing 0x0A 4 [.ok, .ok, .ok, .fail]).wr.off (32 : BitVec 8).toNat := by decide

theorem witness_BwWriteRefused_first :
    (writing 0x7F 7 [.fail]).fatal = false ∧ (writing 0x7F 7 [.fail]).wr.ok = true ∧ (1 : BitVec 8).toNat ≤ 32 ∧
      (writing 0x7F 7 [.fail]).sink = List.replicate 0 .ok ++ .fail :: [] ∧
      0 < pushCount (writing 0x7F 7 [.fail]).wr.off (1 : BitVec 8).toNat := by decide

theorem witness_BwCompleteFlushesTheHolder :
    cmdField 0x0000FFFF0022 = 0x22 ∧ (State.reset.fatal = false ∧ State.reset.wr.ok = true ∧ State.reset.wr.off = 0) ∧
    ((writing 0x41 7 [.ok, .fail]).fatal = false ∧ (writing 0x41 7 [.ok, .fail]).wr.ok = true ∧
      (writing 0x41 7 [.ok, .fail]).wr.off ≠ 0 ∧ sinkAccepts 1 (writing 0x41 7 [.ok, .fail]).sink = true) ∧
    ((writing 0x01 1 [.fail]).fatal = false ∧ (writing 0x01 1 [.fail]).wr.ok = true ∧ (writing 0x01 1 [.fail]).wr.off ≠ 0 ∧
      (writing 0x01 1 [.fail]).sink = .fail :: []) := by decide

theorem witness_Regrouping_reads :
    (feed [0xEF, 0xBE, 0xAD, 0xDE]).fatal = false ∧ (0 : BitVec 8).toNat + (32 : BitVec 8).toNat ≤ 32 ∧
      (0 : BitVec 8).toNat + (32 : BitVec 8).toNat ≤ (feed [0xEF, 0xBE, 0xAD, 0xDE]).bitsAhead.length := by decide +kernel

theorem witness_Regrouping_writes :
    (writing 0x0A 4 [.ok, .ok, .ok, .ok, .fail]).fatal = false ∧ (writing 0x0A 4 [.ok, .ok, .ok, .ok, .fail]).wr.ok = true ∧
      (13 : BitVec 8).toNat + (19 : BitVec 8).toNat ≤ 32 ∧
      sinkAccepts (pushCount (writing 0x0A 4 [.ok, .ok, .ok, .ok, .fail]).wr.off ((13 : BitVec 8).toNat + (19 : BitVec 8).toNat))
        (writing 0x0A 4 [.ok, .ok, .ok, .ok, .fail]).sink = true := by decide

/-- The widths 1, 0 and 32, and a stream of five bytes to read back. -/
theorem witness_WriteThenReadExactness :
    ((writing 0 0 [.ok, .ok, .ok, .ok, .ok, .fail]).fatal = false ∧
      (∀ f ∈ ([(1, 1), (0, 9), (32, 0xDEADBEEF)] : List (BitVec 8 × Word)), f.1.toNat ≤ 32) ∧
      sinkAccepts (((([(1, 1), (0, 9), (32, 0xDEADBEEF)] : List (BitVec 8 × Word)).map fun f => f.1.toNat).sum + 7) / 8)
        (writing 0 0 [.ok, .ok, .ok, .ok, .ok, .fail]).sink = true) ∧
    ((feed [0xDF, 0x7D, 0x5B, 0xBD, 0x01, 0x99]).fatal = false ∧
      (feed [0xDF, 0x7D, 0x5B, 0xBD, 0x01, 0x99]).input = (bytesOf [0xDF, 0x7D, 0x5B, 0xBD, 0x01]).map .byte ++ [.byte 0x99]) :=
  ⟨⟨rfl, by simp, by decide⟩, rfl, rfl⟩

theorem witness_BitStreamFrame :
    (∃ t, exec (.brRead 32) (feed [1]) = .next t ∧ failed .ioRead t = true) ∧
    (∃ t, exec (.bwWrite 8 7) (feed []) = .next t ∧ sent [7] t = true) :=
  ⟨gives_exists (by decide +kernel), gives_exists (by decide +kernel)⟩

theorem witness_CtLoadLoadsTheTable :
    (feed (hf1.take 27)).fatal = false ∧ (feed (hf1.take 27)).hf.phase = .idle ∧ TableOk head1 ct1 ∧
      (feed (hf1.take 27)).bitsAhead = tableBits head1 ct1 ++ [false] := by decide +kernel

theorem witness_CtLoadAcceptsOnlyTables : ∃ t, exec .ctLoad (feed (hf1.take 27)) = .next t ∧ t.result = some ⟨.ok, 3⟩ := by
  obtain ⟨t, h, hp⟩ := gives_exists test_ctLoad
  exact ⟨t, h, by simp only [okVal, Bool.and_eq_true, beq_iff_eq] at hp; exact hp.1.1.1.1.1⟩

theorem witness_CtLoadFailureAndFrame :
    (State.reset.fatal = false ∧ State.reset.hf.phase = .idle ∧ ∃ t, exec .ctLoad State.reset = .next t ∧ failed .ioRead t = true) ∧
    ((walking 0).fatal = false ∧ (walking 0).hf.phase ≠ .idle ∧ ∃ t, exec .ctLoad (walking 0) = .next t ∧ failed .fatal t = true) :=
  ⟨⟨rfl, rfl, gives_exists (by decide +kernel)⟩, rfl, by decide, gives_exists (by decide +kernel)⟩

/-- The least counts and widths that checks (1) and (2) of 41_code_table R171 refuse. -/
theorem witness_CtLoadFailureAndFrame_header :
    256 < TableHeader.count ⟨257, 0, 0, 0, 0, 0, 0⟩ ∧
    (holding (tableHeaderBits ⟨257, 0, 0, 0, 0, 0, 0⟩)).bitsAhead = tableHeaderBits ⟨257, 0, 0, 0, 0, 0, 0⟩ ++ [] ∧
    (TableHeader.count ⟨1, 33, 0, 0, 0, 0, 0⟩ ≠ 0 ∧ 32 < TableHeader.valueBits ⟨1, 33, 0, 0, 0, 0, 0⟩) ∧
    (holding (tableHeaderBits ⟨1, 33, 0, 0, 0, 0, 0⟩)).bitsAhead = tableHeaderBits ⟨1, 33, 0, 0, 0, 0, 0⟩ ++ [] ∧
    (holding (tableHeaderBits ⟨257, 0, 0, 0, 0, 0, 0⟩)).fatal = false ∧
    (holding (tableHeaderBits ⟨257, 0, 0, 0, 0, 0, 0⟩)).hf.phase = .idle := by decide +kernel

/-- A first entry with the byte value 256, and a second entry that repeats the first one's. -/
theorem witness_CtLoadFailureAndFrame_value :
    (headerFits ⟨1, 1, 0, 0, 255, 0, 1⟩ = true ∧ 0 < 1 ∧ 1 < 2 ^ 1 ∧ 255 < 255 + 1 ∧
      (holding (tableBits ⟨1, 1, 0, 0, 255, 0, 1⟩ [] ++ [true])).bitsAhead =
        tableBits ⟨1, 1, 0, 0, 255, 0, 1⟩ [] ++ fieldBits 1 1 ++ fieldBits 0 0 ++ fieldBits 0 0 ++ List.replicate 7 false) ∧
    (headerFits head1 = true ∧ 1 < head1.count ∧ (∀ e ∈ ct1.take 1, e.legal = true ∧ e.fits head1 = true) ∧
      (ct1.take 1).Pairwise (fun a b => a.value < b.value) ∧ (∃ e ∈ ct1.take 1, head1.minValue + 0 ≤ e.value) ∧
      (holding (tableBits head1 (ct1.take 1) ++ List.replicate 5 false)).bitsAhead =
        tableBits head1 (ct1.take 1) ++ fieldBits 2 0 ++ fieldBits 2 0 ++ fieldBits 1 0 ++ List.replicate 6 false) := by decide +kernel

/-- An entry of length 0, one of length 33 and one whose code is `2 ^ length`. -/
theorem witness_CtLoadFailureAndFrame_code :
    (headerFits ⟨1, 0, 0, 1, 0, 0, 0⟩ = true ∧ 0 + 0 = 0 ∧
      (holding (tableBits ⟨1, 0, 0, 1, 0, 0, 0⟩ [])).bitsAhead = tableBits ⟨1, 0, 0, 1, 0, 0, 0⟩ [] ++ [] ∧
      (holding (tableBits ⟨1, 0, 0, 1, 0, 0, 0⟩ [] ++ [false])).bitsAhead =
        tableBits ⟨1, 0, 0, 1, 0, 0, 0⟩ [] ++ fieldBits 0 0 ++ fieldBits 0 0 ++ fieldBits 1 0 ++ List.replicate 7 false) ∧
    (headerFits ⟨1, 0, 0, 1, 0, 0, 32⟩ = true ∧ 1 < 2 ^ 1 ∧ 32 < 32 + 1 ∧
      (holding (tableBits ⟨1, 0, 0, 1, 0, 0, 32⟩ [] ++ [true])).bitsAhead =
        tableBits ⟨1, 0, 0, 1, 0, 0, 32⟩ [] ++ fieldBits 0 0 ++ fieldBits 0 0 ++ fieldBits 1 1 ++ List.replicate 7 false) ∧
    (headerFits ⟨1, 0, 1, 0, 0, 1, 1⟩ = true ∧ 1 < 2 ^ 1 ∧ 2 ^ (1 + 0) ≤ 1 + 1 ∧
      (holding (tableBits ⟨1, 0, 1, 0, 0, 1, 1⟩ [] ++ [true])).bitsAhead =
        tableBits ⟨1, 0, 1, 0, 0, 1, 1⟩ [] ++ fieldBits 0 0 ++ fieldBits 1 1 ++ fieldBits 0 0 ++ List.replicate 7 false) := by
  decide +kernel

/-- One entry of eight bits, and a channel that ends before it. -/
theorem witness_CtLoadFailureAndFrame_cut :
    headerFits ⟨1, 8, 0, 0, 0, 0, 1⟩ = true ∧ ([] : List Entry).length < TableHeader.count ⟨1, 8, 0, 0, 0, 0, 1⟩ ∧ 0 < 8 + 0 + 0 ∧
      (holding (tableBits ⟨1, 8, 0, 0, 0, 0, 1⟩ [])).bitsAhead = tableBits ⟨1, 8, 0, 0, 0, 0, 1⟩ [] ++ [] ∧
      dryAnswer (holding (tableBits ⟨1, 8, 0, 0, 0, 0, 1⟩ [])).input = true := by decide +kernel

theorem witness_CtLoadCutHeader :
    (headless 199).fatal = false ∧ (headless 199).hf.phase = .idle ∧ (headless 199).bitsAhead.length < 200 ∧
      dryAnswer (headless 199).input = true := by decide +kernel

theorem witness_RlBeginReadsTheHeader :
    (feed rl1).fatal = false ∧ (feed rl1).rl.phase = .idle ∧ RleHeader.ok ⟨5, 7, 1, 3⟩ = true ∧ 12 < 2 ^ 32 ∧
      (feed rl1).bitsAhead = rleHeaderBits ⟨5, 7, 1, 3⟩ 12 ++ bitsIn [0x68, 0] := by decide +kernel

theorem witness_RlBeginRefusesDisorder_cut :
    (feed (List.replicate 7 0)).fatal = false ∧ (feed (List.replicate 7 0)).rl.phase = .idle ∧
      (feed (List.replicate 7 0)).bitsAhead.length < 64 ∧ dryAnswer (feed (List.replicate 7 0)).input = true := by decide +kernel

theorem witness_RlBeginRefusesDisorder_values :
    (feed [255, 254, 0, 0, 0, 0, 0, 0]).fatal = false ∧ (feed [255, 254, 0, 0, 0, 0, 0, 0]).rl.phase = .idle ∧ 255 < 256 ∧ 254 < 255 ∧
      (feed [255, 254, 0, 0, 0, 0, 0, 0]).bitsAhead = rleHeaderBits ⟨255, 254, 0, 0⟩ 0 ++ [] := by decide +kernel

theorem witness_RlBeginRefusesDisorder_repeats :
    (feed [0, 0, 1, 0, 0, 0, 0, 0]).fatal = false ∧ (feed [0, 0, 1, 0, 0, 0, 0, 0]).rl.phase = .idle ∧ 1 < 256 ∧ 0 < 1 ∧
      (feed [0, 0, 1, 0, 0, 0, 0, 0]).bitsAhead = rleHeaderBits ⟨0, 0, 1, 0⟩ 0 ++ [] := by decide +kernel

theorem witness_RlPairEmitsTheRun :
    (pairing [0x68] 4).fatal = false ∧ RleHeader.ok ⟨5, 7, 1, 3⟩ = true ∧ RleHeader.holds ⟨5, 7, 1, 3⟩ (5, 3) = true ∧
      (pairing [0x68] 4).rl = RleHeader.unit ⟨5, 7, 1, 3⟩ 4 ∧ RleHeader.vbits ⟨5, 7, 1, 3⟩ + RleHeader.rbits ⟨5, 7, 1, 3⟩ ≤ 4 ∧
      4 < 2 ^ 32 ∧ (pairing [0x68] 4).bitsAhead = pairBits ⟨5, 7, 1, 3⟩ (5, 3) ++ [false, true, true, false] ∧
      sinkAccepts 3 (pairing [0x68] 4).sink = true := by decide +kernel

theorem witness_RlPairFailures_short : (pairing [] 3).fatal = false ∧ (pairing [] 3).rl.phase = .active ∧
    (pairing [] 3).rl.left.toNat < (pairing [] 3).rl.pairBits := by decide +kernel

theorem witness_RlPairFailures_dry : (pairing [] 4).fatal = false ∧ (pairing [] 4).rl.phase = .active ∧
    (pairing [] 4).rl.pairBits ≤ (pairing [] 4).rl.left.toNat ∧ (pairing [] 4).bitsAhead.length < (pairing [] 4).rl.pairBits ∧
    dryAnswer (pairing [] 4).input = true := by decide +kernel

theorem witness_RlPairFailures_range : (pairing [0x0F] 4).fatal = false ∧ (pairing [0x0F] 4).rl.phase = .active ∧
    (pairing [0x0F] 4).rl.pairBits ≤ (pairing [0x0F] 4).rl.left.toNat ∧ 3 < 2 ^ (pairing [0x0F] 4).rl.vbits.val ∧
    3 < 2 ^ (pairing [0x0F] 4).rl.rbits.val ∧
    (pairing [0x0F] 4).bitsAhead = fieldBits (pairing [0x0F] 4).rl.vbits 3 ++ fieldBits (pairing [0x0F] 4).rl.rbits 3 ++
      [false, false, false, false] ∧
    (pairing [0x0F] 4).rl.maxV.toNat < (pairing [0x0F] 4).rl.minV.toNat + 3 ∧
    (pairing [0x0F] 4).rl.maxR.toNat < (pairing [0x0F] 4).rl.minR.toNat + 3 := by decide +kernel

/-- The channel takes two of the three copies. -/
def refusing : State := { pairing [0x0A] 4 with sink := [.ok, .ok, .fail] }

theorem witness_RlPairFailures_refused : refusing.fatal = false ∧ refusing.rl.phase = .active ∧
    refusing.rl.pairBits ≤ refusing.rl.left.toNat ∧ 2 < 2 ^ refusing.rl.vbits.val ∧ 2 < 2 ^ refusing.rl.rbits.val ∧
    refusing.bitsAhead = fieldBits refusing.rl.vbits 2 ++ fieldBits refusing.rl.rbits 2 ++ [false, false, false, false] ∧
    refusing.rl.minV.toNat + 2 ≤ refusing.rl.maxV.toNat ∧ refusing.rl.minR.toNat + 2 ≤ refusing.rl.maxR.toNat ∧
    refusing.sink = List.replicate 2 .ok ++ .fail :: [] ∧ 2 < refusing.rl.minR.toNat + 2 := by decide +kernel

theorem witness_RlEndChecksTheCount :
    cmdField 0x42 = 0x42 ∧ (State.reset.fatal = false ∧ State.reset.rl.phase = .idle) ∧
    ((pairing [] 1).rl.phase = .active ∧ (pairing [] 1).rl.left ≠ 0) ∧ ((pairing [] 0).rl.phase = .active ∧ (pairing [] 0).rl.left = 0) ∧
    (setRlPhase .failed (pairing [] 1)).rl.phase = .failed := by decide

theorem witness_RlDecodeWholeStream :
    (feed rl1).fatal = false ∧ (feed rl1).rl.phase = .idle ∧ RleHeader.ok ⟨5, 7, 1, 3⟩ = true ∧
      (∀ p ∈ [(5, 3), (7, 2), (5, 1)], RleHeader.holds ⟨5, 7, 1, 3⟩ p = true) ∧ 3 * (2 + 2) < 2 ^ 32 ∧
      (brInit (feed rl1)).bitsAhead = rleBits ⟨5, 7, 1, 3⟩ [(5, 3), (7, 2), (5, 1)] ++ [false, false, false, false] ∧
      sinkAccepts (rleBytes [(5, 3), (7, 2), (5, 1)]).length (feed rl1).sink = true := by decide +kernel

/-- The empty stream V-RL4; V-RL1 meets the hypotheses too (`witness_RlDecodeWholeStream`). -/
theorem witness_RlHostDrivenAgrees :
    (feed [9, 9, 1, 1, 0, 0, 0, 0]).fatal = false ∧ (feed [9, 9, 1, 1, 0, 0, 0, 0]).rl.phase = .idle ∧
      RleHeader.ok ⟨9, 9, 1, 1⟩ = true ∧ (∀ p ∈ ([] : List (Nat × Nat)), RleHeader.holds ⟨9, 9, 1, 1⟩ p = true) ∧
      ([] : List (Nat × Nat)).length * (RleHeader.vbits ⟨9, 9, 1, 1⟩ + RleHeader.rbits ⟨9, 9, 1, 1⟩) < 2 ^ 32 ∧
      (brInit (feed [9, 9, 1, 1, 0, 0, 0, 0])).bitsAhead = rleBits ⟨9, 9, 1, 1⟩ [] ++ [] ∧
      sinkAccepts (rleBytes []).length (feed [9, 9, 1, 1, 0, 0, 0, 0]).sink = true := by decide +kernel

/-- A disordered header. -/
theorem witness_RlHostDrivenAgrees_refused :
    (feed [255, 254, 0, 0, 0, 0, 0, 0]).fatal = false ∧ (feed [255, 254, 0, 0, 0, 0, 0, 0]).rl.phase = .idle ∧
      alwaysAnswers (feed [255, 254, 0, 0, 0, 0, 0, 0]) = true ∧
      ((execUntil [.brInit, .rlBegin] (feed [255, 254, 0, 0, 0, 0, 0, 0])).any fun x => x.1 == .fail .corruptTable) = true := by
  decide +kernel

/-- V-RL1 with a count of 5, a pair and one bit over: the header is read, and then two `RL.PAIR`s are issued, the second of which
fails. -/
theorem witness_RlHostDrivenAgrees_leftover :
    (feed [5, 7, 1, 3, 5, 0, 0, 0, 0x68, 0]).fatal = false ∧ (feed [5, 7, 1, 3, 5, 0, 0, 0, 0x68, 0]).rl.phase = .idle ∧
      alwaysAnswers (feed [5, 7, 1, 3, 5, 0, 0, 0, 0x68, 0]) = true ∧
      ((execUntil [.brInit, .rlBegin] (feed [5, 7, 1, 3, 5, 0, 0, 0, 0x68, 0])).any fun x =>
        x.1 == .ok && (x.2.rl.left.toNat + x.2.rl.pairBits - 1) / x.2.rl.pairBits == 2 &&
          (execUntil [.rlPair, .rlPair] x.2).any fun y => y.1 == .fail .corruptBitCount) = true := by decide +kernel

theorem witness_RleRoundTrip :
    (feed rl1).fatal = false ∧ (feed rl1).rl.phase = .idle ∧ 3 * (2 + 2) < 2 ^ 32 ∧
      (feed rl1).input = (packBits (rleBits (headerOf (runsOf (bytesOf [5, 5, 5, 7, 7, 5]))) (runsOf (bytesOf [5, 5, 5, 7, 7, 5])))).map
        .byte ++ [] ∧
      sinkAccepts 6 (feed rl1).sink = true := by decide +kernel

/-- The stream V-RL2: 300 times `41`. -/
def rl2 : List Nat := [0x41, 0x41, 0x2D, 0xFF, 0x12, 0, 0, 0, 0xA4, 0x01, 0]

/-- The runs of 255, 256 and 300 equal bytes; the stream of the last is V-RL2. -/
theorem witness_RleRoundTrip_saturated :
    runsOf (List.replicate 255 0x41) = [(0x41, 255)] ∧ runsOf (List.replicate 256 0x41) = [(0x41, 255), (0x41, 1)] ∧
      runsOf (List.replicate 300 0x41) = [(0x41, 255), (0x41, 45)] ∧
      (headerOf [(0x41, 255), (0x41, 45)]).vbits = 1 ∧ (headerOf [(0x41, 255), (0x41, 45)]).rbits = 8 ∧ 2 * (1 + 8) < 2 ^ 32 ∧
      (feed rl2).input =
        (packBits (rleBits (headerOf (runsOf (List.replicate 300 0x41))) (runsOf (List.replicate 300 0x41)))).map .byte ++ [] ∧
      sinkAccepts 300 (feed rl2).sink = true := by decide +kernel

theorem witness_RleFrame :
    (∃ t, exec .rlPair (pairing [0x68] 4) = .next t ∧ okVal 0x0305 t = true) ∧
    (∃ t, exec .rlEnd (pairing [] 1) = .next t ∧ failed .corruptBitCount t = true) :=
  ⟨gives_exists (by decide +kernel), gives_exists (by decide +kernel)⟩

/-- A block with a table in which two byte values share a code. -/
def sharing : State := { State.reset with ct := pairTable ⟨2, 2⟩ ⟨2, 2⟩, ctValid := true }

theorem witness_HfBeginBuildsExactlyPrefixFree :
    ((tabled State.reset).fatal = false ∧ (tabled State.reset).hf.phase = .idle ∧ (tabled State.reset).ctValid = true ∧
      PrefixFree (tabled State.reset).ct) ∧
    (sharing.fatal = false ∧ sharing.hf.phase = .idle ∧ sharing.ctValid = true ∧ ¬ PrefixFree sharing.ct) :=
  ⟨⟨rfl, rfl, rfl, prefixFree_of_built (by decide +kernel)⟩, rfl, rfl, rfl, not_prefixFree_of_refused (by decide +kernel)⟩

theorem witness_HfBitWalksACode :
    (tabled State.reset).fatal = false ∧ (∃ t, exec .hfBegin (tabled State.reset) = .next t ∧ okVal 0 t = true) ∧
      (tabled State.reset).ct[(0x43 : Byte).toFin].length ≠ 0 :=
  ⟨rfl, gives_exists (by decide +kernel), by decide +kernel⟩

/-- A block with one code, `11`. -/
def lonely : State := { State.reset with ct := pairTable ⟨3, 2⟩ ⟨0, 0⟩, ctValid := true }

theorem witness_HfBitRefusesADeadEnd :
    lonely.fatal = false ∧ (∃ t, exec .hfBegin lonely = .next t ∧ okVal 0 t = true) ∧
    (lonely.ct[(0x41 : Fin 256)].length ≠ 0 ∧ [true] <+: pathOf lonely.ct[(0x41 : Fin 256)] ∧
      [true] ≠ pathOf lonely.ct[(0x41 : Fin 256)]) ∧
    (∀ v : Fin 256, lonely.ct[v].length ≠ 0 → ¬ ([true] ++ [false]) <+: pathOf lonely.ct[v]) ∧
    (∀ v : Fin 256, lonely.ct[v].length ≠ 0 → ¬ ([] ++ [false]) <+: pathOf lonely.ct[v]) :=
  ⟨rfl, gives_exists (by decide +kernel), by decide +kernel, by decide +kernel, by decide +kernel⟩

theorem witness_HfBitTakesOneEdge :
    (State.reset.fatal = false ∧ State.reset.hf.phase ≠ .active) ∧
    ((walking 1).hf.phase = .active ∧ (nodeAt (walking 1).hf.nodes 1).child true = none) ∧
    ((walking 0).hf.phase = .active ∧ (nodeAt (walking 0).hf.nodes 0).child true = some 1 ∧ (nodeAt trie1 1).leaf = true) ∧
    ((nodeAt (walking 0).hf.nodes 0).child false = some 2 ∧ (nodeAt trie1 2).leaf = false) := by decide

theorem witness_HfEndChecksTheCursor :
    cmdField 0x52 = 0x52 ∧ (State.reset.fatal = false ∧ State.reset.hf.phase = .idle) ∧
    ((walking 2).hf.phase = .active ∧ (walking 2).hf.cur ≠ 0) ∧ ((walking 0).hf.phase = .active ∧ (walking 0).hf.cur = 0) ∧
    ({ walking 0 with hf := ⟨.failed, trie1, 0, 0⟩ } : State).hf.phase = .failed := by decide

theorem witness_HuffmanRoundTrip :
    (feed hf1).fatal = false ∧ (feed hf1).hf.phase = .idle ∧ TableOk head1 ct1 ∧ PrefixFree (tableOf ct1) ∧
      (∀ v ∈ bytesOf [0x41, 0x42, 0x41, 0x43, 0x41, 0x42, 0x41], (tableOf ct1)[v.toFin].length ≠ 0) ∧
      (messageBits (tableOf ct1) (bytesOf [0x41, 0x42, 0x41, 0x43, 0x41, 0x42, 0x41])).length < 2 ^ 32 ∧
      (feed hf1).input = (packBits (huffmanBits head1 ct1 (bytesOf [0x41, 0x42, 0x41, 0x43, 0x41, 0x42, 0x41]))).map .byte ++ [] ∧
      sinkAccepts 7 (feed hf1).sink = true :=
  ⟨rfl, rfl, by decide, prefixFree_ct1, by decide +kernel, by decide +kernel, by decide +kernel, rfl⟩

/-- V-HF4 without its last two bytes: `A`, and the channel ends before `B`. -/
theorem witness_HuffmanCutStreamFails :
    (feed (hf1.take 31)).fatal = false ∧ (feed (hf1.take 31)).hf.phase = .idle ∧ TableOk head1 ct1 ∧ PrefixFree (tableOf ct1) ∧
      (∀ w ∈ bytesOf [0x41], (tableOf ct1)[w.toFin].length ≠ 0) ∧ (tableOf ct1)[(0x42 : Byte).toFin].length ≠ 0 ∧
      [] <+: pathOf (tableOf ct1)[(0x42 : Byte).toFin] ∧ [] ≠ pathOf (tableOf ct1)[(0x42 : Byte).toFin] ∧ 10 < 2 ^ 32 ∧
      (messageBits (tableOf ct1) (bytesOf [0x41])).length + 0 < 10 ∧
      (brInit (feed (hf1.take 31))).bitsAhead =
        tableBits head1 ct1 ++ fieldBits 32 10 ++ messageBits (tableOf ct1) (bytesOf [0x41]) ++ [] ∧
      dryAnswer (feed (hf1.take 31)).input = true ∧ sinkAccepts 1 (feed (hf1.take 31)).sink = true :=
  ⟨rfl, rfl, by decide, prefixFree_ct1, by decide +kernel, by decide +kernel, by decide +kernel, by decide +kernel,
    by decide, by decide +kernel, by decide +kernel, by decide +kernel, rfl⟩

/-- The header of a table with the one code `11`, its byte value in a field of one bit. -/
def head11 : TableHeader := ⟨1, 1, 0, 0, 0x41, 3, 2⟩

/-- The entry of that table. -/
def ct11 : List Entry := [⟨0x41, 3, 2⟩]

theorem prefixFree_ct11 : PrefixFree (tableOf ct11) := prefixFree_of_built (by decide +kernel)

/-- A stream of that table: `A`, and then these bits. -/
def after11 (total : Nat) (bits : List Bool) : State :=
  holding (tableBits head11 ct11 ++ fieldBits 32 total ++ (messageBits (tableOf ct11) [0x41] ++ bits))

/-- `A`, and then a bit off the trie, at the root and below it. -/
theorem witness_HuffmanCutStreamFails_off :
    (after11 3 [false]).fatal = false ∧ (after11 3 [false]).hf.phase = .idle ∧ TableOk head11 ct11 ∧ PrefixFree (tableOf ct11) ∧
      (∀ w ∈ [(0x41 : Byte)], (tableOf ct11)[w.toFin].length ≠ 0) ∧
      ((tableOf ct11)[(0x41 : Fin 256)].length ≠ 0 ∧ [true] <+: pathOf (tableOf ct11)[(0x41 : Fin 256)] ∧
        [true] ≠ pathOf (tableOf ct11)[(0x41 : Fin 256)]) ∧
      (∀ v : Fin 256, (tableOf ct11)[v].length ≠ 0 → ¬ ([] ++ [false]) <+: pathOf (tableOf ct11)[v]) ∧
      (∀ v : Fin 256, (tableOf ct11)[v].length ≠ 0 → ¬ ([true] ++ [false]) <+: pathOf (tableOf ct11)[v]) ∧
      (messageBits (tableOf ct11) [0x41]).length + 0 < 3 ∧ (messageBits (tableOf ct11) [0x41]).length + 1 < 4 ∧
      (brInit (after11 3 [false])).bitsAhead = tableBits head11 ct11 ++ fieldBits 32 3 ++
        (messageBits (tableOf ct11) [0x41] ++ ([] ++ false :: List.replicate 4 false)) ∧
      (brInit (after11 4 [true, false])).bitsAhead = tableBits head11 ct11 ++ fieldBits 32 4 ++
        (messageBits (tableOf ct11) [0x41] ++ ([true] ++ false :: List.replicate 3 false)) ∧
      sinkAccepts 1 (after11 3 [false]).sink = true :=
  ⟨rfl, rfl, by decide, prefixFree_ct11, by decide +kernel, by decide +kernel, by decide +kernel, by decide +kernel, by decide +kernel,
    by decide +kernel, by decide +kernel, by decide +kernel, rfl⟩

/-- A bit count of 3 for `A` and half a code. -/
theorem witness_HuffmanCutStreamFails_midCode :
    (after11 3 [true]).fatal = false ∧ (after11 3 [true]).hf.phase = .idle ∧ (tableOf ct11)[(0x41 : Byte).toFin].length ≠ 0 ∧
      [true] <+: pathOf (tableOf ct11)[(0x41 : Byte).toFin] ∧ [true] ≠ pathOf (tableOf ct11)[(0x41 : Byte).toFin] ∧ [true] ≠ [] ∧
      3 = (messageBits (tableOf ct11) [0x41]).length + 1 ∧
      (brInit (after11 3 [true])).bitsAhead = tableBits head11 ct11 ++ fieldBits 32 3 ++
        (messageBits (tableOf ct11) [0x41] ++ ([true] ++ List.replicate 4 false)) ∧
      sinkAccepts 1 (after11 3 [true]).sink = true := by decide +kernel

/-- Two byte values with the code `1`, and a bit count of 0. -/
theorem witness_HuffmanCutStreamFails_shared :
    TableOk ⟨2, 1, 0, 0, 0x41, 1, 1⟩ [⟨0x41, 1, 1⟩, ⟨0x42, 1, 1⟩] ∧ ¬ PrefixFree (tableOf [⟨0x41, 1, 1⟩, ⟨0x42, 1, 1⟩]) ∧
      (brInit (holding (tableBits ⟨2, 1, 0, 0, 0x41, 1, 1⟩ [⟨0x41, 1, 1⟩, ⟨0x42, 1, 1⟩] ++ fieldBits 32 0))).bitsAhead =
        tableBits ⟨2, 1, 0, 0, 0x41, 1, 1⟩ [⟨0x41, 1, 1⟩, ⟨0x42, 1, 1⟩] ++ fieldBits 32 0 ++ List.replicate 6 false :=
  ⟨by decide, not_prefixFree_of_refused (by decide +kernel), by decide +kernel⟩

/-- `A` twice, the second refused. -/
theorem witness_HuffmanCutStreamFails_refused :
    (messageBits (tableOf ct11) ([0x41] ++ [0x41])).length ≤ 4 ∧ (tableOf ct11)[(0x41 : Byte).toFin].length ≠ 0 ∧
      (brInit (after11 4 [true, true])).bitsAhead = tableBits head11 ct11 ++ fieldBits 32 4 ++
        (messageBits (tableOf ct11) ([0x41] ++ [0x41]) ++ List.replicate 3 false) ∧
      ({ after11 4 [true, true] with sink := [.ok, .fail] } : State).sink = List.replicate [(0x41 : Byte)].length .ok ++ .fail :: [] := by
  decide +kernel

theorem witness_HuffmanCutStreamFails_table :
    State.reset.fatal = false ∧ State.reset.hf.phase = .idle ∧ ∃ t, exec .ctLoad (brInit State.reset) = .next t ∧ failed .ioRead t = true :=
  ⟨rfl, rfl, gives_exists (by decide +kernel)⟩

/-- A channel that ends one bit short of the bit count. -/
theorem witness_HuffmanCutStreamFails_count :
    TableOk head11 ct11 ∧ (List.replicate 31 true).length < 32 ∧
      (brInit (holding (tableBits head11 ct11 ++ List.replicate 31 true))).bitsAhead = tableBits head11 ct11 ++ List.replicate 31 true ∧
      dryAnswer (holding (tableBits head11 ct11 ++ List.replicate 31 true)).input = true := by decide +kernel

theorem witness_HuffmanFrame :
    (∃ t, exec (.hfBit true) (walking 0) = .next t ∧ okVal 0x41 t = true) ∧
    (∃ t, exec .hfDecode (feed hf1) = .next t) := by
  obtain ⟨t, h, -⟩ := gives_exists test_hfDecode
  exact ⟨gives_exists (by decide +kernel), t, h⟩

theorem witness_LzBeginSeedsTheDictionary :
    cmdField 0x60 = 0x60 ∧ State.reset.fatal = false ∧ State.reset.lz.phase = .idle ∧ (putting [] []).lz.phase ≠ .idle ∧ 255 < 256 := by
  decide

theorem witness_LzPutKnownCode_known :
    (putting [] []).fatal = false ∧ (putting [] []).lz.phase = .active ∧ (putting [] []).lz.dict[(255 : Word).toNat]? = some [0xFF] ∧
      sinkAccepts [(0xFF : Byte)].length (putting [] []).sink = true ∧
      (putting [] []).lz.prev ++ [(0xFF : Byte)].take 1 ∈ (putting [] []).lz.dict := by decide +kernel

theorem witness_LzPutKnownCode_new :
    (putting [] [0x41]).fatal = false ∧ (putting [] [0x41]).lz.phase = .active ∧
      (putting [] [0x41]).lz.dict[(0 : Word).toNat]? = some [0] ∧ sinkAccepts [(0 : Byte)].length (putting [] [0x41]).sink = true ∧
      (putting [] [0x41]).lz.size ≠ (putting [] [0x41]).params.dictMax ∧
      tooLong (putting [] [0x41]).params.seqMax ((putting [] [0x41]).lz.prev ++ [(0 : Byte)].take 1) = false := by decide +kernel

theorem witness_LzPutKwK :
    (putting [] [0x41]).fatal = false ∧ (putting [] [0x41]).lz.phase = .active ∧ (256 : Word).toNat = (putting [] [0x41]).lz.size ∧
      (putting [] [0x41]).lz.prev ≠ [] ∧ sinkAccepts ((putting [] [0x41]).lz.prev.length + 1) (putting [] [0x41]).sink = true ∧
      (putting [] [0x41]).lz.size ≠ (putting [] [0x41]).params.dictMax ∧
      tooLong (putting [] [0x41]).params.seqMax ((putting [] [0x41]).lz.prev ++ (putting [] [0x41]).lz.prev.take 1) = false := by
  decide +kernel

theorem witness_LzPutFailures_corrupt :
    ((putting [] [0x41]).fatal = false ∧ (putting [] [0x41]).lz.phase = .active ∧
      (putting [] [0x41]).lz.size ≤ (257 : Word).toNat ∧ (257 : Word).toNat ≠ (putting [] [0x41]).lz.size) ∧
    ((putting [] []).fatal = false ∧ (putting [] []).lz.phase = .active ∧ (putting [] []).lz.size ≤ (256 : Word).toNat ∧
      (putting [] []).lz.prev = []) := by decide +kernel

/-- A block whose next code is KwK and whose output channel takes one of its two bytes. -/
def choking : State := { putting [] [0x41] with sink := [.ok, .fail] }

theorem witness_LzPutFailures_refused :
    choking.fatal = false ∧ choking.lz.phase = .active ∧
      resolveCode (256 : Word).toNat choking.lz = some ([0x41, 0x41], [0x41, 0x41]) ∧
      choking.sink = List.replicate 1 .ok ++ .fail :: [] ∧ 1 < [(0x41 : Byte), 0x41].length := by decide +kernel

/-- A block at one of its limits, about to insert `41 41`. -/
def limited (p : Config.Params) : State := { putting [] [0x41] with params := p }

theorem witness_LzPutFailures_limit :
    ((limited ⟨256, none⟩).fatal = false ∧ (limited ⟨256, none⟩).lz.phase = .active ∧
      resolveCode (256 : Word).toNat (limited ⟨256, none⟩).lz = some ([0x41, 0x41], [0x41, 0x41]) ∧
      sinkAccepts [(0x41 : Byte), 0x41].length (limited ⟨256, none⟩).sink = true ∧ [0x41, 0x41] ∉ (limited ⟨256, none⟩).lz.dict ∧
      (limited ⟨256, none⟩).lz.size = (limited ⟨256, none⟩).params.dictMax) ∧
    (tooLong (limited ⟨257, some 1⟩).params.seqMax [0x41, 0x41] = true ∧ [0x41, 0x41] ∉ (limited ⟨257, some 1⟩).lz.dict) := by
  decide +kernel

theorem witness_LzEndClosesTheUnit :
    cmdField 0x62 = 0x62 ∧ State.reset.fatal = false ∧ State.reset.lz.phase = .idle ∧ (putting [] []).lz.phase ≠ .idle := by decide

/-- V-LZ1 with the least parameters that leave room for its seven bytes. -/
def plain1 : State := { feed [] with input := (feed lz1).input ++ [.none], params := ⟨263, some 7⟩ }

theorem witness_LzwPlainRoundTrip :
    plain1.fatal = false ∧ plain1.lz.phase = .idle ∧ plain1.params.wf ∧ roomFor plain1.params 7 ∧
      plain1.input = (packBits (plainBits (lzwCodes (bytesOf [0x41, 0x42, 0x41, 0x42, 0x41, 0x42, 0x41])))).map .byte ++ .none :: [] ∧
      sinkAccepts 7 plain1.sink = true := by decide +kernel

/-- V-LZ1 in a channel that is used up after it, and the empty stream in an empty channel. -/
theorem witness_LzwPlainRoundTrip_usedUp :
    ((feed lz1).fatal = false ∧ (feed lz1).lz.phase = .idle ∧ (feed lz1).params.wf ∧ roomFor (feed lz1).params 7 ∧
      (feed lz1).input = (packBits (plainBits (lzwCodes (bytesOf [0x41, 0x42, 0x41, 0x42, 0x41, 0x42, 0x41])))).map .byte ++ [] ∧
      sinkAccepts 7 (feed lz1).sink = true) ∧
    (roomFor (feed []).params 0 ∧ (feed []).input = (packBits (plainBits (lzwCodes []))).map .byte ++ []) := by decide +kernel

theorem witness_LzwPackedRoundTrip :
    (feed lz2).fatal = false ∧ (feed lz2).lz.phase = .idle ∧ (feed lz2).params.wf ∧ roomFor (feed lz2).params 7 ∧ 65 < 2 ^ 32 ∧ 8 ≤ 32 ∧
      (∀ c ∈ lzwCodes (bytesOf [0x41, 0x42, 0x41, 0x42, 0x41, 0x42, 0x41]), 65 ≤ c ∧ c - 65 < 2 ^ 8) ∧
      (feed lz2).input =
        (packBits (packedBits 65 8 (lzwCodes (bytesOf [0x41, 0x42, 0x41, 0x42, 0x41, 0x42, 0x41])))).map .byte ++ [] ∧
      sinkAccepts 7 (feed lz2).sink = true := by decide +kernel

/-- The empty stream V-LZ5 with a width above 32, here the greatest. -/
theorem witness_LzwPackedRoundTrip_empty :
    (feed [0, 0, 0, 0, 0, 0, 0, 0, 255]).params.wf ∧ roomFor (feed [0, 0, 0, 0, 0, 0, 0, 0, 255]).params 0 ∧ 255 < 2 ^ 8 ∧
      (∀ c ∈ lzwCodes [], 0 ≤ c ∧ c - 0 < 2 ^ 255) ∧
      (feed [0, 0, 0, 0, 0, 0, 0, 0, 255]).input = (packBits (packedBits 0 255 (lzwCodes []))).map .byte ++ [] := by decide +kernel

theorem witness_LzwPackedRoundTrip_header :
    ((feed (List.replicate 8 0)).fatal = false ∧ (feed (List.replicate 8 0)).lz.phase = .idle ∧
      (brInit (feed (List.replicate 8 0))).bitsAhead.length < 72 ∧ dryAnswer (feed (List.replicate 8 0)).input = true) ∧
    ((feed [1, 0, 0, 0, 0, 0, 0, 0, 33]).fatal = false ∧ (feed [1, 0, 0, 0, 0, 0, 0, 0, 33]).lz.phase = .idle ∧
      (brInit (feed [1, 0, 0, 0, 0, 0, 0, 0, 33])).bitsAhead = fieldBits 32 1 ++ fieldBits 32 0 ++ fieldBits 8 33 ++ []) := by
  decide +kernel

/-- The code 300 first, which nothing resolves. -/
theorem witness_LzwPackedRoundTrip_failing :
    (feed [1, 0, 0, 0, 0x2C, 1, 0, 0, 0]).sink.all (· != .never) = true ∧
      (brInit (feed [1, 0, 0, 0, 0x2C, 1, 0, 0, 0])).bitsAhead = fieldBits 32 1 ++ fieldBits 32 300 ++ fieldBits 8 0 ++
        ([300].flatMap (fun c => fieldBits 0 (c - 300)) ++ []) ∧
      ((execUntil [.brInit, .lzBegin, .lzPut 300] (feed [1, 0, 0, 0, 0x2C, 1, 0, 0, 0])).any fun x =>
        x.1 == .fail .corruptCode) = true := by decide +kernel

/-- A count of 1, the minimum `FFFFFFFF` and the delta 1 in one bit: the sum is 2^32. And a count of 2 with one code of 8 bits. -/
theorem witness_LzwPackedRoundTrip_range :
    (1 < 2 ^ 1 ∧ 2 ^ 32 ≤ 0xFFFFFFFF + 1 ∧
      (brInit (feed [1, 0, 0, 0, 255, 255, 255, 255, 1, 1])).bitsAhead = fieldBits 32 1 ++ fieldBits 32 0xFFFFFFFF ++ fieldBits 8 1 ++
        (([] : List Nat).flatMap (fun c => fieldBits 1 (c - 0xFFFFFFFF)) ++ (fieldBits 1 1 ++ List.replicate 7 false)) ∧
      ((execUntil [.brInit, .lzBegin] (feed [1, 0, 0, 0, 255, 255, 255, 255, 1, 1])).any fun x => x.1 == .ok) = true) ∧
    ((brInit (feed [2, 0, 0, 0, 65, 0, 0, 0, 8, 0])).bitsAhead = fieldBits 32 2 ++ fieldBits 32 65 ++ fieldBits 8 8 ++
        ([65].flatMap (fun c => fieldBits 8 (c - 65)) ++ []) ∧ dryAnswer (feed [2, 0, 0, 0, 65, 0, 0, 0, 8, 0]).input = true ∧
      ((execUntil [.brInit, .lzBegin, .lzPut 65] (feed [2, 0, 0, 0, 65, 0, 0, 0, 8, 0])).any fun x => x.1 == .ok) = true) := by
  decide +kernel

/-- An empty channel, and one that gives out after one byte and after three bytes of the first code. -/
theorem witness_LzDecodePAtTheEnd :
    (State.reset.fatal = false ∧ State.reset.lz.phase = .idle ∧ State.reset.sink.all (· != .never) = true ∧
      leadBytes State.reset.input = packBits (plainBits []) ++ [] ∧ dryAnswer State.reset.input = true) ∧
    (leadBytes (feed [1]).input = packBits (plainBits []) ++ [1] ∧ dryAnswer (feed [1]).input = true) ∧
    (leadBytes (feed [1, 2, 3]).input = packBits (plainBits []) ++ [1, 2, 3] ∧ [(1 : Byte), 2, 3].length ≤ 3) := by decide +kernel

/-- A whole code and then three bytes of a second, and a code that nothing resolves. -/
theorem witness_LzDecodePAtTheEnd_later :
    (leadBytes (feed [65, 0, 0, 0, 1, 2, 3]).input = packBits (plainBits [65]) ++ [1, 2, 3] ∧
      ((execUntil [.brInit, .lzBegin, .lzPut 65] (feed [65, 0, 0, 0, 1, 2, 3])).any fun x => x.1 == .ok) = true) ∧
    (leadBytes (feed [0x2C, 1, 0, 0]).input = packBits (plainBits [300]) ++ [] ∧
      ((execUntil [.brInit, .lzBegin, .lzPut 300] (feed [0x2C, 1, 0, 0])).any fun x => x.1 == .fail .corruptCode) = true) := by
  decide +kernel

theorem witness_LzwFrame :
    (∃ t, exec .lzBegin State.reset = .next t ∧ okVal 0 t = true) ∧ (∃ t, exec (.lzPut 65) (putting [] []) = .next t ∧ okVal 1 t = true) ∧
    (∃ t, exec .lzDecodeB (feed lz2) = .next t ∧ okVal 0 t = true) :=
  ⟨gives_exists (by decide +kernel), gives_exists (by decide +kernel), gives_exists (by decide +kernel)⟩

end Sys2Proof.Tests
end

section
/-! PROOFS. `bitwidth` (00_scope R8): its value is the one bit count with `2 ^ (k - 1) ≤ n < 2 ^ k`. The upper bound and the minimality
are `lt_two_pow_bitwidth` and `bitwidth_le` (Laws/Bits.lean); the lower bound is the part they leave open. -/

namespace Sys2Proof.Machine

theorem two_pow_pred_bitwidth_le {n : Nat} (hn : 0 < n) : 2 ^ (bitwidth n - 1) ≤ n := by
  have hlog : bitwidth n = Nat.log2 n + 1 := if_neg hn.ne'
  rw [hlog, Nat.add_sub_cancel]
  exact Nat.log2_self_le hn.ne'

/-- The bounds fix `k`: the powers of two are strictly increasing, so neither of `k` and `bitwidth n` can be below the other. -/
theorem bitwidth_eq_iff {n k : Nat} (hn : 0 < n) : bitwidth n = k ↔ 1 ≤ k ∧ 2 ^ (k - 1) ≤ n ∧ n < 2 ^ k := by
  constructor
  · rintro rfl
    exact ⟨bitwidth_pos n, two_pow_pred_bitwidth_le hn, lt_two_pow_bitwidth n⟩
  · rintro ⟨hk, hlow, hhigh⟩
    have hle : bitwidth n ≤ k := bitwidth_le hk hhigh
    have hlt : k - 1 < bitwidth n :=
      (Nat.pow_lt_pow_iff_right Nat.one_lt_two).mp (hlow.trans_lt (lt_two_pow_bitwidth n))
    omega

/-- Settles O19: by definition at 0, and above 0 by the bounds that fix the value. -/
theorem bitwidthIsTheBitCount : Obligations.BitwidthIsTheBitCount :=
  ⟨rfl, fun _ _ hn => bitwidth_eq_iff hn⟩

end Sys2Proof.Machine
end

section
/-! PROOFS. What every command keeps and every step keeps (10_state R24 to R30, R34): the invariants, the flag `fatal`, the phases.
Each is read off `Moves`, which says what a command's pseudocode can do, and off `step_cases`, which says what a step can do. -/

namespace Sys2Proof.Machine

/-! ### The invariant, part by part -/

theorem invariant_iff {s : State} : s.Invariant ↔
    s.rd.ok = true ∧ s.wr.ok = true ∧ s.rl.ok = true ∧ Memory.wf s = true ∧ s.params.wf := by
  simp only [State.Invariant, State.ok, Bool.and_eq_true, decide_eq_true_eq, and_assoc]

/-- It speaks of no field outside the block, of no result, and not of `fatal` or the draws. -/
theorem invariant_outside {s : State} (hs : s.Invariant) (host : List HostAction) (input : List ReadAnswer) (sink : List WriteAnswer)
    (trace : List ChanEvent) (result : Option Result) (fatal : Bool) (draws : Nat) :
    ({ s with host := host, input := input, sink := sink, trace := trace, result := result, fatal := fatal,
              draws := draws } : State).Invariant := hs

/-- The reader, the writer and the RLE unit stay in order, and the parameters stay what they are; the internal memories are
`moves_memory_wf`. -/
theorem moves_registers_ok {i : Instr} {g : Bool} {s u : State} (h : Moves i g s u) :
    (s.rd.ok = true → u.rd.ok = true) ∧ (s.wr.ok = true → u.wr.ok = true) ∧ (s.rl.ok = true → u.rl.ok = true) ∧
      u.params = s.params := by
  cases i <;> simp only [Moves] at h
  case sysReset => rw [h]; exact ⟨fun _ => rfl, fun _ => rfl, fun _ => rfl, rfl⟩
  case brInit | brRead | brAlign =>
    obtain ⟨hu, -, hrd⟩ := h
    exact ⟨hrd, by rw [hu]; exact ⟨id, id, rfl⟩⟩
  case bwInit | bwWrite | bwComplete =>
    obtain ⟨hu, -, hwr⟩ := h
    exact ⟨by rw [hu]; exact id, hwr, by rw [hu]; exact ⟨id, rfl⟩⟩
  case ctLoad =>
    obtain ⟨⟨hu, -, hrd⟩, -⟩ := h
    exact ⟨hrd, by rw [hu]; exact ⟨id, id, rfl⟩⟩
  case rlBegin | rlPair | rlDecode =>
    obtain ⟨⟨hu, -, hrd⟩, hrl, -⟩ := h
    exact ⟨hrd, by rw [hu]; exact id, hrl, by rw [hu]⟩
  case rlEnd => rw [h]; exact ⟨id, id, fun _ => forgetRle_ok s, rfl⟩
  case hfBegin | hfBit | hfEnd | lzBegin | lzEnd => obtain ⟨⟨v, n, rfl⟩, -⟩ := h; exact ⟨id, id, id, rfl⟩
  case hfDecode | lzDecodeP | lzDecodeB =>
    obtain ⟨⟨hu, -, hrd, -⟩, -⟩ := h
    exact ⟨hrd, by rw [hu]; exact ⟨id, id, rfl⟩⟩
  case lzPut => rw [h.1]; exact ⟨id, id, id, rfl⟩

theorem moves_invariant {i : Instr} {g : Bool} {s u : State} (h : Moves i g s u) (hs : s.Invariant) : u.Invariant := by
  obtain ⟨hrd, hwr, hrl, hmem, hpar⟩ := invariant_iff.mp hs
  obtain ⟨krd, kwr, krl, kpar⟩ := moves_registers_ok h
  exact invariant_iff.mpr ⟨krd hrd, kwr hwr, krl hrl, moves_memory_wf hpar h hmem, by rw [kpar]; exact hpar⟩

theorem resetBlock_invariant {s : State} (hs : s.Invariant) : (resetBlock s).Invariant :=
  moves_invariant (i := .sysReset) (g := true) rfl hs

theorem exec_invariant {i : Instr} {s t : State} (hs : s.Invariant) (h : exec i s = .next t) : t.Invariant := by
  by_cases hi : i = .sysReset
  · subst hi
    cases h
    exact invariant_outside (resetBlock_invariant hs) ..
  · obtain ⟨g, u, hu | rfl, ht⟩ := exec_frame hi h
    · rw [ht]; exact invariant_outside (moves_invariant hu hs) ..
    · rw [ht]; exact invariant_outside hs ..

/-! ### All a step can do -/

/-- An illegal word leaves `fatal` set and the rest of the block alone, whether `fatal` was set before or not (60_exceptions R302). -/
theorem illegalCommand_eq (s : State) : illegalCommand s = .next (State.answerFailure { s with fatal := true } .fatal) := by
  cases hf : s.fatal with
  | false => exact command_of_not_fatal _ hf
  | true =>
    have hs : ({ s with fatal := true } : State) = s := by rw [← hf]
    rw [hs]
    exact command_of_fatal _ hf

/-- An access of the host's own moves the two channels and nothing else (70_reset R355). -/
theorem hostAccess_chanRead {who : Agent} {s t : State} (h : hostAccess (chanRead who s) = .next t) :
    t = { s with input := t.input, trace := t.trace } := by
  unfold chanRead at h
  split at h <;> cases h <;> rfl

@[inherit_doc hostAccess_chanRead] theorem hostAccess_chanWrite {who : Agent} {b : Byte} {s t : State}
    (h : hostAccess (chanWrite who b s) = .next t) : t = { s with sink := t.sink, trace := t.trace } := by
  unfold chanWrite at h
  split at h <;> cases h <;> rfl

/-- All a step can do: the block waits, or the first action of the host is taken, which runs a command, is an illegal word, resets the
block, or moves the channels alone. -/
theorem step_cases {s t : State} (h : step s = .next t) : t = s ∨ ∃ rest,
    (∃ cw i, s.host = .issue cw :: rest ∧ decode cw = .ok i ∧ exec i { s with host := rest } = .next t) ∨
    (∃ cw e, s.host = .issue cw :: rest ∧ decode cw = .error e ∧
      t = State.answerFailure { s with host := rest, fatal := true } .fatal) ∨
    (s.host = .resetInput :: rest ∧ t = resetBlock { s with host := rest }) ∨
    t = { s with host := rest, input := t.input, sink := t.sink, trace := t.trace } := by
  unfold step nextAction at h
  cases hh : s.host with
  | nil => rw [hh] at h; cases h; exact .inl rfl
  | cons a rest =>
    rw [hh] at h
    refine .inr ⟨rest, ?_⟩
    cases a with
    | issue cw =>
      replace h : issueWord cw { s with host := rest } = .next t := h
      unfold issueWord at h
      cases hd : decode cw with
      | ok i => rw [hd] at h; exact .inl ⟨cw, i, rfl, hd, h⟩
      | error e =>
        rw [hd] at h
        exact .inr (.inl ⟨cw, e, rfl, hd, Host.Outcome.next.inj (h.symm.trans (illegalCommand_eq _))⟩)
    | resetInput => cases h; exact .inr (.inr (.inl ⟨rfl, rfl⟩))
    | readByte => refine .inr (.inr (.inr ?_)); rw [hostAccess_chanRead h]
    | writeByte b => refine .inr (.inr (.inr ?_)); rw [hostAccess_chanWrite h]
    | attachInput answers => cases h; exact .inr (.inr (.inr rfl))
    | attachOutput answers => cases h; exact .inr (.inr (.inr rfl))

/-- Settles O11: the invariant speaks of no field that a host's own action changes, and every command keeps it. -/
theorem stepKeepsTheInvariants : Obligations.StepKeepsTheInvariants := by
  intro s t hs h
  rcases step_cases h with rfl | ⟨rest, ⟨cw, i, -, -, hx⟩ | ⟨cw, e, -, -, rfl⟩ | ⟨-, rfl⟩ | ht⟩
  · exact hs
  · exact exec_invariant (invariant_outside hs ..) hx
  · exact invariant_outside hs ..
  · exact resetBlock_invariant (invariant_outside hs ..)
  · rw [ht]; exact invariant_outside hs ..

theorem reset_invariant : State.reset.Invariant := invariant_iff.mpr ⟨rfl, rfl, rfl, reset_memory_wf, by decide⟩

/-- Settles O12: the invariant holds part by part, and the stated values are those of `State.reset`. -/
theorem resetHasTheInvariants : Obligations.ResetHasTheInvariants :=
  ⟨reset_invariant, rfl, rfl, rfl, rfl, rfl, rfl, rfl, rfl⟩

/-! ### `fatal` (10_state R28) -/

theorem ne_sysReset_of_violates {i : Instr} {s : State} (h : violates i s = true) : i ≠ .sysReset := by
  rintro rfl
  cases h

/-- The causes of a contract violation are no matter of what the host does next. -/
theorem violates_host (i : Instr) (s : State) (rest : List HostAction) : violates i { s with host := rest } = violates i s := by
  cases i <;> rfl

theorem exec_of_violates {i : Instr} {s : State} (hf : s.fatal = false) (hv : violates i s = true) :
    exec i s = .next (State.answerFailure { s with fatal := true } .fatal) :=
  exec_raise (ne_sysReset_of_violates hv) hf (body_of_violates hv)

theorem exec_fatal {i : Instr} {s t : State} (hi : i ≠ .sysReset) (h : exec i s = .next t) : t.fatal = (s.fatal || violates i s) := by
  obtain ⟨g, u, -, ht⟩ := exec_frame hi h
  rw [ht]

theorem exec_sysReset_fatal {s t : State} (h : exec .sysReset s = .next t) : t.fatal = false := by
  cases h
  rfl

/-- `fatal` is set by a contract violation and by nothing else. -/
theorem step_fatal_rises {s t : State} (h : step s = .next t) (hs : s.fatal = false) (ht : t.fatal = true) :
    ∃ cw rest, s.host = .issue cw :: rest ∧ ∀ i, decode cw = .ok i → violates i s = true := by
  rcases step_cases h with rfl | ⟨rest, ⟨cw, i, hh, hd, hx⟩ | ⟨cw, e, hh, hd, -⟩ | ⟨-, rfl⟩ | hch⟩
  · rw [hs] at ht; cases ht
  · refine ⟨cw, rest, hh, fun j hj => ?_⟩
    obtain rfl : i = j := Except.ok.inj (hd.symm.trans hj)
    by_cases hi : i = .sysReset
    · subst hi
      rw [exec_sysReset_fatal hx] at ht
      cases ht
    · rw [exec_fatal hi hx, violates_host] at ht
      simpa [hs] using ht
  · refine ⟨cw, rest, hh, fun j hj => ?_⟩
    rw [hd] at hj; cases hj
  · cases ht
  · rw [hch] at ht
    rw [hs] at ht; cases ht

/-- `fatal` is cleared by reset and by nothing else. -/
theorem step_fatal_falls {s t : State} (h : step s = .next t) (hs : s.fatal = true) (ht : t.fatal = false) :
    ∃ rest, s.host = .resetInput :: rest ∨ ∃ cw, s.host = .issue cw :: rest ∧ decode cw = .ok .sysReset := by
  rcases step_cases h with rfl | ⟨rest, ⟨cw, i, hh, hd, hx⟩ | ⟨cw, e, hh, hd, rfl⟩ | ⟨hh, -⟩ | hch⟩
  · rw [hs] at ht; cases ht
  · by_cases hi : i = .sysReset
    · subst hi
      exact ⟨rest, .inr ⟨cw, hh, hd⟩⟩
    · rw [exec_fatal hi hx] at ht
      simp [hs] at ht
  · cases ht
  · exact ⟨rest, .inl hh⟩
  · rw [hch] at ht
    rw [hs] at ht; cases ht

/-- Settles O8, clause by clause. -/
theorem fatalIsSticky : Obligations.FatalIsSticky := by
  intro s
  refine ⟨fun i hf hv => ⟨_, exec_of_violates hf hv, rfl⟩, fun cw e he => ?_, fun t => step_fatal_rises, fun t => step_fatal_falls,
    ⟨_, _, rfl, rfl, rfl, rfl, rfl⟩, fun i hf hi => ?_⟩
  · refine ⟨State.answerFailure { s with fatal := true } .fatal, ?_, rfl⟩
    simp only [issueWord, he, illegalCommand_eq]
  · rw [exec_eq_command hi, command_of_fatal _ hf]
    exact ⟨_, _, rfl⟩

/-! ### The phases (10_state R30) -/

theorem moves_phases {i : Instr} {g : Bool} {s u : State} (h : Moves i g s u) :
    u.rl.phase = rlPhaseAfter i g s.rl.phase ∧ u.hf.phase = hfPhaseAfter i g s.hf.phase ∧
      u.lz.phase = lzPhaseAfter i g s.lz.phase := by
  cases i <;> simp only [Moves] at h
  case sysReset | rlEnd => rw [h]; exact ⟨rfl, rfl, rfl⟩
  case brInit | brRead | brAlign | bwInit | bwWrite | bwComplete => rw [h.1]; exact ⟨rfl, rfl, rfl⟩
  case ctLoad => rw [h.1.1]; exact ⟨rfl, rfl, rfl⟩
  case rlBegin | rlPair | rlDecode =>
    obtain ⟨⟨hu, -⟩, -, hp⟩ := h
    exact ⟨hp, by rw [hu]; exact ⟨rfl, rfl⟩⟩
  case hfBegin | hfEnd => obtain ⟨⟨v, n, rfl⟩, -, hp⟩ := h; exact ⟨rfl, hp, rfl⟩
  case hfBit => obtain ⟨⟨v, n, rfl⟩, -, hp, -⟩ := h; exact ⟨rfl, hp, rfl⟩
  case hfDecode =>
    obtain ⟨⟨hu, -⟩, hp⟩ := h
    exact ⟨by rw [hu]; rfl, hp, by rw [hu]; rfl⟩
  case lzBegin | lzEnd => obtain ⟨⟨v, n, rfl⟩, -, hp⟩ := h; exact ⟨rfl, rfl, hp⟩
  case lzPut =>
    obtain ⟨hu, -, -, hp⟩ := h
    exact ⟨by rw [hu]; rfl, by rw [hu]; rfl, hp⟩
  case lzDecodeP | lzDecodeB =>
    obtain ⟨⟨hu, -⟩, hp⟩ := h
    exact ⟨by rw [hu]; rfl, by rw [hu]; rfl, hp⟩

/-- A command that is no contract violation moves within its frame and answers by the way its pseudocode ended. -/
theorem exec_moves {i : Instr} {s t : State} {r : Result} (hf : s.fatal = false) (hv : violates i s = false)
    (h : exec i s = .next t) (hr : t.result = some r) : ∃ u, Moves i r.res.good s u ∧ t.rl = u.rl ∧ t.hf = u.hf ∧ t.lz = u.lz := by
  by_cases hi : i = .sysReset
  · subst hi
    cases h
    exact ⟨resetBlock s, rfl, rfl, rfl, rfl⟩
  rcases exec_cases hi h with ⟨k, -⟩ | ⟨-, k, -⟩ | ⟨-, -, ⟨r', u, hg, hm, rfl⟩ | ⟨f, u, -, -, hm, rfl⟩⟩
  · rw [hf] at k; cases k
  · rw [hv] at k; cases k
  · cases hr
    have hgood : r.res.good = true := by rcases hg with e | ⟨e, -⟩ <;> rw [e] <;> rfl
    exact ⟨u, by rw [hgood]; exact hm, rfl, rfl, rfl⟩
  · cases hr
    exact ⟨u, hm, rfl, rfl, rfl⟩

/-- Settles O15: a violation changes no unit, and any other command moves its unit as `Moves` says for the status it returned. -/
theorem phasesFollowTheProtocol : Obligations.PhasesFollowTheProtocol := by
  intro i s t r hf h hr
  refine ⟨fun hv => ?_, fun hv => ?_⟩
  · rw [exec_of_violates hf hv] at h
    cases h
    exact ⟨rfl, rfl, rfl⟩
  · obtain ⟨u, hm, hrl, hhf, hlz⟩ := exec_moves hf hv h hr
    rw [hrl, hhf, hlz]
    exact moves_phases hm

end Sys2Proof.Machine
end

section
/-! PROOFS. Where a successful read leaves the reader (10_state R22, 20_memory R66). -/

namespace Sys2Proof.Machine

theorem afterRead_pulled (s : State) (n : Nat) : (s.afterRead n).rd.pulled = s.rd.pulled + pullCount s.rd.off n := rfl

/-- A reader in order has its bits in hand from a byte it pulled, so no subtraction in `pos` is cut off at 0. -/
theorem afterRead_pos {s : State} (h : s.rd.ok = true) (n : Nat) : (s.afterRead n).pos = s.pos + n := by
  have hoff := s.rd.off.isLt
  simp only [BitReader.ok, Bool.and_eq_true, Bool.or_eq_true, decide_eq_true_eq, beq_iff_eq] at h
  simp only [State.pos, afterRead_off, afterRead_pulled, pullCount]
  omega

/-- A `BR.READ` that returned `OK` had its bits there and read exactly them (40_bitstream R142). -/
theorem brRead_done {n : Nat} {s t : State} {r : Result} (h : brRead n s = .done r t) : t = s.afterRead n := by
  unfold brRead at h
  split at h
  · cases h
  · obtain ⟨v, u, hread, hdone⟩ := andThen_eq_done.mp h
    cases hdone
    rw [(readBits_ok (readBits_done hread)).1] at hread
    cases hread
    rfl

/-- Settles O23: the state after such a read is `afterRead`, whose offset and count are known. -/
theorem readsAdvanceThePosition : Obligations.ReadsAdvanceThePosition := by
  intro s t n v hok h hr
  rw [exec_eq_command (by nofun), command_next] at h
  rcases h with ⟨-, rfl⟩ | ⟨-, h⟩
  · cases hr
  rcases outcome_next.mp h with ⟨r, u, hu, rfl⟩ | ⟨f, u, -, rfl⟩
  · obtain rfl := brRead_done hu
    exact ⟨afterRead_pos hok n.toNat, rfl⟩
  · cases hr

end Sys2Proof.Machine
end

section
/-! PROOFS. The frame of each family of commands (10_state R20 to R27): `Moves` names the relation its pseudocode stays within, and
answering adds the result, `fatal` and the draws. -/

namespace Sys2Proof.Machine

/-- A command whose pseudocode stays within `R` leaves a state within `R`, but for the result, `fatal` and the draws. -/
theorem exec_within {i : Instr} {s t : State} {R : State → State → Prop} (h : exec i s = .next t) (hi : i ≠ .sysReset)
    (hrefl : R s s) (hR : ∀ g u, Moves i g s u → R s u) :
    ∃ u, R s u ∧ t = { u with result := t.result, fatal := s.fatal || violates i s, draws := t.draws } := by
  obtain ⟨g, u, hu | rfl, ht⟩ := exec_frame hi h
  · exact ⟨u, hR g u hu, ht⟩
  · exact ⟨u, hrefl, ht⟩

/-- Output already accepted stays (20_memory R62). -/
theorem exec_keeps_output {i : Instr} {s t : State} (h : exec i s = .next t) (hi : i ≠ .sysReset) : s.output <+: t.output := by
  obtain ⟨u, hu, ht⟩ := exec_within h hi (.refl s) fun _ _ => moves_chan hi
  rw [ht]
  exact hu.output

theorem output_of_trace {s t : State} (h : t.trace = s.trace) : t.output = s.output := by rw [State.output, h]; rfl

/-! ### The bit stream -/

theorem quiet_brRead (n : Nat) (s : State) : Quiet s (brRead n s) := by
  unfold brRead
  split
  · exact quiet_raised _ _ _ rfl
  · exact (quiet_readBits n s).andThen fun _ _ => quiet_done _ _ _ rfl

theorem exec_reads_frame {i : Instr} {s t : State} (h : exec i s = .next t) (hi : i ≠ .sysReset)
    (hR : ∀ g u, Moves i g s u → Reads s u) :
    t = { s with rd := t.rd, input := t.input, trace := t.trace, result := t.result, fatal := s.fatal || violates i s,
                 draws := t.draws } := by
  obtain ⟨u, ⟨hu, -⟩, ht⟩ := exec_within h hi (.refl s) hR
  rw [ht, hu]

theorem exec_writes_frame {i : Instr} {s t : State} (h : exec i s = .next t) (hi : i ≠ .sysReset)
    (hR : ∀ g u, Moves i g s u → Writes s u) :
    t = { s with wr := t.wr, sink := t.sink, trace := t.trace, result := t.result, fatal := s.fatal || violates i s,
                 draws := t.draws } := by
  obtain ⟨u, ⟨hu, -⟩, ht⟩ := exec_within h hi (.refl s) hR
  rw [ht, hu]

/-- Settles O30: the reader's commands stay within `Reads` and write nothing, the writer's stay within `Writes`. -/
theorem bitStreamFrame : Obligations.BitStreamFrame := by
  intro i s t h
  refine ⟨?_, ?_⟩
  · rintro (rfl | ⟨n, rfl⟩ | rfl)
    · exact ⟨exec_reads_frame h nofun (fun _ _ => id), exec_quiet (by nofun) h (quiet_done _ _ _ rfl)⟩
    · exact ⟨exec_reads_frame h nofun (fun _ _ => id), exec_quiet (by nofun) h (quiet_brRead n.toNat s)⟩
    · exact ⟨exec_reads_frame h nofun (fun _ _ => id), exec_quiet (by nofun) h (quiet_done _ _ _ rfl)⟩
  · rintro (rfl | ⟨n, v, rfl⟩ | rfl) <;> exact ⟨exec_writes_frame h nofun (fun _ _ => id), exec_keeps_output h nofun⟩

/-! ### RLE -/

theorem exec_rle_frame {i : Instr} {s t : State} (h : exec i s = .next t) (hi : i ≠ .sysReset)
    (hR : ∀ g u, Moves i g s u → RlMoves s u) :
    t = { s with rd := t.rd, input := t.input, sink := t.sink, trace := t.trace, rl := t.rl, result := t.result,
                 fatal := s.fatal || violates i s, draws := t.draws } := by
  obtain ⟨u, ⟨hu, -⟩, ht⟩ := exec_within h hi (.refl s) hR
  rw [ht, hu]

/-- Only the RLE unit and the draws differ. -/
def RlOnly (s u : State) : Prop := ∃ v n, u = { s with rl := v, draws := n }

/-- `RL.END` touches no channel (42_rle R193). -/
theorem exec_rlEnd_streams {s t : State} (h : exec .rlEnd s = .next t) :
    t.rd = s.rd ∧ t.input = s.input ∧ t.sink = s.sink ∧ t.trace = s.trace := by
  obtain ⟨u, ⟨v, n, rfl⟩, ht⟩ := exec_within (R := RlOnly) h nofun ⟨s.rl, s.draws, rfl⟩ fun _ _ hm => ⟨_, _, hm⟩
  rw [ht]
  exact ⟨rfl, rfl, rfl, rfl⟩

/-- Settles O43: the four commands stay within `RlMoves`; `RL.BEGIN` only reads, and `RL.END` touches no channel. -/
theorem rleFrame : Obligations.RleFrame := by
  rintro i s t (rfl | rfl | rfl | rfl) h
  · exact ⟨exec_rle_frame h nofun (fun _ _ hm => hm.1), exec_keeps_output h nofun,
      fun _ => exec_quiet (by nofun) h (quiet_okWith (quiet_rlBegin s)), nofun⟩
  · exact ⟨exec_rle_frame h nofun (fun _ _ hm => hm.1), exec_keeps_output h nofun, nofun, nofun⟩
  · obtain ⟨hrd, hin, hsink, htr⟩ := exec_rlEnd_streams h
    exact ⟨exec_rle_frame h nofun (fun _ _ hm => hm ▸ rlMoves_forget s), exec_keeps_output h nofun,
      fun _ => output_of_trace htr, fun _ => ⟨hrd, hin, hsink, htr⟩⟩
  · exact ⟨exec_rle_frame h nofun (fun _ _ hm => hm.1), exec_keeps_output h nofun, nofun, nofun⟩

/-! ### Huffman -/

/-- Only the Huffman unit and the draws differ. -/
def HfOnly (s u : State) : Prop := ∃ v n, u = { s with hf := v, draws := n }

theorem exec_hfOnly_frame {i : Instr} {s t : State} (h : exec i s = .next t) (hi : i ≠ .sysReset)
    (hR : ∀ g u, Moves i g s u → HfOnly s u) :
    t = { s with hf := t.hf, result := t.result, fatal := s.fatal || violates i s, draws := t.draws } ∧ t.output = s.output := by
  obtain ⟨u, ⟨v, n, rfl⟩, ht⟩ := exec_within h hi ⟨s.hf, s.draws, rfl⟩ hR
  exact ⟨by rw [ht], output_of_trace (by rw [ht])⟩

/-- Settles O51: the bit-driven commands change the unit alone, and `HF.DECODE` stays within `HfMoves`. -/
theorem huffmanFrame : Obligations.HuffmanFrame := by
  intro i s t h
  refine ⟨?_, ?_⟩
  · rintro (rfl | ⟨b, rfl⟩ | rfl) <;> exact exec_hfOnly_frame h nofun (fun _ _ hm => hm.1)
  · rintro rfl
    obtain ⟨u, ⟨hu, -⟩, ht⟩ := exec_within (R := HfMoves) h nofun (.refl s) fun _ _ hm => hm.1
    exact ⟨by rw [ht, hu], exec_keeps_output h nofun⟩

/-! ### LZW -/

/-- Only the LZW unit and the draws differ. -/
def LzOnly (s u : State) : Prop := ∃ v n, u = { s with lz := v, draws := n }

theorem exec_lzOnly_frame {i : Instr} {s t : State} (h : exec i s = .next t) (hi : i ≠ .sysReset)
    (hR : ∀ g u, Moves i g s u → LzOnly s u) :
    t = { s with lz := t.lz, result := t.result, fatal := s.fatal || violates i s, draws := t.draws } ∧ t.output = s.output := by
  obtain ⟨u, ⟨v, n, rfl⟩, ht⟩ := exec_within h hi ⟨s.lz, s.draws, rfl⟩ hR
  exact ⟨by rw [ht], output_of_trace (by rw [ht])⟩

/-- What `LZ.PUT` can change (44_lzw R263): the unit and the output channel. -/
def Puts (s u : State) : Prop := u = { s with sink := u.sink, trace := u.trace, lz := u.lz }

theorem exec_lzStream_frame {i : Instr} {s t : State} (h : exec i s = .next t) (hi : i ≠ .sysReset)
    (hR : ∀ g u, Moves i g s u → LzMoves s u) :
    t = { s with rd := t.rd, input := t.input, sink := t.sink, trace := t.trace, lz := t.lz, result := t.result,
                 fatal := s.fatal || violates i s, draws := t.draws } := by
  obtain ⟨u, ⟨hu, -⟩, ht⟩ := exec_within h hi (.refl s) hR
  rw [ht, hu]

/-- Settles O60: `LZ.BEGIN` and `LZ.END` change the unit alone, `LZ.PUT` stays within `Puts`, the whole-stream commands within
`LzMoves`. -/
theorem lzwFrame : Obligations.LzwFrame := by
  intro i s t h
  refine ⟨?_, ?_, ?_⟩
  · rintro (rfl | rfl) <;> exact exec_lzOnly_frame h nofun (fun _ _ hm => hm.1)
  · rintro ⟨c, rfl⟩
    obtain ⟨u, hu, ht⟩ := exec_within (R := Puts) h nofun rfl fun _ _ hm => hm.1
    exact ⟨by rw [ht, hu], exec_keeps_output h nofun⟩
  · rintro (rfl | rfl) <;> exact ⟨exec_lzStream_frame h nofun (fun _ _ hm => hm.1), exec_keeps_output h nofun⟩

end Sys2Proof.Machine
end

section
/-! PROOFS. The channels under every command (20_memory R61, R62, R69). -/

namespace Sys2Proof.Machine

/-- Resetting touches no channel, and the pseudocode of any other command moves them only forward. -/
theorem exec_chanMoves {i : Instr} {s t : State} (h : exec i s = .next t) : ChanMoves s t := by
  by_cases hi : i = .sysReset
  · subst hi
    cases h
    exact (ChanMoves.refl s).congr rfl rfl rfl
  · obtain ⟨u, hu, ht⟩ := exec_within h hi (.refl s) fun _ _ => moves_chan hi
    rw [ht]
    exact hu.congr rfl rfl rfl

/-- Settles O14: the accesses of a command are the block's own and each takes its channel's next answer, and such accesses take
nothing out of the output. -/
theorem channelsMoveForward : Obligations.ChannelsMoveForward := fun _ _ _ h => ⟨exec_chanMoves h, (exec_chanMoves h).output⟩

end Sys2Proof.Machine
end

section
/-! PROOFS. Which commands write the internal memories (20_memory R74): the frame of every other command leaves them out. -/

namespace Sys2Proof.Machine

variable {i : Instr} {g : Bool} {s t u : State}

/-! ### The code table (10_state R24) -/

/-- The code table and its valid bit are the same. -/
def SameTable (s u : State) : Prop := u.ct = s.ct ∧ u.ctValid = s.ctValid

/-- A command that can write the code table (41_code_table R170, 43_huffman R225), or reset it. -/
def WritesTable (i : Instr) : Prop := i = .sysReset ∨ i = .ctLoad ∨ i = .hfDecode

theorem moves_sameTable (hi : ¬WritesTable i) (h : Moves i g s u) : SameTable s u := by
  cases i <;> simp only [Moves] at h
  case sysReset | ctLoad | hfDecode => exact (hi (by simp [WritesTable])).elim
  case brInit | brRead | brAlign | bwInit | bwWrite | bwComplete | lzPut => rw [h.1]; exact ⟨rfl, rfl⟩
  case rlBegin | rlPair | rlDecode | lzDecodeP | lzDecodeB => rw [h.1.1]; exact ⟨rfl, rfl⟩
  case rlEnd => rw [h]; exact ⟨rfl, rfl⟩
  case hfBegin | hfBit | hfEnd | lzBegin | lzEnd => obtain ⟨⟨v, n, rfl⟩, -⟩ := h; exact ⟨rfl, rfl⟩

theorem exec_sameTable (hi : ¬WritesTable i) (h : exec i s = .next t) : SameTable s t := by
  obtain ⟨u, hu, ht⟩ := exec_within (R := SameTable) h (fun e => hi (.inl e)) ⟨rfl, rfl⟩ fun _ _ => moves_sameTable hi
  rw [ht]
  exact hu

/-! ### The trie (10_state R26) -/

/-- The trie's nodes are the same. -/
def SameTrie (s u : State) : Prop := u.hf.nodes = s.hf.nodes

/-- A command that can write the trie, leave it unspecified (43_huffman R222, R224, R225), or reset it. -/
def WritesTrie (i : Instr) : Prop := i = .sysReset ∨ i = .hfBegin ∨ i = .hfEnd ∨ i = .hfDecode

/-- `HF.BIT` changes the unit, but walks the trie without writing it (43_huffman R223). -/
theorem moves_sameTrie (hi : ¬WritesTrie i) (h : Moves i g s u) : SameTrie s u := by
  cases i <;> simp only [Moves] at h
  case sysReset | hfBegin | hfEnd | hfDecode => exact (hi (by simp [WritesTrie])).elim
  case hfBit => exact h.2.2.2
  case brInit | brRead | brAlign | bwInit | bwWrite | bwComplete | lzPut => rw [h.1]; rfl
  case ctLoad | rlBegin | rlPair | rlDecode | lzDecodeP | lzDecodeB => rw [h.1.1]; rfl
  case rlEnd => rw [h]; rfl
  case lzBegin | lzEnd => obtain ⟨⟨v, n, rfl⟩, -⟩ := h; rfl

theorem exec_sameTrie (hi : ¬WritesTrie i) (h : exec i s = .next t) : SameTrie s t := by
  obtain ⟨u, hu, ht⟩ := exec_within (R := SameTrie) h (fun e => hi (.inl e)) rfl fun _ _ => moves_sameTrie hi
  rw [ht]
  exact hu

/-! ### The dictionary (10_state R27) -/

/-- The dictionary and the previous sequence are the same. -/
def SameDict (s u : State) : Prop := u.lz.dict = s.lz.dict ∧ u.lz.prev = s.lz.prev

/-- A command that can write the dictionary, leave it unspecified (44_lzw R261 to R266), or reset it. -/
def WritesDict (i : Instr) : Prop :=
  i = .sysReset ∨ i = .lzBegin ∨ (∃ c, i = .lzPut c) ∨ i = .lzEnd ∨ i = .lzDecodeP ∨ i = .lzDecodeB

theorem moves_sameDict (hi : ¬WritesDict i) (h : Moves i g s u) : SameDict s u := by
  cases i <;> simp only [Moves] at h
  case sysReset | lzBegin | lzPut | lzEnd | lzDecodeP | lzDecodeB => exact (hi (by simp [WritesDict])).elim
  case brInit | brRead | brAlign | bwInit | bwWrite | bwComplete => rw [h.1]; exact ⟨rfl, rfl⟩
  case ctLoad | rlBegin | rlPair | rlDecode | hfDecode => rw [h.1.1]; exact ⟨rfl, rfl⟩
  case rlEnd => rw [h]; exact ⟨rfl, rfl⟩
  case hfBegin | hfBit | hfEnd => obtain ⟨⟨v, n, rfl⟩, -⟩ := h; exact ⟨rfl, rfl⟩

theorem exec_sameDict (hi : ¬WritesDict i) (h : exec i s = .next t) : SameDict s t := by
  obtain ⟨u, hu, ht⟩ := exec_within (R := SameDict) h (fun e => hi (.inl e)) ⟨rfl, rfl⟩ fun _ _ => moves_sameDict hi
  rw [ht]
  exact hu

/-- Settles O16, by contraposition: a command that is not named for a memory leaves that memory the same. -/
theorem writersOfTheInternalMemories : Obligations.WritersOfTheInternalMemories := by
  intro i s t h
  refine ⟨fun hne => by_contra fun hi => ?_, fun hne => by_contra fun hi => ?_, fun hne => by_contra fun hi => ?_⟩
  · obtain ⟨hct, hvalid⟩ := exec_sameTable hi h
    exact hne.elim (· hct) (· hvalid)
  · exact hne (exec_sameTrie hi h)
  · obtain ⟨hdict, hprev⟩ := exec_sameDict hi h
    exact hne.elim (· hdict) (· hprev)

end Sys2Proof.Machine
end

section
/-! PROOFS. The command words (30_encoding R90 to R95): what the decoder answers is read off `decodeRow_cases`, which goes through the
rows of the table once; the fields of an encoded word read back by Laws/Encoding.lean. -/

namespace Sys2Proof.Machine

/-! ### Decoding an encoded command (R95) -/

theorem decodeRow_encode (i : Instr) : decodeRow (encode i) = .ok i := by
  cases i
  case hfBit b =>
    have hbit : (BitVec.ofNat 32 b.toNat)[0] = b := by cases b <;> rfl
    simp [encode, decodeRow, makeWord_cmd, makeWord_arg, hbit]
  all_goals simp [encode, decodeRow, makeWord_cmd, makeWord_n, makeWord_arg]

theorem decode_of_row_ok {cw : CmdWord} {i : Instr} (h : decodeRow cw = .ok i) :
    decode cw = if i.legal then .ok i else .error (.illegalCount (nField cw)) := by
  simp only [decode, h]

theorem decode_of_row_error {cw : CmdWord} {e : DecodeError} (h : decodeRow cw = .error e) : decode cw = .error e := by
  simp only [decode, h]

/-- Settles O2: the row of an encoded command is the command's own, and a legal bit count passes. -/
theorem decodeOfEncode : Obligations.DecodeOfEncode := by
  intro i hi
  rw [decode_of_row_ok (decodeRow_encode i), if_pos hi]

/-- Settles O1: the words are closed, so the decoder evaluates on each. -/
theorem tabulatedWordsDecode : Obligations.TabulatedWordsDecode := by
  unfold Obligations.TabulatedWordsDecode
  decide

/-! ### The rows of the table (R92, R93) -/

/-- The 21 `cmd` bytes of R92. -/
def definedCommands : List (BitVec 8) :=
  [0x00, 0x10, 0x11, 0x12, 0x20, 0x21, 0x22, 0x30, 0x40, 0x41, 0x42, 0x4F, 0x50, 0x51, 0x52, 0x5F, 0x60, 0x61, 0x62, 0x6E, 0x6F]

/-- The bit count of the word is one that R93 forbids: `BR.READ` or `BW.WRITE` with `n` above 32. -/
def CountTooLarge (cw : CmdWord) : Prop := (cmdField cw = 0x11 ∨ cmdField cw = 0x21) ∧ 32 < (nField cw).toNat

/-- A row of the table, whose command is legal but for its bit count, or no row. -/
theorem decodeRow_cases (cw : CmdWord) :
    (cmdField cw ∈ definedCommands ∧ ∃ i, decodeRow cw = .ok i ∧ (i.legal = true ↔ ¬CountTooLarge cw)) ∨
    (cmdField cw ∉ definedCommands ∧ decodeRow cw = .error (.undefinedCommand (cmdField cw))) := by
  unfold decodeRow CountTooLarge
  split
  case h_22 => right; simp_all [definedCommands]
  all_goals
    next hc =>
      rw [hc]
      exact .inl ⟨by decide, _, rfl, by simp [Instr.legal]⟩

theorem decode_error_iff (cw : CmdWord) : (∃ e, decode cw = .error e) ↔ cmdField cw ∉ definedCommands ∨ CountTooLarge cw := by
  rcases decodeRow_cases cw with ⟨hc, i, hi, hlegal⟩ | ⟨hc, he⟩
  · rw [decode_of_row_ok hi]
    by_cases hl : i.legal = true
    · simp [hl, hc, hlegal.mp hl]
    · simp [hl, hc, not_not.mp (mt hlegal.mpr hl)]
  · simp [decode_of_row_error he, hc]

/-- Settles O4: the two disjuncts are no row of the table, and a row whose bit count is too large. -/
theorem illegalWordsExactly : Obligations.IllegalWordsExactly := decode_error_iff

/-- The operand fields the command of the word uses are the same in the two words (R91). -/
structure SameOperands (cw cw' : CmdWord) : Prop where
  cmd : cmdField cw = cmdField cw'
  n : cmdField cw = 0x11 ∨ cmdField cw = 0x21 → nField cw = nField cw'
  arg : cmdField cw = 0x21 ∨ cmdField cw = 0x61 → argField cw = argField cw'
  bit : cmdField cw = 0x51 → (argField cw).getLsbD 0 = (argField cw').getLsbD 0

theorem SameOperands.decodeRow_eq {cw cw' : CmdWord} (h : SameOperands cw cw') : decodeRow cw = decodeRow cw' := by
  unfold decodeRow
  rw [← h.cmd]
  split
  case h_3 hc => /- BR.READ -/ rw [h.n (.inl hc)]
  case h_6 hc => /- BW.WRITE -/ rw [h.n (.inr hc), h.arg (.inl hc)]
  case h_14 hc => /- HF.BIT -/ rw [h.bit hc]
  case h_18 hc => /- LZ.PUT -/ rw [h.arg (.inr hc)]
  all_goals rfl

/-- Settles O3: the words have the same row, and where its bit count is illegal, the command is one that uses `n`. -/
theorem unusedFieldsHaveNoEffect : Obligations.UnusedFieldsHaveNoEffect := by
  intro cw cw' hcmd hn harg hbit
  have hrow := SameOperands.decodeRow_eq ⟨hcmd, hn, harg, hbit⟩
  rcases decodeRow_cases cw with ⟨-, i, hi, hlegal⟩ | ⟨-, he⟩
  · rw [decode_of_row_ok hi, decode_of_row_ok (hrow.symm.trans hi)]
    by_cases hl : i.legal = true
    · rw [if_pos hl, if_pos hl]
    · obtain ⟨hc, -⟩ := not_not.mp (mt hlegal.mpr hl)
      rw [hn hc]
  · rw [decode_of_row_error he, decode_of_row_error (hrow.symm.trans he)]

/-! ### Issuing a word (60_exceptions R302) -/

theorem step_issue {s : State} {cw : CmdWord} {rest : List HostAction} (h : s.host = .issue cw :: rest) :
    step s = issueWord cw { s with host := rest } := by
  simp only [step, nextAction, h, hostAct]

/-- Settles O5, by the meaning of an issued word. -/
theorem stepRunsTheDecodedCommand : Obligations.StepRunsTheDecodedCommand := by
  intro s cw rest i hs hi
  rw [step_issue hs]
  simp only [issueWord, hi]

/-- Settles O6: an illegal word is answered as `illegalCommand_eq` says, whether `fatal` was set before or not. -/
theorem stepOnAnIllegalWord : Obligations.StepOnAnIllegalWord := by
  intro s cw rest e hs he
  rw [step_issue hs]
  simp only [issueWord, he, illegalCommand_eq]
  exact ⟨_, _, rfl⟩

end Sys2Proof.Machine
end

section
/-! PROOFS. The host-driven RLE sequence and `RL.DECODE` (30_encoding R96, 42_rle R194): where `RL.DECODE` returns at all, the commands a
host issues one by one return too, with its status and its streams. Failing streams are the general case; a legal stream is the one on
which no status is a failure. -/

namespace Sys2Proof.Machine

open Sys2Proof.Wire

/-! ### From a piece of pseudocode to the command it is the body of -/

/-- What holds of a body's status and end holds of what the command answers, which differs from it in the result and the draws alone. -/
theorem exec_of_ends {i : Instr} {s : State} {r : Run Unit} {C : Status → State → Prop} (hi : i ≠ .sysReset) (hf : s.fatal = false)
    (hb : bodyOf i s = okZero r) (h : r.Ends (fun _ => C .ok) (fun f => C (.fail f)) False) :
    ∃ x t a, exec i s = .next t ∧ t.result = some a ∧ Alike x t ∧ C a.res x := by
  cases r with
  | done _ x => exact ⟨x, _, _, exec_ok hi hf hb, rfl, (Alike.refl x).answer _, h⟩
  | raised f x => exact ⟨x, _, _, exec_raise hi hf hb, rfl, (Alike.refl x).answerFailure f, h⟩
  | hung y => exact h.elim

/-! ### One command of a host that stops at the first failure -/

theorem execUntil_cons_good {i : Instr} {is : List Instr} {s t : State} {r : Result} (h : exec i s = .next t) (hr : t.result = some r)
    (hg : r.res.good = true) : execUntil (i :: is) s = execUntil is t := by
  simp only [execUntil, h, hr, hg, if_true]

theorem execUntil_cons_fail {i : Instr} {is : List Instr} {s t : State} {r : Result} {f : Failure} (h : exec i s = .next t)
    (hr : t.result = some r) (hf : r.res = .fail f) : execUntil (i :: is) s = some (.fail f, t) := by
  simp only [execUntil, h, hr, hf, Status.good, Bool.false_eq_true, if_false]

theorem execUntil_cons_eq_ok {i : Instr} {is : List Instr} {s t : State} (h : execUntil (i :: is) s = some (.ok, t)) :
    ∃ u r, exec i s = .next u ∧ u.result = some r ∧ r.res.good = true ∧ execUntil is u = some (.ok, t) := by
  unfold execUntil at h
  split at h
  case h_2 | h_3 => cases h
  case h_1 u hu =>
    split at h
    case h_2 => cases h
    case h_1 r hr =>
      split at h
      · next hg => exact ⟨u, r, hu, hr, hg, h⟩
      · next hg =>
        have hres : r.res = .ok := congrArg Prod.fst (Option.some.inj h)
        exact (hg (by rw [hres]; rfl)).elim

theorem execUntil_append_ok {is js : List Instr} {s t : State} (h : execUntil is s = some (.ok, t)) :
    execUntil (is ++ js) s = execUntil js t := by
  induction is generalizing s with
  | nil => cases h; rfl
  | cons i is ih =>
    obtain ⟨u, r, hu, hr, hg, hrest⟩ := execUntil_cons_eq_ok h
    exact (execUntil_cons_good hu hr hg).trans (ih hrest)

/-! ### `RL.END` (42_rle R193) -/

/-- The status `RL.END` returns. -/
def RleUnit.endStatus (u : RleUnit) : Status := if u.phase = .active ∧ u.left ≠ 0 then .fail .corruptBitCount else .ok

theorem rlEnd_status {s : State} (hp : s.rl.phase ≠ .idle) : (rlEnd s).Ends (fun _ t => s.rl.endStatus = .ok ∧ t = forgetRle s)
    (fun f t => s.rl.endStatus = .fail f ∧ t = forgetRle s) False := by
  unfold rlEnd RleUnit.endStatus
  rw [if_neg hp]
  split
  · exact ⟨rfl, rfl⟩
  · exact ⟨rfl, rfl⟩

theorem exec_rlEnd {s : State} (hf : s.fatal = false) (hp : s.rl.phase ≠ .idle) : ∃ w e, exec .rlEnd s = .next w ∧
    w.result = some e ∧ w.rl.phase = .idle ∧ e.res = s.rl.endStatus ∧ SameStreams s w := by
  obtain ⟨x, w, e, hw, he, hxw, hst, rfl⟩ := exec_of_ends (i := .rlEnd) (C := fun st t => s.rl.endStatus = st ∧ t = forgetRle s)
    nofun hf rfl (rlEnd_status hp)
  exact ⟨w, e, hw, he, by rw [hxw.rl]; rfl, hst.symm, hxw.streams⟩

/-! ### What the host gets -/

/-- From `t`, where `RL.BEGIN` has returned `OK`: `n` times `RL.PAIR`, up to the first that fails, and then `RL.END` have the status
`res` and leave the streams of `u` (30_encoding R96). -/
def PairsThenEnd (n : Nat) (t : State) (res : Status) (u : State) : Prop :=
  ∃ (st : Status) (t' w : State) (e : Result), execUntil (List.replicate n .rlPair) t = some (st, t') ∧ exec .rlEnd t' = .next w ∧
    w.result = some e ∧ w.rl.phase = .idle ∧ res = (if st = .ok then e.res else st) ∧ SameStreams w u

/-- The `RL.PAIR`s the host issues: one for each pair the count has room for, a last short one among them (42_rle R192). -/
def RleUnit.pairsToIssue (u : RleUnit) : Nat := (u.left.toNat + u.pairBits - 1) / u.pairBits

/-- The host-driven sequence from `s` has the status `res` and leaves the streams of `u` (30_encoding R96). -/
def HostDriven (s : State) (res : Status) (u : State) : Prop :=
  ∃ st t, execUntil [.brInit, .rlBegin] s = some (st, t) ∧
    (st ≠ .ok → res = st ∧ t.rl.phase = .idle ∧ SameStreams t u) ∧
    (st = .ok → PairsThenEnd t.rl.pairsToIssue t res u)

theorem SameStreams.symm {s t : State} (h : SameStreams s t) : SameStreams t s := by
  obtain ⟨hrd, hin, hsink, hout⟩ := h
  exact ⟨hrd.symm, hin.symm, hsink.symm, hout.symm⟩

theorem SameStreams.trans {s t u : State} (h : SameStreams s t) (h' : SameStreams t u) : SameStreams s u := by
  obtain ⟨hrd, hin, hsink, hout⟩ := h
  obtain ⟨krd, kin, ksink, kout⟩ := h'
  exact ⟨krd.trans hrd, kin.trans hin, ksink.trans hsink, kout.trans hout⟩

theorem PairsThenEnd.congr {n : Nat} {t u u' : State} {res : Status} (h : PairsThenEnd n t res u) (hu : SameStreams u u') :
    PairsThenEnd n t res u' := by
  obtain ⟨st, t', w, e, hrun, hw, he, hp, hres, hs⟩ := h
  exact ⟨st, t', w, e, hrun, hw, he, hp, hres, SameStreams.trans hs hu⟩

theorem HostDriven.congr {s u u' : State} {res : Status} (h : HostDriven s res u) (hu : SameStreams u u') : HostDriven s res u' := by
  obtain ⟨st, t, hrun, hfail, hok⟩ := h
  refine ⟨st, t, hrun, fun hst => ?_, fun hst => (hok hst).congr hu⟩
  obtain ⟨hres, hp, hs⟩ := hfail hst
  exact ⟨hres, hp, SameStreams.trans hs hu⟩

/-! ### `RL.DECODE` side by side with it -/

/-- The pairs and the end of `RL.DECODE`, from a state that differs from the host's in the last result and the draws alone. After a
failing pair the unit has failed, so that the host's `RL.END` returns `OK`, as the one of the clean-up does (42_rle R194). -/
theorem pairs_hostDriven (n : Nat) {s t : State} (hf : s.fatal = false) (hp : s.rl.phase = .active) (h : Alike s t) :
    (((rlPairs n s).onRaise forgetRle).andThen fun _ v => rlEnd v).Ends (fun _ => PairsThenEnd n t .ok)
      (fun f => PairsThenEnd n t (.fail f)) True := by
  have hhost := execUntil_eq (is := List.replicate n .rlPair)
    (fun i hi => by rw [List.eq_of_mem_replicate hi]; exact steady_rlPair) hf h
  rw [runBodies_pairs] at hhost
  have hphase := rlPairs_ends n hp
  cases hr : rlPairs n s with
  | done _ v =>
    obtain ⟨hfv, t', hvt, hrun⟩ := hhost.of_done hr
    obtain ⟨hpv, -⟩ := hphase.of_done hr
    have hidle : v.rl.phase ≠ .idle := by rw [hpv]; decide
    obtain ⟨w, e, hw, he, hpw, hst, hs⟩ := exec_rlEnd (s := t') (hvt.fatal.trans hfv) (by rw [hvt.rl]; exact hidle)
    rw [hvt.rl] at hst
    have hwv : SameStreams w (forgetRle v) := SameStreams.symm (SameStreams.trans hvt.streams hs)
    refine (rlEnd_status hidle).mono (fun _ x k => ?_) (fun f x k => ?_) fun _ => trivial
    · exact ⟨.ok, t', w, e, hrun, hw, he, hpw, by rw [if_pos rfl, hst, k.1], by rw [k.2]; exact hwv⟩
    · exact ⟨.ok, t', w, e, hrun, hw, he, hpw, by rw [if_pos rfl, hst, k.1], by rw [k.2]; exact hwv⟩
  | raised f v =>
    obtain ⟨t', hvt, hrun⟩ := hhost.of_raised hr
    obtain ⟨hpv, hfv⟩ := hphase.of_raised hr
    obtain ⟨w, e, hw, he, hpw, -, hs⟩ := exec_rlEnd (s := t') (by rw [hvt.fatal, hfv, hf]) (by rw [hvt.rl, hpv]; decide)
    exact ⟨.fail f, t', w, e, hrun, hw, he, hpw, (if_neg nofun).symm, SameStreams.symm (SameStreams.trans hvt.streams hs)⟩
  | hung x => trivial

theorem rlBegin_of_idle {s : State} (hp : s.rl.phase = .idle) :
    rlBegin s = ((readRleHeader s).onRaise forgetRle).andThen fun u s => .done u.left { s with rl := u } :=
  if_neg (by simp [hp])

/-- `RL.BEGIN` in two states that differ in the last result and the draws alone: the two runs end alike, where a failure leaves idle
units whose registers are unspecified (42_rle R191). -/
theorem rlBegin_alike {s t : State} (hp : s.rl.phase = .idle) (h : Alike s t) :
    (rlBegin s).Ends (fun v u => ∃ u', rlBegin t = .done v u' ∧ Alike u u')
      (fun f u => ∃ u', rlBegin t = .raised f u' ∧ u'.rl.phase = .idle ∧ SameStreams u' u) True := by
  have hrel := alike_readRleHeader h
  rw [rlBegin_of_idle hp, rlBegin_of_idle (by rw [h.rl, hp])]
  cases hs : readRleHeader s <;> cases ht : readRleHeader t <;> rw [hs, ht] at hrel <;> try exact hrel.elim
  case done.done a u b u' =>
    obtain ⟨rfl, r, n, rfl⟩ := hrel
    exact ⟨_, rfl, r, n, rfl⟩
  case raised.raised f u g u' =>
    obtain ⟨rfl, hu⟩ := hrel
    exact ⟨_, rfl, rfl, SameStreams.symm hu.streams⟩
  case hung.hung => trivial

/-- The first two commands of the host, as `RL.DECODE` runs them. -/
theorem begin_hostDriven {s : State} (hf : s.fatal = false) (hp : s.rl.phase = .idle) : (rlBegin (brInit s)).Ends
    (fun _ u => ∃ t, execUntil [.brInit, .rlBegin] s = some (.ok, t) ∧ Alike u t)
    (fun f u => ∃ t, execUntil [.brInit, .rlBegin] s = some (.fail f, t) ∧ t.rl.phase = .idle ∧ SameStreams t u) True := by
  have hinit : exec .brInit s = .next ((brInit s).answer ⟨.ok, 0⟩) := exec_ok nofun hf rfl
  have hf' : ((brInit s).answer ⟨.ok, 0⟩).fatal = false := hf
  refine (rlBegin_alike (s := brInit s) hp ((Alike.refl _).answer ⟨.ok, 0⟩)).mono (fun v u k => ?_) (fun f u k => ?_) id
  · obtain ⟨u', hu', hal⟩ := k
    have hbegin : exec .rlBegin ((brInit s).answer ⟨.ok, 0⟩) = .next (u'.answer ⟨.ok, v⟩) :=
      exec_ok nofun hf' (by simp only [bodyOf, hu', okWith_done])
    exact ⟨_, (execUntil_cons_good hinit rfl rfl).trans (execUntil_cons_good hbegin rfl rfl), hal.answer _⟩
  · obtain ⟨u', hu', hidle, hs⟩ := k
    have hbegin : exec .rlBegin ((brInit s).answer ⟨.ok, 0⟩) = .next (u'.answerFailure f) :=
      exec_raise nofun hf' (by simp only [bodyOf, hu', okWith_raised])
    exact ⟨_, (execUntil_cons_good hinit rfl rfl).trans (execUntil_cons_fail hbegin rfl rfl), hidle, hs⟩

theorem pairBits_pos_of_ok {u : RleUnit} (h : u.ok = true) : 1 ≤ u.pairBits := by
  simp only [RleUnit.ok, Bool.and_eq_true, decide_eq_true_eq] at h
  unfold RleUnit.pairBits
  omega

/-- `RL.DECODE` agrees with the host-driven sequence, or does not return. -/
theorem rlDecode_hostDriven {s : State} (hf : s.fatal = false) (hp : s.rl.phase = .idle) :
    (rlDecode s).Ends (fun _ => HostDriven s .ok) (fun f => HostDriven s (.fail f)) True := by
  have hhost := begin_hostDriven hf hp
  have hbegin := rlBegin_ends (s := brInit s) hp
  unfold rlDecode
  rw [if_neg (by simp [hp])]
  cases hr : rlBegin (brInit s) with
  | done v u =>
    obtain ⟨t, hrun, hut⟩ := hhost.of_done hr
    obtain ⟨hmoves, hok, hact, -⟩ := hbegin.of_done hr
    have hfu : u.fatal = false := by rw [hmoves.1]; exact hf
    have hcount : t.rl.pairsToIssue = (u.rl.left.toNat + u.rl.pairBits - 1) / u.rl.pairBits := by rw [hut.rl]; rfl
    rw [done_andThen, rlLoop_eq_pairs _ hact (pairBits_pos_of_ok hok) le_rfl, ← hcount]
    exact (pairs_hostDriven _ hfu hact hut).mono (fun _ x k => ⟨.ok, t, hrun, fun hne => (hne rfl).elim, fun _ => k⟩)
      (fun f x k => ⟨.ok, t, hrun, fun hne => (hne rfl).elim, fun _ => k⟩) id
  | raised f u =>
    obtain ⟨t, hrun, hidle, hs⟩ := hhost.of_raised hr
    exact ⟨.fail f, t, hrun, fun _ => ⟨rfl, hidle, hs⟩, nofun⟩
  | hung x => trivial

/-- The same of the command `RL.DECODE`, where it returns. -/
theorem exec_rlDecode_hostDriven {s : State} (hf : s.fatal = false) (hp : s.rl.phase = .idle)
    (hret : ∀ x, rlDecode s ≠ .hung x) : ∃ u r, exec .rlDecode s = .next u ∧ u.result = some r ∧ u.rl.phase = .idle ∧
      HostDriven s r.res u := by
  have hhost := rlDecode_hostDriven hf hp
  have hends := rlDecode_ends hp
  have both : (rlDecode s).Ends (fun _ x => x.rl.phase = .idle ∧ HostDriven s .ok x)
      (fun f x => x.rl.phase = .idle ∧ HostDriven s (.fail f) x) False := by
    cases hr : rlDecode s with
    | done a x => exact ⟨(hends.of_done hr).2.1, hhost.of_done hr⟩
    | raised f x => exact ⟨(hends.of_raised hr).2.2.1, hhost.of_raised hr⟩
    | hung x => exact hret x hr
  obtain ⟨x, u, r, hu, hres, hxu, hidle, hdriven⟩ :=
    exec_of_ends (i := .rlDecode) (C := fun st x => x.rl.phase = .idle ∧ HostDriven s st x) nofun hf rfl both
  exact ⟨u, r, hu, hres, by rw [hxu.rl]; exact hidle, hdriven.congr hxu.streams⟩

theorem rlDecode_returns {s : State} (hp : s.rl.phase = .idle) (ha : alwaysAnswers s = true) (x : Fault) : rlDecode s ≠ .hung x := by
  intro hr
  have hends := rlDecode_ends hp
  rw [hr, ends_hung, ha] at hends
  cases hends

/-! ### A legal stream: no status is a failure -/

/-- A command that returned no failure returned `OK`, but for `HF.BIT` (60_exceptions R301). -/
theorem result_ok_of_good {i : Instr} {s t : State} {r : Result} (hi : i ≠ .sysReset) (hb : ∀ b, i ≠ .hfBit b)
    (h : exec i s = .next t) (hr : t.result = some r) (hg : r.res.good = true) : r.res = .ok := by
  rcases exec_cases hi h with ⟨-, rfl⟩ | ⟨-, -, rfl⟩ | ⟨-, -, ⟨r', u, hgood, -, rfl⟩ | ⟨f, u, -, -, -, rfl⟩⟩
  · cases hr; cases hg
  · cases hr; cases hg
  · cases hr
    rcases hgood with hok | ⟨-, b, rfl⟩
    · exact hok
    · exact (hb b rfl).elim
  · cases hr; cases hg

/-- Where a host that stops at the first failure gets `OK`, each command returned `OK`. -/
theorem execResults_of_execUntil_ok {is : List Instr} {s t : State} (his : ∀ i ∈ is, i ≠ .sysReset ∧ ∀ b, i ≠ .hfBit b)
    (h : execUntil is s = some (.ok, t)) : ∃ rs, execResults is s = some (rs, t) ∧ rs.all (fun r => r.res == .ok) = true := by
  induction is generalizing s with
  | nil =>
    cases h
    exact ⟨[], rfl, rfl⟩
  | cons i is ih =>
    obtain ⟨u, r, hu, hr, hg, hrest⟩ := execUntil_cons_eq_ok h
    obtain ⟨hi, hb⟩ := his i (by simp)
    obtain ⟨rs, hrs, hall⟩ := ih (fun j hj => his j (by simp [hj])) hrest
    have hok := result_ok_of_good hi hb hu hr hg
    exact ⟨r :: rs, execResults_cons hu hr hrs, by simp [hok, hall]⟩

/-- A host-driven sequence with the status `OK` is one list of commands that all return `OK`. -/
theorem HostDriven.all_ok {s u : State} (h : HostDriven s .ok u) : ∃ t w, execUntil [.brInit, .rlBegin] s = some (.ok, t) ∧
    execUntil (.brInit :: .rlBegin :: List.replicate t.rl.pairsToIssue .rlPair ++ [.rlEnd]) s = some (.ok, w) ∧
    w.rl.phase = .idle ∧ SameStreams w u := by
  obtain ⟨st, t, hbegin, hfail, hok⟩ := h
  obtain rfl : st = .ok := by_contra fun hne => hne (hfail hne).1.symm
  obtain ⟨st', t', w, e, hpairs, hw, he, hidle, hres, hs⟩ := hok rfl
  obtain rfl : st' = .ok := by_contra fun hne => hne (by rw [if_neg hne] at hres; exact hres.symm)
  rw [if_pos rfl] at hres
  refine ⟨t, w, hbegin, ?_, hidle, hs⟩
  calc execUntil ([.brInit, .rlBegin] ++ List.replicate t.rl.pairsToIssue .rlPair ++ [.rlEnd]) s
      = execUntil (List.replicate t.rl.pairsToIssue .rlPair ++ [.rlEnd]) t := by rw [List.append_assoc, execUntil_append_ok hbegin]
    _ = execUntil [.rlEnd] t' := execUntil_append_ok hpairs
    _ = some (.ok, w) := execUntil_cons_good hw he (by rw [← hres]; rfl)

theorem rleCommands_plain (n : Nat) :
    ∀ i ∈ (.brInit :: .rlBegin :: List.replicate n .rlPair ++ [.rlEnd] : List Instr), i ≠ .sysReset ∧ ∀ b, i ≠ .hfBit b := by
  intro i hi
  simp only [List.cons_append, List.mem_cons, List.mem_append, List.mem_replicate, List.not_mem_nil, or_false] at hi
  rcases hi with rfl | rfl | ⟨-, rfl⟩ | rfl <;> exact ⟨nofun, nofun⟩

/-- The count of a legal stream is the pairs'. -/
theorem pairsToIssue_unit {h : RleHeader} {n : Nat} (ho : h.ok = true) (hlt : n * (h.vbits + h.rbits) < 2 ^ 32) :
    (h.unit (n * (h.vbits + h.rbits))).pairsToIssue = n := by
  have hw : 1 ≤ h.vbits := bitwidth_pos _
  have hleft : (h.unit (n * (h.vbits + h.rbits))).left.toNat = n * (h.vbits + h.rbits) := Nat.mod_eq_of_lt hlt
  unfold RleUnit.pairsToIssue
  rw [hleft, unit_pairBits ho, Nat.add_sub_assoc (by omega), Nat.mul_comm, Nat.mul_add_div (by omega), Nat.div_eq_of_lt (by omega),
    Nat.add_zero]

/-- Settles O42: both clauses are `HostDriven`; on a legal stream `RL.DECODE` returns `OK`, and so each of the host's commands. -/
theorem rlHostDrivenAgrees : Obligations.RlHostDrivenAgrees := by
  refine ⟨fun s hf hp ha => ?_, fun h ps s rest hf hp ho hps hlt hb ha => ?_⟩
  · obtain ⟨u, r, hu, hr, hidle, st, t, hbegin, hfail, hok⟩ := exec_rlDecode_hostDriven hf hp (rlDecode_returns hp ha)
    exact ⟨st, t, u, r, hbegin, hu, hr, hidle, hfail, hok⟩
  · obtain ⟨x, hx, -⟩ := rlDecode_ok hp ho hps hlt hb ha
    obtain ⟨t, w, hbegin, hall, hidle, hrd, hin, hsink, hout⟩ := ((rlDecode_hostDriven hf hp).of_done hx).all_ok
    have hb' : (brInit s).bitsAhead = rleHeaderBits h (ps.length * (h.vbits + h.rbits)) ++ (ps.flatMap (pairBits h) ++ rest) := by
      rw [hb, rleBits, List.append_assoc]
    obtain ⟨t', hbegin', hal⟩ := (begin_hostDriven hf hp).of_done (rleBegin_flows (s := brInit s) hp ho hlt hb')
    obtain rfl : t' = t := congrArg Prod.snd (Option.some.inj (hbegin'.symm.trans hbegin))
    have hcount : t'.rl.pairsToIssue = ps.length := by rw [hal.rl]; exact pairsToIssue_unit ho hlt
    rw [hcount] at hall
    obtain ⟨rs, hrs, hoks⟩ := execResults_of_execUntil_ok (rleCommands_plain _) hall
    have hdec : exec .rlDecode s = .next (x.answer ⟨.ok, 0⟩) := exec_ok nofun hf (by simp only [bodyOf, hx, okZero_done])
    obtain ⟨-, hxidle, -⟩ := (rlDecode_ends hp).of_done hx
    exact ⟨rs, w, _, hrs, hoks, hdec, rfl, hout.symm, hrd.symm, hin.symm, hsink.symm, hidle.trans hxidle.symm⟩

end Sys2Proof.Machine
end

section
/-! PROOFS. What each command of the bit stream answers (40_bitstream R140 to R147), where its channel serves it and where it does not:
the laws of the reader and of the writer (Laws/Reader.lean, Laws/Writer.lean) carried to `exec`. -/

namespace Sys2Proof.Machine

/-- A row of the table whose command is legal is what the word decodes to (30_encoding R92, R93). -/
theorem decode_of_legal_row {cw : CmdWord} {i : Instr} (h : decodeRow cw = .ok i) (hi : i.legal = true) : decode cw = .ok i := by
  rw [decode_of_row_ok h, if_pos hi]

/-- Settles O13: `SYS.RESET` answers `OK` on top of `resetBlock`, which writes each register of R32 and no channel. -/
theorem resetStatesAndChannels : Obligations.ResetStatesAndChannels := by
  refine ⟨fun cw h => decode_of_legal_row (by simp [decodeRow, h]) rfl, fun s => ?_⟩
  exact ⟨_, resetBlock s, rfl, rfl, rfl, rfl, rfl, rfl, rfl, rfl, rfl, rfl, rfl, rfl, rfl, rfl, rfl, rfl, rfl, rfl⟩

/-! ### The reader -/

/-- With the holder exhausted, `pos` counts whole bytes; a reader in order is less than a byte short of them. -/
theorem pos_exhausted {s : State} (h : s.rd.ok = true) :
    State.pos { s with rd := { s.rd with off := 8 } } = 8 * ((s.pos + 7) / 8) := by
  have hoff := s.rd.off.isLt
  have h8 : (8 : Fin 9).val = 8 := rfl
  simp only [BitReader.ok, Bool.and_eq_true, Bool.or_eq_true, decide_eq_true_eq, beq_iff_eq] at h
  simp only [State.pos, h8]
  omega

/-- Settles O20: both commands write the reader's registers alone. -/
theorem brInitAndBrAlign : Obligations.BrInitAndBrAlign := by
  intro s hf
  exact ⟨⟨_, exec_ok nofun hf rfl, rfl, rfl⟩, ⟨_, exec_ok nofun hf rfl, rfl, pos_exhausted⟩⟩

/-- `BR.READ` where the bits are there (40_bitstream R142). -/
theorem exec_brRead_ok {s : State} {n : BitVec 8} (hf : s.fatal = false) (hn : n.toNat ≤ 32) (h : n.toNat ≤ s.bitsAhead.length) :
    exec (.brRead n) s =
      .next ((s.afterRead n.toNat).answer ⟨.ok, BitVec.ofNat 32 (fieldValue (s.bitsAhead.take n.toNat))⟩) := by
  refine exec_ok nofun hf ?_
  simp only [bodyOf, brRead, hn.not_gt, if_false, (readBits_ok h).1, done_andThen]

/-- A word of at most 32 bits read from a stream holds them from bit 0 up, and zeros above. -/
theorem getLsbD_fieldValue_take {bits : List Bool} {n : Nat} (hn : n ≤ 32) (k : Nat) :
    (BitVec.ofNat 32 (fieldValue (bits.take n))).getLsbD k = if k < n then bits.getD k false else false := by
  rw [BitVec.getLsbD_ofNat, fieldValue_testBit, List.getD_eq_getElem?_getD, List.getElem?_take]
  split
  · next hk => simp [show k < 32 by omega]
  · simp

/-- Settles O21: the state is `afterRead`, the value the bits taken from those ahead. -/
theorem brReadReturnsTheBits : Obligations.BrReadReturnsTheBits := by
  intro s n hf hn h
  exact ⟨_, exec_brRead_ok hf hn h, getLsbD_fieldValue_take hn, (readBits_ok h).2, fun h0 => by rw [h0, afterRead_zero]⟩

/-- Settles O22: `ReadBits` raises `IO_READ` in the state `afterDry`. -/
theorem brReadCutShort : Obligations.BrReadCutShort := by
  intro s n hf hn h ha
  refine ⟨raise_fails nofun hf ?_, rfl⟩
  simp only [bodyOf, brRead, hn.not_gt, if_false, readBits_dry h ha, raised_andThen]

/-! ### Starting and closing the writer -/

/-- Settles O24: the writer alone is written, and the record of accesses stays. -/
theorem bwInitDropsPendingBits : Obligations.BwInitDropsPendingBits := by
  refine ⟨fun cw h => decode_of_legal_row (by simp [decodeRow, h]) rfl, fun s hf => ?_⟩
  exact ⟨_, exec_ok nofun hf rfl, rfl, rfl⟩

theorem flushHolder_ok {s : State} (h : sinkAccepts 1 s.sink = true) :
    flushHolder s = .done () (({ s with wr := ⟨0, 0⟩ } : State).afterBytes [s.wr.holder]) := by
  unfold flushHolder
  rw [chanWrite_ok (s := { s with wr := ⟨0, 0⟩ }) .block _ h]
  rfl

/-- A refused byte empties the writer too (D22). -/
theorem flushHolder_refused {s : State} {rest : List WriteAnswer} (h : s.sink = .fail :: rest) :
    flushHolder s = .raised .ioWrite
      { s with wr := ⟨0, 0⟩, sink := rest, trace := .write .block s.wr.holder false :: s.trace } := by
  simp only [flushHolder, chanWrite, h, done_andThen, Bool.false_eq_true, if_false]

/-- The pseudocode of `BW.COMPLETE` with bits pending is the flush (40_bitstream R147). -/
theorem bwComplete_of_pending {s : State} (h : s.wr.off ≠ 0) : bwComplete s = okZero (flushHolder s) := by
  rw [bwComplete, if_pos (Fin.pos_iff_ne_zero.mpr h)]

theorem bwComplete_of_empty {s : State} (h : s.wr.off = 0) : bwComplete s = .done ⟨.ok, 0⟩ s := by
  rw [bwComplete, if_neg (by rw [h]; decide), okZero_done]

theorem fieldBits_zero (n : Nat) : fieldBits n 0 = List.replicate n false := by
  have h := fieldBits_fieldValue (List.replicate n false)
  rwa [fieldValue_replicate_false, List.length_replicate] at h

/-- A writer in order has zeros above its pending bits (10_state R34(c)). -/
theorem bitsOfByte_holder {w : BitWriter} (h : w.ok = true) :
    bitsOfByte w.holder = w.pending ++ List.replicate (8 - w.off.val) false := by
  have hlt := fieldValue_lt w.pending
  rw [fieldValue_pending h, pending_length] at hlt
  have hoff := w.off.isLt
  have hsplit : bitsOfByte w.holder = fieldBits w.off.val w.holder.toNat ++ List.replicate (8 - w.off.val) false := by
    rw [← fieldBits_zero, ← Nat.div_eq_of_lt hlt, ← fieldBits_append, bitsOfByte_eq_fieldBits]
    congr 1
    omega
  rw [BitWriter.pending, hsplit, List.take_left' (fieldBits_length _ _)]

/-- Settles O27: where bits are pending `BW.COMPLETE` is the flush of the holder. -/
theorem bwCompleteFlushesTheHolder : Obligations.BwCompleteFlushesTheHolder := by
  refine ⟨fun cw h => decode_of_legal_row (by simp [decodeRow, h]) rfl, fun s hf => ⟨fun h0 => ?_, fun hne hs => ⟨?_, ?_⟩,
    fun rest hne hs => ?_⟩⟩
  · exact exec_ok nofun hf (bwComplete_of_empty h0)
  · exact exec_ok nofun hf ((bwComplete_of_pending hne).trans (by rw [flushHolder_ok hs, okZero_done]))
  · exact bitsOfByte_holder
  · exact raise_fails nofun hf ((bwComplete_of_pending hne).trans (by rw [flushHolder_refused hs, okZero_raised]))

/-! ### `BW.WRITE` -/

theorem wr_off_lt {w : BitWriter} (h : w.ok = true) : w.off.val < 8 := by
  simp only [BitWriter.ok, Bool.and_eq_true, decide_eq_true_eq] at h
  exact h.1

theorem pushCount_add (off m n : Nat) : pushCount off (m + n) = pushCount off m + pushCount (off + m - 8 * pushCount off m) n := by
  unfold pushCount; omega

theorem afterWrite_sink (s : State) (bits : List Bool) :
    (s.afterWrite bits).sink = s.sink.drop (pushCount s.wr.off bits.length) := by
  simp only [afterWrite_def, afterBytes_sink, packBits_length, List.length_take, List.length_append, pending_length, pushCount]
  congr 1; omega

theorem afterWrite_off (s : State) (bits : List Bool) :
    (s.afterWrite bits).wr.off.val = s.wr.off.val + bits.length - 8 * pushCount s.wr.off bits.length := by
  rw [← pending_length, afterWrite_pending, List.length_drop, List.length_append, pending_length, pushCount]

/-- What the channel accepts of a longer write, it accepts of the part still to come. -/
theorem sinkAccepts_afterWrite {s : State} {bits : List Bool} {m : Nat}
    (h : sinkAccepts (pushCount s.wr.off (bits.length + m)) s.sink = true) :
    sinkAccepts (pushCount (s.afterWrite bits).wr.off m) (s.afterWrite bits).sink = true := by
  rw [afterWrite_sink, afterWrite_off]
  exact sinkAccepts_drop (by rwa [← pushCount_add])

/-- The output channel and the pending bits together grow by exactly the bits written (40_bitstream R146). -/
theorem bits_afterWrite (s : State) (bits : List Bool) :
    (s.afterWrite bits).output.flatMap bitsOfByte ++ (s.afterWrite bits).wr.pending =
      s.output.flatMap bitsOfByte ++ s.wr.pending ++ bits := by
  have hwhole : ((s.wr.pending ++ bits).take (8 * ((s.wr.pending ++ bits).length / 8))).length =
      8 * ((s.wr.pending ++ bits).length / 8) := by
    rw [List.length_take]; omega
  rw [output_afterWrite, afterWrite_pending, List.flatMap_append, bitsOf_packBits_full hwhole, List.append_assoc, List.append_assoc,
    List.take_append_drop]

/-- `BW.WRITE` where the channel accepts every full byte (40_bitstream R146). -/
theorem exec_bwWrite_ok {s : State} {n : BitVec 8} {v : Word} (hf : s.fatal = false) (hw : s.wr.ok = true) (hn : n.toNat ≤ 32)
    (h : sinkAccepts (pushCount s.wr.off n.toNat) s.sink = true) :
    exec (.bwWrite n v) s = .next ((s.afterWrite (fieldBits n.toNat v.toNat)).answer ⟨.ok, 0⟩) := by
  refine exec_ok nofun hf ?_
  simp only [bodyOf, bwWrite, hn.not_gt, if_false, writeBits_ok hw h, okZero_done]

/-- Settles O25: the state is `afterWrite`. -/
theorem bwWriteAppendsTheBits : Obligations.BwWriteAppendsTheBits := by
  intro s n v hf hw hn h
  exact ⟨_, exec_bwWrite_ok hf hw hn h, rfl, bits_afterWrite s _⟩

/-- The bit that fills the holder, refused. -/
theorem writeBit_refused {b : Bool} {s : State} {rest : List WriteAnswer} (h7 : s.wr.off.val = 7) (hs : s.sink = .fail :: rest) :
    ∃ t, writeBit b s = .raised .ioWrite t ∧ t.wr = ⟨0, 0⟩ ∧ t.sink = rest ∧ t.output = s.output := by
  have h8 : s.wr.off + 1 = 8 := by rw [show s.wr.off = 7 from Fin.ext h7]; rfl
  have hflush := flushHolder_refused (s := { s with wr := ⟨setBit s.wr.holder s.wr.off b, s.wr.off + 1⟩ }) hs
  exact ⟨_, (if_pos h8).trans hflush, rfl, rfl, rfl⟩

/-- The loop of `BW.WRITE` up to the byte the channel refuses: the bits before the one that fills it are written, and `k` bytes with
them. -/
theorem writeBits_refused {n v k : Nat} {s : State} {rest : List WriteAnswer} (hw : s.wr.ok = true)
    (hs : s.sink = List.replicate k .ok ++ .fail :: rest) (hk : k < pushCount s.wr.off n) :
    ∃ t, writeBits n v s = .raised .ioWrite t ∧ t.wr = ⟨0, 0⟩ ∧ t.sink = rest ∧
      t.output = s.output ++ packBits ((s.wr.pending ++ fieldBits n v).take (8 * k)) := by
  have hoff := wr_off_lt hw
  obtain ⟨a, ha⟩ : ∃ a, s.wr.off.val + a = 8 * k + 7 := ⟨8 * k + 7 - s.wr.off.val, by omega⟩
  obtain ⟨r, rfl⟩ : ∃ r, n = a + (r + 1) := ⟨n - a - 1, by unfold pushCount at hk; omega⟩
  have hpush : pushCount s.wr.off a = k := by unfold pushCount; omega
  have hfirst : writeBits a v s = .done () (s.afterWrite (fieldBits a v)) :=
    writeBits_ok hw (by rw [hpush, hs]; exact sinkAccepts_replicate k _)
  have hfull : (s.afterWrite (fieldBits a v)).wr.off.val = 7 := by
    rw [afterWrite_off, fieldBits_length, hpush]; omega
  have hnext : (s.afterWrite (fieldBits a v)).sink = .fail :: rest := by
    rw [afterWrite_sink, fieldBits_length, hpush, hs, List.drop_left' List.length_replicate]
  obtain ⟨t, ht, hwr, hsink, hout⟩ := writeBit_refused (b := (v / 2 ^ a).testBit 0) hfull hnext
  have hlen : (s.wr.pending ++ fieldBits a v).length = 8 * k + 7 := by simpa using ha
  have hbytes : 8 * k ≤ (s.wr.pending ++ fieldBits a v).length := by omega
  refine ⟨t, ?_, hwr, hsink, ?_⟩
  · rw [writeBits_add, hfirst, done_andThen, writeBits, ht, raised_andThen]
  · rw [hout, output_afterWrite, hlen, show (8 * k + 7) / 8 = k by omega, fieldBits_append, ← List.append_assoc,
      List.take_append_of_le_length hbytes]

/-- Settles O26: the command answers where its loop stops. -/
theorem bwWriteRefused : Obligations.BwWriteRefused := by
  intro s n v k rest hf hw hn hs hk
  obtain ⟨t, ht, hwr, hsink, hout⟩ := writeBits_refused (v := v.toNat) hw hs hk
  refine ⟨t.answerFailure .ioWrite, _, exec_raise nofun hf ?_, rfl, hwr, hsink, hout⟩
  simp only [bodyOf, bwWrite, hn.not_gt, if_false, ht, okZero_raised]

end Sys2Proof.Machine
end

section
/-! PROOFS. Sequences of bit stream commands (40_bitstream R148, R149): two transfers are one of the joined width, and a list of fields
written and closed is the packed sequence of their bits, which the reads of the same widths take apart again. -/

namespace Sys2Proof.Machine

/-! ### Regrouping (R149) -/

/-- Settles O28: the states agree by `afterRead_afterRead` and `afterWrite_afterWrite`, the values by `field_join`. -/
theorem regrouping : Obligations.Regrouping := by
  refine ⟨fun s a b hf hab hlen => ?_, fun s a b v hf hw hab hsink => ?_⟩
  · have hsum : (a + b).toNat = a.toNat + b.toNat := BitVec.toNat_add_of_lt (by omega)
    have ha : a.toNat ≤ s.bitsAhead.length := by omega
    have hrest : (s.afterRead a.toNat).bitsAhead = s.bitsAhead.drop a.toNat := (readBits_ok ha).2
    have hb : b.toNat ≤ (s.afterRead a.toNat).bitsAhead.length := by rw [hrest, List.length_drop]; omega
    refine ⟨_, _, _, _, exec_brRead_ok hf (by omega) ha, rfl,
      exec_brRead_ok (s := (s.afterRead a.toNat).answer _) hf (by omega) hb, rfl, ?_⟩
    have hvalue := field_join s.bitsAhead a.toNat b.toNat hab
    rw [← hrest] at hvalue
    rw [exec_brRead_ok hf (by omega) (by omega), hsum, hvalue, ← afterRead_afterRead ha]
    rfl
  · have hsum : (a + b).toNat = a.toNat + b.toNat := BitVec.toNat_add_of_lt (by omega)
    have hfirst : sinkAccepts (pushCount s.wr.off a.toNat) s.sink = true :=
      sinkAccepts_mono hsink (by unfold pushCount; omega)
    have hsecond := sinkAccepts_afterWrite (bits := fieldBits a.toNat v.toNat) (m := b.toNat) (by rwa [fieldBits_length])
    refine ⟨_, _, exec_bwWrite_ok hf hw (by omega) hfirst, exec_bwWrite_ok (s := (s.afterWrite _).answer _) hf (afterWrite_wr_ok s _)
      (by omega) hsecond, ?_⟩
    rw [exec_bwWrite_ok hf hw (by omega) (by rwa [hsum]), hsum, fieldBits_append, ← afterWrite_afterWrite, BitVec.toNat_ushiftRight,
      Nat.shiftRight_eq_div_pow]
    rfl

/-! ### Writing a list of fields, and reading it back (R148) -/

/-- The bits of a list of fields, each given by its width and its value. -/
def streamBits (fields : List (BitVec 8 × Word)) : List Bool := fields.flatMap fun f => fieldBits f.1.toNat f.2.toNat

theorem streamBits_cons (f : BitVec 8 × Word) (fields : List (BitVec 8 × Word)) :
    streamBits (f :: fields) = fieldBits f.1.toNat f.2.toNat ++ streamBits fields := rfl

theorem streamBits_length (fields : List (BitVec 8 × Word)) : (streamBits fields).length = (fields.map fun f => f.1.toNat).sum := by
  simp only [streamBits, List.length_flatMap, fieldBits_length]

/-- The `BW.WRITE`s of the fields append their bits, as one write would. -/
theorem execResults_bwWrites {fields : List (BitVec 8 × Word)} {s : State} (hf : s.fatal = false) (hw : s.wr.ok = true)
    (hn : ∀ f ∈ fields, f.1.toNat ≤ 32) (hs : sinkAccepts (pushCount s.wr.off (streamBits fields).length) s.sink = true) :
    ∃ t, execResults (fields.map fun f => .bwWrite f.1 f.2) s = some (fields.map fun _ => ⟨.ok, 0⟩, t) ∧
      Alike (s.afterWrite (streamBits fields)) t := by
  induction fields generalizing s with
  | nil => exact ⟨s, rfl, by rw [show streamBits [] = [] from rfl, afterWrite_nil hw]; exact .refl s⟩
  | cons f fields ih =>
    rw [streamBits_cons] at hs ⊢
    rw [List.length_append] at hs
    have hfirst : sinkAccepts (pushCount s.wr.off f.1.toNat) s.sink = true :=
      sinkAccepts_mono hs (by rw [fieldBits_length]; unfold pushCount; omega)
    obtain ⟨t, ht, r, n, rfl⟩ := ih (s := (s.afterWrite (fieldBits f.1.toNat f.2.toNat)).answer ⟨.ok, 0⟩) hf (afterWrite_wr_ok s _)
      (fun g hg => hn g (.tail _ hg)) (sinkAccepts_afterWrite hs)
    refine ⟨_, execResults_cons (exec_bwWrite_ok hf hw (hn f (.head _)) hfirst) rfl ht, r, n, ?_⟩
    rw [← afterWrite_afterWrite]
    rfl

theorem packBits_pending {w : BitWriter} (h : w.ok = true) (h0 : w.off ≠ 0) : packBits w.pending = [w.holder] := by
  have hoff := wr_off_lt h
  have hlen := pending_length w
  have hpos : 0 < w.off.val := Fin.pos_iff_ne_zero.mpr h0
  have hne : w.pending ≠ [] := List.ne_nil_of_length_pos (by omega)
  rw [packBits_of_ne_nil hne, List.take_of_length_le (by omega), List.drop_eq_nil_of_le (by omega), packBits_nil, fieldValue_pending h,
    BitVec.ofNat_toNat, BitVec.setWidth_eq]

/-- `BW.COMPLETE` hands over the pending bits, packed: no byte where there are none (40_bitstream R147). -/
theorem bwComplete_ok {s : State} (hw : s.wr.ok = true) (hs : sinkAccepts ((s.wr.off.val + 7) / 8) s.sink = true) :
    bwComplete s = .done ⟨.ok, 0⟩ (({ s with wr := ⟨0, 0⟩ } : State).afterBytes (packBits s.wr.pending)) := by
  by_cases h0 : s.wr.off = 0
  · have hnil : s.wr.pending = [] := List.length_eq_zero_iff.mp (by rw [pending_length, h0]; rfl)
    have hwr : (⟨0, 0⟩ : BitWriter) = s.wr := by rw [← writerOf_pending hw, hnil]; rfl
    rw [bwComplete_of_empty h0, hnil, hwr]
    rfl
  · have hpos : 0 < s.wr.off.val := Fin.pos_iff_ne_zero.mpr h0
    rw [bwComplete_of_pending h0, flushHolder_ok (sinkAccepts_mono hs (by omega)), packBits_pending hw h0, okZero_done]

/-- Bits packed in two parts, the first of whole bytes. -/
theorem packBits_take_drop {bits : List Bool} {k : Nat} (h : 8 * k ≤ bits.length) :
    packBits (bits.take (8 * k)) ++ packBits (bits.drop (8 * k)) = packBits bits := by
  rw [← packBits_append (k := k) (by rw [List.length_take]; omega), List.take_append_drop]

/-- Fields written and closed put the pending bits and their own, packed, into the output channel. -/
theorem execResults_bwWrites_bwComplete {fields : List (BitVec 8 × Word)} {s : State} (hf : s.fatal = false) (hw : s.wr.ok = true)
    (hn : ∀ f ∈ fields, f.1.toNat ≤ 32) (hs : sinkAccepts (packBits (s.wr.pending ++ streamBits fields)).length s.sink = true) :
    ∃ t, execResults ((fields.map fun f => .bwWrite f.1 f.2) ++ [.bwComplete]) s =
        some ((fields.map fun _ => ⟨.ok, 0⟩) ++ [⟨.ok, 0⟩], t) ∧
      t.output = s.output ++ packBits (s.wr.pending ++ streamBits fields) := by
  rw [packBits_length, List.length_append, pending_length] at hs
  obtain ⟨_, ht, r, n, rfl⟩ := execResults_bwWrites hf hw hn (sinkAccepts_mono hs (by unfold pushCount; omega))
  generalize streamBits fields = bits at hs ht ⊢
  have hlast : sinkAccepts (((s.afterWrite bits).wr.off.val + 7) / 8) (s.afterWrite bits).sink = true := by
    rw [afterWrite_sink, afterWrite_off]
    exact sinkAccepts_drop (sinkAccepts_mono hs (by unfold pushCount; omega))
  have hclose := bwComplete_ok (s := { s.afterWrite bits with result := r, draws := n }) (afterWrite_wr_ok s bits) hlast
  refine ⟨_, execResults_append ht (execResults_cons (exec_ok nofun hf hclose) rfl rfl), (output_afterBytes _ _).trans ?_⟩
  show (s.afterWrite bits).output ++ packBits (s.afterWrite bits).wr.pending = _
  rw [output_afterWrite, afterWrite_pending, List.append_assoc, packBits_take_drop (by omega)]

/-- The `BR.READ`s of the widths take the fields off the stream, one after the other, and pull no more than their bits need. -/
theorem execResults_brReads {fields : List (BitVec 8 × Word)} {s : State} {rest : List Bool} (hf : s.fatal = false)
    (hn : ∀ f ∈ fields, f.1.toNat ≤ 32) (hb : s.bitsAhead = streamBits fields ++ rest) :
    ∃ t, execResults (fields.map fun f => .brRead f.1) s =
        some (fields.map fun f => ⟨.ok, BitVec.ofNat 32 (f.2.toNat % 2 ^ f.1.toNat)⟩, t) ∧
      Flows s (streamBits fields).length [] t := by
  induction fields generalizing s with
  | nil => exact ⟨s, rfl, .refl s⟩
  | cons f fields ih =>
    rw [streamBits_cons, List.append_assoc] at hb
    have hle : f.1.toNat ≤ s.bitsAhead.length := by rw [hb, List.length_append, fieldBits_length]; omega
    have hfield := exec_brRead_ok hf (hn f (.head _)) hle
    rw [hb, List.take_left' (fieldBits_length _ _), fieldValue_fieldBits] at hfield
    have hrest := (readBits_field hb (fieldBits_length _ _)).2
    obtain ⟨t, ht, hflow⟩ := ih (s := (s.afterRead f.1.toNat).answer _) hf (fun g hg => hn g (.tail _ hg)) hrest
    refine ⟨t, execResults_cons hfield rfl ht, ?_⟩
    rw [streamBits_cons, List.length_append, fieldBits_length]
    exact ((flows_read s f.1.toNat).congr rfl rfl rfl rfl).trans hflow hle

/-- Settles O29: the bytes written are the packed bits of the fields, which the reads find ahead of them. -/
theorem writeThenReadExactness : Obligations.WriteThenReadExactness := by
  intro fields s hf hn hs
  rw [← streamBits_length] at hs ⊢
  obtain ⟨t, hwritten, hout⟩ := execResults_bwWrites_bwComplete (s := State.answer { s with wr := ⟨0, 0⟩ } ⟨.ok, 0⟩) hf rfl hn
    (by rw [packBits_length]; exact hs)
  refine ⟨packBits (streamBits fields), _, t, execResults_cons (exec_ok nofun hf rfl) rfl hwritten, by simp, hout, packBits_length _,
    fun s' rest hf' hin => ?_⟩
  have hahead : ((brInit s').answer ⟨.ok, 0⟩).bitsAhead = _ := packed_ahead hin
  obtain ⟨t', hread, hflow⟩ := execResults_brReads (s := (brInit s').answer ⟨.ok, 0⟩) hf' hn hahead
  have hleft := hflow.bitsAhead (by rw [hahead, List.length_append]; omega)
  rw [hahead, List.drop_left] at hleft
  exact ⟨t', _, execResults_cons (exec_ok nofun hf' rfl) rfl hread, hflow.1.trans (packed_input hin), hleft⟩

end Sys2Proof.Machine
end

section
/-! PROOFS. `CT.LOAD` (41_code_table R170, R171): its parse run backwards gives the serialised table it read, and each check that fails,
or a channel that gives out, ends the parse where Laws/Streams.lean says it stands after the header and the entries that passed. -/

namespace Sys2Proof.Machine

open Sys2Proof.Wire

/-! ### From the loader to the command -/

theorem exec_ctLoad_done {s u : State} {v : Word} (hf : s.fatal = false) (h : ctLoad s = .done v u) :
    exec .ctLoad s = .next (u.answer ⟨.ok, v⟩) :=
  exec_ok nofun hf (by simp only [bodyOf, h, okWith_done])

theorem exec_ctLoad_raised {s u : State} {f : Failure} (hf : s.fatal = false) (h : ctLoad s = .raised f u) :
    exec .ctLoad s = .next (u.answerFailure f) :=
  exec_raise nofun hf (by simp only [bodyOf, h, okWith_raised])

/-- Where the command answers, it was turned away, or its loader ended one way or the other. -/
theorem exec_ctLoad_cases {s t : State} (h : exec .ctLoad s = .next t) : (s.fatal = true ∧ t = s.answerFailure .fatal) ∨
    (∃ v u, ctLoad s = .done v u ∧ t = u.answer ⟨.ok, v⟩) ∨ (∃ f u, ctLoad s = .raised f u ∧ t = u.answerFailure f) := by
  rw [exec_eq_command (by nofun), command_next, outcome_next] at h
  rcases h with hfatal | ⟨-, ⟨r, u, hbody, rfl⟩ | ⟨f, u, hbody, rfl⟩⟩
  · exact .inl hfatal
  · obtain ⟨v, _, hload, hdone⟩ := andThen_eq_done.mp hbody
    cases hdone
    exact .inr (.inl ⟨v, u, hload, rfl⟩)
  · rcases andThen_eq_raised.mp hbody with hload | ⟨v, _, -, hdone⟩
    · exact .inr (.inr ⟨f, u, hload, rfl⟩)
    · cases hdone

/-- Settles O31: `ctLoad_ok` is the loader on a serialised table. -/
theorem ctLoadLoadsTheTable : Obligations.CtLoadLoadsTheTable := by
  intro h es s rest hf hp ht hb
  obtain ⟨hload, hrest⟩ := ctLoad_ok hp ht hb
  exact ⟨_, exec_ctLoad_done hf hload, rfl, hrest⟩

/-! ### Nothing else is accepted (41_code_table R171) -/

theorem accepted_iff {h : TableHeader} : h.accepted = true ↔
    h.count ≤ 256 ∧ (h.count = 0 ∨ h.valueBits ≤ 32 ∧ h.codeBits ≤ 32 ∧ h.lengthBits ≤ 32) := by
  simp only [TableHeader.accepted, Bool.and_eq_true, Bool.or_eq_true, decide_eq_true_eq, beq_iff_eq, and_assoc]

/-- A header that was read and accepted fits, its fields being as wide as they were read (30_encoding R101). -/
theorem headerFits_of_read {s t : State} {h : TableHeader} (hr : readTableHeader s = .done h t) (hacc : h.accepted = true) :
    headerFits h = true := by
  obtain ⟨-, hvalue, hcode, hlength, hminV, hminC, hminL, -, -⟩ := readTableHeader_inv hr
  obtain ⟨hcount, hwidths⟩ := accepted_iff.mp hacc
  simp only [headerFits, Bool.and_eq_true, Bool.or_eq_true, decide_eq_true_eq, beq_iff_eq, and_assoc]
  exact ⟨hcount, hvalue, hcode, hlength, hminV, hminC, hminL, hwidths⟩

/-- The bits a parse that ran to its end has read are a serialised table. -/
theorem loadTable_inv {s t : State} {count : Nat} (h : loadTable s = .done count t) :
    ∃ hd es, TableOk hd es ∧ s.bitsAhead = tableBits hd es ++ t.bitsAhead := by
  obtain ⟨hd, u, hread, hrest⟩ := andThen_eq_done.mp h
  obtain ⟨hbits, -⟩ := readTableHeader_inv hread
  split at hrest
  · next hacc =>
    obtain ⟨_, u', hloop, hdone⟩ := andThen_eq_done.mp hrest
    cases hdone
    obtain ⟨es, hlen, hes, hasc, hentries⟩ := loadEntries_inv hloop
    refine ⟨hd, es, ⟨headerFits_of_read hread hacc, hlen.symm, fun e he => ?_, hasc⟩, ?_⟩
    · obtain ⟨hlegal, hfits, -⟩ := hes e he
      exact ⟨hlegal, hfits⟩
    · rw [hbits, hentries, tableBits, List.append_assoc]
  · cases hrest

theorem ctLoad_inv {s t : State} {v : Word} (h : ctLoad s = .done v t) :
    s.hf.phase = .idle ∧ ∃ hd es, TableOk hd es ∧ s.bitsAhead = tableBits hd es ++ t.bitsAhead := by
  unfold ctLoad at h
  split at h
  · cases h
  · next hp =>
    obtain ⟨count, u, hload, hdone⟩ := andThen_eq_done.mp h
    cases hdone
    obtain ⟨hd, es, ht, hb⟩ := loadTable_inv (onRaise_eq_done.mp hload)
    exact ⟨not_not.mp hp, hd, es, ht, hb⟩

theorem entries_length_le {h : TableHeader} {es : List Entry} (ht : TableOk h es) : es.length ≤ 256 := by
  obtain ⟨hfits, hcount, -⟩ := ht
  obtain ⟨hle, -⟩ := accepted_iff.mp (accepted_of_fits hfits)
  omega

/-- Settles O32: the bits read are a serialised table, and on such a table `ctLoad_ok` says what the loader leaves. -/
theorem ctLoadAcceptsOnlyTables : Obligations.CtLoadAcceptsOnlyTables := by
  intro s t v h hr
  rcases exec_ctLoad_cases h with ⟨-, rfl⟩ | ⟨v', u, hload, rfl⟩ | ⟨f, u, -, rfl⟩
  · cases hr
  · obtain ⟨hp, hd, es, ht, hb⟩ := ctLoad_inv hload
    cases hload.symm.trans (ctLoad_ok hp ht hb).1
    cases hr
    exact ⟨hd, es, ht, hb, rfl, rfl, Nat.mod_eq_of_lt (by have := entries_length_le ht; omega)⟩
  · cases hr

/-! ### The failing checks -/

/-- Checks (1) and (2): no entry is read. -/
theorem ctLoad_of_rejected_header {h : TableHeader} {s t : State} (hp : s.hf.phase = .idle)
    (hr : readTableHeader { s with ct := emptyTable, ctValid := false } = .done h t) (hrej : ¬h.accepted = true) :
    ctLoad s = .raised .corruptTable (forgetTable t) := by
  unfold ctLoad loadTable
  rw [if_neg (not_not.mpr hp), hr, done_andThen, if_neg hrej, raised_onRaise, raised_andThen]

/-- Past a good header and good entries, with an entry still to come: how the loop ends from there is how the command does. -/
theorem ctLoad_at_entry {h : TableHeader} {es : List Entry} {s : State} {rest : List Bool} (hp : s.hf.phase = .idle)
    (hf : headerFits h = true) (hlt : es.length < h.count) (hes : ∀ e ∈ es, e.legal = true ∧ e.fits h = true)
    (hasc : es.Pairwise fun a b => a.value < b.value) (hb : s.bitsAhead = tableBits h es ++ rest) :
    ∃ s1 k, Flows s (tableBits h es).length [] s1 ∧ s1.ctValid = false ∧ s1.bitsAhead = rest ∧
      ∀ f u, loadEntries h (k + 1) (floorAfter 0 es) s1 = .raised f u → ctLoad s = .raised f (forgetTable u) := by
  obtain ⟨k, hk⟩ := Nat.exists_eq_add_of_lt hlt
  obtain ⟨s1, ⟨hin, hrd, hsink, hout, hvalid⟩, hrest, hload⟩ := ctLoad_more (k := k + 1) hp hf hk hes hasc hb
  refine ⟨s1, k, ⟨hin, hrd, hsink, by rw [hout, List.append_nil]⟩, hvalid, hrest, fun f u hu => ?_⟩
  rw [hload, hu, raised_andThen, raised_onRaise, raised_andThen]

/-- An entry that is there and breaks a check is read whole and ends the loop. -/
theorem loadEntries_of_rejected {h : TableHeader} {k floor dv dc dl : Nat} {s : State} {rest : List Bool} (hdv : dv < 2 ^ h.valueBits)
    (hdc : dc < 2 ^ h.codeBits) (hdl : dl < 2 ^ h.lengthBits)
    (hrej : ¬entryAccepted floor (h.minValue + dv) (h.minCode + dc) (h.minLength + dl) = true)
    (hb : s.bitsAhead = fieldBits h.valueBits dv ++ (fieldBits h.codeBits dc ++ (fieldBits h.lengthBits dl ++ rest))) :
    loadEntries h (k + 1) floor s = .raised .corruptTable (s.afterRead (h.valueBits + h.codeBits + h.lengthBits)) := by
  obtain ⟨hvalue, bvalue, lvalue⟩ := readBits_value hdv hb
  obtain ⟨hcode, bcode, lcode⟩ := readBits_next lvalue hdc bvalue
  obtain ⟨hlength, -, -⟩ := readBits_next lcode hdl bcode
  rw [loadEntries, hvalue, done_andThen, hcode, done_andThen, hlength, done_andThen]
  exact if_neg hrej

/-- An entry the channel cuts short ends the loop before any check is made. -/
theorem loadEntries_of_cut {h : TableHeader} {k floor : Nat} {s : State}
    (hlen : s.bitsAhead.length < h.valueBits + h.codeBits + h.lengthBits) (ha : dryAnswer s.input = true) :
    loadEntries h (k + 1) floor s = .raised .ioRead s.afterDry := by
  unfold loadEntries
  conv => lhs; rw [← afterRead_zero s]
  iterate 3 refine cut_next ha (by omega) fun _ _ => ?_
  omega

/-- Checks (3), (4) and (5) of 41_code_table R171: the value is to be a byte above that of every entry before. -/
theorem not_entryAccepted {es : List Entry} {value code length : Nat} (hasc : es.Pairwise fun a b => a.value < b.value)
    (h : 255 < value ∨ (∃ e ∈ es, value ≤ e.value) ∨ length = 0 ∨ 32 < length ∨ 2 ^ length ≤ code) :
    ¬entryAccepted (floorAfter 0 es) value code length = true := by
  rw [entryAccepted_iff, le_floorAfter (fun _ _ => Nat.zero_le _) hasc]
  rintro ⟨hvalue, ⟨-, habove⟩, hpos, hlength, hcode⟩
  rcases h with h | ⟨e, he, hle⟩ | h | h | h
  · omega
  · exact hle.not_gt (habove e he)
  all_goals omega

/-- A read cut short after other traffic leaves the reader and the input channel as a cut read from the start would. -/
theorem afterDry_of_flows {s t : State} {n : Nat} {bs : List Byte} (h : Flows s n bs t) (hn : n ≤ s.bitsAhead.length) :
    t.afterDry.rd = s.afterDry.rd ∧ t.afterDry.input = s.afterDry.input := by
  obtain ⟨hin, hrd, -, -⟩ := h
  rw [← afterDry_afterRead hn]
  simp only [State.afterDry, hin, hrd, and_self]

/-! ### The frame (20_memory R74) -/

/-- `CT.LOAD` in a unit that may run it fails by `IO_READ` or `CORRUPT_TABLE`, and leaves no valid table. -/
theorem exec_ctLoad_failure {s t : State} {f : Failure} {v : Word} (hf : s.fatal = false) (hp : s.hf.phase = .idle)
    (h : exec .ctLoad s = .next t) (hr : t.result = some ⟨.fail f, v⟩) :
    (f = .ioRead ∨ f = .corruptTable) ∧ t.ctValid = false := by
  rcases exec_ctLoad_cases h with ⟨hfatal, -⟩ | ⟨w, u, -, rfl⟩ | ⟨g, u, hload, rfl⟩
  · rw [hf] at hfatal; cases hfatal
  · cases hr
  · cases hr
    obtain ⟨hg, -, hvalid⟩ := (ctLoad_ends hp).of_raised hload
    exact ⟨hg, hvalid⟩

theorem exec_ctLoad_frame {s t : State} (h : exec .ctLoad s = .next t) :
    t = { s with rd := t.rd, input := t.input, trace := t.trace, ct := t.ct, ctValid := t.ctValid, result := t.result,
                 fatal := s.fatal || violates .ctLoad s, draws := t.draws } ∧ t.output = s.output := by
  obtain ⟨u, ⟨hu, -⟩, ht⟩ := exec_within (R := Loads) h nofun (.refl s) fun _ _ hm => hm.1
  exact ⟨by rw [ht, hu], exec_quiet (by nofun) h (quiet_okWith (quiet_ctLoad s))⟩

/-- Settles O33: a header or an entry that breaks a check, an entry that is cut, and the frame. -/
theorem ctLoadFailureAndFrame : Obligations.CtLoadFailureAndFrame := by
  refine ⟨?header, ?entry, ?cut, fun s t h => ⟨exec_ctLoad_frame h, fun hf hp f v => exec_ctLoad_failure hf hp h, ?busy⟩⟩
  case header =>
    intro h s rest hf hp h1 h2 h3 h4 h5 h6 h7 hbad hb
    obtain ⟨hread, -, -⟩ :=
      readTableHeader_fields (s := { s with ct := emptyTable, ctValid := false }) h1 h2 h3 h4 h5 h6 h7 hb
    have hrej : ¬h.accepted = true := by rw [accepted_iff]; omega
    exact ⟨_, _, exec_ctLoad_raised hf (ctLoad_of_rejected_header hp hread hrej), rfl, rfl,
      (flows_read s 200).congr rfl rfl rfl rfl⟩
  case entry =>
    intro h es dv dc dl s rest hf hp hfits hlt hes hasc hdv hdc hdl hbad hb
    simp only [List.append_assoc] at hb
    obtain ⟨s1, k, hflow, hvalid, hrest, hload⟩ := ctLoad_at_entry hp hfits hlt hes hasc hb
    have hraise := loadEntries_of_rejected (k := k) hdv hdc hdl (not_entryAccepted hasc hbad) hrest
    have hall := hflow.trans (flows_read s1 (h.valueBits + h.codeBits + h.lengthBits)) (by rw [hb]; simp)
    refine ⟨_, _, exec_ctLoad_raised hf (hload _ _ hraise), rfl, hvalid, ?_⟩
    simp only [Nat.add_assoc] at hall ⊢
    exact hall.congr rfl rfl rfl rfl
  case cut =>
    intro h es part s hf hp hfits hlt hes hasc hlen hb ha
    obtain ⟨s1, k, hflow, hvalid, hrest, hload⟩ := ctLoad_at_entry hp hfits hlt hes hasc hb
    have hle : (tableBits h es).length ≤ s.bitsAhead.length := by rw [hb]; simp
    have hdry : dryAnswer s1.input = true := by rw [hflow.1, dryAnswer_afterRead hle]; exact ha
    have hraise := loadEntries_of_cut (h := h) (k := k) (floor := floorAfter 0 es) (by rw [hrest]; exact hlen) hdry
    obtain ⟨hrd, hin⟩ := afterDry_of_flows hflow hle
    exact ⟨_, _, exec_ctLoad_raised hf (hload _ _ hraise), rfl, hvalid, hrd, hin⟩
  case busy =>
    intro hf hp
    cases h.symm.trans (exec_of_violates hf (by simpa [violates] using hp))
    exact ⟨_, rfl, rfl, rfl⟩

end Sys2Proof.Machine
end

section
/-! PROOFS. What each RLE command answers (42_rle R191 to R194): the header and the pair read whole or cut short, and the loop of a whole
stream (Laws/Streams.lean), carried to `exec`. -/

namespace Sys2Proof.Machine

open Sys2Proof.Wire

/-! ### `RL.DECODE` (R194) -/

theorem exec_rlDecode_done {s u : State} (hf : s.fatal = false) (h : rlDecode s = .done () u) :
    exec .rlDecode s = .next (u.answer ⟨.ok, 0⟩) :=
  exec_ok nofun hf (by simp only [bodyOf, h, okZero_done])

/-- A fresh reader pulls the fewest bytes that hold the bits read (20_memory R66). -/
theorem pulled_of_flows_brInit {s t : State} {n : Nat} {bs : List Byte} (h : Flows (brInit s) n bs t) : t.rd.pulled = (n + 7) / 8 := by
  obtain ⟨-, hrd, -, -⟩ := h
  rw [hrd, afterRead_pulled]
  exact Nat.zero_add _

/-- Settles O40: the loop takes a pair a turn (`rlLoop_ok`), so the bits that flow are the stream's. -/
theorem rlDecodeWholeStream : Obligations.RlDecodeWholeStream := by
  intro h ps s rest hf hp ho hps hlt hb ha
  obtain ⟨t, hdec, hflow⟩ := rlDecode_ok hp ho hps hlt hb ha
  obtain ⟨-, hidle, -⟩ := (rlDecode_ends hp).of_done hdec
  refine ⟨_, exec_rlDecode_done hf hdec, rfl, hidle, hflow.congr rfl rfl rfl rfl, ?_⟩
  rw [← rleBits_length]
  exact pulled_of_flows_brInit hflow

/-! ### `RL.BEGIN` (R191) -/

theorem exec_rlBegin_done {s u : State} {v : Word} (hf : s.fatal = false) (h : rlBegin s = .done v u) :
    exec .rlBegin s = .next (u.answer ⟨.ok, v⟩) :=
  exec_ok nofun hf (by simp only [bodyOf, h, okWith_done])

/-- Settles O35: the unit is the header's (`rleBegin_flows`), and a width of at most 8 is kept as it is. -/
theorem rlBeginReadsTheHeader : Obligations.RlBeginReadsTheHeader := by
  intro h total s rest hf hp ho ht hb
  obtain ⟨-, hrest, -⟩ := readRleHeader_ok ho ht hb
  have hbegin := rleBegin_flows hp ho ht hb
  simp only [RleHeader.ok, Bool.and_eq_true, decide_eq_true_eq] at ho
  exact ⟨_, exec_rlBegin_done hf hbegin, rfl, hrest, fin9_bitwidth (by omega), fin9_bitwidth (by omega)⟩

/-- A header that fails leaves the unit idle, its other registers unspecified. -/
theorem exec_rlBegin_of_bad_header {s u : State} {f : Failure} (hf : s.fatal = false) (hp : s.rl.phase = .idle)
    (h : readRleHeader s = .raised f u) : exec .rlBegin s = .next ((forgetRle u).answerFailure f) :=
  exec_raise nofun hf (by simp only [bodyOf, rlBegin_of_idle hp, h, raised_onRaise, raised_andThen, okWith_raised])

theorem readRleHeader_disordered {h : RleHeader} {total : Nat} {s : State} {rest : List Bool} (h1 : h.minV < 256) (h2 : h.maxV < 256)
    (h3 : h.minR < 256) (h4 : h.maxR < 256) (ht : total < 2 ^ 32) (hdis : h.maxV < h.minV ∨ h.maxR < h.minR)
    (hb : s.bitsAhead = rleHeaderBits h total ++ rest) :
    readRleHeader s = .raised .corruptTable (s.afterRead 64) ∧ (s.afterRead 64).bitsAhead = rest := by
  simp only [rleHeaderBits, List.append_assoc] at hb
  obtain ⟨hminV, b1, l1⟩ := readBits_value h1 hb
  obtain ⟨hmaxV, b2, l2⟩ := readBits_next l1 h2 b1
  obtain ⟨hminR, b3, l3⟩ := readBits_next l2 h3 b2
  obtain ⟨hmaxR, b4, l4⟩ := readBits_next l3 h4 b3
  obtain ⟨htotal, b5, -⟩ := readBits_next l4 ht b4
  refine ⟨?_, b5⟩
  rw [readRleHeader, hminV, done_andThen, hmaxV, done_andThen, hminR, done_andThen, hmaxR, done_andThen, htotal, done_andThen]
  exact if_pos hdis

/-- Settles O36: the order is tested once the 64 bits are read, whatever the count among them. -/
theorem rlBeginRefusesDisorder : Obligations.RlBeginRefusesDisorder := by
  refine ⟨?cut, ?disorder⟩
  case cut =>
    intro s hf hp hlen ha
    exact ⟨_, _, exec_rlBegin_of_bad_header hf hp (readRleHeader_cut hlen ha), rfl, rfl, rfl, rfl, output_afterDry s⟩
  case disorder =>
    intro h total s rest hf hp h1 h2 h3 h4 ht hdis hb
    obtain ⟨hread, hrest⟩ := readRleHeader_disordered h1 h2 h3 h4 ht hdis hb
    exact ⟨_, _, exec_rlBegin_of_bad_header hf hp hread, rfl, rfl, hrest, output_afterRead s 64⟩

/-! ### `RL.PAIR` (R192) -/

theorem exec_rlPair_done {s u : State} {v : Word} (hf : s.fatal = false) (h : rlPair s = .done v u) :
    exec .rlPair s = .next (u.answer ⟨.ok, v⟩) :=
  exec_ok nofun hf (by simp only [bodyOf, h, okWith_done])

/-- Settles O37: the pair's bits flow in, then its run flows out. -/
theorem rlPairEmitsTheRun : Obligations.RlPairEmitsTheRun := by
  intro h p left s rest hf ho hp hs hl hlt hb hk
  have hpair := rlPair_ok ho hp hs hl hlt hb hk
  have hlen : h.vbits + h.rbits ≤ s.bitsAhead.length := by rw [hb]; simp [pairBits]
  have hflow := (flows_read s (h.vbits + h.rbits)).trans (flows_bytes _ (List.replicate p.2 (BitVec.ofNat 8 p.1))) hlen
  exact ⟨_, exec_rlPair_done hf hpair, rfl, rfl, hflow.congr rfl rfl rfl rfl⟩

/-- A step that fails puts the unit in `FAILED`. -/
theorem rlPair_body_raised {s u : State} {f : Failure} (hp : s.rl.phase = .active) (h : rlPairStep s = .raised f u) :
    bodyOf .rlPair s = .raised f (setRlPhase .failed u) := by
  have hpair : rlPair s = .raised f (setRlPhase .failed u) := by rw [rlPair, if_neg (not_not.mpr hp), h, raised_onRaise]
  simp only [bodyOf, hpair, okWith_raised]

theorem rlPairStep_short {s : State} (h : s.rl.left.toNat < s.rl.pairBits) : rlPairStep s = .raised .corruptBitCount s :=
  if_pos h

theorem rlPairStep_cut {s : State} (hl : s.rl.pairBits ≤ s.rl.left.toNat) (hlen : s.bitsAhead.length < s.rl.pairBits)
    (ha : dryAnswer s.input = true) : rlPairStep s = .raised .ioRead s.afterDry := by
  rw [rlPairStep, if_neg hl.not_gt]
  refine cut_step ha rfl fun dv hv => cut_next ha hv fun dr hvr => ?_
  exact absurd hvr hlen.not_ge

/-- The state once a pair's two fields have been read and their bits counted off (42_rle R192). -/
def State.afterPair (s : State) : State :=
  { s.afterRead s.rl.pairBits with rl := { s.rl with left := BitVec.ofNat 32 (s.rl.left.toNat - s.rl.pairBits) } }

theorem afterPair_left (s : State) : s.afterPair.rl.left.toNat = s.rl.left.toNat - s.rl.pairBits :=
  Nat.mod_eq_of_lt ((Nat.sub_le _ _).trans_lt s.rl.left.isLt)

theorem afterPair_output (s : State) : s.afterPair.output = s.output := output_afterRead s s.rl.pairBits

/-- A pair whose bits are there is read and counted off before its ranges are tested. -/
theorem rlPairStep_read {dv dr : Nat} {s : State} {rest : List Bool} (hl : s.rl.pairBits ≤ s.rl.left.toNat)
    (hdv : dv < 2 ^ s.rl.vbits.val) (hdr : dr < 2 ^ s.rl.rbits.val)
    (hb : s.bitsAhead = fieldBits s.rl.vbits dv ++ fieldBits s.rl.rbits dr ++ rest) :
    rlPairStep s =
      if s.rl.maxV.toNat < s.rl.minV.toNat + dv ∨ s.rl.maxR.toNat < s.rl.minR.toNat + dr then .raised .corruptRange s.afterPair
      else (emitAll (List.replicate (s.rl.minR.toNat + dr) (BitVec.ofNat 8 (s.rl.minV.toNat + dv))) s.afterPair).andThen fun _ t =>
        .done (BitVec.ofNat 32 ((s.rl.minV.toNat + dv) ||| (s.rl.minR.toNat + dr) <<< 8)) t := by
  rw [List.append_assoc] at hb
  obtain ⟨hvalue, b1, l1⟩ := readBits_value hdv hb
  obtain ⟨hrepeats, -, -⟩ := readBits_next l1 hdr b1
  rw [rlPairStep, if_neg hl.not_gt, hvalue, done_andThen, afterRead_rl, hrepeats, done_andThen]
  rfl

/-- Settles O38: the four ways a pair fails, in the order `RL.PAIR` comes to them. -/
theorem rlPairFailures : Obligations.RlPairFailures := by
  refine fun s hf hp => ⟨fun hshort => ?short, fun hl hlen ha => ?cut, fun dv dr rest hl hdv hdr hb => ⟨fun hout => ?range, ?refused⟩⟩
  case short => exact raise_fails nofun hf (rlPair_body_raised hp (rlPairStep_short hshort))
  case cut => exact raise_fails nofun hf (rlPair_body_raised hp (rlPairStep_cut hl hlen ha))
  case range =>
    have hstep := (rlPairStep_read hl hdv hdr hb).trans (if_pos hout)
    exact ⟨_, _, exec_raise nofun hf (rlPair_body_raised hp hstep), rfl, rfl, afterPair_left s,
      (flows_read s s.rl.pairBits).congr rfl rfl rfl rfl⟩
  case refused =>
    intro k as hV hR hsink hk
    have hstep := (rlPairStep_read hl hdv hdr hb).trans (if_neg (by omega))
    obtain ⟨t, hemit, -, hsink', hout⟩ := emitAll_refused
      (List.replicate (s.rl.minR.toNat + dr) (BitVec.ofNat 8 (s.rl.minV.toNat + dv))) k as s.afterPair hsink (by simpa using hk)
    rw [hemit, raised_andThen] at hstep
    rw [List.take_replicate, Nat.min_eq_left hk.le, afterPair_output] at hout
    exact ⟨_, _, exec_raise nofun hf (rlPair_body_raised hp hstep), rfl, rfl, hsink', hout⟩

/-! ### `RL.END` (R193) -/

theorem rlEnd_with_bits_left {s : State} (hp : s.rl.phase ≠ .idle) (h : s.rl.phase = .active ∧ s.rl.left ≠ 0) :
    rlEnd s = .raised .corruptBitCount (forgetRle s) := by
  rw [rlEnd, if_neg hp, if_pos h]

theorem rlEnd_used_up {s : State} (hp : s.rl.phase ≠ .idle) (h : ¬(s.rl.phase = .active ∧ s.rl.left ≠ 0)) :
    rlEnd s = .done () (forgetRle s) := by
  rw [rlEnd, if_neg hp, if_neg h]

/-- Settles O39: the count decides the status, and the unit is forgotten with either. -/
theorem rlEndChecksTheCount : Obligations.RlEndChecksTheCount := by
  refine ⟨fun cw h => decode_of_legal_row (by simp [decodeRow, h]) rfl, fun s hf => ⟨fun hidle => ?_, fun hp => ?_⟩⟩
  · exact ⟨_, _, exec_of_violates hf (by simp [violates, hidle])⟩
  · by_cases h : s.rl.phase = .active ∧ s.rl.left ≠ 0
    · obtain ⟨hact, hleft⟩ := h
      have hexec := exec_raise (i := .rlEnd) nofun hf (congrArg okZero (rlEnd_with_bits_left hp ⟨hact, hleft⟩))
      exact ⟨_, hexec, rfl, rfl, fun _ _ => ⟨_, rfl⟩, fun _ hz => (hleft hz).elim, fun hfail => by rw [hact] at hfail; cases hfail⟩
    · have hexec := exec_ok (i := .rlEnd) nofun hf (congrArg okZero (rlEnd_used_up hp h))
      exact ⟨_, hexec, rfl, rfl, fun hact hleft => (h ⟨hact, hleft⟩).elim, fun _ _ => rfl, fun _ => rfl⟩

end Sys2Proof.Machine
end

section
/-! PROOFS. What the bit-driven Huffman commands answer (43_huffman R221 to R224, R226): `HF.BEGIN` leaves the tree of the table's codes
(Laws/Trie.lean), and each `HF.BIT` follows one edge of it. -/

namespace Sys2Proof.Machine

open Sys2Proof.Wire

/-! ### `HF.BEGIN` (R222) -/

theorem hfBegin_body_built {s : State} (hp : s.hf.phase = .idle) (hv : s.ctValid = true) (hfree : PrefixFree s.ct) :
    ∃ nodes, Tree nodes (codesBelow s.ct 256) [] ∧ nodes.length ≤ Config.trieNodes ∧
      bodyOf .hfBegin s = .done ⟨.ok, 0⟩ { s with hf := { s.hf with nodes := nodes, cur := 0, phase := .active } } := by
  obtain ⟨nodes, T, hbegin⟩ := hfBegin_built hp hv hfree
  obtain ⟨-, -, hok, -⟩ := (hfBegin_ends hp hv).of_done hbegin
  exact ⟨nodes, T, hf_ok_length hok, congrArg okZero hbegin⟩

/-- Settles O44: the trie is built by `hfBegin_body_built`, and `hfBegin_refuses` says what a refused table leaves. -/
theorem hfBeginBuildsExactlyPrefixFree : Obligations.HfBeginBuildsExactlyPrefixFree := by
  refine fun s hf hp hv => ⟨fun hfree => ?built, fun hfree => ?refused⟩
  case built =>
    obtain ⟨nodes, -, hlen, hbody⟩ := hfBegin_body_built hp hv hfree
    exact ⟨_, exec_ok nofun hf hbody, rfl, rfl, rfl, hlen, rfl⟩
  case refused =>
    obtain ⟨nodes, n, hlen, hbegin⟩ := hfBegin_refuses hp hv hfree
    exact ⟨_, _, exec_raise nofun hf (congrArg okZero hbegin), rfl, hp, rfl, hv, rfl, hlen, rfl⟩

/-- The unit is active with the cursor at the root of the tree of the table's codes, and commands are answered. -/
structure AtRoot (ct : CodeTable) (t : State) : Prop where
  notFatal : t.fatal = false
  active : t.hf.phase = .active
  cursor : t.hf.cur = 0
  tree : Tree t.hf.nodes (codesBelow ct 256) []
  prefixFree : PrefixFree ct

/-- An `HF.BEGIN` that answered `OK` was legal, and its table is prefix-free. -/
theorem atRoot_of_exec_hfBegin {s t : State} (hf : s.fatal = false) (h : exec .hfBegin s = .next t) (hr : t.result = some ⟨.ok, 0⟩) :
    AtRoot s.ct t := by
  cases hviol : violates .hfBegin s with
  | true =>
    cases (exec_of_violates hf hviol).symm.trans h
    cases hr
  | false =>
    obtain ⟨hp, hv⟩ : s.hf.phase = .idle ∧ s.ctValid = true := by simpa [violates] using hviol
    by_cases hfree : PrefixFree s.ct
    · obtain ⟨nodes, T, -, hbody⟩ := hfBegin_body_built hp hv hfree
      cases (exec_ok (i := .hfBegin) nofun hf hbody).symm.trans h
      exact ⟨hf, rfl, rfl, T, hfree⟩
    · obtain ⟨nodes, n, -, hbegin⟩ := hfBegin_refuses hp hv hfree
      cases (exec_raise (i := .hfBegin) nofun hf (congrArg okZero hbegin)).symm.trans h
      cases hr

/-! ### `HF.BIT` (R223): one edge -/

/-- The state with the cursor at node `c` and the result `r`: what `HF.BIT` leaves where it does not fail. -/
def State.cursorAt (s : State) (c : Nat) (r : Option Result) : State := { s with hf := { s.hf with cur := c }, result := r }

section OneEdge

variable {s : State} {b : Bool} (hf : s.fatal = false) (hp : s.hf.phase = .active)

include hf hp

theorem exec_hfBit_noEdge (hc : (nodeAt s.hf.nodes s.hf.cur).child b = none) :
    exec (.hfBit b) s = .next (State.answerFailure { s with hf := { s.hf with cur := 0, phase := .failed } } .corruptNoData) :=
  exec_raise nofun hf (by simp only [bodyOf, hfBit, if_neg (not_not.mpr hp), hc, raised_andThen])

variable {k : Nat} (hc : (nodeAt s.hf.nodes s.hf.cur).child b = some k)

include hc

theorem exec_hfBit_leaf (hl : (nodeAt s.hf.nodes k).leaf = true) :
    exec (.hfBit b) s = .next (s.cursorAt 0 (some ⟨.ok, (nodeAt s.hf.nodes k).sym.setWidth 32⟩)) :=
  exec_ok (u := { s with hf := { s.hf with cur := 0 } }) nofun hf
    (by simp only [bodyOf, hfBit, if_neg (not_not.mpr hp), hc, if_pos hl, done_andThen, bitResult])

theorem exec_hfBit_inner (hl : (nodeAt s.hf.nodes k).leaf = false) :
    exec (.hfBit b) s = .next (s.cursorAt k (some ⟨.more, 0⟩)) :=
  exec_ok (u := { s with hf := { s.hf with cur := k } }) nofun hf
    (by simp only [bodyOf, hfBit, if_neg (not_not.mpr hp), hc, if_neg (Bool.eq_false_iff.mp hl), done_andThen, bitResult])

end OneEdge

/-- Settles O47: no edge, an edge to a leaf, an edge to an inner node. -/
theorem hfBitTakesOneEdge : Obligations.HfBitTakesOneEdge := by
  refine fun s b hf => ⟨fun hp => ?violation, fun hp hc => ?noEdge, fun k hp hc hl => ?leaf, fun k hp hc hl => ?inner⟩
  case violation => exact ⟨_, _, exec_of_violates hf (by simpa [violates] using hp)⟩
  case noEdge => exact ⟨_, _, exec_hfBit_noEdge hf hp hc⟩
  case leaf => exact exec_hfBit_leaf hf hp hc hl
  case inner => exact exec_hfBit_inner hf hp hc hl

/-! ### `HF.BIT` along a path (R221) -/

/-- The bits of a path inside the trie each return `MORE`, and the cursor goes along. -/
theorem execResults_walk {ct : CodeTable} {s : State} {p q : List Bool} (hf : s.fatal = false) (hp : s.hf.phase = .active)
    (T : Tree s.hf.nodes (codesBelow ct 256) []) (hfree : PrefixFree ct) (hw : walk s.hf.nodes 0 q = some s.hf.cur)
    (hi : interiorPath ct (q ++ p)) :
    ∃ c r, walk s.hf.nodes 0 (q ++ p) = some c ∧
      execResults (p.map .hfBit) s = some (List.replicate p.length ⟨.more, 0⟩, s.cursorAt c r) := by
  induction p generalizing q s with
  | nil => exact ⟨s.hf.cur, s.result, by rwa [List.append_nil], rfl⟩
  | cons b p ih =>
    rw [List.append_cons] at hi ⊢
    obtain ⟨k, hk, hleaf⟩ := interior_walk T hfree (hi.of_prefix (List.prefix_append (q ++ [b]) p))
    have hchild : (nodeAt s.hf.nodes s.hf.cur).child b = some k := by rwa [walk_snoc, hw, Option.bind_some] at hk
    obtain ⟨c, r, hc, hrest⟩ := ih (s := s.cursorAt k (some ⟨.more, 0⟩)) hf hp T hk hi
    exact ⟨c, r, hc, execResults_cons (exec_hfBit_inner hf hp hchild hleaf) rfl hrest⟩

/-- The edge along the last bit of a code leads to the leaf of its byte value. -/
theorem child_of_code {ct : CodeTable} {nodes : List Node} {p : List Bool} {b : Bool} {c : Nat} {v : Byte}
    (T : Tree nodes (codesBelow ct 256) []) (hv : ct[v.toFin].length ≠ 0) (hp : pathOf ct[v.toFin] = p ++ [b])
    (hw : walk nodes 0 p = some c) :
    ∃ k, (nodeAt nodes c).child b = some k ∧ (nodeAt nodes k).leaf = true ∧ (nodeAt nodes k).sym = v := by
  have hS : codesBelow ct 256 (p ++ [b]) v := by
    rw [← hp]
    simpa using codesBelow_path hv
  obtain ⟨k, hk⟩ := Option.isSome_iff_exists.mp ((T.paths (p ++ [b])).mpr (.inr (.inl ⟨_, v, hS, List.prefix_rfl⟩)))
  refine ⟨k, ?_, (T.leaf _ _ hk).mpr ⟨v, hS⟩, T.sym _ _ _ hk hS⟩
  rwa [walk_snoc, hw, Option.bind_some] at hk

/-- No edge goes along a bit that leaves every code. -/
theorem child_off_codes {ct : CodeTable} {nodes : List Node} {q : List Bool} {b : Bool} {c : Nat}
    (T : Tree nodes (codesBelow ct 256) []) (hw : walk nodes 0 q = some c)
    (hoff : ∀ v : Fin 256, ct[v].length ≠ 0 → ¬ (q ++ [b]) <+: pathOf ct[v]) : (nodeAt nodes c).child b = none := by
  by_contra hedge
  have hsome : (walk nodes 0 (q ++ [b])).isSome := by rwa [walk_snoc, hw, Option.bind_some, Option.isSome_iff_ne_none]
  rcases (T.paths _).mp hsome with hnil | ⟨_, _, ⟨u, hu, -, hu0, rfl, -⟩, hpre⟩ | hnil
  · simp at hnil
  · exact hoff ⟨u, hu⟩ hu0 hpre
  · simp at hnil

/-- Settles O45: all bits of the code but the last stay inside the trie, and the last leads to the leaf. -/
theorem hfBitWalksACode : Obligations.HfBitWalksACode := by
  intro s t v hf hbegin hr hv
  obtain ⟨htf, hact, hcur, T, hfree⟩ := atRoot_of_exec_hfBegin hf hbegin hr
  obtain ⟨p, b, hpb⟩ : ∃ p b, pathOf s.ct[v.toFin] = p ++ [b] := ⟨_, _, (List.dropLast_append_getLast (pathOf_ne_nil hv)).symm⟩
  have hi : interiorPath s.ct p := .inr ⟨v.toFin, hv, by rw [hpb]; exact List.prefix_append p [b], by rw [hpb]; simp⟩
  obtain ⟨c, r, hc, hwalk⟩ := execResults_walk (q := []) htf hact T hfree (by rw [hcur]; rfl) hi
  obtain ⟨k, hchild, hleaf, hsym⟩ := child_of_code T hv hpb hc
  have hlast := exec_hfBit_leaf (s := t.cursorAt c r) htf hact hchild hleaf
  have hlen : s.ct[v.toFin].length.val = p.length + 1 := by
    have := congrArg List.length hpb
    rwa [pathOf, fieldBits_length, List.length_append] at this
  rw [hpb, List.map_append, hlen, Nat.add_sub_cancel]
  refine (execResults_append hwalk (execResults_cons hlast rfl rfl)).trans ?_
  simp only [State.cursorAt, hsym, ← hcur]

/-- Settles O46: the bits before stay inside the trie, where no edge goes along the next. -/
theorem hfBitRefusesADeadEnd : Obligations.HfBitRefusesADeadEnd := by
  intro s t q b hf hbegin hr hi hoff
  obtain ⟨htf, hact, hcur, T, hfree⟩ := atRoot_of_exec_hfBegin hf hbegin hr
  obtain ⟨c, r, hc, hwalk⟩ := execResults_walk (p := q) (q := []) htf hact T hfree (by rw [hcur]; rfl) hi
  have hlast := exec_hfBit_noEdge (s := t.cursorAt c r) htf hact (child_off_codes T hc hoff)
  rw [List.map_append]
  exact ⟨_, _, execResults_append hwalk (execResults_cons hlast rfl rfl), rfl⟩

/-! ### `HF.END` (R224) -/

theorem hfEnd_midCode {s : State} (hp : s.hf.phase = .active) (hc : s.hf.cur ≠ 0) : hfEnd s = .raised .corruptMidCode (closeHf s) := by
  rw [hfEnd, if_neg (by simp [hp]), if_pos ⟨hp, hc⟩]

theorem hfEnd_ok {s : State} (hp : s.hf.phase ≠ .idle) (hc : ¬(s.hf.phase = .active ∧ s.hf.cur ≠ 0)) :
    hfEnd s = .done () (closeHf s) := by
  rw [hfEnd, if_neg hp, if_neg hc]

/-- Settles O48: the cursor decides the status, and the unit is closed with either. -/
theorem hfEndChecksTheCursor : Obligations.HfEndChecksTheCursor := by
  refine ⟨fun cw h => decode_of_legal_row (by simp [decodeRow, h]) rfl, fun s hf => ⟨fun hidle => ?_, fun hp => ?_⟩⟩
  · exact ⟨_, _, exec_of_violates hf (by simp [violates, hidle])⟩
  · by_cases h : s.hf.phase = .active ∧ s.hf.cur ≠ 0
    · obtain ⟨hact, hcur⟩ := h
      have hexec := exec_raise (i := .hfEnd) nofun hf (congrArg okZero (hfEnd_midCode hact hcur))
      exact ⟨_, hexec, rfl, rfl, rfl, fun _ _ => ⟨_, rfl⟩, fun _ hz => (hcur hz).elim, fun hfail => by rw [hact] at hfail; cases hfail⟩
    · have hexec := exec_ok (i := .hfEnd) nofun hf (congrArg okZero (hfEnd_ok hp h))
      exact ⟨_, hexec, rfl, rfl, rfl, fun hact hcur => (h ⟨hact, hcur⟩).elim, fun _ _ => rfl, fun _ => rfl⟩

end Sys2Proof.Machine
end

section
/-! PROOFS. What `HF.DECODE` answers (43_huffman R225, R227): a whole Huffman stream, and each way a stream fails, from the table that
does not load to the code that ends early. Laws/HuffmanStream.lean and Laws/HuffmanPaths.lean carry the loop to where it stops. -/

namespace Sys2Proof.Machine

open Sys2Proof.Wire

/-! ### A whole stream -/

/-- A fresh reader stands at the bits it has read since (10_state R22). -/
theorem pos_of_flows_brInit {s t : State} {n : Nat} {bs : List Byte} (h : Flows (brInit s) n bs t) : t.pos = n := by
  obtain ⟨-, hrd, -, -⟩ := h
  calc t.pos = ((brInit s).afterRead n).pos := by rw [State.pos, hrd]; rfl
    _ = (brInit s).pos + n := afterRead_pos rfl n
    _ = n := Nat.zero_add n

/-- Settles O49: on the bits of the stream `hfDecode_ok` says what flows, and a packed stream's bytes are those its bits take. -/
theorem huffmanRoundTrip : Obligations.HuffmanRoundTrip := by
  intro h es msg s rest hf hp ht hfree hmsg hlen hin ha
  obtain ⟨t, hdec, hflow, hct, hvalid⟩ := hfDecode_ok hp ht hfree hmsg hlen (packed_ahead hin) ha
  obtain ⟨-, hidle⟩ := (hfDecode_ends hp).of_done hdec
  have hpos := pos_of_flows_brInit hflow
  obtain ⟨hinput, -, -, hout⟩ := hflow
  exact ⟨_, exec_ok nofun hf (congrArg okZero hdec), rfl, hout, hinput.trans (packed_input hin), hidle, hct, hvalid, hpos⟩

/-! ### A stream that fails -/

/-- The command fails with `f` and leaves the unit idle, where its pseudocode raises `f`. -/
theorem exec_hfDecode_raised {s u : State} {f : Failure} (hf : s.fatal = false) (hp : s.hf.phase = .idle)
    (h : hfDecode s = .raised f u) : exec .hfDecode s = .next (u.answerFailure f) ∧ u.hf.phase = .idle := by
  obtain ⟨-, -, hidle⟩ := (hfDecode_ends hp).of_raised h
  exact ⟨exec_raise nofun hf (congrArg okZero h), hidle⟩

theorem hfDecode_of_ctLoad_raised {s u : State} {f : Failure} (hp : s.hf.phase = .idle) (h : ctLoad (brInit s) = .raised f u) :
    hfDecode s = .raised f u := by
  rw [hfDecode, if_neg (not_not.mpr hp), h, raised_andThen]

/-- The bit count is cut short. -/
theorem hfDecode_cut_count {h : TableHeader} {es : List Entry} {part : List Bool} {s : State} (hp : s.hf.phase = .idle)
    (ht : TableOk h es) (hlen : part.length < 32) (hb : (brInit s).bitsAhead = tableBits h es ++ part)
    (ha : dryAnswer s.input = true) : ∃ u, hfDecode s = .raised .ioRead u ∧ u.output = s.output := by
  obtain ⟨hload, hrest⟩ := ctLoad_ok (s := brInit s) hp ht hb
  have hle : (tableBits h es).length ≤ (brInit s).bitsAhead.length := by rw [hb]; simp
  generalize ht' : ({ (brInit s).afterRead (tableBits h es).length with ct := tableOf es, ctValid := true } : State) = t at hload
  have hflow : Flows (brInit s) (tableBits h es).length [] t := by rw [← ht']; exact (flows_read _ _).congr rfl rfl rfl rfl
  obtain ⟨hin, hrd, -, hout⟩ := hflow
  have hshort : t.bitsAhead.length < 32 := by rwa [bitsAhead_congr hin hrd, hrest]
  have hdry : dryAnswer t.input = true := by rw [hin, dryAnswer_afterRead hle]; exact ha
  refine ⟨t.afterDry, ?_, (output_afterDry t).trans (hout.trans (List.append_nil _))⟩
  rw [hfDecode, if_neg (not_not.mpr hp), hload, done_andThen, readBits_raised hshort hdry]

/-- The table is not prefix-free. -/
theorem hfDecode_not_prefixFree {h : TableHeader} {es : List Entry} {total : Nat} {s : State} {rest : List Bool}
    (hp : s.hf.phase = .idle) (ht : TableOk h es) (hfree : ¬PrefixFree (tableOf es)) (htot : total < 2 ^ 32)
    (hb : (brInit s).bitsAhead = tableBits h es ++ fieldBits 32 total ++ rest) :
    ∃ u, hfDecode s = .raised .corruptTable u ∧ u.ct = tableOf es ∧ u.ctValid = true ∧
      Flows (brInit s) ((tableBits h es).length + 32) [] u := by
  obtain ⟨s2, hdec, hflow, -, hct, hvalid, hp2, -⟩ := hfDecode_open hp ht htot hb
  obtain ⟨nodes, n, -, hbegin⟩ := hfBegin_refuses hp2 hvalid (by rwa [hct])
  rw [hbegin, raised_andThen] at hdec
  exact ⟨_, hdec, hct, hvalid, hflow.congr rfl rfl rfl rfl⟩

/-- What the channels are to carry for the loop to come past `msg`: a loadable table with a bit count, then the codes of `msg`, which
the output channel accepts. -/
structure Carries (h : TableHeader) (es : List Entry) (total : Nat) (msg : List Byte) (rest : List Bool) (s : State) : Prop where
  idle : s.hf.phase = .idle
  table : TableOk h es
  prefixFree : PrefixFree (tableOf es)
  symbols : ∀ w ∈ msg, (tableOf es)[w.toFin].length ≠ 0
  count : total < 2 ^ 32
  bits : (brInit s).bitsAhead = tableBits h es ++ fieldBits 32 total ++ (messageBits (tableOf es) msg ++ rest)
  accepted : sinkAccepts msg.length s.sink = true

/-- How many bits stand before `rest` there. -/
def bitsBefore (h : TableHeader) (es : List Entry) (msg : List Byte) : Nat :=
  (tableBits h es).length + 32 + (messageBits (tableOf es) msg).length

section PastTheMessage

variable {h : TableHeader} {es : List Entry} {total : Nat} {msg : List Byte} {s : State}

theorem Carries.length_bits {rest : List Bool} (hs : Carries h es total msg rest s) :
    (brInit s).bitsAhead.length = bitsBefore h es msg + rest.length := by
  simp only [hs.bits, bitsBefore, List.length_append, fieldBits_length, Nat.add_assoc]

/-- `HF.DECODE` past `msg` and the bits of a path inside the trie: the loop goes on from there with `m` bits to come. -/
theorem hfDecode_walk {m : Nat} {q rest : List Bool} (hs : Carries h es total msg (q ++ rest) s)
    (hi : interiorPath (tableOf es) q) (hm : total = (messageBits (tableOf es) msg).length + (q.length + m)) :
    ∃ u, hfDecode s = (((hfLoop m u).onRaise closeHf).andThen fun _ s => hfEnd s) ∧
      Flows (brInit s) (bitsBefore h es msg + q.length) msg u ∧ u.bitsAhead = rest ∧ u.hf.phase = .active ∧
      u.hf.left.toNat = m ∧ walk u.hf.nodes 0 q = some u.hf.cur ∧ Tree u.hf.nodes (codesBelow (tableOf es) 256) [] := by
  have hlen := hs.length_bits
  obtain ⟨hp, ht, hfree, hmsg, htot, hb, ha⟩ := hs
  obtain ⟨t, nodes, hdec, hflow, hahead, hunit, T⟩ := hfDecode_msg hp ht hfree hmsg htot hm hb ha
  have hleft : t.hf.left.toNat = q.length + m := by rw [hunit]; exact Nat.mod_eq_of_lt (by omega)
  obtain ⟨u, c, hloop, hflow', hahead', hwalk, hunit', -, -⟩ := hfLoop_walk T hfree (p := q) (q := []) (j := m)
    (by rw [hunit]) (by rw [hunit]) (by rw [hunit]; rfl) hi hleft hahead
  have hflows := hflow.trans hflow' (by rw [hlen]; exact Nat.le_add_right _ _)
  rw [List.append_nil] at hflows
  rw [hunit] at hunit'
  rw [hloop] at hdec
  refine ⟨u, hdec, hflows, hahead', ?_⟩
  rw [hunit']
  exact ⟨rfl, Nat.mod_eq_of_lt (by omega), hwalk, T⟩

/-- A bit that leaves every code. -/
theorem hfDecode_offTrie {q rest : List Bool} {b : Bool} (hs : Carries h es total msg (q ++ b :: rest) s)
    (hi : interiorPath (tableOf es) q) (hoff : ∀ v : Fin 256, (tableOf es)[v].length ≠ 0 → ¬ (q ++ [b]) <+: pathOf (tableOf es)[v])
    (hlt : (messageBits (tableOf es) msg).length + q.length < total) :
    ∃ u, hfDecode s = .raised .corruptNoData u ∧ Flows (brInit s) (bitsBefore h es msg + q.length + 1) msg u := by
  obtain ⟨j, hj⟩ := Nat.exists_eq_add_of_lt hlt
  obtain ⟨t, hdec, hflow, hahead, hact, hleft, hwalk, T⟩ := hfDecode_walk (m := j + 1) hs hi (by omega)
  obtain ⟨u, hloop, hflow', -, -⟩ := hfLoop_offTrie (j := j) T hact rfl hwalk hoff (fun h0 => by rw [h0] at hleft; cases hleft) hahead
  have hflows := hflow.trans hflow' (by rw [hs.length_bits, List.length_append]; omega)
  rw [List.append_nil] at hflows
  exact ⟨closeHf u, by rw [hdec, hloop, raised_onRaise, raised_andThen], hflows.congr rfl rfl rfl rfl⟩

/-- The bit count ends inside a code. -/
theorem hfDecode_midCode {part rest : List Bool} (hs : Carries h es total msg (part ++ rest) s)
    (hi : interiorPath (tableOf es) part) (hne : part ≠ []) (hm : total = (messageBits (tableOf es) msg).length + part.length) :
    ∃ u, hfDecode s = .raised .corruptMidCode u ∧ Flows (brInit s) (bitsBefore h es msg + part.length) msg u := by
  obtain ⟨t, hdec, hflow, -, hact, -, hwalk, T⟩ := hfDecode_walk (m := 0) hs hi hm
  have hcur : t.hf.cur ≠ 0 := fun h0 => hne (T.unique part [] 0 (by rw [hwalk, h0]) rfl)
  refine ⟨closeHf t, ?_, hflow.congr rfl rfl rfl rfl⟩
  rw [hdec, hfLoop, done_onRaise, done_andThen, hfEnd_midCode hact hcur]

/-- The channel ends inside the codes. -/
theorem hfDecode_cut {part : List Bool} (hs : Carries h es total msg part s) (hi : interiorPath (tableOf es) part)
    (hlt : (messageBits (tableOf es) msg).length + part.length < total) (ha : dryAnswer s.input = true) :
    ∃ u, hfDecode s = .raised .ioRead u ∧ u.output = s.output ++ msg := by
  obtain ⟨j, hj⟩ := Nat.exists_eq_add_of_lt hlt
  obtain ⟨t, hdec, hflow, hahead, -, hleft, -, -⟩ := hfDecode_walk (m := j + 1) (rest := []) (q := part)
    (by rwa [List.append_nil]) hi (by omega)
  obtain ⟨hin, -, -, hout⟩ := hflow
  have hdry : dryAnswer t.input = true := by rw [hin, dryAnswer_afterRead hs.length_bits.ge]; exact ha
  have hloop := hfLoop_dry (j := j) (fun h0 => by rw [h0] at hleft; cases hleft) hahead hdry
  exact ⟨closeHf t.afterDry, by rw [hdec, hloop, raised_onRaise, raised_andThen], (output_afterDry t).trans hout⟩

/-- The output channel refuses the byte of the code that comes next. -/
theorem hfDecode_refused {v : Byte} {p rest : List Bool} {as : List WriteAnswer} (hs : Carries h es total msg (p ++ rest) s)
    (hv : (tableOf es)[v.toFin].length ≠ 0) (hpath : pathOf (tableOf es)[v.toFin] = p)
    (hle : (messageBits (tableOf es) msg).length + p.length ≤ total) (hsink : s.sink = List.replicate msg.length .ok ++ .fail :: as) :
    ∃ u, hfDecode s = .raised .ioWrite u ∧ u.output = s.output ++ msg ∧ u.sink = as ∧
      u.rd = ((brInit s).afterRead (bitsBefore h es msg + p.length)).rd ∧
      u.input = ((brInit s).afterRead (bitsBefore h es msg + p.length)).input := by
  have hlen := hs.length_bits
  obtain ⟨hp, ht, hfree, hmsg, htot, hb, ha⟩ := hs
  obtain ⟨j, hj⟩ := Nat.exists_eq_add_of_le hle
  obtain ⟨t, nodes, hdec, hflow, hahead, hunit, T⟩ := hfDecode_msg (m := p.length + j) hp ht hfree hmsg htot (by omega) hb ha
  obtain ⟨hin, hrd, -, -⟩ := hflow.trans (flows_read t p.length) (by rw [hlen]; exact Nat.le_add_right _ _)
  obtain ⟨-, -, htsink, htout⟩ := hflow
  rw [brInit_sink, hsink, List.drop_left' List.length_replicate] at htsink
  have hrefused := hfLoop_refused (s := t) (m := j) (j := j) (rest := rest) (as := as) T hfree hv (by rw [hunit]) (by rw [hunit]) (by rw [hunit])
  rw [hpath] at hrefused
  obtain ⟨u, hloop, husink, huout, huin, hurd⟩ := hrefused (by rw [hunit]; exact Nat.mod_eq_of_lt (by omega)) hahead htsink
  exact ⟨closeHf u, by rw [hdec, hloop, raised_onRaise, raised_andThen], huout.trans htout, husink, hurd.trans hrd, huin.trans hin⟩

end PastTheMessage

/-- Settles O50: each stream stops `HF.DECODE` where the lemma of its kind says, and the unit is idle after any failure. -/
theorem huffmanCutStreamFails : Obligations.HuffmanCutStreamFails := by
  refine ⟨?offTrie, ?midCode, ?notPrefixFree, ?refused, ?badTable, ?cutCount, ?cutCodes⟩
  case offTrie =>
    intro h es msg q b total s rest hf hp ht hfree hmsg hi hoff htot hlt hb ha
    obtain ⟨u, hdec, hflow⟩ := hfDecode_offTrie ⟨hp, ht, hfree, hmsg, htot, hb, ha⟩ hi hoff hlt
    obtain ⟨hexec, hidle⟩ := exec_hfDecode_raised hf hp hdec
    exact ⟨_, _, hexec, rfl, hidle, hflow.congr rfl rfl rfl rfl⟩
  case midCode =>
    intro h es msg v part total s rest hf hp ht hfree hmsg hv hpre hne hnil htot hm hb ha
    obtain ⟨u, hdec, hflow⟩ := hfDecode_midCode ⟨hp, ht, hfree, hmsg, htot, hb, ha⟩ (.inr ⟨v.toFin, hv, hpre, hne⟩) hnil hm
    obtain ⟨hexec, hidle⟩ := exec_hfDecode_raised hf hp hdec
    rw [bitsBefore, Nat.add_assoc, ← hm] at hflow
    exact ⟨_, _, hexec, rfl, hidle, hflow.congr rfl rfl rfl rfl⟩
  case notPrefixFree =>
    intro h es total s rest hf hp ht hfree htot hb
    obtain ⟨u, hdec, hct, hvalid, hflow⟩ := hfDecode_not_prefixFree hp ht hfree htot hb
    obtain ⟨hexec, hidle⟩ := exec_hfDecode_raised hf hp hdec
    exact ⟨_, _, hexec, rfl, hidle, hct, hvalid, hflow.congr rfl rfl rfl rfl⟩
  case refused =>
    intro h es msg v total s rest as hf hp ht hfree hmsg hv htot hle hb hsink
    obtain ⟨p, hpath, hsnoc⟩ := messageBits_snoc (tableOf es) msg v
    rw [hsnoc, List.append_assoc (messageBits (tableOf es) msg)] at hb
    rw [hsnoc, List.length_append] at hle
    obtain ⟨u, hdec, hout, husink, hrd, hin⟩ := hfDecode_refused
      ⟨hp, ht, hfree, hmsg, htot, hb, by rw [hsink]; exact sinkAccepts_replicate _ _⟩ hv hpath hle hsink
    obtain ⟨hexec, hidle⟩ := exec_hfDecode_raised hf hp hdec
    rw [hsnoc, List.length_append, ← Nat.add_assoc]
    exact ⟨_, _, hexec, rfl, hidle, hout, husink, hrd, hin⟩
  case badTable =>
    intro s t f v hf hp h hr
    rcases exec_ctLoad_cases h with ⟨hfatal, -⟩ | ⟨w, u, -, rfl⟩ | ⟨g, u, hload, rfl⟩
    · exact absurd (hf.symm.trans hfatal) Bool.false_ne_true
    · cases hr
    · cases hr
      obtain ⟨hexec, hidle⟩ := exec_hfDecode_raised hf hp (hfDecode_of_ctLoad_raised hp hload)
      obtain ⟨-, -, hvalid⟩ := (ctLoad_ends (s := brInit s) hp).of_raised hload
      exact ⟨_, _, hexec, rfl, hidle, hvalid, rfl, rfl, rfl, rfl⟩
  case cutCount =>
    intro h es part s hf hp ht hlen hb ha
    obtain ⟨u, hdec, hout⟩ := hfDecode_cut_count hp ht hlen hb ha
    obtain ⟨hexec, hidle⟩ := exec_hfDecode_raised hf hp hdec
    exact ⟨_, _, hexec, rfl, hidle, hout⟩
  case cutCodes =>
    intro h es msg v part total s hf hp ht hfree hmsg hv hpre hne htot hlt hb ha hs
    rw [List.append_assoc] at hb
    obtain ⟨u, hdec, hout⟩ := hfDecode_cut ⟨hp, ht, hfree, hmsg, htot, hb, hs⟩ (.inr ⟨v.toFin, hv, hpre, hne⟩) hlt ha
    obtain ⟨hexec, hidle⟩ := exec_hfDecode_raised hf hp hdec
    exact ⟨_, _, hexec, rfl, hout, hidle⟩

end Sys2Proof.Machine
end

section
/-! PROOFS. What each LZW command answers (44_lzw R261 to R264): `LZ.PUT` by what `resolveCode` makes of the code, by whether the output
channel takes the bytes, and by what `DictInsert` does with the new sequence. -/

namespace Sys2Proof.Machine

/-! ### `LZ.BEGIN` and `LZ.END` (R261, R264) -/

theorem seedDict_getElem? {c : Nat} (hc : c < 256) : seedDict[c]? = some [BitVec.ofNat 8 c] := by
  simp [seedDict, Config.seedSize, hc]

/-- Settles O52: the unit is `lzBegin_ok`'s. -/
theorem lzBeginSeedsTheDictionary : Obligations.LzBeginSeedsTheDictionary := by
  refine ⟨fun cw h => decode_of_legal_row (by simp [decodeRow, h]) rfl, fun s hf => ⟨fun hp => ?_, fun hp => ?_⟩⟩
  · exact ⟨_, _, exec_of_violates hf (by simp [violates, hp])⟩
  · exact ⟨_, exec_ok nofun hf (congrArg okZero (lzBegin_ok hp)), rfl, rfl, seedDict_length, fun c => seedDict_getElem?⟩

/-- Settles O56: outside `IDLE`, `LZ.END` is `closeLz`. -/
theorem lzEndClosesTheUnit : Obligations.LzEndClosesTheUnit := by
  refine ⟨fun cw h => decode_of_legal_row (by simp [decodeRow, h]) rfl, fun s hf => ⟨fun hp => ?_, fun hp => ?_⟩⟩
  · exact ⟨_, _, exec_of_violates hf (by simp [violates, hp])⟩
  · exact ⟨_, exec_ok nofun hf (congrArg okZero (lzEnd_ok hp)), rfl, rfl, rfl, rfl⟩

/-! ### What a code stands for (R263) -/

theorem resolveCode_known {code : Nat} {u : LzwUnit} {seq : List Byte} (h : u.dict[code]? = some seq) :
    resolveCode code u = some (seq, u.prev ++ seq.take 1) := by
  rw [resolveCode, h]

/-- A code past the dictionary stands for something only as the KwK code. -/
theorem resolveCode_past {code : Nat} {u : LzwUnit} (h : u.size ≤ code) :
    resolveCode code u =
      if code = u.size ∧ u.prev ≠ [] then some (u.prev ++ u.prev.take 1, u.prev ++ u.prev.take 1) else none := by
  rw [resolveCode, List.getElem?_eq_none h]

theorem resolveCode_kwk {code : Nat} {u : LzwUnit} (h : code = u.size) (hp : u.prev ≠ []) :
    resolveCode code u = some (u.prev ++ u.prev.take 1, u.prev ++ u.prev.take 1) :=
  (resolveCode_past h.ge).trans (if_pos ⟨h, hp⟩)

theorem resolveCode_none {code : Nat} {u : LzwUnit} (h : u.size ≤ code) (hn : code ≠ u.size ∨ u.prev = []) :
    resolveCode code u = none :=
  (resolveCode_past h).trans (if_neg fun ⟨hc, hp⟩ => hn.elim (· hc) hp)

/-! ### `DictInsert` (R262) -/

/-- The dictionary after an insertion that no limit stops. -/
def LzwUnit.dictWith (u : LzwUnit) (new : List Byte) : List (List Byte) := if new ∈ u.dict then u.dict else u.dict ++ [new]

theorem dictInsert_ok {new : List Byte} {s : State}
    (h : new ∈ s.lz.dict ∨ (s.lz.size ≠ s.params.dictMax ∧ tooLong s.params.seqMax new = false)) :
    dictInsert new s = .done () { s with lz := { s.lz with dict := s.lz.dictWith new } } := by
  unfold dictInsert LzwUnit.dictWith
  by_cases hm : new ∈ s.lz.dict
  · rw [if_pos hm, if_pos hm]
  · obtain ⟨hsize, hlong⟩ := h.resolve_left hm
    rw [if_neg hm, if_neg hm, if_neg (by simp [hsize, hlong])]

theorem dictInsert_limit {new : List Byte} {s : State} (hm : new ∉ s.lz.dict)
    (h : s.lz.size = s.params.dictMax ∨ tooLong s.params.seqMax new = true) : dictInsert new s = .raised .limit s := by
  rw [dictInsert, if_neg hm, if_pos h]

/-! ### `LZ.PUT` (R263) -/

section Put
variable {code : Nat} {s : State} {seq new : List Byte}

theorem lzPut_of_active (hp : s.lz.phase = .active) : lzPut code s = (lzPutStep code s).onRaise (setLzPhase .failed) :=
  if_neg (not_not.mpr hp)

theorem lzPutStep_resolved (hr : resolveCode code s.lz = some (seq, new)) :
    lzPutStep code s = (emitAll seq s).andThen fun _ s => (dictInsert new s).andThen fun _ s =>
      .done (BitVec.ofNat 32 seq.length) { s with lz := { s.lz with prev := seq } } := by
  rw [lzPutStep, hr]

theorem lzPut_inserts (hp : s.lz.phase = .active) (hr : resolveCode code s.lz = some (seq, new))
    (ha : sinkAccepts seq.length s.sink = true)
    (h : new ∈ s.lz.dict ∨ (s.lz.size ≠ s.params.dictMax ∧ tooLong s.params.seqMax new = false)) :
    lzPut code s = .done (BitVec.ofNat 32 seq.length)
      { s.afterBytes seq with lz := { s.lz with prev := seq, dict := s.lz.dictWith new } } := by
  rw [lzPut_of_active hp, lzPutStep_resolved hr, emitAll_ok ha, done_andThen, dictInsert_ok (s := s.afterBytes seq) h]
  rfl

theorem lzPut_unresolved (hp : s.lz.phase = .active) (hr : resolveCode code s.lz = none) :
    lzPut code s = .raised .corruptCode (setLzPhase .failed s) := by
  rw [lzPut_of_active hp, lzPutStep, hr, raised_onRaise]

theorem lzPut_refused {k : Nat} {as : List WriteAnswer} (hp : s.lz.phase = .active)
    (hr : resolveCode code s.lz = some (seq, new)) (hs : s.sink = List.replicate k .ok ++ .fail :: as) (hk : k < seq.length) :
    ∃ t, lzPut code s = .raised .ioWrite t ∧ t.sink = as ∧ t.output = s.output ++ seq.take k ∧
      t.lz = { s.lz with phase := .failed } := by
  obtain ⟨t, ht, hframe, hsink, hout⟩ := emitAll_refused seq k as s hs hk
  have hlz : t.lz = s.lz := by rw [hframe]
  refine ⟨setLzPhase .failed t, ?_, hsink, hout, by rw [setLzPhase_lz, hlz]⟩
  rw [lzPut_of_active hp, lzPutStep_resolved hr, ht, raised_andThen, raised_onRaise]

theorem lzPut_limit (hp : s.lz.phase = .active) (hr : resolveCode code s.lz = some (seq, new))
    (ha : sinkAccepts seq.length s.sink = true) (hm : new ∉ s.lz.dict)
    (h : s.lz.size = s.params.dictMax ∨ tooLong s.params.seqMax new = true) :
    lzPut code s = .raised .limit (setLzPhase .failed (s.afterBytes seq)) := by
  rw [lzPut_of_active hp, lzPutStep_resolved hr, emitAll_ok ha, done_andThen, dictInsert_limit (s := s.afterBytes seq) hm h]
  rfl

end Put

/-- `LZ.PUT` of a code that stands for `seq`, where no limit stops the insertion of `new`. -/
theorem exec_lzPut_inserts {code : Word} {s : State} {seq new : List Byte} (hf : s.fatal = false) (hp : s.lz.phase = .active)
    (hr : resolveCode code.toNat s.lz = some (seq, new)) (ha : sinkAccepts seq.length s.sink = true)
    (h : new ∈ s.lz.dict ∨ (s.lz.size ≠ s.params.dictMax ∧ tooLong s.params.seqMax new = false)) :
    ∃ t, exec (.lzPut code) s = .next t ∧ t.result = some ⟨.ok, BitVec.ofNat 32 seq.length⟩ ∧ Flows s 0 seq t ∧
      t.lz = { s.lz with prev := seq, dict := s.lz.dictWith new } :=
  ⟨_, exec_ok nofun hf (congrArg okWith (lzPut_inserts hp hr ha h)), rfl, (flows_bytes s seq).congr rfl rfl rfl rfl, rfl⟩

/-- Settles O53: `resolveCode`'s answer for a known code, inserted. -/
theorem lzPutKnownCode : Obligations.LzPutKnownCode :=
  fun _ _ _ hf hp hd ha h => exec_lzPut_inserts hf hp (resolveCode_known hd) ha h

/-- Settles O54: `resolveCode`'s answer for the KwK code, inserted. -/
theorem lzPutKwK : Obligations.LzPutKwK := by
  intro s code hf hp hcode hprev ha h
  have hlen : (s.lz.prev ++ s.lz.prev.take 1).length = s.lz.prev.length + 1 := by
    have := List.length_pos_iff.mpr hprev
    rw [List.length_append, List.length_take]; omega
  rw [← hlen] at ha ⊢
  exact exec_lzPut_inserts hf hp (resolveCode_kwk hcode hprev) ha h

/-- Settles O55: the places where `LZ.PUT` stops, in the order it comes to them. -/
theorem lzPutFailures : Obligations.LzPutFailures := by
  refine fun s code hf hp => ⟨fun seq => resolveCode_known, resolveCode_kwk, fun hpast hn => ?unresolved, fun seq new hr =>
    ⟨fun k as hs hk => ?refused, fun ha hm hlimit => ?limit⟩⟩
  case unresolved =>
    exact raise_fails nofun hf (congrArg okWith (lzPut_unresolved hp (resolveCode_none hpast hn)))
  case refused =>
    obtain ⟨t, ht, hsink, hout, hlz⟩ := lzPut_refused hp hr hs hk
    exact ⟨_, _, exec_raise nofun hf (congrArg okWith ht), rfl, hsink, hout, hlz⟩
  case limit =>
    exact ⟨_, _, exec_raise nofun hf (congrArg okWith (lzPut_limit hp hr ha hm hlimit)), rfl,
      (flows_bytes s seq).congr rfl rfl rfl rfl, rfl⟩

end Sys2Proof.Machine
end

section
/-! PROOFS. Decompress after compress for LZW (44_lzw R266, R267): the codes of a byte sequence decode to it (Laws/LzwSync.lean), and
the plain framing hands the decoder those codes. -/

namespace Sys2Proof.Machine

open Sys2Proof.Wire

/-- With room for the sequence the codes decode to it, and each is one of 32 bits. -/
theorem lzwCodes_decode {p : Config.Params} {bytes : List Byte} (hw : p.wf) (hr : roomFor p bytes.length) :
    (∃ y, putCodes p (lzwCodes bytes) (seedDict, []) = some (bytes, y)) ∧ (lzwCodes bytes).length ≤ bytes.length ∧
      ∀ c ∈ lzwCodes bytes, c < 2 ^ 32 := by
  obtain ⟨hput, hlen, hcodes⟩ := putCodes_lzwCodes hr
  obtain ⟨-, hmax, -⟩ := hw
  obtain ⟨hroom, -⟩ := hr
  exact ⟨hput, hlen, fun c hc => by have := hcodes c hc; omega⟩

/-! ### The plain framing (R266) -/

theorem plainBits_length (cs : List Nat) : (plainBits cs).length = cs.length * 32 := length_flatMap_fields 32 (fun c => c) cs

/-- Codes of 32 bits are whole bytes. -/
theorem bitsOf_plainBytes (cs : List Nat) : (packBits (plainBits cs)).flatMap bitsOfByte = plainBits cs :=
  bitsOf_packBits_full (k := 4 * cs.length) (by rw [plainBits_length]; omega)

/-- What ends a channel: it is used up, or its next answer is `None` (20_memory R61). -/
theorem leadBytes_of_ended {tail : List ReadAnswer} (h : tail = [] ∨ ∃ rest, tail = .none :: rest) :
    leadBytes tail = [] ∧ dryAnswer tail = true := by
  obtain rfl | ⟨rest, rfl⟩ := h <;> exact ⟨rfl, rfl⟩

theorem dryAnswer_map_byte (bs : List Byte) (tail : List ReadAnswer) : dryAnswer (bs.map .byte ++ tail) = dryAnswer tail := by
  rw [dryAnswer, leadBytes_map_byte, List.length_append, ← List.drop_drop, List.drop_left' (by simp), dryAnswer]

/-- A read to the end of a channel takes the answer that ends it. -/
theorem afterDry_input_of_ended {s : State} {bs : List Byte} {tail : List ReadAnswer} (hin : s.input = bs.map .byte ++ tail)
    (hl : leadBytes tail = []) : s.afterDry.input = tail.tail := by
  show (s.input.drop (leadBytes s.input).length).tail = tail.tail
  rw [hin, leadBytes_map_byte, hl, List.append_nil, List.drop_left' (by simp)]

/-- Settles O57: `lzDecodeP_ok` on the codes of the sequence. -/
theorem lzwPlainRoundTrip : Obligations.LzwPlainRoundTrip := by
  intro bytes s tail hf hp hw hr hin htail ha
  obtain ⟨⟨y, hput⟩, -, hcodes⟩ := lzwCodes_decode hw hr
  obtain ⟨hlead, hdry⟩ := leadBytes_of_ended htail
  have hbits : (brInit s).bitsAhead = plainBits (lzwCodes bytes) := by
    rw [brInit_bitsAhead, hin, leadBytes_map_byte, hlead, List.append_nil, bitsOf_plainBytes]
  obtain ⟨t, hdec, hinput, hrd, -, hout⟩ :=
    lzDecodeP_ok hp hcodes hput hbits (by rw [hin, dryAnswer_map_byte]; exact hdry) ha
  obtain ⟨-, hidle⟩ := (lzDecodeP_ends hp).of_done hdec
  exact ⟨_, exec_ok nofun hf (congrArg okZero hdec), rfl, hout, hinput.trans (afterDry_input_of_ended hin hlead), hidle,
    congrArg BitReader.off hrd⟩

end Sys2Proof.Machine
end

section
/-! PROOFS. `LZ.DECODEP` and `LZ.DECODEB` against the `LZ.PUT`s a host would issue (30_encoding R96, 44_lzw R265, R266): both loops run
the codes that are there as `lzPuts` does (Laws/LzwAgree.lean), so what is left is where each loop stops after them. -/

namespace Sys2Proof.Machine

open Sys2Proof.Wire

/-! ### Opening and closing the unit -/

/-- The state after `BR.INIT` and `LZ.BEGIN`. -/
abbrev State.lzOpened (s : State) : State :=
  { brInit s with lz := { s.lz with dict := seedDict, prev := [], phase := .active } }

/-- The end of a whole-stream command: the unit is closed, whatever its loop did. -/
def lzClosing (r : Run Unit) : Run Unit := (r.onRaise closeLz).andThen fun _ s => lzEnd s

theorem lzClosing_done {s : State} (hp : s.lz.phase = .active) : lzClosing (.done () s) = .done () (closeLz s) :=
  lzEnd_ok (by rw [hp]; decide)

@[simp] theorem lzClosing_raised (f : Failure) (s : State) : lzClosing (.raised f s) = .raised f (closeLz s) := rfl

theorem lzDecodeP_opened {s : State} (hp : s.lz.phase = .idle) :
    lzDecodeP s = lzClosing (lzLoopP (s.input.length + 1) s.lzOpened) := by
  rw [lzDecodeP, if_neg (not_not.mpr hp), lzBegin_ok (s := brInit s) hp, done_andThen]
  rfl

theorem lzDecodeB_opened {s u : State} (hp : s.lz.phase = .idle) (h : readLzwHeader (brInit s) = .done () u)
    (hu : u.lz.phase = .idle) :
    lzDecodeB s =
      lzClosing (lzLoopB u.lz.left.toNat { u with lz := { u.lz with dict := seedDict, prev := [], phase := .active } }) := by
  rw [lzDecodeB, if_neg (not_not.mpr hp), h, done_andThen, lzBegin_ok hu, done_andThen]
  rfl

/-- The output channel stands alike after a loop and after the host's commands that it runs alongside of. -/
theorem PutAlike.streams {s t v : State} (h : PutAlike s t) (hv : Alike s v) : t.sink = v.sink ∧ t.output = v.output := by
  obtain ⟨-, -, hsink, hout⟩ := hv.streams
  exact ⟨h.sink.trans hsink.symm, h.output.trans hout.symm⟩

/-! ### `LZ.DECODEP` (R266) -/

/-- A turn of the loop that finds a byte reads a whole code. -/
theorem lzLoopP_reads {k : Nat} {s : State} (h8 : s.rd.off = 8) (hl : leadBytes s.input ≠ []) :
    lzLoopP (k + 1) s = (readBits 32 s).andThen fun code s => (lzPut code s).andThen fun _ s => lzLoopP k s := by
  match hin : s.input with
  | [] | .none :: _ | .never :: _ => exact absurd (by rw [hin]; rfl) hl
  | .byte b :: rest => rw [readBits_fill 31 h8]; simp [lzLoopP, tryFill, chanRead, hin]

/-- Where less than a code is left, the loop ends at the end of the channel: as it should where nothing is left, by `IO_READ` where a
part of a code is. -/
theorem lzLoopP_end {k : Nat} {s : State} (h8 : s.rd.off = 8) (hlen : s.bitsAhead.length < 32) (hdry : dryAnswer s.input = true) :
    ∃ t, lzLoopP (k + 1) s = (if leadBytes s.input = [] then .done () t else .raised .ioRead t) ∧ t.lz = s.lz ∧ t.sink = s.sink ∧
      t.output = s.output ∧ t.rd.off = 8 ∧ t.input = s.afterDry.input := by
  by_cases hl : leadBytes s.input = []
  · refine ⟨{ s with input := s.input.tail, trace := .read .block none :: s.trace }, ?_, rfl, rfl, rfl, h8, ?_⟩
    · rw [if_pos hl, lzLoopP, tryFill_dry hl hdry]; rfl
    · simp [State.afterDry, hl]
  · refine ⟨s.afterDry, ?_, rfl, rfl, output_afterDry s, rfl, rfl⟩
    rw [if_neg hl, lzLoopP_reads h8 hl, readBits_raised hlen hdry]

/-- `LZ.DECODEP` runs whole codes as their `LZ.PUT`s; where none of these fails its loop goes on after them. -/
theorem lzDecodeP_puts {cs : List Nat} {extra : List Byte} {s : State} (hp : s.lz.phase = .idle) (hcs : ∀ c ∈ cs, c < 2 ^ 32)
    (hl : leadBytes s.input = packBits (plainBits cs) ++ extra) (hdry : dryAnswer s.input = true) :
    (lzPuts cs s.lzOpened).Ends
      (fun _ t' => ∃ t k, lzDecodeP s = lzClosing (lzLoopP (k + 1) t) ∧ PutAlike t' t ∧ t.lz.phase = .active ∧ t.rd.off = 8 ∧
        leadBytes t.input = extra ∧ dryAnswer t.input = true ∧ t.afterDry.input = s.afterDry.input)
      (fun f t' => ∃ t, lzDecodeP s = .raised f (closeLz t) ∧ PutAlike t' t) True := by
  have hbits : s.lzOpened.bitsAhead = plainBits cs ++ extra.flatMap bitsOfByte := by
    rw [show s.lzOpened.bitsAhead = (brInit s).bitsAhead from rfl, brInit_bitsAhead, hl, List.flatMap_append, bitsOf_plainBytes]
  have hread : cs.length * 32 ≤ s.lzOpened.bitsAhead.length := by
    rw [hbits, List.length_append, plainBits_length]; exact Nat.le_add_right _ _
  have hlead := congrArg List.length hl
  rw [List.length_append, packBits_length, plainBits_length] at hlead
  have hle : (leadBytes s.input).length ≤ s.input.length := by
    have := congrArg List.length (input_eq_lead s.input)
    rw [List.length_append, List.length_map] at this; omega
  obtain ⟨k, hk⟩ : ∃ k, s.input.length + 1 = cs.length + (k + 1) := ⟨s.input.length - cs.length, by omega⟩
  rw [lzDecodeP_opened hp, hk]
  refine (lzLoopP_puts (j := k + 1) (s := s.lzOpened) rfl rfl hcs hbits (Alike.refl _).putAlike).mono
    (fun _ t' h => ?_) (fun f t' h => ?_) id
  · obtain ⟨t, hloop, halike, hact, hahead, hoff, hin, hrd⟩ := h
    have hpull : pullCount s.lzOpened.rd.off (cs.length * 32) = (packBits (plainBits cs)).length := by
      rw [packBits_length, plainBits_length]; show pullCount (8 : Fin 9) _ = _; unfold pullCount; rfl
    refine ⟨t, k, by rw [hloop], halike, hact, hoff, ?_, by rw [hin, dryAnswer_afterRead hread]; exact hdry, ?_⟩
    · rw [hin]
      show leadBytes (s.input.drop (pullCount s.lzOpened.rd.off (cs.length * 32))) = extra
      rw [hpull, leadBytes_drop (by rw [hl, List.length_append]; exact Nat.le_add_right _ _), hl, List.drop_left]
    · rw [(afterDry_congr hin hrd).1, afterDry_afterRead hread]; rfl
  · obtain ⟨t, hloop, halike⟩ := h
    exact ⟨t, by rw [hloop, lzClosing_raised], halike⟩

/-- Settles O59: `lzDecodeP_puts` up to the first code that fails, and `lzLoopP_end` where none does. -/
theorem lzDecodePAtTheEnd : Obligations.LzDecodePAtTheEnd := by
  intro cs extra s hf hp hs hcs hextra hl hdry
  have hhost := runBodies_puts_ends hcs hf hp hs
  have hdec := lzDecodeP_puts hp hcs hl hdry
  cases hr : lzPuts cs s.lzOpened with
  | hung x => rw [hr] at hhost; exact hhost.elim
  | raised f t' =>
    obtain ⟨v, hv, hrun⟩ := hhost.of_raised hr
    obtain ⟨t, hraise, halike⟩ := hdec.of_raised hr
    obtain ⟨hsink, hout⟩ := halike.streams hv
    exact ⟨_, v, _, _, hrun, exec_raise nofun hf (congrArg okZero hraise), rfl, rfl, hsink, hout, fun _ => rfl, nofun, nofun, nofun⟩
  | done _ t' =>
    obtain ⟨v, hv, hrun⟩ := hhost.of_done hr
    obtain ⟨t, k, hloop, halike, hact, hoff, hlead, hdry', hin⟩ := hdec.of_done hr
    obtain ⟨hsink, hout⟩ := halike.streams hv
    have hshort : t.bitsAhead.length < 32 := by
      rw [bitsAhead_length, hlead, hoff]; show 8 - 8 + 8 * extra.length < 32; omega
    obtain ⟨x, hend, hlz, hxsink, hxout, hxoff, hxin⟩ := lzLoopP_end (k := k) hoff hshort hdry'
    rw [hlead] at hend
    have hsink' : (closeLz x).sink = v.sink := hxsink.trans hsink
    have hout' : (closeLz x).output = v.output := hxout.trans hout
    have hreader : (closeLz x).rd.off = 8 ∧ (closeLz x).input = s.afterDry.input := ⟨hxoff, hxin.trans hin⟩
    by_cases he : extra = []
    · rw [hend, if_pos he, lzClosing_done (by rw [hlz]; exact hact)] at hloop
      exact ⟨_, v, _, _, hrun, exec_ok nofun hf (congrArg okZero hloop), rfl, rfl, hsink', hout', fun h => (h rfl).elim,
        fun _ _ => rfl, fun _ h => (h he).elim, fun _ => hreader⟩
    · rw [hend, if_neg he, lzClosing_raised] at hloop
      exact ⟨_, v, _, _, hrun, exec_raise nofun hf (congrArg okZero hloop), rfl, rfl, hsink', hout', fun h => (h rfl).elim,
        fun _ h => (he h).elim, fun _ _ => rfl, fun _ => hreader⟩

/-! ### The header of `LZ.DECODEB` (R265) -/

theorem lzDecodeB_of_bad_header {s u : State} {f : Failure} (hp : s.lz.phase = .idle)
    (h : readLzwHeader (brInit s) = .raised f u) : lzDecodeB s = .raised f u := by
  rw [lzDecodeB, if_neg (not_not.mpr hp), h, raised_andThen]

/-- A failing pseudocode answers its status and leaves the unit idle. -/
theorem exec_lzDecodeB_raised {s u : State} {f : Failure} (hf : s.fatal = false) (hp : s.lz.phase = .idle)
    (h : lzDecodeB s = .raised f u) : exec .lzDecodeB s = .next (u.answerFailure f) ∧ u.lz.phase = .idle := by
  obtain ⟨-, -, hidle⟩ := (lzDecodeB_ends hp).of_raised h
  exact ⟨exec_raise nofun hf (congrArg okZero h), hidle⟩

/-- A field read after `m` bits, the fields before it stored in the unit: cut short, or the parse goes on. -/
theorem cut_next_lz {α : Type} {m n : Nat} {s : State} {v : LzwUnit} {k : Nat → State → Run α} (hdry : dryAnswer s.input = true)
    (hm : m ≤ s.bitsAhead.length)
    (hk : ∀ a, m + n ≤ s.bitsAhead.length →
      ∃ w, k a { s.afterRead (m + n) with lz := v } = .raised .ioRead { s.afterDry with lz := w }) :
    ∃ w, (readBits n { s.afterRead m with lz := v }).andThen k = .raised .ioRead { s.afterDry with lz := w } := by
  have hahead : State.bitsAhead { s.afterRead m with lz := v } = s.bitsAhead.drop m := (readBits_ok hm).2
  by_cases h : m + n ≤ s.bitsAhead.length
  · obtain ⟨w, hw⟩ := hk _ h
    have hnext : State.afterRead { s.afterRead m with lz := v } n = { s.afterRead (m + n) with lz := v } := by
      rw [← afterRead_afterRead hm]; rfl
    exact ⟨w, by rw [(readBits_ok (by rw [hahead, List.length_drop]; omega)).1, hnext, done_andThen]; exact hw⟩
  · have hdry' : dryAnswer (State.input { s.afterRead m with lz := v }) = true := (dryAnswer_afterRead hm).trans hdry
    refine ⟨v, ?_⟩
    rw [readBits_raised (by rw [hahead, List.length_drop]; omega) hdry', ← afterDry_afterRead hm]
    rfl

/-- A header cut short is `IO_READ`. -/
theorem readLzwHeader_cut {s : State} (h : s.bitsAhead.length < 72) (hdry : dryAnswer s.input = true) :
    ∃ w, readLzwHeader s = .raised .ioRead { s.afterDry with lz := w } := by
  unfold readLzwHeader
  conv => enter [1, w, 1, 1, 2]; rw [← afterRead_zero s]
  refine cut_next_lz (v := s.lz) hdry (Nat.zero_le _) fun count h1 => ?_
  refine cut_next_lz (v := { s.lz with left := BitVec.ofNat 32 count }) hdry h1 fun min h2 => ?_
  refine cut_next_lz (v := { s.lz with left := BitVec.ofNat 32 count, min := BitVec.ofNat 32 min }) hdry h2 fun width h3 => ?_
  exact absurd h3 h.not_ge

/-- A width that codes cannot have is refused once the header is read. -/
theorem readLzwHeader_wide {count min width : Nat} {s : State} {rest : List Bool} (h0 : count ≠ 0) (hcount : count < 2 ^ 32)
    (hmin : min < 2 ^ 32) (hwide : 32 < width) (hwd : width < 2 ^ 8)
    (hb : s.bitsAhead = fieldBits 32 count ++ fieldBits 32 min ++ fieldBits 8 width ++ rest) :
    readLzwHeader s = .raised .corruptTable { s.afterRead 72 with lz := { s.lz with
      left := BitVec.ofNat 32 count, min := BitVec.ofNat 32 min, width := BitVec.ofNat 8 width } } := by
  simp only [List.append_assoc] at hb
  obtain ⟨h1, b1, l1⟩ := readBits_value hcount hb
  obtain ⟨h2, b2, l2⟩ := readBits_next (s := { s with lz := { s.lz with left := BitVec.ofNat 32 count } }) l1 hmin b1
  obtain ⟨h3, -, -⟩ := readBits_next
    (s := { s with lz := { s.lz with left := BitVec.ofNat 32 count, min := BitVec.ofNat 32 min } }) l2 hwd b2
  have hleft : BitVec.ofNat 32 count ≠ 0 := fun e => h0 (by
    have := congrArg BitVec.toNat e
    rwa [BitVec.toNat_ofNat, Nat.mod_eq_of_lt hcount] at this)
  have hwidth : 32 < (BitVec.ofNat 8 width).toNat := by rwa [BitVec.toNat_ofNat, Nat.mod_eq_of_lt hwd]
  rw [readLzwHeader, h1, done_andThen]
  refine (congrArg (Run.andThen · _) h2).trans ?_
  rw [done_andThen]
  refine (congrArg (Run.andThen · _) h3).trans ?_
  exact if_pos ⟨hleft, hwidth⟩

/-! ### The loop of `LZ.DECODEB` (R265) -/

/-- From `s` the header and codes in `n` bits have been read, and the loop of `LZ.DECODEB` stands at `t` with `m` codes still to
come. -/
structure PackedAt (s : State) (min width m n : Nat) (rest : List Bool) (t : State) : Prop where
  active : t.lz.phase = .active
  left : t.lz.left.toNat = m
  min : t.lz.min.toNat = min
  width : t.lz.width.toNat = width
  inStream : n ≤ (brInit s).bitsAhead.length
  input : t.input = ((brInit s).afterRead n).input
  rd : t.rd = ((brInit s).afterRead n).rd
  ahead : t.bitsAhead = rest

/-- The state of `LZ.DECODEB` with the header read and the unit opened. -/
def State.packedOpened (s : State) (count min width : Nat) : State :=
  { (brInit s).afterRead 72 with
    lz := { phase := .active, dict := seedDict, prev := [], min := BitVec.ofNat 32 min, width := BitVec.ofNat 8 width,
            left := BitVec.ofNat 32 count } }

theorem lzDecodeB_packedOpened {count min width : Nat} {s : State} {rest : List Bool} (hp : s.lz.phase = .idle)
    (hcount : count < 2 ^ 32) (hmin : min < 2 ^ 32) (hwd : width < 2 ^ 8) (hw : count = 0 ∨ width ≤ 32)
    (hb : (brInit s).bitsAhead = fieldBits 32 count ++ fieldBits 32 min ++ fieldBits 8 width ++ rest) :
    lzDecodeB s = lzClosing (lzLoopB count (s.packedOpened count min width)) ∧
      (s.packedOpened count min width).bitsAhead = rest ∧ 72 ≤ (brInit s).bitsAhead.length := by
  obtain ⟨hheader, hahead, hle⟩ := readLzwHeader_ok hcount hmin hwd hw hb
  have hleft : (BitVec.ofNat 32 count).toNat = count := Nat.mod_eq_of_lt hcount
  refine ⟨?_, hahead, hle⟩
  rw [lzDecodeB_opened hp hheader hp, hleft]
  rfl

/-- `LZ.DECODEB` runs the codes whose deltas are there as their `LZ.PUT`s; where none of these fails its loop goes on after them. -/
theorem lzDecodeB_puts {cs : List Nat} {m min width : Nat} {s : State} {rest : List Bool} (hp : s.lz.phase = .idle)
    (hcount : cs.length + m < 2 ^ 32) (hmin : min < 2 ^ 32) (hwd : width < 2 ^ 8) (hw : cs.length + m = 0 ∨ width ≤ 32)
    (hcs : ∀ c ∈ cs, min ≤ c ∧ c - min < 2 ^ width ∧ c < 2 ^ 32)
    (hb : (brInit s).bitsAhead = fieldBits 32 (cs.length + m) ++ fieldBits 32 min ++ fieldBits 8 width ++
      (cs.flatMap (fun c => fieldBits width (c - min)) ++ rest)) :
    (lzPuts cs s.lzOpened).Ends
      (fun _ t' => ∃ t, lzDecodeB s = lzClosing (lzLoopB m t) ∧ PutAlike t' t ∧
        PackedAt s min width m (72 + cs.length * width) rest t)
      (fun f t' => ∃ t, lzDecodeB s = .raised f (closeLz t) ∧ PutAlike t' t) True := by
  obtain ⟨hdec, hahead, hle⟩ := lzDecodeB_packedOpened hp hcount hmin hwd hw hb
  have hminv : (BitVec.ofNat 32 min).toNat = min := Nat.mod_eq_of_lt hmin
  have hwdv : (BitVec.ofNat 8 width).toNat = width := Nat.mod_eq_of_lt hwd
  have hsame : PutAlike s.lzOpened (s.packedOpened (cs.length + m) min width) :=
    ⟨rfl, rfl, rfl, rfl, rfl, output_afterRead (brInit s) 72⟩
  rw [hdec]
  refine (lzLoopB_puts (s := s.packedOpened (cs.length + m) min width) (j := m) rfl hcs hminv hwdv (Nat.mod_eq_of_lt hcount) hahead
    hsame).mono (fun _ t' h => ?_) (fun f t' h => ?_) id
  · obtain ⟨t, hloop, halike, hact, hrest, hleft, hmint, hwidt, hin, hrd⟩ := h
    obtain ⟨hin', hrd'⟩ := afterRead_input_congr (s := (brInit s).afterRead 72) (t := s.packedOpened (cs.length + m) min width)
      (cs.length * width) rfl rfl
    rw [afterRead_afterRead hle] at hin' hrd'
    have hbits : 72 + cs.length * width ≤ (brInit s).bitsAhead.length := by
      rw [hb]
      simp only [List.length_append, fieldBits_length, length_flatMap_fields]
      omega
    exact ⟨t, by rw [hloop], halike, hact, hleft, by rw [hmint]; exact hminv, by rw [hwidt]; exact hwdv, hbits, hin.trans hin',
      hrd.trans hrd', hrest⟩
  · obtain ⟨t, hloop, halike⟩ := h
    exact ⟨t, by rw [hloop, lzClosing_raised], halike⟩

section PackedLoop
variable {s t : State} {min width m n : Nat} {rest : List Bool}

theorem PackedAt.turn (h : PackedAt s min width (m + 1) n rest t) :
    lzLoopB (m + 1) t = (lzTurnB t).andThen fun _ t => lzLoopB m t := by
  refine if_neg fun h0 => ?_
  have := h.left
  rw [h0] at this
  cases this

/-- A code above the 32-bit range is refused once its delta is read. -/
theorem PackedAt.outOfRange {d : Nat} {rest' : List Bool} (h : PackedAt s min width (m + 1) n (fieldBits width d ++ rest') t)
    (hd : d < 2 ^ width) (hout : 2 ^ 32 ≤ min + d) :
    ∃ u, lzLoopB (m + 1) t = .raised .corruptRange u ∧ u.sink = t.sink ∧ u.output = t.output ∧
      u.rd = ((brInit s).afterRead (n + width)).rd ∧ u.input = ((brInit s).afterRead (n + width)).input := by
  obtain ⟨hread, -, -⟩ := readBits_value hd h.ahead
  obtain ⟨hin, hrd⟩ := afterRead_input_congr width h.input h.rd
  rw [afterRead_afterRead h.inStream] at hin hrd
  refine ⟨{ t.afterRead width with lz := { t.lz with left := BitVec.ofNat 32 (t.lz.left.toNat - 1) } }, ?_, rfl,
    output_afterRead t width, hrd, hin⟩
  rw [h.turn, lzTurnB, h.width, hread, done_andThen]
  dsimp only
  rw [show (t.afterRead width).lz = t.lz from rfl, h.min, if_pos hout, raised_andThen]

/-- A delta cut short is `IO_READ`. -/
theorem PackedAt.cut (h : PackedAt s min width (m + 1) n rest t) (hlen : rest.length < width) (hdry : dryAnswer s.input = true) :
    lzLoopB (m + 1) t = .raised .ioRead t.afterDry := by
  have hdry' : dryAnswer t.input = true := by rw [h.input, dryAnswer_afterRead h.inStream]; exact hdry
  rw [h.turn, lzTurnB, h.width, readBits_raised (by rwa [h.ahead]) hdry', raised_andThen]

end PackedLoop

/-- Settles O58: the header's two failures, the codes side by side with the host's (`lzDecodeB_puts`), and the round trip. -/
theorem lzwPackedRoundTrip : Obligations.LzwPackedRoundTrip := by
  refine ⟨?cutHeader, ?wideCodes, ?sideBySide, ?roundTrip⟩
  case cutHeader =>
    intro s hf hp hlen hdry
    obtain ⟨w, hheader⟩ := readLzwHeader_cut (s := brInit s) hlen hdry
    obtain ⟨hexec, hidle⟩ := exec_lzDecodeB_raised hf hp (lzDecodeB_of_bad_header hp hheader)
    exact ⟨_, _, hexec, rfl, hidle, output_afterDry (brInit s)⟩
  case wideCodes =>
    intro count min width s rest hf hp h0 hcount hmin hwide hwd hb
    obtain ⟨hexec, hidle⟩ := exec_lzDecodeB_raised hf hp
      (lzDecodeB_of_bad_header hp (readLzwHeader_wide h0 hcount hmin hwide hwd hb))
    exact ⟨_, _, hexec, rfl, hidle, (flows_read _ _).congr rfl rfl rfl rfl⟩
  case sideBySide =>
    intro cs count min width s rest hf hp hs hle hcount hmin hwd hw hcs hb
    obtain ⟨m, rfl⟩ := Nat.exists_eq_add_of_le hle
    have hhost := runBodies_puts_ends (fun c hc => (hcs c hc).2.2) hf hp hs
    have hdec := lzDecodeB_puts hp hcount hmin hwd hw hcs hb
    cases hr : lzPuts cs s.lzOpened with
    | hung x => rw [hr] at hhost; exact hhost.elim
    | raised f t' =>
      obtain ⟨v, hv, hrun⟩ := hhost.of_raised hr
      obtain ⟨t, hraise, halike⟩ := hdec.of_raised hr
      obtain ⟨hsink, hout⟩ := halike.streams hv
      exact ⟨_, v, hrun, fun _ => ⟨_, _, exec_raise nofun hf (congrArg okZero hraise), rfl, rfl, rfl, hsink, hout⟩, nofun, nofun, nofun⟩
    | done _ t' =>
      obtain ⟨v, hv, hrun⟩ := hhost.of_done hr
      obtain ⟨t, hloop, halike, hat⟩ := hdec.of_done hr
      obtain ⟨hsink, hout⟩ := halike.streams hv
      refine ⟨_, v, hrun, fun h => (h rfl).elim, fun _ hall => ?all, fun _ hlt d rest' hd hrange hrest => ?range,
        fun _ hlt hlen hdry => ?cut⟩
      case all =>
        obtain rfl : m = 0 := by omega
        rw [lzLoopB, lzClosing_done hat.active] at hloop
        exact ⟨_, exec_ok nofun hf (congrArg okZero hloop), rfl, rfl, hsink, hout, hat.rd, hat.input⟩
      all_goals obtain ⟨m, rfl⟩ := Nat.exists_eq_add_one_of_ne_zero (show m ≠ 0 by omega)
      case range =>
        subst hrest
        obtain ⟨u, hu, husink, huout, hrd, hin⟩ := hat.outOfRange hd hrange
        rw [hu, lzClosing_raised] at hloop
        rw [Nat.succ_mul, ← Nat.add_assoc]
        exact ⟨_, _, exec_raise nofun hf (congrArg okZero hloop), rfl, rfl, husink.trans hsink, huout.trans hout, hrd, hin⟩
      case cut =>
        rw [hat.cut hlen hdry, lzClosing_raised] at hloop
        exact ⟨_, _, exec_raise nofun hf (congrArg okZero hloop), rfl, rfl, hsink, (output_afterDry t).trans hout⟩
  case roundTrip =>
    intro bytes min width s rest hf hp hw hr hmin hwd hempty hfit hlt hin ha
    obtain ⟨⟨y, hput⟩, hlen, hcodes⟩ := lzwCodes_decode hw hr
    have hcount : (lzwCodes bytes).length = 0 ∨ width ≤ 32 := hempty.imp_left fun h => by rw [h]; rfl
    have hcs : ∀ c ∈ lzwCodes bytes, min ≤ c ∧ c - min < 2 ^ width ∧ c < 2 ^ 32 := fun c hc => by
      obtain ⟨hle, hdelta⟩ := hfit c hc
      exact ⟨hle, hdelta, hcodes c hc⟩
    obtain ⟨t, hdec, hinput, -, -, hout⟩ := lzDecodeB_ok hp (by omega) hmin hwd hcount hcs hput (packed_ahead hin) ha
    obtain ⟨-, hidle⟩ := (lzDecodeB_ends hp).of_done hdec
    exact ⟨_, exec_ok nofun hf (congrArg okZero hdec), rfl, hout, hinput.trans (packed_input hin), hidle⟩

end Sys2Proof.Machine
end

section
/-! PROOFS. The statuses (60_exceptions R301 to R306): their codes, which of them a command can answer and when, and what a contract
violation is. All of it is read off `exec_cases`, by which a command is turned away, violates its contract, or runs. -/

namespace Sys2Proof.Machine

/-! ### The codes (R301) -/

/-- The status of a code; the codes 11 to 14 are no status's. -/
def statusOfCode : Nat → Option Status
  | 0 => some .ok
  | 1 => some .more
  | 2 => some (.fail .ioRead)
  | 3 => some (.fail .ioWrite)
  | 4 => some (.fail .corruptTable)
  | 5 => some (.fail .corruptNoData)
  | 6 => some (.fail .corruptMidCode)
  | 7 => some (.fail .corruptBitCount)
  | 8 => some (.fail .corruptCode)
  | 9 => some (.fail .corruptRange)
  | 10 => some (.fail .limit)
  | 15 => some (.fail .fatal)
  | _ => none

theorem statusOfCode_code (x : Status) : statusOfCode x.code.toNat = some x := by
  cases x with
  | ok | more => rfl
  | fail f => cases f <;> rfl

theorem status_code_injective {x y : Status} (h : x.code = y.code) : x = y :=
  Option.some.inj (by rw [← statusOfCode_code x, h, statusOfCode_code])

theorem status_code_range (x : Status) : x.code.toNat ≤ 10 ∨ x.code = 15 := by
  cases x with
  | ok | more => decide
  | fail f => cases f <;> decide

/-- Settles O18: the table by definition, distinct since a code has one status. -/
theorem statusCodes : Obligations.StatusCodes :=
  ⟨rfl, rfl, rfl, rfl, rfl, rfl, rfl, rfl, rfl, rfl, rfl, rfl, fun _ _ => status_code_injective, status_code_range⟩

/-! ### Which status a command answers (R303 to R306) -/

theorem mayFail_fatal {i : Instr} (hi : i ≠ .sysReset) : mayFail i .fatal = true := by
  cases i
  case sysReset => exact (hi rfl).elim
  all_goals rfl

/-- The status a command answers: `FATAL`, and only where `fatal` was set or the command violates its contract; one that is no failure;
or another failure of its list. -/
theorem exec_status {i : Instr} {s t : State} {r : Result} (h : exec i s = .next t) (hr : t.result = some r) :
    (r.res = .fail .fatal ∧ i ≠ .sysReset ∧ (s.fatal = true ∨ violates i s = true)) ∨ goodFor i r ∨
      ∃ f, r.res = .fail f ∧ mayFail i f = true ∧ f ≠ .fatal := by
  by_cases hi : i = .sysReset
  · subst hi
    cases h
    cases hr
    exact .inr (.inl (.inl rfl))
  rcases exec_cases hi h with ⟨hf, rfl⟩ | ⟨-, hv, rfl⟩ | ⟨-, -, ⟨r', u, hgood, -, rfl⟩ | ⟨f, u, hmay, hne, -, rfl⟩⟩ <;> cases hr
  · exact .inl ⟨rfl, hi, .inl hf⟩
  · exact .inl ⟨rfl, hi, .inr hv⟩
  · exact .inr (.inl hgood)
  · exact .inr (.inr ⟨f, rfl, hmay, hne⟩)

theorem goodFor_not_fail {i : Instr} {r : Result} {f : Failure} (h : goodFor i r) : r.res ≠ .fail f := by
  rcases h with hok | ⟨hmore, -⟩
  · rw [hok]; nofun
  · rw [hmore]; nofun

/-- Settles O17: `FATAL` is in every list but that of `SYS.RESET`, and `exec_status` names the rest. -/
theorem failuresByCommand : Obligations.FailuresByCommand := by
  intro i s t r h hr
  rcases exec_status h hr with ⟨hfatal, hi, -⟩ | hgood | ⟨f, hfail, hmay, -⟩
  · rw [hfatal]
    exact ⟨fun _ hg => Status.fail.inj hg ▸ mayFail_fatal hi, nofun⟩
  · refine ⟨fun _ hg => (goodFor_not_fail hgood hg).elim, fun hmore => ?_⟩
    rcases hgood with hok | ⟨-, hbit⟩
    · rw [hok] at hmore; cases hmore
    · exact hbit
  · rw [hfail]
    exact ⟨fun _ hg => Status.fail.inj hg ▸ hmay, nofun⟩

/-! ### Contract violations (R303) -/

/-- A command that is no contract violation leaves `fatal` clear. -/
theorem exec_fatal_clear {i : Instr} {s t : State} (hf : s.fatal = false) (hv : violates i s = false) (h : exec i s = .next t) :
    t.fatal = false := by
  by_cases hi : i = .sysReset
  · subst hi
    exact exec_sysReset_fatal h
  · rw [exec_fatal hi h, hf, hv]; rfl

/-- `FATAL` is answered only where it was set before or the command violates its contract. -/
theorem exec_result_ne_fatal {i : Instr} {s t : State} {v : Word} (hf : s.fatal = false) (hv : violates i s = false)
    (h : exec i s = .next t) : t.result ≠ some ⟨.fail .fatal, v⟩ := by
  intro hr
  rcases exec_status h hr with ⟨-, -, hcause⟩ | hgood | ⟨f, hfail, -, hne⟩
  · simp [hf, hv] at hcause
  · exact goodFor_not_fail hgood rfl
  · exact hne (Status.fail.inj hfail).symm

/-- The causes are tests of the three phases, of `ct_valid` and of the command's operands. -/
theorem violates_congr (i : Instr) {s s' : State} (hrl : s.rl.phase = s'.rl.phase) (hhf : s.hf.phase = s'.hf.phase)
    (hlz : s.lz.phase = s'.lz.phase) (hct : s.ctValid = s'.ctValid) : violates i s = violates i s' := by
  cases i <;> simp only [violates, hrl, hhf, hlz, hct]

theorem issueWord_illegal {cw : CmdWord} {e : DecodeError} (h : decode cw = .error e) (s : State) :
    issueWord cw s = illegalCommand s := by
  simp only [issueWord, h]

/-- Settles O9: a violating command and an illegal word do what `exec_of_violates` and `illegalCommand_eq` say, and no other command
sets `fatal` or answers `FATAL`. -/
theorem contractViolationsComplete : Obligations.ContractViolationsComplete := by
  refine ⟨fun i s hf hv => ⟨_, _, exec_of_violates hf hv⟩, fun cw e s _ he => ⟨_, _, (issueWord_illegal he s).trans (illegalCommand_eq s)⟩,
    fun i s t hf hv h => ⟨exec_fatal_clear hf hv h, fun v => exec_result_ne_fatal hf hv h⟩,
    fun i s s' => violates_congr i, fun i s hf hi => ?_⟩
  obtain ⟨-, -, -, -, -, hturned⟩ := fatalIsSticky s
  exact hturned i hf hi

end Sys2Proof.Machine
end

section
/-! PROOFS. What the host does of its own (60_exceptions R319, 70_reset R350, R352, R355): the next action is taken off its list, and an
access of a channel takes that channel's next answer. -/

namespace Sys2Proof.Machine

theorem step_of_action {s : State} {a : HostAction} {rest : List HostAction} (h : s.host = a :: rest) :
    step s = hostAct a { s with host := rest } := by
  simp only [step, nextAction, h]

theorem step_readByte {s : State} {rest : List HostAction} (h : s.host = .readByte :: rest) :
    step s = hostAccess (chanRead .host { s with host := rest }) := step_of_action h

theorem step_writeByte {s : State} {b : Byte} {rest : List HostAction} (h : s.host = .writeByte b :: rest) :
    step s = hostAccess (chanWrite .host b { s with host := rest }) := step_of_action h

/-- Settles O7: a read and a write of the host's own end as `chanRead` and `chanWrite` do on the channel's next answer. -/
theorem stepsOfTheHost : Obligations.StepsOfTheHost := by
  intro s rest
  refine ⟨fun h => ?waits, fun h => step_of_action h, fun b as h hin => ?readByte, fun as h hin => ?readNone, fun h hin => ?readDry,
    fun as h hin => ?readNever, fun b as h hsink => ?writeOk, fun b as h hsink => ?writeFail, fun b h hsink => ?writeDry,
    fun b as h hsink => ?writeNever, fun as h => step_of_action h, fun as h => step_of_action h⟩
  case waits => simp only [step, nextAction, h]
  case readByte | readNone | readDry | readNever => simp only [step_readByte h, chanRead, hin, hostAccess]
  case writeOk | writeFail | writeDry | writeNever => simp only [step_writeByte h, chanWrite, hsink, hostAccess]

end Sys2Proof.Machine
end

section
/-! PROOFS. A table cut inside its header (60_exceptions R308), and decompress after compress for RLE (60_exceptions R321). -/

namespace Sys2Proof.Machine

/-- The header is read whole before any field of it is looked at, so a cut in it ends the loader. -/
theorem ctLoad_cut_header {s : State} (hp : s.hf.phase = .idle) (hlen : s.bitsAhead.length < 200) (ha : dryAnswer s.input = true) :
    ctLoad s = .raised .ioRead (forgetTable (State.afterDry { s with ct := emptyTable, ctValid := false })) := by
  unfold ctLoad loadTable
  rw [if_neg (not_not.mpr hp), readTableHeader_cut (s := { s with ct := emptyTable, ctValid := false }) hlen ha, raised_andThen,
    raised_onRaise, raised_andThen]

/-- Settles O34, by `ctLoad_cut_header`. -/
theorem ctLoadCutHeader : Obligations.CtLoadCutHeader := fun _ hf hp hlen ha =>
  ⟨_, _, exec_ctLoad_raised hf (ctLoad_cut_header hp hlen ha), rfl, rfl, rfl, rfl⟩

/-- Settles O41: the runs of a byte sequence are a whole stream (O40) that stands for it, and a packed stream's bytes are those its bits
take. -/
theorem rleRoundTrip : Obligations.RleRoundTrip := by
  intro bytes s rest hf hp hlt hin ha
  obtain ⟨hok, hholds⟩ := headerOf_ok (runsOf_bounds bytes)
  have hbytes := rleBytes_runsOf bytes
  obtain ⟨t, hdec, hres, -, ⟨hinput, -, -, hout⟩, -⟩ :=
    rlDecodeWholeStream _ _ s _ hf hp hok hholds hlt (packed_ahead hin) (by rw [hbytes]; exact ha)
  rw [hbytes] at hout
  exact ⟨t, hdec, hres, hout, hinput.trans (packed_input hin)⟩

end Sys2Proof.Machine
end

section
/-! PROOFS. Every command returns where both channels always answer (70_reset R358): its pseudocode hangs only on an answer that never
comes (`body_ends`). -/

namespace Sys2Proof.Machine

/-- A piece that hangs only where `N` holds gives an outcome where `N` does not hold. -/
theorem Run.Ends.outcome_returns {r : Run Result} {P : Result → State → Prop} {Q : Failure → State → Prop} {N : Prop}
    (h : r.Ends P Q N) (hn : ¬N) : ∃ t, r.outcome = .next t := by
  cases r with
  | done a t => exact ⟨_, done_outcome a t⟩
  | raised f t => exact ⟨_, raised_outcome f t⟩
  | hung x => exact (hn h).elim

/-- A command that is turned away or violates its contract returns whatever the channels answer (60_exceptions R302, R303). -/
theorem exec_returns (i : Instr) {s : State} (ha : alwaysAnswers s = true) : ∃ t, exec i s = .next t := by
  by_cases hi : i = .sysReset
  · subst hi
    exact ⟨_, rfl⟩
  cases hf : s.fatal with
  | true => exact ⟨_, (exec_eq_command hi s).trans (command_of_fatal _ hf)⟩
  | false =>
    cases hv : violates i s with
    | true => exact ⟨_, exec_of_violates hf hv⟩
    | false =>
      rw [exec_eq_command hi, command_of_not_fatal _ hf]
      exact (body_ends hv).outcome_returns (by simp [ha])

/-- Settles O10: the command returns (`exec_returns`), and what it leaves of the channels' answers is an end of what stood there. -/
theorem everyCommandReturns : Obligations.EveryCommandReturns := by
  intro i s ha
  obtain ⟨t, ht⟩ := exec_returns i ha
  exact ⟨t, ht, (exec_chanMoves ht).alwaysAnswers ha⟩

end Sys2Proof.Machine
end
